-- ==== Sys2Proof/Word.lean ====
section
/-! DEFINITION. The two word types of CBFB and the packet, as plain names for bit vectors. -/

namespace Sys2Proof

/-- A word is 32 bits, bit 31 the most significant (00_scope.md R6). -/
abbrev Word := BitVec 32

/-- A value of the number format `F`, held as its 64-bit IEEE 754 binary64 pattern (00_scope.md R7):
`bits(x)` of the spec is the value itself, `F64(u)` is `u` itself. -/
abbrev F := BitVec 64

/-- A packet is a sequence of words, its header first (30_encoding.md R70). -/
abbrev Packet := List Word

end Sys2Proof
end

