-- ==== Sys2Proof/Config.lean ====
section
/-! DEFINITION. The configuration of a CBFB (00_scope.md R5): the parameters an implementation fixes,
and the free values, which are constants with no body, so that no proof can see what they are. -/

namespace Sys2Proof

/-- The shelf shape of one Mesa sub-cascade (43_band.md R184: `MESA_SHAPE_A` and `MESA_SHAPE_B` are each
LowShelf or HighShelf). -/
inductive Shelf where
  | low
  | high
  deriving DecidableEq, Repr, Inhabited

/-- The parameters of 00_scope.md R5 that the step reads, one field each. State carries one value of this
record and no step changes it, so a statement about every state is a statement about every configuration
(log entry 1). `NBANDS` is the number of band records State holds. `F`, `FMA` and `FTZ` are fixed by
decision D2 and stand in the arithmetic itself. -/
structure Config where
  /-- `MAX_BLOCK`, the largest frame count of one `PROCB`. -/
  maxBlock : Nat
  /-- `MESA_SHAPE_A`. -/
  mesaShapeA : Shelf
  /-- `MESA_SHAPE_B`. -/
  mesaShapeB : Shelf
  /-- `MESA_GAIN_A_DB`. -/
  mesaGainADb : F
  /-- `MESA_GAIN_B_DB`. -/
  mesaGainBDb : F
  /-- `RESET_FS`. -/
  resetFs : F
  /-- `RESET_Q`. -/
  resetQ : F
  deriving DecidableEq, Repr

/-- `NBANDS` of the reset state: the spec's default (00_scope.md R5, D4). -/
def Config.defaultNBands : Nat := 4

/-- `MAX_BLOCK` of the reset state: the spec's default (00_scope.md R5, D31). -/
def Config.defaultMaxBlock : Nat := 65536

/-- FREE VALUE (log entry 2). The `n`-th draw of a NaN's sign and payload (00_scope.md R8, D37). -/
opaque Config.nanDraw : Nat → F

/-- FREE VALUE (log entry 3). What the implementation's `f_tan` gives (00_scope.md R9, D3). -/
opaque Config.tanFn : F → F

/-- FREE VALUE (log entry 3). What the implementation's `f_pow10` gives at operands other than `+0.0`. -/
opaque Config.pow10Fn : F → F

/-- FREE VALUE (log entry 3). What the implementation's `f_sinh` gives. -/
opaque Config.sinhFn : F → F

/-- FREE VALUE (log entry 15). A `Q` for a bandwidth below zero, before its constraint (below zero). It is looked at only
where the implementation's `f_sinh` gives the formula of 42_cascade_builder.md R155 none. -/
opaque Config.negativeQ : F → F

/-- FREE VALUE (log entry 3). What the implementation's `f_cos` gives. -/
opaque Config.cosFn : F → F

/-- FREE VALUE (log entry 3). What the implementation's `f_sin` gives. -/
opaque Config.sinFn : F → F

/-- FREE VALUE (log entry 4). The OPEN parameter `MESA_SHAPE_A` (D18). -/
opaque Config.mesaShapeAChoice : Shelf

/-- FREE VALUE (log entry 4). The OPEN parameter `MESA_SHAPE_B` (D18). -/
opaque Config.mesaShapeBChoice : Shelf

/-- FREE VALUE (log entry 4). The OPEN parameter `MESA_GAIN_A_DB` (D18), before its constraint (finite). -/
opaque Config.mesaGainAChoice : F

/-- FREE VALUE (log entry 4). The OPEN parameter `MESA_GAIN_B_DB` (D18), before its constraint (finite). -/
opaque Config.mesaGainBChoice : F

/-- FREE VALUE (log entry 4). The OPEN parameter `RESET_FS` (D26), before its constraint (above 2000). -/
opaque Config.resetFsChoice : F

/-- FREE VALUE (log entry 4). The OPEN parameter `RESET_Q` (D26), before its constraint (above 0). -/
opaque Config.resetQChoice : F

end Sys2Proof
end

