-- ==== Sys2Proof/Machine/Float.lean ====
section
/-! DEFINITION. IEEE 754 binary64 arithmetic on bit patterns (00_scope.md R7, decision D2): the fields of a
pattern, its exact value, rounding to nearest with ties to even, and the five operations. A finite value is
read as a whole number of units of 2^-1074, the least subnormal, so that every operation is computed exactly
on whole numbers and narrowed once at the end. An operation answers `none` where the IEEE result is a NaN;
which NaN it is then is a draw (Machine/Arith.lean). -/

namespace Sys2Proof

/-- The sign bit (bit 63). -/
def F.sign (x : F) : Bool := x.getLsbD 63

/-- The biased exponent (bits 62:52). -/
def F.expo (x : F) : Nat := x.toNat / 2 ^ 52 % 2 ^ 11

/-- The fraction (bits 51:0). -/
def F.frac (x : F) : Nat := x.toNat % 2 ^ 52

/-- A NaN: exponent all ones, fraction not zero. -/
def F.isNaN (x : F) : Bool := F.expo x == 2047 && F.frac x != 0

/-- An infinity: exponent all ones, fraction zero. -/
def F.isInf (x : F) : Bool := F.expo x == 2047 && F.frac x == 0

/-- A zero of either sign. -/
def F.isZero (x : F) : Bool := F.expo x == 0 && F.frac x == 0

/-- Finite: exponent not all ones. -/
def F.isFinite (x : F) : Bool := F.expo x != 2047

/-- A quiet NaN: a NaN whose top fraction bit (bit 51) is set. -/
def F.isQuietNaN (x : F) : Bool := F.isNaN x && x.getLsbD 51

/-- The significand as a whole number: the hidden bit is set unless the exponent field is 0. -/
def F.mant (x : F) : Nat := if F.expo x = 0 then F.frac x else 2 ^ 52 + F.frac x

/-- The power of two that scales `mant` to units of 2^-1074 (subnormals share the scale of exponent 1). -/
def F.scale (x : F) : Nat := F.expo x - 1

/-- The magnitude in units of 2^-1074. For an infinity this is 2^2098, above every finite magnitude. -/
def F.mag (x : F) : Nat := F.mant x * 2 ^ F.scale x

/-- The value in units of 2^-1074. -/
def F.val (x : F) : Int := if F.sign x then -(F.mag x : Int) else (F.mag x : Int)

/-- Unary minus flips the sign bit (00_scope.md R7). -/
def F.neg (x : F) : F := x ^^^ 0x8000000000000000#64

/-- A pattern from its sign and its low 63 bits. -/
def F.pack (s : Bool) (p : Nat) : F := BitVec.ofNat 64 (if s then 2 ^ 63 + p else p)

/-- The low 63 bits of an infinity. -/
def F.infBits : Nat := 2047 * 2 ^ 52

/-- `num / den` to the nearest whole number, ties to even. -/
def F.nearestEven (num den : Nat) : Nat :=
  if 2 * (num % den) < den then num / den
  else if den < 2 * (num % den) then num / den + 1
  else num / den + num / den % 2

/-- The low 63 bits of the binary64 value nearest the magnitude `num / den` units of 2^-1074, ties to even.
The binade's quantum is `2^e` units; the significand is added into the exponent field, so that a significand
that rounds up to the next power of two carries into it; what reaches the top exponent is an infinity. -/
def F.roundBits (num den : Nat) : Nat :=
  let e := Nat.log2 (num / den) - 52
  min (e * 2 ^ 52 + F.nearestEven num (den * 2 ^ e)) F.infBits

/-- IEEE `x + y`. An exact sum of zero is `+0.0`, unless both operands are negative (then both are `-0.0`). -/
def F.add (x y : F) : Option F :=
  if F.isNaN x || F.isNaN y then none
  else if F.isInf x then (if F.isInf y && F.sign x != F.sign y then none else some x)
  else if F.isInf y then some y
  else
    let v := F.val x + F.val y
    if v = 0 then some (F.pack (F.sign x && F.sign y) 0)
    else some (F.pack (decide (v < 0)) (F.roundBits v.natAbs 1))

/-- IEEE `x - y`. -/
def F.sub (x y : F) : Option F := F.add x (F.neg y)

/-- IEEE `x * y`. -/
def F.mul (x y : F) : Option F :=
  let s := F.sign x != F.sign y
  if F.isNaN x || F.isNaN y then none
  else if F.isInf x || F.isInf y then
    (if F.isZero x || F.isZero y then none else some (F.pack s F.infBits))
  else some (F.pack s (F.roundBits (F.mag x * F.mag y) (2 ^ 1074)))

/-- IEEE `x / y`. -/
def F.div (x y : F) : Option F :=
  let s := F.sign x != F.sign y
  if F.isNaN x || F.isNaN y then none
  else if F.isInf x then (if F.isInf y then none else some (F.pack s F.infBits))
  else if F.isInf y then some (F.pack s 0)
  else if F.isZero y then (if F.isZero x then none else some (F.pack s F.infBits))
  else some (F.pack s (F.roundBits (F.mag x * 2 ^ 1074) (F.mag y)))

/-- The whole-number square root, two bits of `n` a level; right when `n < 4 ^ fuel`. -/
def F.isqrt : Nat → Nat → Nat
  | 0, _ => 0
  | fuel + 1, n =>
    let r := 2 * F.isqrt fuel (n / 4)
    if (r + 1) * (r + 1) ≤ n then r + 1 else r

/-- How far the significand is shifted up before its square root is taken, so that the root has more than 64
bits and the power of two left over is even. -/
def F.sqrtShift (x : F) : Nat := if F.scale x % 2 = 0 then 128 else 129

/-- IEEE square root, correctly rounded (00_scope.md R9). The whole-number root of the shifted significand is
doubled and made odd when it is not exact, which keeps it on the right side of every rounding boundary. -/
def F.sqrt (x : F) : Option F :=
  if F.isNaN x then none
  else if F.isZero x then some x
  else if F.sign x then none
  else if F.isInf x then some x
  else
    let n := F.mant x * 2 ^ F.sqrtShift x
    let r := F.isqrt 92 n
    let sticky := if r * r = n then 0 else 1
    some (F.pack false (F.roundBits ((2 * r + sticky) * 2 ^ ((F.scale x + 1074 - F.sqrtShift x) / 2)) 2))

/-- IEEE `x < y`: false when either is a NaN; the zeros are equal (00_scope.md R7). -/
def F.lt (x y : F) : Bool := !F.isNaN x && !F.isNaN y && decide (F.val x < F.val y)

/-- IEEE `x == y`: false when either is a NaN; the zeros are equal (00_scope.md R7). -/
def F.eq (x y : F) : Bool := !F.isNaN x && !F.isNaN y && decide (F.val x = F.val y)

/-- `float(n)`: exact for the whole numbers the rules convert, at most 2^32 (00_scope.md R7). -/
def F.ofNat (n : Nat) : F := F.pack false (F.roundBits (n * 2 ^ 1074) 1)

end Sys2Proof
end

