-- ==== Sys2Proof/Machine/Arith.lean ====
section
/-! DEFINITION. The arithmetic the rules write: the IEEE operations with the NaN draw (00_scope.md R7, R8), the
elementary functions (R9), complex numbers (R10), clamp (R11) and the constants. -/

namespace Sys2Proof

/-- A computation that may draw NaNs. The number is State's draw counter; it moves only when a NaN is drawn, so a
computation that makes no NaN leaves it alone (log entry 2). -/
abbrev FM := StateM Nat

namespace F

/-- `+0.0`. -/
def zero : F := 0x0000000000000000#64
/-- `1.0`. -/
def one : F := 0x3FF0000000000000#64
/-- `-1.0`. -/
def minusOne : F := 0xBFF0000000000000#64
/-- `2.0`. -/
def two : F := 0x4000000000000000#64
/-- `0.5`. -/
def half : F := 0x3FE0000000000000#64
/-- `40.0` (41_coefficient_factory.md R123). -/
def forty : F := 0x4044000000000000#64
/-- `20.0`, which is also `F_LO` (00_scope.md R5). -/
def twenty : F := 0x4034000000000000#64
/-- `20000.0`, `F_HI` (00_scope.md R5). -/
def twentyThousand : F := 0x40D3880000000000#64
/-- `1000.0` (10_state.md R24). -/
def thousand : F := 0x408F400000000000#64
/-- `2000.0` (00_scope.md R5: 2000 < `RESET_FS`). -/
def twoThousand : F := 0x409F400000000000#64
/-- `PI` (00_scope.md R9). -/
def pi : F := 0x400921FB54442D18#64
/-- `LN2` (00_scope.md R9). -/
def ln2 : F := 0x3FE62E42FEFA39EF#64
/-- `BUTTERWORTH_Q`, the literal 0.70710678 (42_cascade_builder.md R153). -/
def butterworthQ : F := 0x3FE6A09E65DC27DF#64
/-- `+inf`. -/
def infinity : F := 0x7FF0000000000000#64
/-- `-inf`. -/
def negInfinity : F := 0xFFF0000000000000#64
/-- `48000.0`, the reference configuration's `RESET_FS` (95_test_vectors.md). -/
def fortyEightThousand : F := 0x40E7700000000000#64

/-- The bits every quiet NaN has set: the exponent and the top fraction bit. -/
def quietNaNBits : F := 0x7FF8000000000000#64

end F

/-- A fresh quiet NaN: sign and payload are the next draw (00_scope.md R8, D37). -/
def freshNaN : FM F := fun d => (Config.nanDraw d ||| F.quietNaNBits, d + 1)

/-- An IEEE result: the value, or a fresh NaN where the operation answers `none`. -/
def orNaN (r : Option F) : FM F :=
  match r with
  | some x => pure x
  | none => freshNaN

/-- `x + y` (00_scope.md R7). -/
def fadd (x y : F) : FM F := orNaN (F.add x y)
/-- `x - y`. -/
def fsub (x y : F) : FM F := orNaN (F.sub x y)
/-- `x * y`. -/
def fmul (x y : F) : FM F := orNaN (F.mul x y)
/-- `x / y`. -/
def fdiv (x y : F) : FM F := orNaN (F.div x y)
/-- `f_sqrt(x)` (00_scope.md R9). -/
def fsqrt (x : F) : FM F := orNaN (F.sqrt x)

/-- An elementary function as the spec allows it: NaN in gives NaN out (D3), a NaN it gives is quiet (R8), and
its result depends on its operand alone (R9). `raw` is the configuration's uninterpreted function. -/
def elementary (raw : F → F) (x : F) : F :=
  if F.isNaN x || F.isNaN (raw x) then raw x ||| F.quietNaNBits else raw x

/-- `f_tan` (00_scope.md R9). -/
def fTan (x : F) : F := elementary Config.tanFn x
/-- `f_pow10`, with the one exact value the spec requires, `f_pow10(+0.0) = 1.0` (00_scope.md R9). -/
def fPow10 (x : F) : F := if x = F.zero then F.one else elementary Config.pow10Fn x
/-- `f_sinh` (00_scope.md R9). -/
def fSinh (x : F) : F := elementary Config.sinhFn x
/-- `f_cos` (00_scope.md R9). -/
def fCos (x : F) : F := elementary Config.cosFn x
/-- `f_sin` (00_scope.md R9). -/
def fSin (x : F) : F := elementary Config.sinFn x

/-- A free value under a constraint: the value where it meets the constraint, else a stand-in. Every value that meets the
constraint is one of these (log entries 4, 15). -/
def constrained (ok : F → Bool) (choice fallback : F) : F := if ok choice then choice else fallback

/-- `clamp(x, lo, hi)`; a NaN passes (00_scope.md R11). -/
def clamp (x lo hi : F) : F := if F.lt x lo then lo else if F.lt hi x then hi else x

/-- The band layer's frequency clamp to [20, 20000] Hz (43_band.md R173). -/
def clampFreq (x : F) : F := clamp x F.twenty F.twentyThousand

/-- A complex value (00_scope.md R10). -/
structure Complex64 where
  re : F
  im : F
  deriving DecidableEq, Repr

/-- `creal(r)` (00_scope.md R10). -/
def creal (r : F) : Complex64 := ⟨r, F.zero⟩

/-- `cadd` (00_scope.md R10). -/
def cadd (u v : Complex64) : FM Complex64 := do
  let re ← fadd u.re v.re
  let im ← fadd u.im v.im
  pure ⟨re, im⟩

/-- `csub` (00_scope.md R10). -/
def csub (u v : Complex64) : FM Complex64 := do
  let re ← fsub u.re v.re
  let im ← fsub u.im v.im
  pure ⟨re, im⟩

/-- `cscale` (00_scope.md R10). -/
def cscale (r : F) (u : Complex64) : FM Complex64 := do
  let re ← fmul r u.re
  let im ← fmul r u.im
  pure ⟨re, im⟩

/-- `cmul` (00_scope.md R10). -/
def cmul (u v : Complex64) : FM Complex64 := do
  let ac ← fmul u.re v.re
  let bd ← fmul u.im v.im
  let re ← fsub ac bd
  let ad ← fmul u.re v.im
  let bc ← fmul u.im v.re
  let im ← fadd ad bc
  pure ⟨re, im⟩

/-- `cdiv`, division by `c*c + d*d` without scaling (00_scope.md R10). -/
def cdiv (u v : Complex64) : FM Complex64 := do
  let cc ← fmul v.re v.re
  let dd ← fmul v.im v.im
  let den ← fadd cc dd
  let ac ← fmul u.re v.re
  let bd ← fmul u.im v.im
  let numRe ← fadd ac bd
  let re ← fdiv numRe den
  let bc ← fmul u.im v.re
  let ad ← fmul u.re v.im
  let numIm ← fsub bc ad
  let im ← fdiv numIm den
  pure ⟨re, im⟩

end Sys2Proof
end

