-- ==== Sys2Proof/Syntax.lean ====
section
/-! DEFINITION. The operation set CBFB-OPS: the names the spec gives to ports, kinds, shapes, slots and control
registers, the records that packets carry, and one constructor of `Instr` for each of the 38 rows of
spec/opcode_table.json. -/

namespace Sys2Proof

/-- The two ports (20_memory.md R50): `rt` is driven by the real-time host, `q` by the query host. -/
inductive Port where
  | rt
  | q
  deriving DecidableEq, Repr

/-- The two channels of a frame (00_scope.md R5: left = 0, right = 1). -/
inductive Channel where
  | left
  | right
  deriving DecidableEq, Repr

/-- The two sub-cascades of a band (00_scope.md R5, R16). -/
inductive SubCascade where
  | A
  | B
  deriving DecidableEq, Repr

/-- FilterKind, a closed set of ten (10_state.md R27). -/
inductive FilterKind where
  | bell
  | lowPass
  | highPass
  | lowShelf
  | highShelf
  | notch
  | bandPass
  | tilt
  | mesa
  | allPass
  deriving DecidableEq, Repr

/-- The eight second-order shapes of the coefficient factory (41_coefficient_factory.md R120). -/
inductive Shape2 where
  | bell
  | lowPass
  | highPass
  | lowShelf
  | highShelf
  | notch
  | bandPass
  | allPass
  deriving DecidableEq, Repr

/-- The two first-order shapes of the coefficient factory (41_coefficient_factory.md R120). -/
inductive Shape1 where
  | lowPass1
  | highPass1
  deriving DecidableEq, Repr

/-- A place in a band that can hold one stage (00_scope.md R16, 10_state.md R40). -/
inductive Slot where
  | first (s : SubCascade)
  | second (s : SubCascade) (i : Fin 4)
  deriving DecidableEq, Repr

/-- The seven control registers (10_state.md R31). -/
inductive Csr where
  | id
  | config
  | enable
  | fault
  | lastFault
  | recomp
  | fs
  deriving DecidableEq, Repr

/-- The second-order coefficient record, in packet order (10_state.md R24). -/
structure SVFCoefficients where
  g : F
  k : F
  a1 : F
  a2 : F
  a3 : F
  m0 : F
  m1 : F
  m2 : F
  g2 : F
  deriving DecidableEq, Repr

/-- The first-order coefficient record, in packet order (10_state.md R25). -/
structure OnePoleCoefficients where
  g : F
  a : F
  m0 : F
  m1 : F
  deriving DecidableEq, Repr

/-- The ten fault codes (60_exceptions.md R261). -/
inductive FaultCode where
  | outsideNyquist
  | nonPositiveQ
  | nonPositiveFrequency
  | illegalOpcode
  | illegalEncoding
  | badBand
  | badKind
  | unsupportedOrder
  | blockTooLong
  | portViolation
  deriving DecidableEq, Repr

/-- One operation with its operands: one constructor for each row of spec/opcode_table.json. `b` is the header's
`BAND` field, `ord` its `ORD` field and `pole` its `AUX` field, as received. -/
inductive Instr where
  | tick2 (a1 a2 a3 m0 m1 m2 ic1eq ic2eq x : F)
  | tick1 (a m0 m1 s x : F)
  | coefLp (f0 fs q : F)
  | coefHp (f0 fs q : F)
  | coefBp (f0 fs q : F)
  | coefNotch (f0 fs q : F)
  | coefAp (f0 fs q : F)
  | coefBell (f0 fs q gainDb : F)
  | coefLs (f0 fs q gainDb : F)
  | coefHs (f0 fs q gainDb : F)
  | coefLp1 (f0 fs : F)
  | coefHp1 (f0 fs : F)
  | poleq (ord pole : BitVec 8)
  | qdist (ord : BitVec 8) (q : F)
  | bw2q (bw : F)
  | updateBell (b : BitVec 4) (ord : BitVec 8) (bwf : Bool) (freq gain bw fs : F)
  | updateLp (b : BitVec 4) (ord : BitVec 8) (bwf : Bool) (freq gain bw fs : F)
  | updateHp (b : BitVec 4) (ord : BitVec 8) (bwf : Bool) (freq gain bw fs : F)
  | updateLs (b : BitVec 4) (ord : BitVec 8) (bwf : Bool) (freq gain bw fs : F)
  | updateHs (b : BitVec 4) (ord : BitVec 8) (bwf : Bool) (freq gain bw fs : F)
  | updateNotch (b : BitVec 4) (ord : BitVec 8) (bwf : Bool) (freq gain bw fs : F)
  | updateBp (b : BitVec 4) (ord : BitVec 8) (bwf : Bool) (freq gain bw fs : F)
  | updateTilt (b : BitVec 4) (ord : BitVec 8) (bwf : Bool) (freq gain bw fs : F)
  | updateMesa (b : BitVec 4) (ord : BitVec 8) (bwf : Bool) (freq gain bw fs : F)
  | updateAp (b : BitVec 4) (ord : BitVec 8) (bwf : Bool) (freq gain bw fs : F)
  | breset (b : BitVec 4)
  | enable (b : BitVec 4)
  | disable (b : BitVec 4)
  | srate (newFs : F)
  | proc (xL xR : F)
  | procb (frames : List (F × F))
  | hstage2 (c : SVFCoefficients) (f fs : F)
  | hstage1 (c : OnePoleCoefficients) (f fs : F)
  | bode (b : BitVec 4) (f : F)
  | rdcoef (b : BitVec 4) (slot : Slot)
  | rdstate (b : BitVec 4) (slot : Slot) (ch : Channel)
  | rdcsr (n : Csr)
  | rdband (b : BitVec 4)
  deriving DecidableEq, Repr

end Sys2Proof
end

