-- ==== Sys2Proof/Machine/Factory.lean ====
section
/-! DEFINITION. The coefficient factory: `coef2` and `coef1` (41_coefficient_factory.md), pure functions of their
operands and the configuration's elementary functions (R134). -/

namespace Sys2Proof

/-- `2.0*f0 < fs`, the Nyquist test (R121). A product that is a NaN compares false. -/
def belowNyquist (f0 fs : F) : Bool :=
  match F.mul F.two f0 with
  | some t => F.lt t fs
  | none => false

/-- The two frequency checks of R121, in order: the fault of the first that fails. -/
def checkFrequency (f0 fs : F) : Option FaultCode :=
  if !F.lt F.zero f0 then some .nonPositiveFrequency
  else if !belowNyquist f0 fs then some .outsideNyquist
  else none

/-- The three checks of R121 for a second-order shape, in order. -/
def checkShape2 (f0 fs q : F) : Option FaultCode :=
  match checkFrequency f0 fs with
  | some k => some k
  | none => if !F.lt F.zero q then some .nonPositiveQ else none

/-- `g0 = f_tan((PI*f0)/fs)` (R122). -/
def tanOf (f0 fs : F) : FM F := do
  let p ← fmul F.pi f0
  let x ← fdiv p fs
  pure (fTan x)

/-- `A = f_pow10(gainDb/40.0)` (R123). -/
def amplitude (gainDb : F) : FM F := do
  let x ← fdiv gainDb F.forty
  pure (fPow10 x)

/-- A whole record from the final `g`, `k` and mix: `a1`, `a2`, `a3`, `g2` as R122 derives them. -/
def finishRecord (g k m0 m1 m2 : F) : FM SVFCoefficients := do
  let gk ← fadd g k
  let ggk ← fmul g gk
  let den ← fadd F.one ggk
  let a1 ← fdiv F.one den
  let a2 ← fmul g a1
  let a3 ← fmul g a2
  let g2 ← fmul g g
  pure ⟨g, k, a1, a2, a3, m0, m1, m2, g2⟩

/-- LowPass, mix `(0, 0, 1)` (R124). -/
def recordLowPass (g0 q : F) : FM SVFCoefficients := do
  let k ← fdiv F.one q
  finishRecord g0 k F.zero F.zero F.one

/-- HighPass, mix `(1, -k, -1)` (R125). -/
def recordHighPass (g0 q : F) : FM SVFCoefficients := do
  let k ← fdiv F.one q
  finishRecord g0 k F.one (F.neg k) F.minusOne

/-- BandPass, mix `(0, 1, 0)` (R126). -/
def recordBandPass (g0 q : F) : FM SVFCoefficients := do
  let k ← fdiv F.one q
  finishRecord g0 k F.zero F.one F.zero

/-- Notch, mix `(1, -k, 0)` (R127). -/
def recordNotch (g0 q : F) : FM SVFCoefficients := do
  let k ← fdiv F.one q
  finishRecord g0 k F.one (F.neg k) F.zero

/-- AllPass, mix `(1, -(2k), 0)` (R128). -/
def recordAllPass (g0 q : F) : FM SVFCoefficients := do
  let k ← fdiv F.one q
  let k2 ← fmul F.two k
  finishRecord g0 k F.one (F.neg k2) F.zero

/-- Bell: `k = 1/(Q*A)`, mix `(1, k*((A*A) - 1), 0)` (R129). -/
def recordBell (g0 q amp : F) : FM SVFCoefficients := do
  let qa ← fmul q amp
  let k ← fdiv F.one qa
  let aa ← fmul amp amp
  let aa1 ← fsub aa F.one
  let m1 ← fmul k aa1
  finishRecord g0 k F.one m1 F.zero

/-- LowShelf: `g = g0/sqrt(A)`, mix `(1, k*(A - 1), (A*A) - 1)` (R130). -/
def recordLowShelf (g0 q amp : F) : FM SVFCoefficients := do
  let r ← fsqrt amp
  let g ← fdiv g0 r
  let k ← fdiv F.one q
  let am1 ← fsub amp F.one
  let m1 ← fmul k am1
  let aa ← fmul amp amp
  let m2 ← fsub aa F.one
  finishRecord g k F.one m1 m2

/-- HighShelf: `g = g0*sqrt(A)`, mix `(A*A, (k*(1 - A))*A, 1 - (A*A))` (R131). -/
def recordHighShelf (g0 q amp : F) : FM SVFCoefficients := do
  let r ← fsqrt amp
  let g ← fmul g0 r
  let k ← fdiv F.one q
  let m0 ← fmul amp amp
  let oneMinus ← fsub F.one amp
  let km ← fmul k oneMinus
  let m1 ← fmul km amp
  let aa ← fmul amp amp
  let m2 ← fsub F.one aa
  finishRecord g k m0 m1 m2

/-- The record of a second-order shape, its operands already checked (R122 to R131). The five shapes without a gain
do not look at `gainDb`. -/
def record2 (shape : Shape2) (f0 fs q gainDb : F) : FM SVFCoefficients := do
  let g0 ← tanOf f0 fs
  match shape with
  | .lowPass => recordLowPass g0 q
  | .highPass => recordHighPass g0 q
  | .bandPass => recordBandPass g0 q
  | .notch => recordNotch g0 q
  | .allPass => recordAllPass g0 q
  | .bell => do
    let amp ← amplitude gainDb
    recordBell g0 q amp
  | .lowShelf => do
    let amp ← amplitude gainDb
    recordLowShelf g0 q amp
  | .highShelf => do
    let amp ← amplitude gainDb
    recordHighShelf g0 q amp

/-- A whole first-order record from `g`: `a = g/(1 + g)` and the mix `(0, 1)` of LowPass1 or `(1, -1)` of HighPass1
(R132, R133). -/
def recordFirst (shape : Shape1) (g : F) : FM OnePoleCoefficients := do
  let den ← fadd F.one g
  let a ← fdiv g den
  match shape with
  | .lowPass1 => pure ⟨g, a, F.zero, F.one⟩
  | .highPass1 => pure ⟨g, a, F.one, F.minusOne⟩

/-- The record of a first-order shape, its operands already checked (R132, R133). -/
def record1 (shape : Shape1) (f0 fs : F) : FM OnePoleCoefficients := do
  let g ← tanOf f0 fs
  recordFirst shape g

/-- `coef2(shape, f0, fs, Q, gainDb)`: the checks of R121, then the record. -/
def coef2 (shape : Shape2) (f0 fs q gainDb : F) : FM (Except FaultCode SVFCoefficients) :=
  match checkShape2 f0 fs q with
  | some k => pure (.error k)
  | none => do
    let c ← record2 shape f0 fs q gainDb
    pure (.ok c)

/-- `coef1(shape, f0, fs)`: the first two checks of R121, then the record (R132, R133). -/
def coef1 (shape : Shape1) (f0 fs : F) : FM (Except FaultCode OnePoleCoefficients) :=
  match checkFrequency f0 fs with
  | some k => pure (.error k)
  | none => do
    let c ← record1 shape f0 fs
    pure (.ok c)

end Sys2Proof
end

