-- ==== Sys2Proof/Decode.lean ====
section
/-! DEFINITION. The packet encoding (30_encoding.md): the header, the opcode map, the decoder with its checks in the
order of R84, the encoder written from the same tables, the byte order of a word on a byte transport, and the
entry points the host asks for. The decoder makes the checks that depend on the packet, the port and `MAX_BLOCK`
(R84 steps 1 to 5); the band, the order and the pole index (steps 6, 7 and the exception of step 5) are checked by
each operation before it has any effect (Machine/Operands.lean), in the same order (log entry 5). -/

namespace Sys2Proof

/-- The command header's five fields (30_encoding.md R71). -/
structure Header where
  opc : BitVec 8
  band : BitVec 4
  kind : BitVec 4
  ord : BitVec 8
  aux : BitVec 8
  deriving DecidableEq, Repr

/-- The header word: `OPC` 31:24, `BAND` 23:20, `KIND` 19:16, `ORD` 15:8, `AUX` 7:0 (R71). -/
def Header.toWord (h : Header) : Word := h.opc ++ h.band ++ h.kind ++ h.ord ++ h.aux

/-- The fields of a header word (R71). -/
def Header.ofWord (w : Word) : Header where
  opc := w.extractLsb' 24 8
  band := w.extractLsb' 20 4
  kind := w.extractLsb' 16 4
  ord := w.extractLsb' 8 8
  aux := w.extractLsb' 0 8

/-- The twenty `OPC` values of the opcode map (R77), by name. -/
inductive Opc where
  | tick2
  | tick1
  | coef
  | poleq
  | qdist
  | bw2q
  | update
  | breset
  | enable
  | disable
  | srate
  | proc
  | procb
  | hstage2
  | hstage1
  | bode
  | rdcoef
  | rdstate
  | rdcsr
  | rdband
  deriving DecidableEq, Repr

/-- The opcode's number (R77). -/
def Opc.byte : Opc → BitVec 8
  | .tick2 => 0x01#8
  | .tick1 => 0x02#8
  | .coef => 0x10#8
  | .poleq => 0x18#8
  | .qdist => 0x19#8
  | .bw2q => 0x1A#8
  | .update => 0x20#8
  | .breset => 0x21#8
  | .enable => 0x22#8
  | .disable => 0x23#8
  | .srate => 0x24#8
  | .proc => 0x28#8
  | .procb => 0x29#8
  | .hstage2 => 0x30#8
  | .hstage1 => 0x31#8
  | .bode => 0x32#8
  | .rdcoef => 0x38#8
  | .rdstate => 0x39#8
  | .rdcsr => 0x3A#8
  | .rdband => 0x3B#8

/-- The opcode map, in the order of R77. -/
def Opc.all : List Opc :=
  [.tick2, .tick1, .coef, .poleq, .qdist, .bw2q, .update, .breset, .enable, .disable,
    .srate, .proc, .procb, .hstage2, .hstage1, .bode, .rdcoef, .rdstate, .rdcsr, .rdband]

/-- The operation class an `OPC` byte names, if any (R77, R79 a). -/
def Opc.ofByte (v : BitVec 8) : Option Opc := Opc.all.find? fun o => o.byte == v

/-- The operations only the RT port may issue (60_exceptions.md R278). -/
def Opc.rtOnly : Opc → Bool
  | .update | .breset | .enable | .disable | .srate | .proc | .procb | .rdstate => true
  | .tick2 | .tick1 | .coef | .poleq | .qdist | .bw2q | .hstage2 | .hstage1 | .bode | .rdcoef | .rdcsr
  | .rdband => false

/-- The operation may be issued on the port (R278). -/
def Opc.allowedOn (o : Opc) : Port → Bool
  | .rt => true
  | .q => !o.rtOnly

/-- A FilterKind's code (10_state.md R27). -/
def FilterKind.code : FilterKind → BitVec 4
  | .bell => 0#4
  | .lowPass => 1#4
  | .highPass => 2#4
  | .lowShelf => 3#4
  | .highShelf => 4#4
  | .notch => 5#4
  | .bandPass => 6#4
  | .tilt => 7#4
  | .mesa => 8#4
  | .allPass => 9#4

/-- The code of a second-order shape is that of the FilterKind of the same name (41_coefficient_factory.md R120). -/
def Shape2.code : Shape2 → BitVec 4
  | .bell => 0#4
  | .lowPass => 1#4
  | .highPass => 2#4
  | .lowShelf => 3#4
  | .highShelf => 4#4
  | .notch => 5#4
  | .bandPass => 6#4
  | .allPass => 9#4

/-- The code of a first-order shape (R120). -/
def Shape1.code : Shape1 → BitVec 4
  | .lowPass1 => 10#4
  | .highPass1 => 11#4

/-- `KIND` is legal for the opcode (30_encoding.md R79 b, c): `COEF` refuses 7, 8 and 12 to 15, `UPDATE` refuses
10 to 15. Elsewhere `KIND` selects nothing and is a must-be-zero field. -/
def Opc.kindLegal (o : Opc) (kind : BitVec 4) : Bool :=
  match o with
  | .coef => !(kind == 7#4 || kind == 8#4 || decide (12#4 ≤ kind))
  | .update => decide (kind < 10#4)
  | .tick2 | .tick1 | .poleq | .qdist | .bw2q | .breset | .enable | .disable | .srate | .proc | .procb | .hstage2
  | .hstage1 | .bode | .rdcoef | .rdstate | .rdcsr | .rdband => true

/-- The header fields the operation does not use are zero and `AUX` is in its range (R74, R78). The pole index of
`POLEQ` is left to the operation (R84 step 5). -/
def Opc.fieldsLegal (o : Opc) (h : Header) : Bool :=
  match o with
  | .tick2 | .tick1 | .bw2q | .srate | .proc | .procb | .hstage2 | .hstage1 =>
    h.band == 0#4 && h.kind == 0#4 && h.ord == 0#8 && h.aux == 0#8
  | .coef => h.band == 0#4 && h.ord == 0#8 && h.aux == 0#8
  | .poleq => h.band == 0#4 && h.kind == 0#4
  | .qdist => h.band == 0#4 && h.kind == 0#4 && h.aux == 0#8
  | .update => h.aux.extractLsb' 1 7 == 0#7
  | .breset | .enable | .disable | .bode | .rdband => h.kind == 0#4 && h.ord == 0#8 && h.aux == 0#8
  | .rdcoef => h.kind == 0#4 && h.ord == 0#8 && decide (h.aux ≤ 9#8)
  | .rdstate =>
    h.kind == 0#4 && h.ord == 0#8 && h.aux.extractLsb' 5 3 == 0#3 && decide (h.aux.extractLsb' 0 4 ≤ 9#4)
  | .rdcsr => h.band == 0#4 && h.kind == 0#4 && h.ord == 0#8 && decide (h.aux ≤ 6#8)

/-- The `F` value of two words, the low word first (20_memory.md R54, 30_encoding.md R72). -/
def fOfWords (lo hi : Word) : F := hi ++ lo

/-- The two words of an `F` value, the low word first (R54, R72). -/
def fWords (x : F) : List Word := [x.extractLsb' 0 32, x.extractLsb' 32 32]

/-- The words of a list of `F` operands or results, with no padding (R72). -/
def fsWords : List F → List Word
  | [] => []
  | x :: xs => fWords x ++ fsWords xs

/-- The `F` operands a list of words holds; none when the count of words is odd (R72, R74). -/
def fsOfWords : List Word → Option (List F)
  | [] => some []
  | [_] => none
  | lo :: hi :: rest =>
    match fsOfWords rest with
    | some xs => some (fOfWords lo hi :: xs)
    | none => none

/-- The frames `xL, xR` a list of `F` operands holds (R73). -/
def framesOf : List F → Option (List (F × F))
  | [] => some []
  | [_] => none
  | l :: r :: rest =>
    match framesOf rest with
    | some fs => some ((l, r) :: fs)
    | none => none

/-- The `F` operands of a list of frames (R73). -/
def framesFlat : List (F × F) → List F
  | [] => []
  | (l, r) :: rest => l :: r :: framesFlat rest

/-- A slot's number (10_state.md R40). -/
def Slot.number : Slot → BitVec 4
  | .first .A => 0#4
  | .second .A i => BitVec.ofNat 4 (1 + i.val)
  | .first .B => 5#4
  | .second .B i => BitVec.ofNat 4 (6 + i.val)

/-- The slots in the order of their numbers (R40). -/
def Slot.all : List Slot :=
  [.first .A, .second .A 0, .second .A 1, .second .A 2, .second .A 3,
    .first .B, .second .B 0, .second .B 1, .second .B 2, .second .B 3]

/-- The slot a number names; none for 10 to 15 (R40, 20_memory.md R57). -/
def Slot.ofNumber (n : BitVec 4) : Option Slot := Slot.all[n.toNat]?

/-- A channel's number (00_scope.md R5). -/
def Channel.number : Channel → BitVec 1
  | .left => 0#1
  | .right => 1#1

/-- The channel a bit names. -/
def Channel.ofBit (c : Bool) : Channel := if c then .right else .left

/-- A control register's number (10_state.md R31). -/
def Csr.number : Csr → BitVec 8
  | .id => 0#8
  | .config => 1#8
  | .enable => 2#8
  | .fault => 3#8
  | .lastFault => 4#8
  | .recomp => 5#8
  | .fs => 6#8

/-- The control registers in the order of their numbers. -/
def Csr.all : List Csr := [.id, .config, .enable, .fault, .lastFault, .recomp, .fs]

/-- The control register a number names; none for 7 to 255 (R31). -/
def Csr.ofNumber (n : BitVec 8) : Option Csr := Csr.all[n.toNat]?

/-- `BWF` as the bit `AUX[0]` (43_band.md R171). -/
def bwfAux (bwf : Bool) : BitVec 8 := if bwf then 1#8 else 0#8

/-- The `COEF` instruction of a shape code and its operands (30_encoding.md R74, R77). -/
def decodeCoef (kind : BitVec 4) (xs : List F) : Option Instr :=
  match kind.toNat, xs with
  | 0, [f0, fs, q, gainDb] => some (.coefBell f0 fs q gainDb)
  | 1, [f0, fs, q] => some (.coefLp f0 fs q)
  | 2, [f0, fs, q] => some (.coefHp f0 fs q)
  | 3, [f0, fs, q, gainDb] => some (.coefLs f0 fs q gainDb)
  | 4, [f0, fs, q, gainDb] => some (.coefHs f0 fs q gainDb)
  | 5, [f0, fs, q] => some (.coefNotch f0 fs q)
  | 6, [f0, fs, q] => some (.coefBp f0 fs q)
  | 9, [f0, fs, q] => some (.coefAp f0 fs q)
  | 10, [f0, fs] => some (.coefLp1 f0 fs)
  | 11, [f0, fs] => some (.coefHp1 f0 fs)
  | _, _ => none

/-- The `UPDATE` instruction of a kind code and its operands (R74, R77). -/
def decodeUpdate (h : Header) (freq gain bw fs : F) : Option Instr :=
  let bwf := h.aux.getLsbD 0
  match h.kind.toNat with
  | 0 => some (.updateBell h.band h.ord bwf freq gain bw fs)
  | 1 => some (.updateLp h.band h.ord bwf freq gain bw fs)
  | 2 => some (.updateHp h.band h.ord bwf freq gain bw fs)
  | 3 => some (.updateLs h.band h.ord bwf freq gain bw fs)
  | 4 => some (.updateHs h.band h.ord bwf freq gain bw fs)
  | 5 => some (.updateNotch h.band h.ord bwf freq gain bw fs)
  | 6 => some (.updateBp h.band h.ord bwf freq gain bw fs)
  | 7 => some (.updateTilt h.band h.ord bwf freq gain bw fs)
  | 8 => some (.updateMesa h.band h.ord bwf freq gain bw fs)
  | 9 => some (.updateAp h.band h.ord bwf freq gain bw fs)
  | _ => none

/-- The `PROCB` instruction: the count word `N` and `N` frames (R73, R74). -/
def decodeProcb (ws : List Word) : Option Instr :=
  match ws with
  | [] => none
  | n :: rest =>
    match fsOfWords rest with
    | none => none
    | some xs =>
      match framesOf xs with
      | none => none
      | some frames => if frames.length = n.toNat then some (.procb frames) else none

/-- The instruction a header and operand words hold, or none where the packet's length is not the one R74 gives the
operation. -/
def decodeOperands (o : Opc) (h : Header) (ws : List Word) : Option Instr :=
  match o with
  | .procb => decodeProcb ws
  | .coef => (fsOfWords ws).bind (decodeCoef h.kind)
  | .tick2 =>
    match fsOfWords ws with
    | some [a1, a2, a3, m0, m1, m2, i1, i2, x] => some (.tick2 a1 a2 a3 m0 m1 m2 i1 i2 x)
    | _ => none
  | .tick1 =>
    match fsOfWords ws with
    | some [a, m0, m1, s, x] => some (.tick1 a m0 m1 s x)
    | _ => none
  | .poleq => match ws with
    | [] => some (.poleq h.ord h.aux)
    | _ => none
  | .qdist => match fsOfWords ws with
    | some [q] => some (.qdist h.ord q)
    | _ => none
  | .bw2q => match fsOfWords ws with
    | some [bw] => some (.bw2q bw)
    | _ => none
  | .update => match fsOfWords ws with
    | some [freq, gain, bw, fs] => decodeUpdate h freq gain bw fs
    | _ => none
  | .breset => match ws with
    | [] => some (.breset h.band)
    | _ => none
  | .enable => match ws with
    | [] => some (.enable h.band)
    | _ => none
  | .disable => match ws with
    | [] => some (.disable h.band)
    | _ => none
  | .srate => match fsOfWords ws with
    | some [newFs] => some (.srate newFs)
    | _ => none
  | .proc => match fsOfWords ws with
    | some [xL, xR] => some (.proc xL xR)
    | _ => none
  | .hstage2 => match fsOfWords ws with
    | some [g, k, a1, a2, a3, m0, m1, m2, g2, f, fs] => some (.hstage2 ⟨g, k, a1, a2, a3, m0, m1, m2, g2⟩ f fs)
    | _ => none
  | .hstage1 => match fsOfWords ws with
    | some [g, a, m0, m1, f, fs] => some (.hstage1 ⟨g, a, m0, m1⟩ f fs)
    | _ => none
  | .bode => match fsOfWords ws with
    | some [f] => some (.bode h.band f)
    | _ => none
  | .rdcoef => match ws with
    | [] => (Slot.ofNumber (h.aux.extractLsb' 0 4)).map (.rdcoef h.band)
    | _ => none
  | .rdstate => match ws with
    | [] => (Slot.ofNumber (h.aux.extractLsb' 0 4)).map fun sl => .rdstate h.band sl (Channel.ofBit (h.aux.getLsbD 4))
    | _ => none
  | .rdcsr => match ws with
    | [] => (Csr.ofNumber h.aux).map .rdcsr
    | _ => none
  | .rdband => match ws with
    | [] => some (.rdband h.band)
    | _ => none

/-- `PROCB` with a count word above `MAX_BLOCK` (R79 g, R84 step 4: before the length check). -/
def blockTooLong (maxBlock : Nat) (o : Opc) (ws : List Word) : Bool :=
  match o, ws with
  | .procb, n :: _ => decide (maxBlock < n.toNat)
  | _, _ => false

/-- Decoding a command packet: its header word and the words after it (R84 steps 1 to 5, in that order). It is total:
it answers an instruction or the fault of the first check that fails. -/
def decode (maxBlock : Nat) (p : Port) (header : Word) (ws : List Word) : Except FaultCode Instr :=
  let h := Header.ofWord header
  match Opc.ofByte h.opc with
  | none => .error .illegalOpcode
  | some o =>
    if !o.allowedOn p then .error .portViolation
    else if !o.kindLegal h.kind then .error .badKind
    else if blockTooLong maxBlock o ws then .error .blockTooLong
    else if !o.fieldsLegal h then .error .illegalEncoding
    else
      match decodeOperands o h ws with
      | some i => .ok i
      | none => .error .illegalEncoding

/-! ## The encoder -/

/-- The operation class of an instruction (R77). -/
def Instr.opc : Instr → Opc
  | .tick2 .. => .tick2
  | .tick1 .. => .tick1
  | .coefLp .. | .coefHp .. | .coefBp .. | .coefNotch .. | .coefAp .. | .coefBell .. | .coefLs .. | .coefHs ..
  | .coefLp1 .. | .coefHp1 .. => .coef
  | .poleq .. => .poleq
  | .qdist .. => .qdist
  | .bw2q .. => .bw2q
  | .updateBell .. | .updateLp .. | .updateHp .. | .updateLs .. | .updateHs .. | .updateNotch .. | .updateBp ..
  | .updateTilt .. | .updateMesa .. | .updateAp .. => .update
  | .breset .. => .breset
  | .enable .. => .enable
  | .disable .. => .disable
  | .srate .. => .srate
  | .proc .. => .proc
  | .procb .. => .procb
  | .hstage2 .. => .hstage2
  | .hstage1 .. => .hstage1
  | .bode .. => .bode
  | .rdcoef .. => .rdcoef
  | .rdstate .. => .rdstate
  | .rdcsr .. => .rdcsr
  | .rdband .. => .rdband

/-- A header with every field but the opcode zero. -/
def Opc.plain (o : Opc) : Header := ⟨o.byte, 0, 0, 0, 0⟩

/-- A header that names a band and nothing else. -/
def Opc.onBand (o : Opc) (b : BitVec 4) : Header := ⟨o.byte, b, 0, 0, 0⟩

/-- The header of a `COEF` of the given shape code. -/
def coefHeader (code : BitVec 4) : Header := ⟨Opc.coef.byte, 0, code, 0, 0⟩

/-- The header of an `UPDATE` of the given kind. -/
def updateHeader (kind : FilterKind) (b : BitVec 4) (ord : BitVec 8) (bwf : Bool) : Header :=
  ⟨Opc.update.byte, b, kind.code, ord, bwfAux bwf⟩

/-- The header fields of an instruction's packet (R71, R74). -/
def Instr.header : Instr → Header
  | .tick2 .. => Opc.tick2.plain
  | .tick1 .. => Opc.tick1.plain
  | .coefLp .. => coefHeader Shape2.lowPass.code
  | .coefHp .. => coefHeader Shape2.highPass.code
  | .coefBp .. => coefHeader Shape2.bandPass.code
  | .coefNotch .. => coefHeader Shape2.notch.code
  | .coefAp .. => coefHeader Shape2.allPass.code
  | .coefBell .. => coefHeader Shape2.bell.code
  | .coefLs .. => coefHeader Shape2.lowShelf.code
  | .coefHs .. => coefHeader Shape2.highShelf.code
  | .coefLp1 .. => coefHeader Shape1.lowPass1.code
  | .coefHp1 .. => coefHeader Shape1.highPass1.code
  | .poleq ord pole => ⟨Opc.poleq.byte, 0, 0, ord, pole⟩
  | .qdist ord _ => ⟨Opc.qdist.byte, 0, 0, ord, 0⟩
  | .bw2q .. => Opc.bw2q.plain
  | .updateBell b ord bwf _ _ _ _ => updateHeader .bell b ord bwf
  | .updateLp b ord bwf _ _ _ _ => updateHeader .lowPass b ord bwf
  | .updateHp b ord bwf _ _ _ _ => updateHeader .highPass b ord bwf
  | .updateLs b ord bwf _ _ _ _ => updateHeader .lowShelf b ord bwf
  | .updateHs b ord bwf _ _ _ _ => updateHeader .highShelf b ord bwf
  | .updateNotch b ord bwf _ _ _ _ => updateHeader .notch b ord bwf
  | .updateBp b ord bwf _ _ _ _ => updateHeader .bandPass b ord bwf
  | .updateTilt b ord bwf _ _ _ _ => updateHeader .tilt b ord bwf
  | .updateMesa b ord bwf _ _ _ _ => updateHeader .mesa b ord bwf
  | .updateAp b ord bwf _ _ _ _ => updateHeader .allPass b ord bwf
  | .breset b => Opc.breset.onBand b
  | .enable b => Opc.enable.onBand b
  | .disable b => Opc.disable.onBand b
  | .srate .. => Opc.srate.plain
  | .proc .. => Opc.proc.plain
  | .procb .. => Opc.procb.plain
  | .hstage2 .. => Opc.hstage2.plain
  | .hstage1 .. => Opc.hstage1.plain
  | .bode b _ => Opc.bode.onBand b
  | .rdcoef b slot => ⟨Opc.rdcoef.byte, b, 0, 0, 0#4 ++ slot.number⟩
  | .rdstate b slot ch => ⟨Opc.rdstate.byte, b, 0, 0, 0#3 ++ ch.number ++ slot.number⟩
  | .rdcsr n => ⟨Opc.rdcsr.byte, 0, 0, 0, n.number⟩
  | .rdband b => Opc.rdband.onBand b

/-- The nine values of a second-order record in packet order (10_state.md R24). -/
def SVFCoefficients.toList (c : SVFCoefficients) : List F := [c.g, c.k, c.a1, c.a2, c.a3, c.m0, c.m1, c.m2, c.g2]

/-- The four values of a first-order record in packet order (10_state.md R25). -/
def OnePoleCoefficients.toList (c : OnePoleCoefficients) : List F := [c.g, c.a, c.m0, c.m1]

/-- The operand words of an instruction's packet (30_encoding.md R74). -/
def Instr.operandWords : Instr → List Word
  | .tick2 a1 a2 a3 m0 m1 m2 i1 i2 x => fsWords [a1, a2, a3, m0, m1, m2, i1, i2, x]
  | .tick1 a m0 m1 s x => fsWords [a, m0, m1, s, x]
  | .coefLp f0 fs q | .coefHp f0 fs q | .coefBp f0 fs q | .coefNotch f0 fs q | .coefAp f0 fs q => fsWords [f0, fs, q]
  | .coefBell f0 fs q gainDb | .coefLs f0 fs q gainDb | .coefHs f0 fs q gainDb => fsWords [f0, fs, q, gainDb]
  | .coefLp1 f0 fs | .coefHp1 f0 fs => fsWords [f0, fs]
  | .poleq .. => []
  | .qdist _ q => fsWords [q]
  | .bw2q bw => fsWords [bw]
  | .updateBell _ _ _ freq gain bw fs | .updateLp _ _ _ freq gain bw fs | .updateHp _ _ _ freq gain bw fs
  | .updateLs _ _ _ freq gain bw fs | .updateHs _ _ _ freq gain bw fs | .updateNotch _ _ _ freq gain bw fs
  | .updateBp _ _ _ freq gain bw fs | .updateTilt _ _ _ freq gain bw fs | .updateMesa _ _ _ freq gain bw fs
  | .updateAp _ _ _ freq gain bw fs => fsWords [freq, gain, bw, fs]
  | .breset .. | .enable .. | .disable .. => []
  | .srate newFs => fsWords [newFs]
  | .proc xL xR => fsWords [xL, xR]
  | .procb frames => BitVec.ofNat 32 frames.length :: fsWords (framesFlat frames)
  | .hstage2 c f fs => fsWords (c.toList ++ [f, fs])
  | .hstage1 c f fs => fsWords (c.toList ++ [f, fs])
  | .bode _ f => fsWords [f]
  | .rdcoef .. | .rdstate .. | .rdcsr .. | .rdband .. => []

/-- The packet of an instruction: its header word and its operand words. -/
def encode (i : Instr) : Word × List Word := (i.header.toWord, i.operandWords)

/-! ## Bytes and the host's entry points -/

/-- The four bytes of a word on a byte transport, bits 7:0 first (20_memory.md R54). -/
def wordBytes (w : Word) : List (BitVec 8) :=
  [w.extractLsb' 0 8, w.extractLsb' 8 8, w.extractLsb' 16 8, w.extractLsb' 24 8]

/-- The words of a byte sequence; none when it is no whole number of words (20_memory.md R54, R55). -/
def wordsOfBytes : List (BitVec 8) → Option (List Word)
  | [] => some []
  | b0 :: b1 :: b2 :: b3 :: rest => (wordsOfBytes rest).map fun ws => (b3 ++ b2 ++ b1 ++ b0) :: ws
  | [_] | [_, _] | [_, _, _] => none

/-- How many operand words follow a header (R74, R81), given the word after it, which is the frame count of a
`PROCB`. -/
def operandCount (h : Header) (second : Word) : Nat :=
  match Opc.ofByte h.opc with
  | none => 0
  | some o =>
    match o with
    | .tick2 => 18
    | .tick1 => 10
    | .coef =>
      match h.kind.toNat with
      | 0 | 3 | 4 => 8
      | 10 | 11 => 4
      | _ => 6
    | .qdist | .bw2q | .srate | .bode => 2
    | .update => 8
    | .proc => 4
    | .procb => 1 + 4 * second.toNat
    | .hstage2 => 22
    | .hstage1 => 12
    | .poleq | .breset | .enable | .disable | .rdcoef | .rdstate | .rdcsr | .rdband => 0

/-- Word number `k` of an instruction whose bits are `w`, every bit from `nbits` on being zero. -/
def tableWord (nbits w k : Nat) : Word := BitVec.ofNat 32 (w % 2 ^ nbits / 2 ^ (32 * k))

/-- The packet of an instruction whose bits are `w`: the header, and as many operand words as R74 gives it. A `PROCB`
longer than the default `MAX_BLOCK` is refused on its count word (R84 step 4), so only that word is laid out. -/
def tablePacket (nbits w : Nat) : Word × List Word :=
  let count := operandCount (Header.ofWord (tableWord nbits w 0)) (tableWord nbits w 1)
  let n := if 1 + 4 * Config.defaultMaxBlock < count then 1 else count
  (tableWord nbits w 0, (List.range n).map fun k => tableWord nbits w (k + 1))

/-- The instruction the decoder reads, on the RT port and with the default `MAX_BLOCK`, from an instruction whose bits
are `w` as spec/opcode_table.json numbers them. -/
def decodeTableWord (nbits w : Nat) : Option Instr :=
  match decode Config.defaultMaxBlock .rt (tablePacket nbits w).1 (tablePacket nbits w).2 with
  | .ok i => some i
  | .error _ => none

end Sys2Proof
end

