-- ==== Sys2Proof/Machine/Cascade.lean ====
section
/-! DEFINITION. The three pure calculators of Q values: `poleq`, `qdist`, `bw2q` (42_cascade_builder.md). -/

namespace Sys2Proof

/-- The effective order of a band: 1, 2, 4, 6 or 8 (10_state.md R26). -/
inductive EffOrder where
  | o1
  | o2
  | o4
  | o6
  | o8
  deriving DecidableEq, Repr

/-- The order as a number. -/
def EffOrder.toNat : EffOrder → Nat
  | .o1 => 1
  | .o2 => 2
  | .o4 => 4
  | .o6 => 6
  | .o8 => 8

/-- The stage count `n`: `eo/2`, or 0 when `eo = 1` (00_scope.md R12). -/
def EffOrder.stages : EffOrder → Nat
  | .o1 => 0
  | .o2 => 1
  | .o4 => 2
  | .o6 => 3
  | .o8 => 4

/-- `poleq(order, pole)`: the one-pole marker and the Q of a pole pair (42_cascade_builder.md R151). -/
def poleq (order pole : Nat) : FM (Bool × F) := do
  let inc ← fdiv F.pi (F.ofNat order)
  if order % 2 = 0 then do
    let h ← fdiv inc F.two
    let p ← fmul (F.ofNat pole) inc
    let angle ← fadd h p
    let c2 ← fmul F.two (fCos angle)
    let q ← fdiv F.one c2
    pure (false, q)
  else if pole = 0 then pure (true, F.zero)
  else do
    let angle ← fmul inc (F.ofNat pole)
    let c2 ← fmul F.two (fCos angle)
    let q ← fdiv F.one c2
    pure (false, q)

/-- The constant table `QRATIO`, lowest Q first (42_cascade_builder.md R152). Orders 1 and 2 have no row. -/
def qratio : EffOrder → List F
  | .o1 => []
  | .o2 => []
  | .o4 => [0x3FE1517A7BDB3895#64, 0x3FF4E7AE9144F0FC#64]
  | .o6 => [0x3FE0907DC1930690#64, 0x3FE6A09E667F3BCD#64, 0x3FFEE8DD4748BF15#64]
  | .o8 => [0x3FE0503ED17CBA53#64, 0x3FE33E37A1E0173E#64, 0x3FECCC9AEFB18D58#64, 0x400480D9D073B428#64]

/-- The soft-compression factors `COMP`: 0.35, 0.20, 0.14 for orders 4, 6, 8 (42_cascade_builder.md R153). -/
def comp : EffOrder → F
  | .o1 => F.one
  | .o2 => F.one
  | .o4 => 0x3FD6666666666666#64
  | .o6 => 0x3FC999999999999A#64
  | .o8 => 0x3FC1EB851EB851EC#64

/-- `qs`: the normalised Q, its excess over 1.0 compressed (R153). -/
def compressQ (order : EffOrder) (q : F) : FM F := do
  let qn ← fdiv q F.butterworthQ
  if F.lt F.one qn then do
    let ex ← fsub qn F.one
    let sc ← fmul ex (comp order)
    fadd F.one sc
  else pure qn

/-- Each ratio of a table row times `qs`, in table order (R153). -/
def scaleRatios (qs : F) : List F → FM (List F)
  | [] => pure []
  | r :: rest => do
    let q ← fmul r qs
    let more ← scaleRatios qs rest
    pure (q :: more)

/-- `qdist(order, Q)`: the per-stage Q list of a cascade (R153). An order-1 cascade has no second-order stage and
no list. -/
def qdist (order : EffOrder) (q : F) : FM (List F) :=
  match order with
  | .o1 => pure []
  | .o2 => pure [q]
  | .o4 | .o6 | .o8 => do
    let qs ← compressQ order q
    scaleRatios qs (qratio order)

/-- The corner cases R155 states of its formula's result `q`: `bw = +0.0` gives `+inf`, `-0.0` gives `-inf`, and `bw < 0`
gives no NaN and no positive `Q` (60_exceptions.md R264). They follow from the formula where `f_sinh` is near the real
sine, which D3 does not ask of it. There this is `q` itself; elsewhere a `bw < 0` gives a free value below zero (log entry
15). -/
def bw2qCorner (bw q : F) : F :=
  if F.isZero bw then (if F.sign bw then F.negInfinity else F.infinity)
  else if F.isNaN bw || !F.sign bw then q
  else if F.sign q && !F.isNaN q then q
  else constrained (fun v => F.lt v F.zero) (Config.negativeQ bw) F.minusOne

/-- `bw2q(bw)`: bandwidth in octaves to Q (42_cascade_builder.md R155). -/
def bw2q (bw : F) : FM F := do
  let c ← fdiv F.ln2 F.two
  let x ← fmul c bw
  let d ← fmul F.two (fSinh x)
  let q ← fdiv F.one d
  pure (bw2qCorner bw q)

end Sys2Proof
end

