-- ==== Sys2Proof/Machine/Datapath.lean ====
section
/-! DEFINITION. The stage functions `tick2` and `tick1` (40_stage_datapath.md), which touch no state of the machine.
Each line of the spec's pseudocode is computed in the grouping it has there. -/

namespace Sys2Proof

/-- The state pair of a second-order stage, one channel (10_state.md R22). -/
structure SVFState where
  ic1eq : F
  ic2eq : F
  deriving DecidableEq, Repr

/-- A second-order stage at rest (40_stage_datapath.md R106). -/
def SVFState.zero : SVFState := ⟨F.zero, F.zero⟩

/-- The lines of `tick2` (40_stage_datapath.md R101): the output and the two new integrator values. The arithmetic is an
argument, so that the law of R109, which is about the same lines over the reals, speaks of this text. -/
def tick2Lines {M : Type → Type} [Monad M] {α : Type} (add sub mul : α → α → M α)
    (two a1 a2 a3 m0 m1 m2 ic1eq ic2eq x : α) : M (α × α × α) := do
  let v3 ← sub x ic2eq
  let p1 ← mul a1 ic1eq
  let p2 ← mul a2 v3
  let v1 ← add p1 p2
  let p3 ← mul a2 ic1eq
  let p4 ← add ic2eq p3
  let p5 ← mul a3 v3
  let v2 ← add p4 p5
  let t1 ← mul two v1
  let ic1eq' ← sub t1 ic1eq
  let t2 ← mul two v2
  let ic2eq' ← sub t2 ic2eq
  let q0 ← mul m0 x
  let q1 ← mul m1 v1
  let q2 ← mul m2 v2
  let q3 ← add q0 q1
  let y ← add q3 q2
  pure (y, ic1eq', ic2eq')

/-- The lines of `tick1` (40_stage_datapath.md R104): the output and the new state. -/
def tick1Lines {M : Type → Type} [Monad M] {α : Type} (add sub mul : α → α → M α) (a m0 m1 s x : α) :
    M (α × α) := do
  let e ← sub x s
  let v ← mul a e
  let lp ← add v s
  let s' ← add lp v
  let q0 ← mul m0 x
  let q1 ← mul m1 lp
  let y ← add q0 q1
  pure (y, s')

/-- `tick2(c, st, x) -> (y, st')` (40_stage_datapath.md R101). -/
def tick2 (c : SVFCoefficients) (st : SVFState) (x : F) : FM (F × SVFState) := do
  let r ← tick2Lines fadd fsub fmul F.two c.a1 c.a2 c.a3 c.m0 c.m1 c.m2 st.ic1eq st.ic2eq x
  pure (r.1, ⟨r.2.1, r.2.2⟩)

/-- `tick1(c, st, x) -> (y, st')` (40_stage_datapath.md R104). -/
def tick1 (c : OnePoleCoefficients) (s : F) (x : F) : FM (F × F) :=
  tick1Lines fadd fsub fmul c.a c.m0 c.m1 s x

end Sys2Proof
end

