-- ==== Sys2Proof/Machine/Registers.lean ====
section
/-! DEFINITION. The register file of one band (10_state.md R22 to R29), laid out so that what belongs to one channel
stands together: `S2[b][s][i][c]` is `((band.chan c).sub s).second[i]`, `S1[b][s][c]` is `((band.chan c).sub s).first`,
`C2[b][s][i]` is `(band.coef s).second[i]`, `C1[b][s]` is `(band.coef s).first`. -/

namespace Sys2Proof.Machine

/-- The coefficient registers of one sub-cascade: `C1[b][s]` and `C2[b][s][0..3]` (10_state.md R24, R25). -/
structure SubCoefficients where
  first : OnePoleCoefficients
  second : Vector SVFCoefficients 4
  deriving DecidableEq, Repr

/-- The state registers of one sub-cascade for one channel: `S1[b][s][c]` and `S2[b][s][0..3][c]`
(10_state.md R22, R23). -/
structure SubState where
  first : F
  second : Vector SVFState 4
  deriving DecidableEq, Repr

/-- The state registers of a band for one channel. -/
structure ChannelState where
  subA : SubState
  subB : SubState
  deriving DecidableEq, Repr

/-- The previous parameters `prev[b]` (10_state.md R28): the valid bit, and the inputs of the last committed
`UPDATE` as sent. -/
structure Prev where
  valid : Bool
  kind : FilterKind
  ord : BitVec 8
  bwf : Bool
  freq : F
  gain : F
  bw : F
  fs : F
  deriving DecidableEq, Repr

/-- One band: coefficient registers, state registers, descriptor, previous parameters and enable bit
(10_state.md R20). -/
structure Band where
  /-- `C1[b][A]`, `C2[b][A][i]`. -/
  coefA : SubCoefficients
  /-- `C1[b][B]`, `C2[b][B][i]`. -/
  coefB : SubCoefficients
  /-- State registers of channel 0. -/
  left : ChannelState
  /-- State registers of channel 1. -/
  right : ChannelState
  /-- `kind[b]` (R26, R27). -/
  kind : FilterKind
  /-- `eo[b]` (R26). -/
  eo : EffOrder
  /-- `gpost[b]` (R26). -/
  gpost : F
  /-- `fs_used[b]` (R26). -/
  fsUsed : F
  /-- `prev[b]` (R28). -/
  prev : Prev
  /-- `en[b]` (R29). -/
  en : Bool
  deriving DecidableEq, Repr

/-- The coefficient registers of a sub-cascade. -/
def Band.coef (b : Band) : SubCascade → SubCoefficients
  | .A => b.coefA
  | .B => b.coefB

/-- The state registers of a channel. -/
def Band.chan (b : Band) : Channel → ChannelState
  | .left => b.left
  | .right => b.right

/-- The state registers of a sub-cascade, one channel. -/
def ChannelState.sub (c : ChannelState) : SubCascade → SubState
  | .A => c.subA
  | .B => c.subB

/-- Write the state registers of a channel. -/
def Band.setChan (b : Band) : Channel → ChannelState → Band
  | .left, c => { b with left := c }
  | .right, c => { b with right := c }

/-- Write a first-order coefficient record. -/
def Band.setFirst (b : Band) : SubCascade → OnePoleCoefficients → Band
  | .A, c => { b with coefA := { b.coefA with first := c } }
  | .B, c => { b with coefB := { b.coefB with first := c } }

/-- Write a second-order coefficient record. -/
def Band.setSecond (b : Band) : SubCascade → Fin 4 → SVFCoefficients → Band
  | .A, i, c => { b with coefA := { b.coefA with second := b.coefA.second.set i c } }
  | .B, i, c => { b with coefB := { b.coefB with second := b.coefB.second.set i c } }

/-- The state registers of a sub-cascade at `+0.0`. -/
def SubState.zero : SubState := ⟨F.zero, Vector.replicate 4 SVFState.zero⟩

/-- The state registers of a channel at `+0.0`. -/
def ChannelState.zero : ChannelState := ⟨SubState.zero, SubState.zero⟩

/-- `stage_reset` on every slot of the band, both channels: state to `+0.0`, coefficients untouched
(40_stage_datapath.md R106). -/
def Band.stageReset (b : Band) : Band := { b with left := ChannelState.zero, right := ChannelState.zero }

end Sys2Proof.Machine
end

