-- ==== Sys2Proof/Machine/Reset.lean ====
section
/-! DEFINITION. The reset values (10_state.md, 70_reset_and_hazards.md R291) and the configuration of the reset state:
the spec's defaults, and for the OPEN parameters the free values under the constraints the spec puts on them. -/

namespace Sys2Proof.Machine

/-- The configuration of the reset state: `MAX_BLOCK` at its default; the six OPEN parameters free, under their
constraints `RESET_FS` > 2000, `RESET_Q` > 0, Mesa gains finite (92_eei_decisions.md, section 3). -/
def chosenConfig : Config where
  maxBlock := Config.defaultMaxBlock
  mesaShapeA := Config.mesaShapeAChoice
  mesaShapeB := Config.mesaShapeBChoice
  mesaGainADb := constrained F.isFinite Config.mesaGainAChoice F.zero
  mesaGainBDb := constrained F.isFinite Config.mesaGainBChoice F.zero
  resetFs := constrained (F.lt F.twoThousand) Config.resetFsChoice F.fortyEightThousand
  resetQ := constrained (F.lt F.zero) Config.resetQChoice F.butterworthQ

/-- The reset coefficient records: `coef2(Bell, 1000.0, RESET_FS, RESET_Q, 0.0)` for every second-order slot and
`coef1(LowPass1, 1000.0, RESET_FS)` for every first-order slot (R291). -/
def resetRecords (c : Config) : FM (SVFCoefficients × OnePoleCoefficients) := do
  let c2 ← record2 .bell F.thousand c.resetFs c.resetQ F.zero
  let c1 ← record1 .lowPass1 F.thousand c.resetFs
  pure (c2, c1)

/-- `prev[b]` at reset: not valid. The other fields are unspecified and never read while `valid = 0` (10_state.md R28);
the model holds zeros there (log entry 6). -/
def resetPrev : Prev := ⟨false, .bell, 0, false, F.zero, F.zero, F.zero, F.zero⟩

/-- A band at reset: Bell, effective order 2, `gpost = 1.0`, `fs_used = RESET_FS`, state `+0.0`, disabled (R291). -/
def resetBand (c : Config) (c2 : SVFCoefficients) (c1 : OnePoleCoefficients) : Band where
  coefA := ⟨c1, Vector.replicate 4 c2⟩
  coefB := ⟨c1, Vector.replicate 4 c2⟩
  left := ChannelState.zero
  right := ChannelState.zero
  kind := .bell
  eo := .o2
  gpost := F.one
  fsUsed := c.resetFs
  prev := resetPrev
  en := false

end Sys2Proof.Machine
end

