-- ==== Sys2Proof/Machine/State.lean ====
section
/-! DEFINITION. The state of the machine as plain data, its reset value, and the reasons a step can stop. The first
part of `State` is the spec's state (10_state.md R20); the second part is the model's own: the configuration, the
input not yet taken, the responses sent, the port of the operation in execution and the NaN draw counter (log
entries 1, 2, 7). -/

namespace Sys2Proof.Machine

/-- What the outside world sends CBFB: a command packet on one of its two ports (20_memory.md R50), or the reset input
(70_reset_and_hazards.md R290). -/
inductive Input where
  | command (p : Port) (header : Word) (operands : List Word)
  | reset
  deriving DecidableEq, Repr

/-- The reasons a step can stop with a fault: none. Every packet gets a response (30_encoding.md R84), a fault of the
spec is such a response (60_exceptions.md R260), and no operation can hang (93_implementation_defined.md). -/
inductive Fault where
  deriving DecidableEq, Repr

/-- The reasons a step can refuse an instruction. -/
inductive Refusal where
  /-- Raised by an arm of `exec` whose instruction has no meaning yet; no arm raises it. Safe: the machine stops. -/
  | notModelled (mnemonic : String)
  deriving DecidableEq, Repr

/-- The machine's state. -/
structure State where
  /-- The bands in index order; their number is `NBANDS` (10_state.md R20, 44_filterbank.md R210). -/
  bands : List Band
  /-- Control register `FAULT` (10_state.md R35). -/
  fault : Word
  /-- Control register `LASTFAULT` (R36). -/
  lastFault : Word
  /-- Control register `RECOMP` (R37). -/
  recomp : Word
  /-- Control register `FS` (R38). -/
  fs : F
  /-- The configuration (00_scope.md R5). No step changes it. -/
  cfg : Config
  /-- The inputs not yet taken, in the total order of 20_memory.md R59. -/
  inbox : List Input
  /-- The responses sent on the RT port, oldest first (R50). -/
  rtOut : List Packet
  /-- The responses sent on the Q port, oldest first (R50). -/
  qOut : List Packet
  /-- The port the operation in execution arrived on (60_exceptions.md R278). -/
  port : Port
  /-- How many NaNs have been drawn (00_scope.md R8). -/
  draws : Nat
  deriving DecidableEq, Repr

/-- `NBANDS`: how many bands the bank holds. -/
def State.nbands (s : State) : Nat := s.bands.length

/-- The state at reset of a CBFB with `nbands` bands and configuration `c`, the draw counter standing at `d`
(70_reset_and_hazards.md R291). -/
def State.resetFrom (nbands : Nat) (c : Config) (d : Nat) : State where
  bands := List.replicate nbands (resetBand c (resetRecords c d).1.1 (resetRecords c d).1.2)
  fault := 0
  lastFault := 0
  recomp := 0
  fs := F.zero
  cfg := c
  inbox := []
  rtOut := []
  qOut := []
  port := .rt
  draws := (resetRecords c d).2

/-- The machine right after reset: `NBANDS` at its default, no input, no response sent. -/
def State.reset : State := State.resetFrom Config.defaultNBands chosenConfig 0

end Sys2Proof.Machine
end

