-- ==== Sys2Proof/Machine/Operands.lean ====
section
/-! DEFINITION. What the operations make of their operands: the legal orders and pole indices that R84 checks after
the packet (steps 6 and 7), the effective order, the active slots, and the words of results. -/

namespace Sys2Proof.Machine

/-- `ORD` is legal for `UPDATE` and `POLEQ`: 1 to 8 (30_encoding.md R79 f). -/
def orderLegal (ord : BitVec 8) : Bool := decide (1 ≤ ord.toNat) && decide (ord.toNat ≤ 8)

/-- The order of a `QDIST`: legal are 2, 4, 6 and 8 (R79 f). -/
def qdistOrder (ord : BitVec 8) : Option EffOrder :=
  match ord.toNat with
  | 2 => some .o2
  | 4 => some .o4
  | 6 => some .o6
  | 8 => some .o8
  | _ => none

/-- The pole index is in range: at most `ORD/2 - 1` for even `ORD`, at most `(ORD - 1)/2` for odd `ORD` (R78). -/
def poleInRange (ord pole : BitVec 8) : Bool :=
  if ord.toNat % 2 = 0 then decide (pole.toNat ≤ ord.toNat / 2 - 1) else decide (pole.toNat ≤ (ord.toNat - 1) / 2)

/-- An even order as an effective order. -/
def evenOrder (n : Nat) : EffOrder :=
  match n with
  | 2 => .o2
  | 4 => .o4
  | 6 => .o6
  | _ => .o8

/-- `eff_order(kind, ord)` for `ord` in 1..8: order 1 of the kinds with a one-pole form, 1 taken as 2 elsewhere, odd
orders rounded up (43_band.md R174). -/
def effOrder (kind : FilterKind) (ord : BitVec 8) : EffOrder :=
  match kind with
  | .bell | .notch | .allPass => .o2
  | .lowPass | .highPass | .bandPass => if ord.toNat = 1 then .o1 else evenOrder (ord.toNat + ord.toNat % 2)
  | .lowShelf | .highShelf | .tilt | .mesa => if ord.toNat = 1 then .o2 else evenOrder (ord.toNat + ord.toNat % 2)

/-- The indices `0..n-1` of the second-order slots in use (00_scope.md R12, 43_band.md R195). -/
def activeIndices (eo : EffOrder) : List (Fin 4) := [0, 1, 2, 3].take eo.stages

/-- The active slots of one sub-cascade, in processing order. -/
def activeIn (s : SubCascade) (eo : EffOrder) : List Slot :=
  match eo with
  | .o1 => [.first s]
  | .o2 | .o4 | .o6 | .o8 => (activeIndices eo).map (.second s)

/-- The active slots of a band, in processing order (10_state.md R39). -/
def activeSlots (kind : FilterKind) (eo : EffOrder) : List Slot :=
  match kind with
  | .bell | .lowPass | .highPass | .lowShelf | .highShelf | .notch | .tilt | .allPass => activeIn .A eo
  | .bandPass | .mesa => activeIn .A eo ++ activeIn .B eo

/-- The words of a complex result, `re` then `im` (30_encoding.md R74). -/
def complexWords (h : Complex64) : List Word := fsWords [h.re, h.im]

/-- The words of a list of frames, left then right (30_encoding.md R73, R74). -/
def framesWords (frames : List (F × F)) : List Word := fsWords (framesFlat frames)

end Sys2Proof.Machine
end

