-- ==== Sys2Proof/Machine/Flags.lean ====
section
/-! DEFINITION. The flag-like state (10_state.md R30): fault codes, the sticky bits of `FAULT`, the word of
`LASTFAULT`, and the read-only views `CONFIG`, `ENABLE` and the band descriptor word. -/

namespace Sys2Proof.Machine

/-- The number of a fault code (60_exceptions.md R261). -/
def faultNumber : FaultCode → Nat
  | .outsideNyquist => 1
  | .nonPositiveQ => 2
  | .nonPositiveFrequency => 3
  | .illegalOpcode => 4
  | .illegalEncoding => 5
  | .badBand => 6
  | .badKind => 7
  | .unsupportedOrder => 8
  | .blockTooLong => 9
  | .portViolation => 10

/-- The fault code as the response's `STATUS` field (30_encoding.md R75). -/
def faultStatus (k : FaultCode) : BitVec 8 := BitVec.ofNat 8 (faultNumber k)

/-- `FAULT` with bit `k` set (10_state.md R35, 60_exceptions.md R262). -/
def setFaultBit (fault : Word) (k : FaultCode) : Word := fault ||| BitVec.ofNat 32 (2 ^ faultNumber k)

/-- A port as the bit it has in `LASTFAULT`: 0 = RT, 1 = Q (10_state.md R36). -/
def portBit : Port → BitVec 1
  | .rt => 0#1
  | .q => 1#1

/-- `LASTFAULT`: 7:0 the code, 15:8 `OPC`, 19:16 `BAND`, 23:20 `KIND`, 24 the port, 31:25 zero
(10_state.md R36, 60_exceptions.md R262). -/
def lastFaultWord (k : FaultCode) (h : Header) (p : Port) : Word :=
  0#7 ++ portBit p ++ h.kind ++ h.band ++ h.opc ++ faultStatus k

/-- The enable bits as a number: bit `b` is `en[b]`. -/
def enableNumber : List Band → Nat
  | [] => 0
  | b :: rest => (if b.en then 1 else 0) + 2 * enableNumber rest

/-- `ENABLE`: bit `b` = `en[b]` for `b` < `NBANDS`, all other bits 0 (10_state.md R34). -/
def enableView (bands : List Band) : Word := BitVec.ofNat 32 (enableNumber bands)

/-- `ID` (10_state.md R32). -/
def idValue : Word := 0x43424642#32

/-- `CONFIG`: 4:0 `NBANDS`, 11:8 `MAX_ORDER` = 8, all other bits 0 (10_state.md R33). -/
def configView (nbands : Nat) : Word := 0#20 ++ 8#4 ++ 0#3 ++ BitVec.ofNat 5 nbands

/-- The value of a control register, zero-extended to 64 bits (10_state.md R31, 46_readback.md R253). -/
def csrValue (s : State) : Csr → BitVec 64
  | .id => idValue.setWidth 64
  | .config => (configView s.nbands).setWidth 64
  | .enable => (enableView s.bands).setWidth 64
  | .fault => s.fault.setWidth 64
  | .lastFault => s.lastFault.setWidth 64
  | .recomp => s.recomp.setWidth 64
  | .fs => s.fs

/-- The descriptor word `D` of `RDBAND` (46_readback.md R252). -/
def descriptorWord (b : Band) : Word :=
  0#18 ++ BitVec.ofBool b.en ++ BitVec.ofBool b.prev.valid ++ BitVec.ofBool (b.eo == .o1)
    ++ BitVec.ofNat 3 b.eo.stages ++ BitVec.ofNat 4 b.eo.toNat ++ b.kind.code

end Sys2Proof.Machine
end

