-- ==== Sys2Proof/Machine/Ops.lean ====
section
/-! DEFINITION. The operations every meaning is built from: taking an input, answering, faulting, running a
computation that may draw NaNs, the port right, naming a band, and the reset event. There is no byte-addressed memory
(20_memory.md R53), so there is no memory operation. -/

namespace Sys2Proof.Machine

/-- The response header: `OPC` 31:24, `STATUS` 23:16, `INFO` 15:0 (30_encoding.md R75). -/
def responseHeader (opc status : BitVec 8) (info : BitVec 16) : Word := opc ++ status ++ info

/-- Send a response packet on the port the operation came from (20_memory.md R50, R60). -/
def State.send (s : State) (r : Packet) : State :=
  match s.port with
  | .rt => { s with rtOut := s.rtOut ++ [r] }
  | .q => { s with qOut := s.qOut ++ [r] }

/-- `respond(0, info, values...)` (00_scope.md R13, 30_encoding.md R75). -/
def State.respond (s : State) (o : Opc) (info : BitVec 16) (values : List Word) : State :=
  s.send (responseHeader o.byte 0 info :: values)

/-- `raise <Fault>(info)`, the one operation that takes a fault (60_exceptions.md R262): it sets the fault's bit in
`FAULT`, writes `LASTFAULT` from the header fields as received and the port, and answers with the response header
alone. Nothing else changes. There is no handler and so no return from a fault (R276): the next operation executes
normally (R260). -/
def State.raise (s : State) (h : Header) (k : FaultCode) (info : BitVec 16) : State :=
  { s with fault := setFaultBit s.fault k, lastFault := lastFaultWord k h s.port }.send
    [responseHeader h.opc (faultStatus k) info]

/-- Run a computation with the state's draw counter and go on with its result. -/
def State.compute {α : Type} (s : State) (m : FM α) (k : α → State → State) : State :=
  k (m s.draws).1 { s with draws := (m s.draws).2 }

/-- An operation of the RT-only set faults on the Q port (60_exceptions.md R272, R278). -/
def State.rtOnly (s : State) (h : Header) (k : State) : State :=
  match s.port with
  | .rt => k
  | .q => s.raise h .portViolation 0

/-- The band an operation names; `BAND` ≥ `NBANDS` faults (60_exceptions.md R268). -/
def State.onBand (s : State) (h : Header) (b : BitVec 4) (k : Band → State) : State :=
  match s.bands[b.toNat]? with
  | some band => k band
  | none => s.raise h .badBand 0

/-- Write a whole band record. -/
def State.setBand (s : State) (b : BitVec 4) (band : Band) : State := { s with bands := s.bands.set b.toNat band }

/-- Take the next input, a command on port `p`; `rest` is what stays to be taken. -/
def State.accept (s : State) (p : Port) (rest : List Input) : State := { s with inbox := rest, port := p }

/-- The reset event: every register takes its reset value (70_reset_and_hazards.md R290, R291). Responses already sent
stay sent; the inputs behind the reset arrive after it; the number of bands and the configuration are the machine's
own; the NaN draws go on. -/
def State.hardwareReset (s : State) (rest : List Input) : State :=
  { State.resetFrom s.nbands s.cfg s.draws with inbox := rest, rtOut := s.rtOut, qOut := s.qOut }

end Sys2Proof.Machine
end

