-- ==== Sys2Proof/Machine/BandUpdate.lean ====
section
/-! DEFINITION. The operations of the band: the ten `UPDATE.<kind>` and `BRESET` (43_band.md). An update plans its
stages (which slot, which shape, which corner, Q and gain), builds their records in ascending slot number, and
commits them in one step. -/

namespace Sys2Proof.Machine

/-- One stage an update is to build. -/
inductive PlannedStage where
  | first (s : SubCascade) (shape : Shape1) (f0 : F)
  | second (s : SubCascade) (i : Fin 4) (shape : Shape2) (f0 q gainDb : F)
  deriving DecidableEq, Repr

/-- One built record and the slot it goes to. -/
inductive BuiltStage where
  | first (s : SubCascade) (c : OnePoleCoefficients)
  | second (s : SubCascade) (i : Fin 4) (c : SVFCoefficients)
  deriving DecidableEq, Repr

/-- What `build_<kind>` is to build, and the post gain (43_band.md R171 step 3). -/
structure Plan where
  stages : List PlannedStage
  gpost : F
  deriving DecidableEq, Repr

/-- The slot of a planned stage. -/
def PlannedStage.slot : PlannedStage → Slot
  | .first s _ _ => .first s
  | .second s i _ _ _ _ => .second s i

/-- A cascade of one shape in one sub-cascade: stage `i` has the Q `q[i]`; all share corner and gain
(43_band.md R175). -/
def cascadeStages (s : SubCascade) (shape : Shape2) (f0 gainDb : F) (qs : List F) : List PlannedStage :=
  (([0, 1, 2, 3] : List (Fin 4)).zip qs).map fun iq => .second s iq.1 shape f0 iq.2 gainDb

/-- `build_BELL` (43_band.md R176). -/
def planBell (f gain q : F) : FM Plan := pure ⟨[.second .A 0 .bell f q gain], F.one⟩

/-- `build_LP` (43_band.md R177). -/
def planLowPass (f q : F) (eo : EffOrder) : FM Plan :=
  match eo with
  | .o1 => pure ⟨[.first .A .lowPass1 f], F.one⟩
  | .o2 | .o4 | .o6 | .o8 => do
    let qs ← qdist eo q
    pure ⟨cascadeStages .A .lowPass f F.zero qs, F.one⟩

/-- `build_HP` (43_band.md R178). -/
def planHighPass (f q : F) (eo : EffOrder) : FM Plan :=
  match eo with
  | .o1 => pure ⟨[.first .A .highPass1 f], F.one⟩
  | .o2 | .o4 | .o6 | .o8 => do
    let qs ← qdist eo q
    pure ⟨cascadeStages .A .highPass f F.zero qs, F.one⟩

/-- `build_LS`: the gain is divided evenly across the stages (43_band.md R179). -/
def planLowShelf (f gain q : F) (eo : EffOrder) : FM Plan := do
  let qs ← qdist eo q
  let pg ← fdiv gain (F.ofNat eo.stages)
  pure ⟨cascadeStages .A .lowShelf f pg qs, F.one⟩

/-- `build_HS` (43_band.md R180). -/
def planHighShelf (f gain q : F) (eo : EffOrder) : FM Plan := do
  let qs ← qdist eo q
  let pg ← fdiv gain (F.ofNat eo.stages)
  pure ⟨cascadeStages .A .highShelf f pg qs, F.one⟩

/-- `build_NOTCH` (43_band.md R181). -/
def planNotch (f q : F) : FM Plan := pure ⟨[.second .A 0 .notch f q F.zero], F.one⟩

/-- `build_BP`: a HighPass cascade in A, then a LowPass cascade in B, with one Q list (43_band.md R182). -/
def planBandPass (f q : F) (eo : EffOrder) : FM Plan :=
  match eo with
  | .o1 => pure ⟨[.first .A .highPass1 f, .first .B .lowPass1 f], F.one⟩
  | .o2 | .o4 | .o6 | .o8 => do
    let qs ← qdist eo q
    pure ⟨cascadeStages .A .highPass f F.zero qs ++ cascadeStages .B .lowPass f F.zero qs, F.one⟩

/-- `build_TILT`: a HighShelf cascade of twice the gain, and the post gain that takes half of it back
(43_band.md R183). -/
def planTilt (f gain q : F) (eo : EffOrder) : FM Plan := do
  let qs ← qdist eo q
  let tg ← fmul F.two gain
  let pg ← fdiv tg (F.ofNat eo.stages)
  let h ← fmul F.half tg
  let e ← fdiv (F.neg h) F.twenty
  pure ⟨cascadeStages .A .highShelf f pg qs, fPow10 e⟩

/-- The factory shape of a Mesa sub-cascade (43_band.md R184). -/
def shelfShape : Shelf → Shape2
  | .low => .lowShelf
  | .high => .highShelf

/-- `build_MESA`: two shelf cascades around the corners `f/(bw + 0.5)` and `f*(bw + 0.5)`, each clamped; shapes and
shelf gains are the OPEN parameters; the band's gain is the post gain (43_band.md R184). A NaN `bw` makes both corners
NaNs, which the clamp passes (00_scope.md R11), so the factory answers `NonPositiveFrequency` at slot 1 though R188 and
60_exceptions.md R265 name a NaN `freq` as the only way there (log entry 14, DEDUCED). -/
def planMesa (cfg : Config) (f gain bw q : F) (eo : EffOrder) : FM Plan := do
  let w ← fadd bw F.half
  let fa ← fdiv f w
  let fb ← fmul f w
  let qs ← qdist eo q
  let ga ← fdiv cfg.mesaGainADb (F.ofNat eo.stages)
  let gb ← fdiv cfg.mesaGainBDb (F.ofNat eo.stages)
  let e ← fdiv gain F.twenty
  pure ⟨cascadeStages .A (shelfShape cfg.mesaShapeA) (clampFreq fa) ga qs
    ++ cascadeStages .B (shelfShape cfg.mesaShapeB) (clampFreq fb) gb qs, fPow10 e⟩

/-- `build_AP` (43_band.md R185). -/
def planAllPass (f q : F) : FM Plan := pure ⟨[.second .A 0 .allPass f q F.zero], F.one⟩

/-- One factory call of an update. -/
def buildStage (fs : F) (st : PlannedStage) : FM (Except FaultCode BuiltStage) :=
  match st with
  | .first s shape f0 => do
    let r ← coef1 shape f0 fs
    pure (r.map (.first s))
  | .second s i shape f0 q gainDb => do
    let r ← coef2 shape f0 fs q gainDb
    pure (r.map (.second s i))

/-- All factory calls of an update, in the plan's order, which is ascending slot number; the first fault ends them and
names its slot (43_band.md R171 step 3, R188). -/
def buildStages (fs : F) : List PlannedStage → FM (Except (FaultCode × Slot) (List BuiltStage))
  | [] => pure (.ok [])
  | st :: rest => do
    let r ← buildStage fs st
    match r with
    | .error k => pure (.error (k, st.slot))
    | .ok b => do
      let more ← buildStages fs rest
      pure (more.map (b :: ·))

/-- Write one built record to its slot. -/
def Band.writeBuilt (band : Band) : BuiltStage → Band
  | .first s c => band.setFirst s c
  | .second s i c => band.setSecond s i c

/-- The key of an update: its inputs as sent, valid (10_state.md R28). -/
def updateKey (kind : FilterKind) (ord : BitVec 8) (bwf : Bool) (freq gain bw fs : F) : Prev :=
  ⟨true, kind, ord, bwf, freq, gain, bw, fs⟩

/-- The dirty check: `prev[b]` is valid and every compared field has the same bits (43_band.md R172). -/
def dirtyCheckHit (p : Prev) (kind : FilterKind) (ord : BitVec 8) (bwf : Bool) (freq gain bw fs : F) : Bool :=
  p.valid && p.kind == kind && p.ord == ord && p.bwf == bwf && p.freq == freq && p.gain == gain && p.bw == bw
    && p.fs == fs

/-- The band after a commit: the built records written, all state zeroed when the pair `(kind, eo)` changes, the
descriptor and `prev` replaced; the enable bit is not touched (43_band.md R186, R187). -/
def Band.commit (band : Band) (key : Prev) (eo : EffOrder) (built : List BuiltStage) (gpost : F) : Band :=
  let b1 := built.foldl Band.writeBuilt band
  let b2 := if key.kind = band.kind ∧ eo = band.eo then b1 else b1.stageReset
  { b2 with kind := key.kind, eo := eo, gpost := gpost, fsUsed := key.fs, prev := key }

/-- The Q of an update: the third operand as a bandwidth or as it is (43_band.md R173). -/
def updateQ (bwf : Bool) (bw : F) : FM F := if bwf then bw2q bw else pure bw

/-- Steps 2 and 3 of R171: condition the inputs, plan the stages, build them. `plan` gets the clamped frequency, the Q
and the effective order (R173, R174). -/
def prepareUpdate (plan : F → F → EffOrder → FM Plan) (eo : EffOrder) (bwf : Bool) (freq bw fs : F) :
    FM (Except (FaultCode × Slot) (List BuiltStage × F)) := do
  let q ← updateQ bwf bw
  let p ← plan (clampFreq freq) q eo
  let r ← buildStages fs p.stages
  pure (r.map fun built => (built, p.gpost))

/-- `UPDATE.<kind>`, common part (43_band.md R171): port, band and order are checked, the dirty check may end it, else
it builds and either faults with the slot number as `INFO` (R188) or commits (R186). -/
def updateBand (kind : FilterKind) (plan : F → F → EffOrder → FM Plan) (b : BitVec 4) (ord : BitVec 8) (bwf : Bool)
    (freq gain bw fs : F) (s : State) : State :=
  let h := updateHeader kind b ord bwf
  s.rtOnly h (s.onBand h b fun band =>
    if !orderLegal ord then s.raise h .unsupportedOrder 0
    else if dirtyCheckHit band.prev kind ord bwf freq gain bw fs then s.respond .update 1 []
    else s.compute (prepareUpdate plan (effOrder kind ord) bwf freq bw fs) fun r s' =>
      match r with
      | .error e => s'.raise h e.1 (e.2.number.setWidth 16)
      | .ok v =>
        let band' := band.commit (updateKey kind ord bwf freq gain bw fs) (effOrder kind ord) v.1 v.2
        State.respond { s'.setBand b band' with recomp := s'.recomp + 1 } .update 0 [])

/-- `UPDATE.BELL` (43_band.md R176). -/
def execUpdateBell (b : BitVec 4) (ord : BitVec 8) (bwf : Bool) (freq gain bw fs : F) (s : State) :
    Host.Outcome State Fault Refusal :=
  .next (updateBand .bell (fun f q _ => planBell f gain q) b ord bwf freq gain bw fs s)

/-- `UPDATE.LP` (43_band.md R177). -/
def execUpdateLp (b : BitVec 4) (ord : BitVec 8) (bwf : Bool) (freq gain bw fs : F) (s : State) :
    Host.Outcome State Fault Refusal :=
  .next (updateBand .lowPass planLowPass b ord bwf freq gain bw fs s)

/-- `UPDATE.HP` (43_band.md R178). -/
def execUpdateHp (b : BitVec 4) (ord : BitVec 8) (bwf : Bool) (freq gain bw fs : F) (s : State) :
    Host.Outcome State Fault Refusal :=
  .next (updateBand .highPass planHighPass b ord bwf freq gain bw fs s)

/-- `UPDATE.LS` (43_band.md R179). -/
def execUpdateLs (b : BitVec 4) (ord : BitVec 8) (bwf : Bool) (freq gain bw fs : F) (s : State) :
    Host.Outcome State Fault Refusal :=
  .next (updateBand .lowShelf (fun f q eo => planLowShelf f gain q eo) b ord bwf freq gain bw fs s)

/-- `UPDATE.HS` (43_band.md R180). -/
def execUpdateHs (b : BitVec 4) (ord : BitVec 8) (bwf : Bool) (freq gain bw fs : F) (s : State) :
    Host.Outcome State Fault Refusal :=
  .next (updateBand .highShelf (fun f q eo => planHighShelf f gain q eo) b ord bwf freq gain bw fs s)

/-- `UPDATE.NOTCH` (43_band.md R181). -/
def execUpdateNotch (b : BitVec 4) (ord : BitVec 8) (bwf : Bool) (freq gain bw fs : F) (s : State) :
    Host.Outcome State Fault Refusal :=
  .next (updateBand .notch (fun f q _ => planNotch f q) b ord bwf freq gain bw fs s)

/-- `UPDATE.BP` (43_band.md R182). -/
def execUpdateBp (b : BitVec 4) (ord : BitVec 8) (bwf : Bool) (freq gain bw fs : F) (s : State) :
    Host.Outcome State Fault Refusal :=
  .next (updateBand .bandPass planBandPass b ord bwf freq gain bw fs s)

/-- `UPDATE.TILT` (43_band.md R183). -/
def execUpdateTilt (b : BitVec 4) (ord : BitVec 8) (bwf : Bool) (freq gain bw fs : F) (s : State) :
    Host.Outcome State Fault Refusal :=
  .next (updateBand .tilt (fun f q eo => planTilt f gain q eo) b ord bwf freq gain bw fs s)

/-- `UPDATE.MESA` (43_band.md R184). -/
def execUpdateMesa (b : BitVec 4) (ord : BitVec 8) (bwf : Bool) (freq gain bw fs : F) (s : State) :
    Host.Outcome State Fault Refusal :=
  .next (updateBand .mesa (fun f q eo => planMesa s.cfg f gain bw q eo) b ord bwf freq gain bw fs s)

/-- `UPDATE.AP` (43_band.md R185). -/
def execUpdateAp (b : BitVec 4) (ord : BitVec 8) (bwf : Bool) (freq gain bw fs : F) (s : State) :
    Host.Outcome State Fault Refusal :=
  .next (updateBand .allPass (fun f q _ => planAllPass f q) b ord bwf freq gain bw fs s)

/-- `BRESET`: explicit reset of a band's filter memory (43_band.md R190). -/
def execBreset (b : BitVec 4) (s : State) : Host.Outcome State Fault Refusal :=
  let h := Opc.breset.onBand b
  .next (s.rtOnly h (s.onBand h b fun band => (s.setBand b band.stageReset).respond .breset 0 []))

end Sys2Proof.Machine
end

