-- ==== Sys2Proof/Machine/Bank.lean ====
section
/-! DEFINITION. Per-sample processing of a band (43_band.md R195) and the operations of the bank: `ENABLE`, `DISABLE`,
`SRATE`, `PROC`, `PROCB` (44_filterbank.md). -/

namespace Sys2Proof.Machine

/-- A sample through the second-order slots with the given indices, in that order, each writing back its new state
(43_band.md R195). -/
def runSlots (cs : Vector SVFCoefficients 4) : List (Fin 4) → Vector SVFState 4 → F → FM (F × Vector SVFState 4)
  | [], st, y => pure (y, st)
  | i :: rest, st, y => do
    let r ← tick2 cs[i] st[i] y
    runSlots cs rest (st.set i r.2) r.1

/-- A sample through the second-order slots `0..n-1` of a sub-cascade. -/
def runSecond (c : SubCoefficients) (eo : EffOrder) (st : SubState) (x : F) : FM (F × SubState) := do
  let r ← runSlots c.second (activeIndices eo) st.second x
  pure (r.1, { st with second := r.2 })

/-- A sample through a sub-cascade in series: its first-order slot when `eo = 1`, else its second-order slots. -/
def runSub (c : SubCoefficients) (eo : EffOrder) (st : SubState) (x : F) : FM (F × SubState) :=
  match eo with
  | .o1 => do
    let r ← tick1 c.first st.first x
    pure (r.1, { st with first := r.2 })
  | .o2 | .o4 | .o6 | .o8 => runSecond c eo st x

/-- `band_tick(b, c, x) -> y`: one sample of one channel through the band (43_band.md R195). Mesa is the parallel sum
times the post gain; BandPass runs A then B; Tilt multiplies by the post gain; the rest run A alone. -/
def bandTick (b : Band) (ch : ChannelState) (x : F) : FM (F × ChannelState) :=
  match b.kind with
  | .mesa => do
    let ra ← runSecond b.coefA b.eo ch.subA x
    let rb ← runSecond b.coefB b.eo ch.subB x
    let sum ← fadd ra.1 rb.1
    let y ← fmul sum b.gpost
    pure (y, ⟨ra.2, rb.2⟩)
  | .bandPass => do
    let ra ← runSub b.coefA b.eo ch.subA x
    let rb ← runSub b.coefB b.eo ch.subB ra.1
    pure (rb.1, ⟨ra.2, rb.2⟩)
  | .tilt => do
    let ra ← runSub b.coefA b.eo ch.subA x
    let y ← fmul ra.1 b.gpost
    pure (y, { ch with subA := ra.2 })
  | .bell | .lowPass | .highPass | .lowShelf | .highShelf | .notch | .allPass => do
    let ra ← runSub b.coefA b.eo ch.subA x
    pure (ra.1, { ch with subA := ra.2 })

/-- One stereo frame through the bands from the given one on, ascending; a disabled band passes the frame unchanged and
its state does not move (44_filterbank.md R214, R212). -/
def frameThrough : List Band → F × F → FM (List Band × (F × F))
  | [], lr => pure ([], lr)
  | b :: rest, lr =>
    if b.en then do
      let l ← bandTick b b.left lr.1
      let r ← bandTick b b.right lr.2
      let more ← frameThrough rest (l.1, r.1)
      pure ({ b with left := l.2, right := r.2 } :: more.1, more.2)
    else do
      let more ← frameThrough rest lr
      pure (b :: more.1, more.2)

/-- A block of frames, each starting from the state the previous frame left (44_filterbank.md R215). -/
def blockThrough : List Band → List (F × F) → FM (List Band × List (F × F))
  | bands, [] => pure (bands, [])
  | bands, fr :: rest => do
    let r ← frameThrough bands fr
    let more ← blockThrough r.1 rest
    pure (more.1, r.2 :: more.2)

/-- `ENABLE`: switch a band into the signal path (44_filterbank.md R211). -/
def execEnable (b : BitVec 4) (s : State) : Host.Outcome State Fault Refusal :=
  let h := Opc.enable.onBand b
  .next (s.rtOnly h (s.onBand h b fun band => (s.setBand b { band with en := true }).respond .enable 0 []))

/-- `DISABLE`: take a band out of the signal path (44_filterbank.md R212). -/
def execDisable (b : BitVec 4) (s : State) : Host.Outcome State Fault Refusal :=
  let h := Opc.disable.onBand b
  .next (s.rtOnly h (s.onBand h b fun band => (s.setBand b { band with en := false }).respond .disable 0 []))

/-- A band whose dirty check is invalidated (44_filterbank.md R213). -/
def Band.invalidate (band : Band) : Band := { band with prev := { band.prev with valid := false } }

/-- `SRATE`: latch `FS` and invalidate every dirty check; the operand is not checked (44_filterbank.md R213). -/
def execSrate (newFs : F) (s : State) : Host.Outcome State Fault Refusal :=
  .next (s.rtOnly Opc.srate.plain
    (State.respond { s with fs := newFs, bands := s.bands.map Band.invalidate } .srate 0 []))

/-- `PROC`: one stereo frame through the bank (44_filterbank.md R214). -/
def execProc (xL xR : F) (s : State) : Host.Outcome State Fault Refusal :=
  .next (s.rtOnly Opc.proc.plain (s.compute (frameThrough s.bands (xL, xR)) fun r s' =>
    State.respond { s' with bands := r.1 } .proc 0 (framesWords [r.2])))

/-- `PROCB`: a block of frames through the bank; the response repeats the count word (44_filterbank.md R215). A block
longer than `MAX_BLOCK` faults and processes no frame (60_exceptions.md R271). -/
def execProcb (frames : List (F × F)) (s : State) : Host.Outcome State Fault Refusal :=
  .next (s.rtOnly Opc.procb.plain (
    if s.cfg.maxBlock < frames.length then s.raise Opc.procb.plain .blockTooLong 0
    else s.compute (blockThrough s.bands frames) fun r s' =>
      State.respond { s' with bands := r.1 } .procb 0 (BitVec.ofNat 32 frames.length :: framesWords r.2)))

end Sys2Proof.Machine
end

