-- ==== Sys2Proof/Machine/Calculators.lean ====
section
/-! DEFINITION. The operations of the cascade Q-distribution calculator: `POLEQ`, `QDIST`, `BW2Q`
(42_cascade_builder.md). -/

namespace Sys2Proof.Machine

/-- `POLEQ`: the Butterworth Q of a pole pair (42_cascade_builder.md R151). The order is checked before the pole index
(30_encoding.md R84). -/
def execPoleq (ord pole : BitVec 8) (s : State) : Host.Outcome State Fault Refusal :=
  let h : Header := ⟨Opc.poleq.byte, 0, 0, ord, pole⟩
  .next (
    if !orderLegal ord then s.raise h .unsupportedOrder 0
    else if !poleInRange ord pole then s.raise h .illegalEncoding 0
    else s.compute (poleq ord.toNat pole.toNat) fun r s' =>
      s'.respond .poleq (if r.1 then 1 else 0) (fWords r.2))

/-- `QDIST`: the per-stage Q list of a cascade, `INFO` = its length (42_cascade_builder.md R153). -/
def execQdist (ord : BitVec 8) (q : F) (s : State) : Host.Outcome State Fault Refusal :=
  .next (
    match qdistOrder ord with
    | none => s.raise ⟨Opc.qdist.byte, 0, 0, ord, 0⟩ .unsupportedOrder 0
    | some eo => s.compute (qdist eo q) fun qs s' => s'.respond .qdist (BitVec.ofNat 16 eo.stages) (fsWords qs))

/-- `BW2Q`: bandwidth in octaves to Q (42_cascade_builder.md R155). -/
def execBw2q (bw : F) (s : State) : Host.Outcome State Fault Refusal :=
  .next (s.compute (bw2q bw) fun q s' => s'.respond .bw2q 0 (fWords q))

end Sys2Proof.Machine
end

