-- ==== Sys2Proof/Machine/Coef.lean ====
section
/-! DEFINITION. The ten `COEF.<shape>` operations (41_coefficient_factory.md). -/

namespace Sys2Proof.Machine

/-- `COEF` of a second-order shape: the factory's fault, or the nine values of the record (R121, section 3). -/
def answerCoef2 (shape : Shape2) (f0 fs q gainDb : F) (s : State) : State :=
  s.compute (coef2 shape f0 fs q gainDb) fun r s' =>
    match r with
    | .error k => s'.raise (coefHeader shape.code) k 0
    | .ok c => s'.respond .coef 0 (fsWords c.toList)

/-- `COEF` of a first-order shape: the factory's fault, or the four values of the record (R132, R133). -/
def answerCoef1 (shape : Shape1) (f0 fs : F) (s : State) : State :=
  s.compute (coef1 shape f0 fs) fun r s' =>
    match r with
    | .error k => s'.raise (coefHeader shape.code) k 0
    | .ok c => s'.respond .coef 0 (fsWords c.toList)

/-- `COEF.LP` (41_coefficient_factory.md R124). -/
def execCoefLp (f0 fs q : F) (s : State) : Host.Outcome State Fault Refusal :=
  .next (answerCoef2 .lowPass f0 fs q F.zero s)

/-- `COEF.HP` (41_coefficient_factory.md R125). -/
def execCoefHp (f0 fs q : F) (s : State) : Host.Outcome State Fault Refusal :=
  .next (answerCoef2 .highPass f0 fs q F.zero s)

/-- `COEF.BP` (41_coefficient_factory.md R126). -/
def execCoefBp (f0 fs q : F) (s : State) : Host.Outcome State Fault Refusal :=
  .next (answerCoef2 .bandPass f0 fs q F.zero s)

/-- `COEF.NOTCH` (41_coefficient_factory.md R127). -/
def execCoefNotch (f0 fs q : F) (s : State) : Host.Outcome State Fault Refusal :=
  .next (answerCoef2 .notch f0 fs q F.zero s)

/-- `COEF.AP` (41_coefficient_factory.md R128). -/
def execCoefAp (f0 fs q : F) (s : State) : Host.Outcome State Fault Refusal :=
  .next (answerCoef2 .allPass f0 fs q F.zero s)

/-- `COEF.BELL` (41_coefficient_factory.md R129). -/
def execCoefBell (f0 fs q gainDb : F) (s : State) : Host.Outcome State Fault Refusal :=
  .next (answerCoef2 .bell f0 fs q gainDb s)

/-- `COEF.LS` (41_coefficient_factory.md R130). -/
def execCoefLs (f0 fs q gainDb : F) (s : State) : Host.Outcome State Fault Refusal :=
  .next (answerCoef2 .lowShelf f0 fs q gainDb s)

/-- `COEF.HS` (41_coefficient_factory.md R131). -/
def execCoefHs (f0 fs q gainDb : F) (s : State) : Host.Outcome State Fault Refusal :=
  .next (answerCoef2 .highShelf f0 fs q gainDb s)

/-- `COEF.LP1` (41_coefficient_factory.md R132). -/
def execCoefLp1 (f0 fs : F) (s : State) : Host.Outcome State Fault Refusal :=
  .next (answerCoef1 .lowPass1 f0 fs s)

/-- `COEF.HP1` (41_coefficient_factory.md R133). -/
def execCoefHp1 (f0 fs : F) (s : State) : Host.Outcome State Fault Refusal :=
  .next (answerCoef1 .highPass1 f0 fs s)

end Sys2Proof.Machine
end

