-- ==== Sys2Proof/Machine/ReadBack.lean ====
section
/-! DEFINITION. The read-back operations: `RDCOEF`, `RDSTATE`, `RDBAND`, `RDCSR` (46_readback.md). None changes any
register. -/

namespace Sys2Proof.Machine

/-- `RDCOEF`: one coefficient record of a band, active or not; `INFO` bit 0 marks a first-order record
(46_readback.md R250). -/
def execRdcoef (b : BitVec 4) (slot : Slot) (s : State) : Host.Outcome State Fault Refusal :=
  .next (s.onBand (Instr.rdcoef b slot).header b fun band =>
    match slot with
    | .first sub => s.respond .rdcoef 1 (fsWords (band.coef sub).first.toList)
    | .second sub i => s.respond .rdcoef 0 (fsWords (band.coef sub).second[i].toList))

/-- `RDSTATE`: the state registers of one slot and channel; RT port only (46_readback.md R251). -/
def execRdstate (b : BitVec 4) (slot : Slot) (ch : Channel) (s : State) : Host.Outcome State Fault Refusal :=
  let h := (Instr.rdstate b slot ch).header
  .next (s.rtOnly h (s.onBand h b fun band =>
    match slot with
    | .first sub => s.respond .rdstate 1 (fWords ((band.chan ch).sub sub).first)
    | .second sub i =>
      s.respond .rdstate 0
        (fsWords [((band.chan ch).sub sub).second[i].ic1eq, ((band.chan ch).sub sub).second[i].ic2eq])))

/-- `RDCSR`: a control register, low word then high word (46_readback.md R253). -/
def execRdcsr (n : Csr) (s : State) : Host.Outcome State Fault Refusal :=
  .next (s.respond .rdcsr 0 (fWords (csrValue s n)))

/-- `RDBAND`: the descriptor word, `gpost` and `fs_used` of a band (46_readback.md R252). -/
def execRdband (b : BitVec 4) (s : State) : Host.Outcome State Fault Refusal :=
  .next (s.onBand (Opc.rdband.onBand b) b fun band =>
    s.respond .rdband 0 (descriptorWord band :: fsWords [band.gpost, band.fsUsed]))

end Sys2Proof.Machine
end

