-- ==== Sys2Proof/Machine/Transfer.lean ====
section
/-! DEFINITION. The stage functions of the transfer-function evaluator: `zinv`, `h2`, `h1`
(45_response_sampler.md). -/

namespace Sys2Proof

/-- The lines of `zinv`: the powers `z⁻¹` and `z⁻²` (45_response_sampler.md R231). -/
def zinvLines (f fs : F) : FM (Complex64 × Complex64) := do
  let twoPi ← fmul F.two F.pi
  let t ← fmul twoPi f
  let theta ← fdiv t fs
  let z1 : Complex64 := ⟨fCos theta, fSin theta⟩
  let z2 ← cmul z1 z1
  pure (z1, z2)

/-- `x` where it is a NaN, else a NaN. -/
def asNaN (x : F) : FM F := if F.isNaN x then pure x else freshNaN

/-- A complex value whose parts are NaNs: `z`'s own where they are. -/
def complexNaN (z : Complex64) : FM Complex64 := do
  let re ← asNaN z.re
  let im ← asNaN z.im
  pure ⟨re, im⟩

/-- The complex value `(1, 0)`. The rules do not give the sign of its zero: it is `z`'s where `z.im` is a zero, else plus
(log entry 15). -/
def complexOne (z : Complex64) : Complex64 := ⟨F.one, if F.isZero z.im then z.im else F.zero⟩

/-- The corner cases 45_response_sampler.md R234 states of the powers `z` that the lines of R231 give: `fs = 0` gives NaN,
and `f = 0` gives `z1 = z2 = (1, 0)`. They follow from the lines where `f_cos` and `f_sin` are near the real functions,
which D3 does not ask of them. There this is `z` itself (log entry 15). -/
def zinvCorner (f fs : F) (z : Complex64 × Complex64) : FM (Complex64 × Complex64) :=
  if F.isZero fs then do
    let z1 ← complexNaN z.1
    let z2 ← complexNaN z.2
    pure (z1, z2)
  else if F.isZero f && !F.isNaN fs then pure (complexOne z.1, complexOne z.2)
  else pure z

/-- `zinv(f, fs) -> (z1, z2)`: the lines of R231, with the corner cases of R234. -/
def zinv (f fs : F) : FM (Complex64 × Complex64) := do
  let z ← zinvLines f fs
  zinvCorner f fs z

/-- The lines of `h2` from the powers of `z⁻¹` on (45_response_sampler.md R232). The arithmetic is an argument, as in
`tick2Lines`: `add`, `sub`, `mul` on the fields of the record, `ofReal`, `cadd`, `csub`, `cdiv`, `cscale` on the values of
the transfer function. -/
def h2Lines {M : Type → Type} [Monad M] {α γ : Type} (add sub mul : α → α → M α) (one two : α) (ofReal : α → γ)
    (cadd csub cdiv : γ → γ → M γ) (cscale : α → γ → M γ) (g k m0 m1 m2 g2 : α) (z1 z2 : γ) : M γ := do
  let gk ← mul g k
  let g2gk ← add g2 gk
  let d0 ← add g2gk one
  let g2m1 ← sub g2 one
  let d1 ← mul two g2m1
  let g2mgk ← sub g2 gk
  let d2 ← add g2mgk one
  let dz1 ← cscale d1 z1
  let den0 ← cadd (ofReal d0) dz1
  let dz2 ← cscale d2 z2
  let den ← cadd den0 dz2
  let m1g ← mul m1 g
  let oneMinusZ2 ← csub (ofReal one) z2
  let nb ← cscale m1g oneMinusZ2
  let m2g2 ← mul m2 g2
  let twoZ1 ← cscale two z1
  let l0 ← cadd (ofReal one) twoZ1
  let l1 ← cadd l0 z2
  let nl ← cscale m2g2 l1
  let num ← cadd nb nl
  let quot ← cdiv num den
  cadd (ofReal m0) quot

/-- The lines of `h1` from `z⁻¹` on (45_response_sampler.md R233). -/
def h1Lines {M : Type → Type} [Monad M] {α γ : Type} (add sub mul : α → α → M α) (one : α) (ofReal : α → γ)
    (cadd cdiv : γ → γ → M γ) (cscale : α → γ → M γ) (g m0 m1 : α) (z1 : γ) : M γ := do
  let m1g ← mul m1 g
  let onePlus ← cadd (ofReal one) z1
  let num ← cscale m1g onePlus
  let gp1 ← add g one
  let gm1 ← sub g one
  let gz ← cscale gm1 z1
  let den ← cadd (ofReal gp1) gz
  let quot ← cdiv num den
  cadd (ofReal m0) quot

/-- `h2(c, f, fs) -> H` for a second-order record (45_response_sampler.md R232). -/
def h2 (c : SVFCoefficients) (f fs : F) : FM Complex64 := do
  let z ← zinv f fs
  h2Lines fadd fsub fmul F.one F.two creal cadd csub cdiv cscale c.g c.k c.m0 c.m1 c.m2 c.g2 z.1 z.2

/-- `h1(c, f, fs) -> H` for a first-order record (45_response_sampler.md R233). -/
def h1 (c : OnePoleCoefficients) (f fs : F) : FM Complex64 := do
  let z ← zinv f fs
  h1Lines fadd fsub fmul F.one creal cadd cdiv cscale c.g c.m0 c.m1 z.1

end Sys2Proof
end

