-- ==== Sys2Proof/Machine/Response.lean ====
section
/-! DEFINITION. The operations of the transfer-function evaluator: `HSTAGE2`, `HSTAGE1`, `BODE`
(45_response_sampler.md). -/

namespace Sys2Proof.Machine

/-- The product of the values of the second-order slots with the given indices, onto `acc` (45_response_sampler.md R235). -/
def productOver (cs : Vector SVFCoefficients 4) (f fs : F) : List (Fin 4) → Complex64 → FM Complex64
  | [], acc => pure acc
  | i :: rest, acc => do
    let h ← h2 cs[i] f fs
    let acc' ← cmul acc h
    productOver cs f fs rest acc'

/-- `sub(s)`: the value of one sub-cascade (45_response_sampler.md R235). -/
def subResponse (c : SubCoefficients) (eo : EffOrder) (f fs : F) : FM Complex64 :=
  match eo with
  | .o1 => h1 c.first f fs
  | .o2 | .o4 | .o6 | .o8 => do
    let acc ← h2 c.second[0] f fs
    productOver c.second f fs ((activeIndices eo).drop 1) acc

/-- `band_response(b, f) -> H` (45_response_sampler.md R235). It reads coefficients and descriptor, never state (R237). R238
says that a band at reset answers `(1.0, 0.0)` for every `f`; this is the formula's answer, also where that is another, as
at a NaN `f` (log entry 16). -/
def bandResponse (b : Band) (f : F) : FM Complex64 :=
  match b.kind with
  | .mesa => do
    let ha ← subResponse b.coefA b.eo f b.fsUsed
    let hb ← subResponse b.coefB b.eo f b.fsUsed
    let sum ← cadd ha hb
    cscale b.gpost sum
  | .bandPass => do
    let ha ← subResponse b.coefA b.eo f b.fsUsed
    let hb ← subResponse b.coefB b.eo f b.fsUsed
    cmul ha hb
  | .tilt => do
    let ha ← subResponse b.coefA b.eo f b.fsUsed
    cscale b.gpost ha
  | .bell | .lowPass | .highPass | .lowShelf | .highShelf | .notch | .allPass => subResponse b.coefA b.eo f b.fsUsed

/-- `HSTAGE2`: the value of one second-order record given as operands (45_response_sampler.md R234). -/
def execHstage2 (c : SVFCoefficients) (f fs : F) (s : State) : Host.Outcome State Fault Refusal :=
  .next (s.compute (h2 c f fs) fun h s' => s'.respond .hstage2 0 (complexWords h))

/-- `HSTAGE1`: the value of one first-order record given as operands (45_response_sampler.md R236). -/
def execHstage1 (c : OnePoleCoefficients) (f fs : F) (s : State) : Host.Outcome State Fault Refusal :=
  .next (s.compute (h1 c f fs) fun h s' => s'.respond .hstage1 0 (complexWords h))

/-- `BODE`: the value of a band at one frequency; the enable bit is not looked at (45_response_sampler.md R238). -/
def execBode (b : BitVec 4) (f : F) (s : State) : Host.Outcome State Fault Refusal :=
  .next (s.onBand (Opc.bode.onBand b) b fun band =>
    s.compute (bandResponse band f) fun h s' => s'.respond .bode 0 (complexWords h))

end Sys2Proof.Machine
end

