-- ==== Sys2Proof/Machine/Stage.lean ====
section
/-! DEFINITION. The operations of the stage datapath: `TICK2`, `TICK1` (40_stage_datapath.md). -/

namespace Sys2Proof.Machine

/-- `TICK2`: one second-order tick on operand values (40_stage_datapath.md R102). The record's `g`, `k`, `g2` are not
operands, since the tick does not read them (R100); zeros stand in their places. -/
def execTick2 (a1 a2 a3 m0 m1 m2 ic1eq ic2eq x : F) (s : State) : Host.Outcome State Fault Refusal :=
  .next (s.compute (tick2 ⟨F.zero, F.zero, a1, a2, a3, m0, m1, m2, F.zero⟩ ⟨ic1eq, ic2eq⟩ x) fun r s' =>
    s'.respond .tick2 0 (fsWords [r.1, r.2.ic1eq, r.2.ic2eq]))

/-- `TICK1`: one first-order tick on operand values (40_stage_datapath.md R105). The record's `g` is not an operand,
since the tick does not read it (R104); zero stands in its place. -/
def execTick1 (a m0 m1 s0 x : F) (s : State) : Host.Outcome State Fault Refusal :=
  .next (s.compute (tick1 ⟨F.zero, a, m0, m1⟩ s0 x) fun r s' => s'.respond .tick1 0 (fsWords [r.1, r.2]))

end Sys2Proof.Machine
end

