-- ==== Sys2Proof/Machine/Dispatch.lean ====
section
/-! DEFINITION. One arm per constructor of `Instr`: which meaning runs it. -/

namespace Sys2Proof.Machine

def exec (i : Instr) (s : State) : Host.Outcome State Fault Refusal :=
  match i with
  | .tick2 a1 a2 a3 m0 m1 m2 ic1eq ic2eq x => Sys2Proof.Machine.execTick2 a1 a2 a3 m0 m1 m2 ic1eq ic2eq x s
  | .tick1 a m0 m1 s0 x => Sys2Proof.Machine.execTick1 a m0 m1 s0 x s
  | .coefLp f0 fs q => Sys2Proof.Machine.execCoefLp f0 fs q s
  | .coefHp f0 fs q => Sys2Proof.Machine.execCoefHp f0 fs q s
  | .coefBp f0 fs q => Sys2Proof.Machine.execCoefBp f0 fs q s
  | .coefNotch f0 fs q => Sys2Proof.Machine.execCoefNotch f0 fs q s
  | .coefAp f0 fs q => Sys2Proof.Machine.execCoefAp f0 fs q s
  | .coefBell f0 fs q gainDb => Sys2Proof.Machine.execCoefBell f0 fs q gainDb s
  | .coefLs f0 fs q gainDb => Sys2Proof.Machine.execCoefLs f0 fs q gainDb s
  | .coefHs f0 fs q gainDb => Sys2Proof.Machine.execCoefHs f0 fs q gainDb s
  | .coefLp1 f0 fs => Sys2Proof.Machine.execCoefLp1 f0 fs s
  | .coefHp1 f0 fs => Sys2Proof.Machine.execCoefHp1 f0 fs s
  | .poleq ord pole => Sys2Proof.Machine.execPoleq ord pole s
  | .qdist ord q => Sys2Proof.Machine.execQdist ord q s
  | .bw2q bw => Sys2Proof.Machine.execBw2q bw s
  | .updateBell b ord bwf freq gain bw fs => Sys2Proof.Machine.execUpdateBell b ord bwf freq gain bw fs s
  | .updateLp b ord bwf freq gain bw fs => Sys2Proof.Machine.execUpdateLp b ord bwf freq gain bw fs s
  | .updateHp b ord bwf freq gain bw fs => Sys2Proof.Machine.execUpdateHp b ord bwf freq gain bw fs s
  | .updateLs b ord bwf freq gain bw fs => Sys2Proof.Machine.execUpdateLs b ord bwf freq gain bw fs s
  | .updateHs b ord bwf freq gain bw fs => Sys2Proof.Machine.execUpdateHs b ord bwf freq gain bw fs s
  | .updateNotch b ord bwf freq gain bw fs => Sys2Proof.Machine.execUpdateNotch b ord bwf freq gain bw fs s
  | .updateBp b ord bwf freq gain bw fs => Sys2Proof.Machine.execUpdateBp b ord bwf freq gain bw fs s
  | .updateTilt b ord bwf freq gain bw fs => Sys2Proof.Machine.execUpdateTilt b ord bwf freq gain bw fs s
  | .updateMesa b ord bwf freq gain bw fs => Sys2Proof.Machine.execUpdateMesa b ord bwf freq gain bw fs s
  | .updateAp b ord bwf freq gain bw fs => Sys2Proof.Machine.execUpdateAp b ord bwf freq gain bw fs s
  | .breset b => Sys2Proof.Machine.execBreset b s
  | .enable b => Sys2Proof.Machine.execEnable b s
  | .disable b => Sys2Proof.Machine.execDisable b s
  | .srate newFs => Sys2Proof.Machine.execSrate newFs s
  | .proc xL xR => Sys2Proof.Machine.execProc xL xR s
  | .procb frames => Sys2Proof.Machine.execProcb frames s
  | .hstage2 c f fs => Sys2Proof.Machine.execHstage2 c f fs s
  | .hstage1 c f fs => Sys2Proof.Machine.execHstage1 c f fs s
  | .bode b f => Sys2Proof.Machine.execBode b f s
  | .rdcoef b slot => Sys2Proof.Machine.execRdcoef b slot s
  | .rdstate b slot ch => Sys2Proof.Machine.execRdstate b slot ch s
  | .rdcsr n => Sys2Proof.Machine.execRdcsr n s
  | .rdband b => Sys2Proof.Machine.execRdband b s

end Sys2Proof.Machine
end

