-- ==== Sys2Proof/Machine/Step.lean ====
section
/-! DEFINITION. One step: take the next input and run it to its end. -/

namespace Sys2Proof.Machine

/-- One step takes one input (20_memory.md R59: operations run one at a time, each from start to end). A command is
decoded and executed, or answered with its decode fault (30_encoding.md R84); the reset input resets
(70_reset_and_hazards.md R290); with no input nothing happens (60_exceptions.md R273). -/
def step (s : State) : Host.Outcome State Fault Refusal :=
  match s.inbox with
  | [] => .next s
  | .reset :: rest => .next (s.hardwareReset rest)
  | .command p header operands :: rest =>
    match decode s.cfg.maxBlock p header operands with
    | .ok i => exec i (s.accept p rest)
    | .error k => .next ((s.accept p rest).raise (Header.ofWord header) k 0)

/-- The state with an instruction whose bits are `w` as the next input, a command packet on the RT port, ahead of
every input already waiting. -/
def State.withFetchWord (s : State) (nbits w : Nat) : State :=
  { s with inbox := .command .rt (tablePacket nbits w).1 (tablePacket nbits w).2 :: s.inbox }

end Sys2Proof.Machine
end

