-- ==== Sys2Proof/Safety.lean ====
section
/-! DEFINITION. The terms statements use: IEEE results as relations (so that a statement says which value results and
leaves a NaN's bits open), what nearest means, the invariant of the machine, and what of a state an operation leaves
alone. Nothing here is read by the machine. -/

namespace Sys2Proof.Machine

/-! ## IEEE results as relations -/

/-- `r` is a result an IEEE operation may give: its value, or any quiet NaN where the result is a NaN
(00_scope.md R7, R8). -/
def IsResult (o : Option F) (r : F) : Prop :=
  match o with
  | some v => r = v
  | none => F.isQuietNaN r = true

/-- `r` is `x + y`. -/
def IsSum (x y r : F) : Prop := IsResult (F.add x y) r
/-- `r` is `x - y`. -/
def IsDiff (x y r : F) : Prop := IsResult (F.sub x y) r
/-- `r` is `x * y`. -/
def IsProd (x y r : F) : Prop := IsResult (F.mul x y) r
/-- `r` is `x / y`. -/
def IsQuot (x y r : F) : Prop := IsResult (F.div x y) r
/-- `r` is the square root of `x`. -/
def IsRoot (x r : F) : Prop := IsResult (F.sqrt x) r

/-- `r` is `(x*y) + (z*w)`. -/
def IsSumOfProds (x y z w r : F) : Prop := ∃ p q, IsProd x y p ∧ IsProd z w q ∧ IsSum p q r
/-- `r` is `(x*y) - (z*w)`. -/
def IsDiffOfProds (x y z w r : F) : Prop := ∃ p q, IsProd x y p ∧ IsProd z w q ∧ IsDiff p q r

/-- The complex sum (00_scope.md R10). -/
def IsCAdd (u v r : Complex64) : Prop := IsSum u.re v.re r.re ∧ IsSum u.im v.im r.im
/-- The complex difference. -/
def IsCSub (u v r : Complex64) : Prop := IsDiff u.re v.re r.re ∧ IsDiff u.im v.im r.im
/-- The complex multiple by an `F`. -/
def IsCScale (k : F) (u r : Complex64) : Prop := IsProd k u.re r.re ∧ IsProd k u.im r.im
/-- The complex product. -/
def IsCMul (u v r : Complex64) : Prop :=
  IsDiffOfProds u.re v.re u.im v.im r.re ∧ IsSumOfProds u.re v.im u.im v.re r.im
/-- The complex quotient. -/
def IsCDiv (u v r : Complex64) : Prop :=
  ∃ den nr ni, IsSumOfProds v.re v.re v.im v.im den ∧ IsSumOfProds u.re v.re u.im v.im nr ∧
    IsDiffOfProds u.im v.re u.re v.im ni ∧ IsQuot nr den r.re ∧ IsQuot ni den r.im

/-- Two values are the same, or both are NaNs: equality that leaves a NaN's bits open (00_scope.md R8). -/
def SameF (x y : F) : Prop := x = y ∨ (F.isNaN x = true ∧ F.isNaN y = true)

/-- The state pairs of a stage agree up to a NaN's bits. -/
def SameSVF (a b : SVFState) : Prop := SameF a.ic1eq b.ic1eq ∧ SameF a.ic2eq b.ic2eq

/-- The state registers of a sub-cascade agree up to a NaN's bits. -/
def SameSub (a b : SubState) : Prop := SameF a.first b.first ∧ ∀ i : Fin 4, SameSVF a.second[i] b.second[i]

/-- The state registers of a channel agree up to a NaN's bits. -/
def SameChannel (a b : ChannelState) : Prop := SameSub a.subA b.subA ∧ SameSub a.subB b.subB

/-- Two response packets are the same, or have one header and agree value for value up to a NaN's bits. -/
def SameAnswer (r₁ r₂ : Packet) : Prop :=
  r₁ = r₂ ∨ ∃ header xs ys, r₁ = header :: fsWords xs ∧ r₂ = header :: fsWords ys ∧ List.Forall₂ SameF xs ys

/-- One channel's sample of a stereo frame. -/
def side : Channel → F × F → F
  | .left, x => x.1
  | .right, x => x.2

/-! ## Rounding -/

/-- The magnitude, in units of 2^-1074, from which rounding gives an infinity: half a unit in the last place above the
greatest finite value, `(2^53 - 1/2) * 2^2045`. -/
def overflowBound : ℚ := (2 ^ 54 - 1) * 2 ^ 2044

/-- `r` is the binary64 value nearest `e` units of 2^-1074, ties to even (00_scope.md R7): below the overflow bound no
finite value is nearer, and one equally near but different leaves `r` the one with the even significand; from the bound
on it is the infinity of `e`'s sign. -/
def IsNearest (e : ℚ) (r : F) : Prop :=
  if |e| < overflowBound then
    F.isFinite r = true ∧
      ∀ z : F, F.isFinite z = true →
        |(F.val r : ℚ) - e| ≤ |(F.val z : ℚ) - e| ∧
          (|(F.val r : ℚ) - e| = |(F.val z : ℚ) - e| → F.val z ≠ F.val r → F.frac r % 2 = 0)
  else F.isInf r = true ∧ (F.sign r = true ↔ e < 0)

/-! ## The rules' derivations -/

/-- `g0 = f_tan((PI*f0)/fs)` (41_coefficient_factory.md R122). -/
def IsTanOf (f0 fs g0 : F) : Prop := ∃ p x, IsProd F.pi f0 p ∧ IsQuot p fs x ∧ g0 = fTan x

/-- `A = f_pow10(gainDb/40.0)` (R123). -/
def IsAmplitude (gainDb amp : F) : Prop := ∃ x, IsQuot gainDb F.forty x ∧ amp = fPow10 x

/-- `a1 = 1/(1 + g*(g+k)); a2 = g*a1; a3 = g*a2; g2 = g*g` (R122). -/
def IsDerived (g k a1 a2 a3 g2 : F) : Prop :=
  ∃ gk t den, IsSum g k gk ∧ IsProd g gk t ∧ IsSum F.one t den ∧ IsQuot F.one den a1 ∧ IsProd g a1 a2 ∧
    IsProd g a2 a3 ∧ IsProd g g g2

/-- The five gain-less shapes: corner `g0`, damping `1/Q`, and the mix vector of the shape (R124 to R128). -/
def IsGainlessRecord (shape : Shape2) (f0 fs q : F) (c : SVFCoefficients) : Prop :=
  IsTanOf f0 fs c.g ∧ IsQuot F.one q c.k ∧ IsDerived c.g c.k c.a1 c.a2 c.a3 c.g2 ∧
    match shape with
    | .lowPass => c.m0 = F.zero ∧ c.m1 = F.zero ∧ c.m2 = F.one
    | .highPass => c.m0 = F.one ∧ c.m1 = F.neg c.k ∧ c.m2 = F.minusOne
    | .bandPass => c.m0 = F.zero ∧ c.m1 = F.one ∧ c.m2 = F.zero
    | .notch => c.m0 = F.one ∧ c.m1 = F.neg c.k ∧ c.m2 = F.zero
    | .allPass => c.m0 = F.one ∧ (∃ t, IsProd F.two c.k t ∧ c.m1 = F.neg t) ∧ c.m2 = F.zero
    | .bell | .lowShelf | .highShelf => False

/-- The three shapes with a gain (R129 to R131). -/
def IsGainRecord (shape : Shape2) (f0 fs q gainDb : F) (c : SVFCoefficients) : Prop :=
  ∃ g0 amp aa, IsTanOf f0 fs g0 ∧ IsAmplitude gainDb amp ∧ IsProd amp amp aa ∧
    IsDerived c.g c.k c.a1 c.a2 c.a3 c.g2 ∧
    match shape with
    | .bell =>
      c.g = g0 ∧ (∃ qa, IsProd q amp qa ∧ IsQuot F.one qa c.k) ∧ c.m0 = F.one ∧
        (∃ t, IsDiff aa F.one t ∧ IsProd c.k t c.m1) ∧ c.m2 = F.zero
    | .lowShelf =>
      (∃ r, IsRoot amp r ∧ IsQuot g0 r c.g) ∧ IsQuot F.one q c.k ∧ c.m0 = F.one ∧
        (∃ t, IsDiff amp F.one t ∧ IsProd c.k t c.m1) ∧ IsDiff aa F.one c.m2
    | .highShelf =>
      (∃ r, IsRoot amp r ∧ IsProd g0 r c.g) ∧ IsQuot F.one q c.k ∧ IsProd amp amp c.m0 ∧
        (∃ t u, IsDiff F.one amp t ∧ IsProd c.k t u ∧ IsProd u amp c.m1) ∧ IsDiff F.one aa c.m2
    | .lowPass | .highPass | .bandPass | .notch | .allPass => False

/-- The record of any second-order shape. -/
def IsRecord2 (shape : Shape2) (f0 fs q gainDb : F) (c : SVFCoefficients) : Prop :=
  match shape with
  | .bell | .lowShelf | .highShelf => IsGainRecord shape f0 fs q gainDb c
  | .lowPass | .highPass | .bandPass | .notch | .allPass => IsGainlessRecord shape f0 fs q c

/-- The record of a first-order shape (R132, R133). -/
def IsRecord1 (shape : Shape1) (f0 fs : F) (c : OnePoleCoefficients) : Prop :=
  IsTanOf f0 fs c.g ∧ (∃ den, IsSum F.one c.g den ∧ IsQuot c.g den c.a) ∧
    match shape with
    | .lowPass1 => c.m0 = F.zero ∧ c.m1 = F.one
    | .highPass1 => c.m0 = F.one ∧ c.m1 = F.minusOne

/-- `qs` is the user Q over `BUTTERWORTH_Q`, the part of it above 1.0 times `factor` (42_cascade_builder.md R153). -/
def IsCompressed (factor q qs : F) : Prop :=
  ∃ qn, IsQuot q 0x3FE6A09E65DC27DF#64 qn ∧
    if F.lt F.one qn then ∃ ex sc, IsDiff qn F.one ex ∧ IsProd ex factor sc ∧ IsSum F.one sc qs else qs = qn

/-- `qs` is the per-stage Q list of a cascade of effective order `eo`. The ratios are the bit patterns of
42_cascade_builder.md R152's table, the factors those of R153, written out here and not read from the machine. -/
def IsQList (eo : EffOrder) (q : F) (qs : List F) : Prop :=
  match eo with
  | .o1 => qs = []
  | .o2 => qs = [q]
  | .o4 => ∃ sc, IsCompressed 0x3FD6666666666666#64 q sc ∧
      List.Forall₂ (fun r x => IsProd r sc x) [0x3FE1517A7BDB3895#64, 0x3FF4E7AE9144F0FC#64] qs
  | .o6 => ∃ sc, IsCompressed 0x3FC999999999999A#64 q sc ∧
      List.Forall₂ (fun r x => IsProd r sc x)
        [0x3FE0907DC1930690#64, 0x3FE6A09E667F3BCD#64, 0x3FFEE8DD4748BF15#64] qs
  | .o8 => ∃ sc, IsCompressed 0x3FC1EB851EB851EC#64 q sc ∧
      List.Forall₂ (fun r x => IsProd r sc x)
        [0x3FE0503ED17CBA53#64, 0x3FE33E37A1E0173E#64, 0x3FECCC9AEFB18D58#64, 0x400480D9D073B428#64] qs

/-- `q` is `1.0/(2.0*f_sinh((LN2/2.0)*bw))` (R155). -/
def IsBw2qFormula (bw q : F) : Prop :=
  ∃ x d, IsProd 0x3FD62E42FEFA39EF#64 bw x ∧ IsProd F.two (fSinh x) d ∧ IsQuot F.one d q

/-- `q = bw2q(bw)`: the formula's result, with the corner cases of R155. -/
def IsBw2q (bw q : F) : Prop := ∃ r, IsBw2qFormula bw r ∧ q = bw2qCorner bw r

/-- The Q of an update: the third operand, converted when `BWF = 1` (43_band.md R173). -/
def IsUpdateQ (bwf : Bool) (bw q : F) : Prop := if bwf then IsBw2q bw q else q = bw

/-- `theta = ((2.0*PI)*f)/fs` (45_response_sampler.md R231). -/
def IsAngle (f fs theta : F) : Prop :=
  ∃ twoPi t, IsProd F.two F.pi twoPi ∧ IsProd twoPi f t ∧ IsQuot t fs theta

/-- `z1` and `z2` are what the lines of `zinv` give (45_response_sampler.md R231). -/
def IsZinvLines (f fs : F) (z1 z2 : Complex64) : Prop :=
  ∃ theta, IsAngle f fs theta ∧ z1 = ⟨fCos theta, fSin theta⟩ ∧ IsCMul z1 z1 z2

/-- Both parts of a complex value are NaNs. -/
def IsComplexNaN (z : Complex64) : Prop := F.isNaN z.re = true ∧ F.isNaN z.im = true

/-- `z1` and `z2` are `z⁻¹` and `z⁻²`: what the lines of R231 give, with the corner cases of R234. -/
def IsZinv (f fs : F) (z1 z2 : Complex64) : Prop :=
  ∃ y1 y2, IsZinvLines f fs y1 y2 ∧
    if F.isZero fs then IsComplexNaN z1 ∧ IsComplexNaN z2
    else if F.isZero f && !F.isNaN fs then z1 = complexOne y1 ∧ z2 = complexOne y2
    else z1 = y1 ∧ z2 = y2

/-- `den` is the denominator of `h2(c, f, fs)` (45_response_sampler.md R232). -/
def IsDen2 (c : SVFCoefficients) (z1 z2 den : Complex64) : Prop :=
  ∃ gk d0 d1 d2, IsProd c.g c.k gk ∧
    (∃ t, IsSum c.g2 gk t ∧ IsSum t F.one d0) ∧
    (∃ t, IsDiff c.g2 F.one t ∧ IsProd F.two t d1) ∧
    (∃ t, IsDiff c.g2 gk t ∧ IsSum t F.one d2) ∧
    ∃ u v w, IsCScale d1 z1 u ∧ IsCAdd (creal d0) u v ∧ IsCScale d2 z2 w ∧ IsCAdd v w den

/-- `|x| <= bound`, which no NaN meets. -/
def atMost (bound x : F) : Bool := !F.isNaN x && !F.lt bound x && !F.lt x (F.neg bound)

/-- A record whose mix is `(1, 0, 0)`, with `k` at most 2^900 in magnitude and `g2 = g*g`. -/
def IsFlatRecord (c : SVFCoefficients) : Prop :=
  c.m0 = F.one ∧ c.m1 = F.zero ∧ c.m2 = F.zero ∧ atMost 0x7830000000000000#64 c.k = true ∧ IsProd c.g c.g c.g2

/-- `h` is `h2(c, f, fs)` (45_response_sampler.md R232). -/
def IsH2 (c : SVFCoefficients) (f fs : F) (h : Complex64) : Prop :=
  ∃ z1 z2 den nb nl, IsZinv f fs z1 z2 ∧ IsDen2 c z1 z2 den ∧
    (∃ m u, IsProd c.m1 c.g m ∧ IsCSub (creal F.one) z2 u ∧ IsCScale m u nb) ∧
    (∃ m u v w, IsProd c.m2 c.g2 m ∧ IsCScale F.two z1 u ∧ IsCAdd (creal F.one) u v ∧ IsCAdd v z2 w ∧
      IsCScale m w nl) ∧
    ∃ num quot, IsCAdd nb nl num ∧ IsCDiv num den quot ∧ IsCAdd (creal c.m0) quot h

/-- `h` is `h1(c, f, fs)` (45_response_sampler.md R233). -/
def IsH1 (c : OnePoleCoefficients) (f fs : F) (h : Complex64) : Prop :=
  ∃ z1 z2 num den, IsZinv f fs z1 z2 ∧
    (∃ m u, IsProd c.m1 c.g m ∧ IsCAdd (creal F.one) z1 u ∧ IsCScale m u num) ∧
    (∃ p m u, IsSum c.g F.one p ∧ IsDiff c.g F.one m ∧ IsCScale m z1 u ∧ IsCAdd (creal p) u den) ∧
    ∃ quot, IsCDiv num den quot ∧ IsCAdd (creal c.m0) quot h

/-- `h` is the product, in slot order, of the values of the stages `0..n-1` (45_response_sampler.md R235). -/
def IsSubResponse (c : SubCoefficients) (eo : EffOrder) (f fs : F) (h : Complex64) : Prop :=
  match eo with
  | .o1 => IsH1 c.first f fs h
  | .o2 => IsH2 c.second[0] f fs h
  | .o4 => ∃ h0 h1, IsH2 c.second[0] f fs h0 ∧ IsH2 c.second[1] f fs h1 ∧ IsCMul h0 h1 h
  | .o6 => ∃ h0 h1 h2 p, IsH2 c.second[0] f fs h0 ∧ IsH2 c.second[1] f fs h1 ∧ IsH2 c.second[2] f fs h2 ∧
      IsCMul h0 h1 p ∧ IsCMul p h2 h
  | .o8 => ∃ h0 h1 h2 h3 p q, IsH2 c.second[0] f fs h0 ∧ IsH2 c.second[1] f fs h1 ∧ IsH2 c.second[2] f fs h2 ∧
      IsH2 c.second[3] f fs h3 ∧ IsCMul h0 h1 p ∧ IsCMul p h2 q ∧ IsCMul q h3 h

/-- `h` is `band_response(b, f)` (45_response_sampler.md R235). -/
def IsBandResponse (b : Band) (f : F) (h : Complex64) : Prop :=
  match b.kind with
  | .mesa => ∃ ha hb sum, IsSubResponse b.coefA b.eo f b.fsUsed ha ∧ IsSubResponse b.coefB b.eo f b.fsUsed hb ∧
      IsCAdd ha hb sum ∧ IsCScale b.gpost sum h
  | .bandPass => ∃ ha hb, IsSubResponse b.coefA b.eo f b.fsUsed ha ∧ IsSubResponse b.coefB b.eo f b.fsUsed hb ∧
      IsCMul ha hb h
  | .tilt => ∃ ha, IsSubResponse b.coefA b.eo f b.fsUsed ha ∧ IsCScale b.gpost ha h
  | .bell | .lowPass | .highPass | .lowShelf | .highShelf | .notch | .allPass =>
    IsSubResponse b.coefA b.eo f b.fsUsed h

/-! ## Updates -/

/-- A corner passes the factory's two frequency checks (41_coefficient_factory.md R121). -/
def CornerLegal (f0 fs : F) : Prop := F.lt F.zero f0 = true ∧ ∃ t, IsProd F.two f0 t ∧ F.lt t fs = true

/-- A corner fails the factory's frequency checks, and `k` is the fault of the first that fails (R121). -/
def CornerFault (f0 fs : F) (k : FaultCode) : Prop :=
  (F.lt F.zero f0 = false ∧ k = .nonPositiveFrequency) ∨
    (F.lt F.zero f0 = true ∧ (¬∃ t, IsProd F.two f0 t ∧ F.lt t fs = true) ∧ k = .outsideNyquist)

/-- An `UPDATE` that gets as far as building: on the RT port, of an existing band, with a legal order, and no dirty-check
hit (43_band.md R171, R172). -/
def UpdateReaches (s : State) (kind : FilterKind) (b : BitVec 4) (band : Band) (ord : BitVec 8) (bwf : Bool)
    (freq gain bw fs : F) : Prop :=
  s.port = .rt ∧ s.bands[b.toNat]? = some band ∧ 1 ≤ ord.toNat ∧ ord.toNat ≤ 8 ∧
    band.prev ≠ ⟨true, kind, ord, bwf, freq, gain, bw, fs⟩

/-- The Q of an update is positive (43_band.md R173, R188). -/
def UpdateQLegal (bwf : Bool) (bw : F) : Prop := ∀ q, IsUpdateQ bwf bw q → F.lt F.zero q = true

/-- `built` is a cascade of one shape in one sub-cascade: stage `i`, from 0, has the Q `qs[i]` (43_band.md R175). -/
def IsCascade (sub : SubCascade) (shape : Shape2) (f0 fs gainDb : F) (qs : List F) (built : List BuiltStage) : Prop :=
  ∃ cs, List.Forall₂ (fun q c => IsRecord2 shape f0 fs q gainDb c) qs cs ∧
    built = (([0, 1, 2, 3] : List (Fin 4)).zip cs).map fun ic => .second sub ic.1 ic.2

/-- `q = qdist(eo, Q)` with the `Q` of the update (43_band.md R173, section 2). -/
def IsUpdateQList (eo : EffOrder) (bwf : Bool) (bw : F) (qs : List F) : Prop :=
  ∃ q, IsUpdateQ bwf bw q ∧ IsQList eo q qs

/-- `fa` and `fb` are the corners of a Mesa (43_band.md R184). -/
def IsMesaCorners (f bw fa fb : F) : Prop :=
  ∃ w, IsSum bw F.half w ∧ (∃ t, IsQuot f w t ∧ fa = clampFreq t) ∧ ∃ t, IsProd f w t ∧ fb = clampFreq t

/-- The shape of a Mesa sub-cascade (R184). -/
def IsShelf : Shelf → Shape2 → Prop
  | .low, shape => shape = .lowShelf
  | .high, shape => shape = .highShelf

/-- What a committing `UPDATE` leaves: band `b` is committed with the records `built` and the post gain, `RECOMP` counts
one, and the response is a success with `INFO` = 0 (43_band.md R171, R186). What the commit does to the band is
`Obligations.CommitEffect`. -/
def Commits (s : State) (i : Instr) (kind : FilterKind) (b : BitVec 4) (band : Band) (ord : BitVec 8) (bwf : Bool)
    (freq gain bw fs : F) (good : List BuiltStage → F → Prop) : Prop :=
  ∃ built gpost d, good built gpost ∧
    exec i s = .next (State.respond
      { s with
        bands := s.bands.set b.toNat
          (band.commit ⟨true, kind, ord, bwf, freq, gain, bw, fs⟩ (effOrder kind ord) built gpost)
        recomp := s.recomp + 1
        draws := d } .update 0 [])

/-- The slot is a first-order one. -/
def isFirstOrder : Slot → Bool
  | .first _ => true
  | .second _ _ => false

/-! ## The tick and the path of a sample -/

/-- `(y, st')` is `tick2(c, st, x)` (40_stage_datapath.md R101). -/
def IsTick2 (a1 a2 a3 m0 m1 m2 ic1eq ic2eq x y ic1eq' ic2eq' : F) : Prop :=
  ∃ v3 v1 v2, IsDiff x ic2eq v3 ∧ IsSumOfProds a1 ic1eq a2 v3 v1 ∧
    (∃ p t q, IsProd a2 ic1eq p ∧ IsSum ic2eq p t ∧ IsProd a3 v3 q ∧ IsSum t q v2) ∧
    (∃ t, IsProd F.two v1 t ∧ IsDiff t ic1eq ic1eq') ∧
    (∃ t, IsProd F.two v2 t ∧ IsDiff t ic2eq ic2eq') ∧
    ∃ t p, IsSumOfProds m0 x m1 v1 t ∧ IsProd m2 v2 p ∧ IsSum t p y

/-- `(y, s')` is `tick1(c, s, x)` (40_stage_datapath.md R104). -/
def IsTick1 (a m0 m1 s x y s' : F) : Prop :=
  ∃ e v lp, IsDiff x s e ∧ IsProd a e v ∧ IsSum v s lp ∧ IsSum lp v s' ∧ IsSumOfProds m0 x m1 lp y

/-- `x` through one slot of a band gives `y`, and the channel's state `st` becomes `st'`: the slot's tick, its result
written back, every other register of the channel as it was (43_band.md R195). -/
def IsSlotTick (b : Band) (slot : Slot) (st : ChannelState) (x y : F) (st' : ChannelState) : Prop :=
  match slot with
  | .first .A => IsTick1 b.coefA.first.a b.coefA.first.m0 b.coefA.first.m1 st.subA.first x y st'.subA.first ∧
      st' = { st with subA := { st.subA with first := st'.subA.first } }
  | .first .B => IsTick1 b.coefB.first.a b.coefB.first.m0 b.coefB.first.m1 st.subB.first x y st'.subB.first ∧
      st' = { st with subB := { st.subB with first := st'.subB.first } }
  | .second .A i => ∃ n : SVFState,
      IsTick2 b.coefA.second[i].a1 b.coefA.second[i].a2 b.coefA.second[i].a3 b.coefA.second[i].m0
        b.coefA.second[i].m1 b.coefA.second[i].m2 st.subA.second[i].ic1eq st.subA.second[i].ic2eq x y n.ic1eq
        n.ic2eq ∧
      st' = { st with subA := { st.subA with second := st.subA.second.set i n } }
  | .second .B i => ∃ n : SVFState,
      IsTick2 b.coefB.second[i].a1 b.coefB.second[i].a2 b.coefB.second[i].a3 b.coefB.second[i].m0
        b.coefB.second[i].m1 b.coefB.second[i].m2 st.subB.second[i].ic1eq st.subB.second[i].ic2eq x y n.ic1eq
        n.ic2eq ∧
      st' = { st with subB := { st.subB with second := st.subB.second.set i n } }

/-- A sample through a list of slots in series (43_band.md R195, R196). -/
def IsSeries (b : Band) : List Slot → ChannelState → F → F → ChannelState → Prop
  | [], st, x, y, st' => y = x ∧ st' = st
  | slot :: rest, st, x, y, st' => ∃ m stm, IsSlotTick b slot st x m stm ∧ IsSeries b rest stm m y st'

/-- One sample of one channel through a band (43_band.md R195): Mesa is the parallel sum of its sub-cascades times
`gpost`; every other kind is the series of its active slots, Tilt times `gpost`. -/
def IsBandTick (b : Band) (st : ChannelState) (x y : F) (st' : ChannelState) : Prop :=
  match b.kind with
  | .mesa => ∃ ya yb sum stA, IsSeries b ((activeIndices b.eo).map (.second .A)) st x ya stA ∧
      IsSeries b ((activeIndices b.eo).map (.second .B)) stA x yb st' ∧ IsSum ya yb sum ∧ IsProd sum b.gpost y
  | .tilt => ∃ w, IsSeries b (activeSlots b.kind b.eo) st x w st' ∧ IsProd w b.gpost y
  | .bell | .lowPass | .highPass | .lowShelf | .highShelf | .notch | .bandPass | .allPass =>
    IsSeries b (activeSlots b.kind b.eo) st x y st'

/-- One stereo frame through the bands, ascending (44_filterbank.md R214): an enabled band ticks both channels and only
its state registers change; a disabled band passes the frame and stays as it was. -/
def IsFrame : List Band → F × F → List Band → F × F → Prop
  | [], x, bands', y => bands' = [] ∧ y = x
  | b :: rest, x, bands', y => ∃ b' rest' m, bands' = b' :: rest' ∧ IsFrame rest m rest' y ∧
      if b.en then
        IsBandTick b b.left x.1 m.1 b'.left ∧ IsBandTick b b.right x.2 m.2 b'.right ∧
          b' = { b with left := b'.left, right := b'.right }
      else b' = b ∧ m = x

/-- A block of frames, in order, each from the state the previous one left (44_filterbank.md R215). -/
def IsBlock : List Band → List (F × F) → List Band → List (F × F) → Prop
  | bands, [], bands', ys => bands' = bands ∧ ys = []
  | bands, x :: xs, bands', ys => ∃ mid y rest, IsFrame bands x mid y ∧ IsBlock mid xs bands' rest ∧ ys = y :: rest

/-! ## The laws in exact arithmetic

The lines of the machine's stage functions, run in the exact arithmetic of a field (40_stage_datapath.md R109). -/

/-- The tick of R101 without rounding: the output and the two integrators after it. -/
def exactTick2 {K : Type} [Field K] (a1 a2 a3 m0 m1 m2 ic1eq ic2eq x : K) : K × K × K :=
  Id.run (tick2Lines (M := Id) (fun u v => u + v) (fun u v => u - v) (fun u v => u * v) 2 a1 a2 a3 m0 m1 m2 ic1eq ic2eq
    x)

/-- The tick of R104 without rounding: the output and the state after it. -/
def exactTick1 {K : Type} [Field K] (a m0 m1 s x : K) : K × K :=
  Id.run (tick1Lines (M := Id) (fun u v => u + v) (fun u v => u - v) (fun u v => u * v) a m0 m1 s x)

/-- The integrators of a second-order stage before sample `n` of `x`, from zero state. -/
def exactState2 {K : Type} [Field K] (a1 a2 a3 m0 m1 m2 : K) (x : Nat → K) : Nat → K × K
  | 0 => (0, 0)
  | n + 1 =>
    let st := exactState2 a1 a2 a3 m0 m1 m2 x n
    (exactTick2 a1 a2 a3 m0 m1 m2 st.1 st.2 (x n)).2

/-- Output `n` of repeated second-order ticks on the input sequence `x`. -/
def exactOutput2 {K : Type} [Field K] (a1 a2 a3 m0 m1 m2 : K) (x : Nat → K) (n : Nat) : K :=
  let st := exactState2 a1 a2 a3 m0 m1 m2 x n
  (exactTick2 a1 a2 a3 m0 m1 m2 st.1 st.2 (x n)).1

/-- The state of a first-order stage before sample `n` of `x`, from zero state. -/
def exactState1 {K : Type} [Field K] (a m0 m1 : K) (x : Nat → K) : Nat → K
  | 0 => 0
  | n + 1 => (exactTick1 a m0 m1 (exactState1 a m0 m1 x n) (x n)).2

/-- Output `n` of repeated first-order ticks on the input sequence `x`. -/
def exactOutput1 {K : Type} [Field K] (a m0 m1 : K) (x : Nat → K) (n : Nat) : K :=
  (exactTick1 a m0 m1 (exactState1 a m0 m1 x n) (x n)).1

/-- `H` of 45_response_sampler.md R232 without rounding, at `z⁻¹` = `z1` and `z⁻²` = `z2`. Its values may lie in another
ring than the record's fields: `ofReal` takes a field there and `inv` is division there. -/
def exactH2 {K V : Type} [Field K] [CommRing V] (ofReal : K → V) (inv : V → V) (g k m0 m1 m2 g2 : K) (z1 z2 : V) : V :=
  Id.run (h2Lines (M := Id) (fun u v => u + v) (fun u v => u - v) (fun u v => u * v) 1 2 ofReal (fun u v => u + v)
    (fun u v => u - v) (fun u v => u * inv v) (fun r u => ofReal r * u) g k m0 m1 m2 g2 z1 z2)

/-- `H` of 45_response_sampler.md R233 without rounding, at `z⁻¹` = `z1`. -/
def exactH1 {K V : Type} [Field K] [CommRing V] (ofReal : K → V) (inv : V → V) (g m0 m1 : K) (z1 : V) : V :=
  Id.run (h1Lines (M := Id) (fun u v => u + v) (fun u v => u - v) (fun u v => u * v) 1 ofReal (fun u v => u + v)
    (fun u v => u * inv v) (fun r u => ofReal r * u) g m0 m1 z1)

/-- The mix vector `(m0, m1, m2)` of a second-order shape (41_coefficient_factory.md R124 to R131), `amp` its gain
amplitude `A`. -/
def exactMix {K : Type} [Field K] (shape : Shape2) (k amp : K) : K × K × K :=
  match shape with
  | .lowPass => (0, 0, 1)
  | .highPass => (1, -k, -1)
  | .bandPass => (0, 1, 0)
  | .notch => (1, -k, 0)
  | .allPass => (1, -(2 * k), 0)
  | .bell => (1, k * (amp * amp - 1), 0)
  | .lowShelf => (1, k * (amp - 1), amp * amp - 1)
  | .highShelf => (amp * amp, k * (1 - amp) * amp, 1 - amp * amp)

/-- The analog prototype of a shape (R135's table), `s` in units of the stage's own corner. -/
def prototype {K : Type} [Field K] (shape : Shape2) (k amp s : K) : K :=
  let d := s ^ 2 + k * s + 1
  match shape with
  | .lowPass => 1 / d
  | .highPass => s ^ 2 / d
  | .bandPass => s / d
  | .notch => (s ^ 2 + 1) / d
  | .allPass => (s ^ 2 - k * s + 1) / d
  | .bell => (s ^ 2 + k * amp ^ 2 * s + 1) / d
  | .lowShelf => (s ^ 2 + k * amp * s + amp ^ 2) / d
  | .highShelf => (amp ^ 2 * s ^ 2 + k * amp * s + 1) / d

/-- `H` of a second-order shape's record, without rounding, at `z⁻¹` = `w`: the evaluator on the fields the factory gives
the shape (45_response_sampler.md R232; 41_coefficient_factory.md R124 to R131). -/
def exactShape2 {K V : Type} [Field K] [Field V] (ofReal : K → V) (shape : Shape2) (g k amp : K) (w : V) : V :=
  let m := exactMix shape k amp
  exactH2 ofReal (fun u => u⁻¹) g k m.1 m.2.1 m.2.2 (g * g) w (w * w)

/-- `H` of a LowPass cascade of effective order `eo` without rounding, `qs` its stage Qs: the first-order stage of
41_coefficient_factory.md R132, or the product over its second-order stages (45_response_sampler.md R235). -/
def exactLowPass {K V : Type} [Field K] [Field V] (ofReal : K → V) (g : K) (eo : EffOrder) (qs : List K) (w : V) : V :=
  if eo = .o1 then exactH1 ofReal (fun u => u⁻¹) g 0 1 w
  else (qs.map fun q => exactShape2 ofReal .lowPass g (1 / q) 1 w).prod

/-- `H` of a HighPass cascade, as `exactLowPass`; its first-order stage is 41_coefficient_factory.md R133's. -/
def exactHighPass {K V : Type} [Field K] [Field V] (ofReal : K → V) (g : K) (eo : EffOrder) (qs : List K) (w : V) : V :=
  if eo = .o1 then exactH1 ofReal (fun u => u⁻¹) g 1 (-1) w
  else (qs.map fun q => exactShape2 ofReal .highPass g (1 / q) 1 w).prod

/-! ## The invariant -/

/-- `(kind, eo)` is a pair of 10_state.md R39's table. -/
def legalTopology (kind : FilterKind) (eo : EffOrder) : Bool :=
  match kind with
  | .bell | .notch | .allPass => eo == .o2
  | .lowPass | .highPass | .bandPass => true
  | .lowShelf | .highShelf | .tilt | .mesa => eo != .o1

/-- A configuration meets the constraints of 92_eei_decisions.md, section 3. -/
def configLegal (c : Config) : Bool :=
  decide (1 ≤ c.maxBlock) && F.isFinite c.mesaGainADb && F.isFinite c.mesaGainBDb && F.lt F.twoThousand c.resetFs
    && F.lt F.zero c.resetQ

/-- A band's descriptor is a legal one, and a valid `prev` holds the inputs the descriptor was committed with
(10_state.md R26, R28, R39). -/
def Band.legal (b : Band) : Bool :=
  legalTopology b.kind b.eo &&
    (!b.prev.valid ||
      (b.prev.kind == b.kind && b.prev.fs == b.fsUsed && orderLegal b.prev.ord &&
        effOrder b.prev.kind b.prev.ord == b.eo))

/-- `FAULT` and `LASTFAULT` read as the spec says: bit 0 and bits 31:11 of `FAULT` are 0, bits 31:25 of `LASTFAULT` are
0, and `LASTFAULT` is 0 with `FAULT` 0, or names a code whose bit is set (10_state.md R35, R36). -/
def faultsLegal (fault lastFault : Word) : Bool :=
  fault.getLsbD 0 == false && fault.extractLsb' 11 21 == 0#21 && lastFault.extractLsb' 25 7 == 0#7 &&
    ((fault == 0 && lastFault == 0) || fault.getLsbD (lastFault.extractLsb' 0 8).toNat)

/-- The invariant of the machine. -/
def State.Inv (s : State) : Prop :=
  (1 ≤ s.nbands ∧ s.nbands ≤ 16) ∧ configLegal s.cfg = true ∧ (∀ b ∈ s.bands, Band.legal b = true) ∧
    faultsLegal s.fault s.lastFault = true

/-! ## What an operation leaves alone -/

/-- The responses sent on a port. -/
def State.out (s : State) : Port → List Packet
  | .rt => s.rtOut
  | .q => s.qOut

/-- The other port. -/
def otherPort : Port → Port
  | .rt => .q
  | .q => .rt

/-- What the Q port reads of a band: coefficients, kind, effective order, post gain and sample rate
(20_memory.md R61). -/
def Band.samePublished (a b : Band) : Prop :=
  a.coefA = b.coefA ∧ a.coefB = b.coefB ∧ a.kind = b.kind ∧ a.eo = b.eo ∧ a.gpost = b.gpost ∧ a.fsUsed = b.fsUsed

/-- Two bands agree on everything one channel's path depends on, that channel's state up to a NaN's bits. -/
def SamePath (ch : Channel) (a b : Band) : Prop :=
  a.samePublished b ∧ a.en = b.en ∧ SameChannel (a.chan ch) (b.chan ch)

/-- The state registers of two bands agree. -/
def Band.sameStageState (a b : Band) : Prop := a.left = b.left ∧ a.right = b.right

/-- Every register but `FAULT` and `LASTFAULT` is the same. -/
def State.sameButFaults (s t : State) : Prop := t.bands = s.bands ∧ t.recomp = s.recomp ∧ t.fs = s.fs ∧ t.cfg = s.cfg

end Sys2Proof.Machine
end

