-- ==== Sys2Proof/WellFormed.lean ====
section
/-! DEFINITION. Which instructions have a packet. Every other bound of the encoding is in the types of `Instr`:
a band index has 4 bits, a slot is one of ten, a control register one of seven. -/

namespace Sys2Proof

/-- An instruction has a packet on a CBFB with this `MAX_BLOCK`: the frame count of a `PROCB` fits its count word
(30_encoding.md R73) and does not exceed `MAX_BLOCK` (R79 g). -/
def Instr.wf (maxBlock : Nat) (i : Instr) : Bool :=
  match i with
  | .procb frames => decide (frames.length < 2 ^ 32) && decide (frames.length ≤ maxBlock)
  | .tick2 .. | .tick1 .. | .coefLp .. | .coefHp .. | .coefBp .. | .coefNotch .. | .coefAp ..
  | .coefBell .. | .coefLs .. | .coefHs .. | .coefLp1 .. | .coefHp1 .. | .poleq .. | .qdist ..
  | .bw2q .. | .updateBell .. | .updateLp .. | .updateHp .. | .updateLs .. | .updateHs .. | .updateNotch ..
  | .updateBp .. | .updateTilt .. | .updateMesa .. | .updateAp .. | .breset .. | .enable .. | .disable ..
  | .srate .. | .proc .. | .hstage2 .. | .hstage1 .. | .bode .. | .rdcoef .. | .rdstate ..
  | .rdcsr .. | .rdband .. => true

end Sys2Proof
end

