-- ==== Sys2Proof/Certificates/Slice0/Obligations.lean ====
section
/-! DEFINITION. The statements for the provers, from the numbered rules of the spec. A statement about what an
operation gives is written with the relations of Safety.lean: it fixes every value and leaves a NaN's bits open. -/

open Sys2Proof Sys2Proof.Machine

/-! ## Packets and the step -/

/-- Words written out from the encoding of 30_encoding.md R71, R74, R77 decode to the instructions they stand for
(the packets are those of 95_test_vectors.md V2, V11, V20, V21, P1, P4, V34 and F22's slot form). -/
def Obligations.SpecPacketsDecode : Prop :=
  decode 65536 .rt 0x02000000#32 [0, 0x3FD00000#32, 0, 0, 0, 0x3FF00000#32, 0, 0x3FF00000#32, 0, 0x40140000#32] =
      .ok (.tick1 0x3FD0000000000000#64 0 0x3FF0000000000000#64 0x3FF0000000000000#64 0x4014000000000000#64) ∧
    decode 65536 .q 0x10010000#32 [0, 0x408F4000#32, 0, 0x40E77000#32, 0, 0x40000000#32] =
      .ok (.coefLp 0x408F400000000000#64 0x40E7700000000000#64 0x4000000000000000#64) ∧
    decode 65536 .rt 0x18000401#32 [] = .ok (.poleq 4 1) ∧
    decode 65536 .rt 0x19000400#32 [0, 0x3FF00000#32] = .ok (.qdist 4 0x3FF0000000000000#64) ∧
    decode 65536 .rt 0x20270200#32 [0, 0x408F4000#32, 0, 0x40080000#32, 0x65DC27DF#32, 0x3FE6A09E#32, 0, 0x40E77000#32]
      = .ok (.updateTilt 2 2 false 0x408F400000000000#64 0x4008000000000000#64 0x3FE6A09E65DC27DF#64
        0x40E7700000000000#64) ∧
    decode 65536 .rt 0x29000000#32 [1, 0, 0x3FF00000#32, 0, 0x3FE00000#32] =
      .ok (.procb [(0x3FF0000000000000#64, 0x3FE0000000000000#64)]) ∧
    decode 65536 .q 0x32200000#32 [0, 0x408F4000#32] = .ok (.bode 2 0x408F400000000000#64) ∧
    decode 65536 .rt 0x39100015#32 [] = .ok (.rdstate 1 (.first .B) .right)

/-- Every well-formed instruction decodes from its own packet, on every port that may issue it (30_encoding.md R71 to
R74, R77; 60_exceptions.md R278). -/
def Obligations.DecodeOfEncode : Prop :=
  ∀ (maxBlock : Nat) (p : Port) (i : Instr), i.wf maxBlock = true → i.opc.allowedOn p = true →
    decode maxBlock p (encode i).1 (encode i).2 = .ok i

/-- No packet bit is dropped: a packet that decodes to an instruction is that instruction's packet, and the
instruction is well formed (30_encoding.md R74, R78, R80). -/
def Obligations.EncodeOfDecode : Prop :=
  ∀ (maxBlock : Nat) (p : Port) (header : Word) (ws : List Word) (i : Instr),
    decode maxBlock p header ws = .ok i → encode i = (header, ws) ∧ i.wf maxBlock = true

/-- Decoding is total and its checks run in the order of 30_encoding.md R84, steps 1 to 5, the first that fails deciding
the fault. The lists of numbers are those of R77, R79 and 60_exceptions.md R278. That a packet which passes steps 1 to 5
decodes, even with a `BAND` or an `ORD` that R84 steps 6 and 7 then refuse, is the model's split of R84: those two steps
stand in the meanings (log entry 5, DESIGN CHOICE). -/
def Obligations.DecodeChecksInOrder : Prop :=
  ∀ (maxBlock : Nat) (p : Port) (header : Word) (ws : List Word),
    let h := Header.ofWord header
    let known : List (BitVec 8) :=
      [0x01, 0x02, 0x10, 0x18, 0x19, 0x1A, 0x20, 0x21, 0x22, 0x23, 0x24, 0x28, 0x29, 0x30, 0x31, 0x32, 0x38, 0x39, 0x3A,
        0x3B]
    let rtOnly : List (BitVec 8) := [0x20, 0x21, 0x22, 0x23, 0x24, 0x28, 0x29, 0x39]
    let badKind : Prop := (h.opc = 0x10#8 ∧ h.kind ∈ [7#4, 8#4, 12#4, 13#4, 14#4, 15#4]) ∨
      (h.opc = 0x20#8 ∧ 10#4 ≤ h.kind)
    let tooLong : Prop := h.opc = 0x29#8 ∧ ∃ n rest, ws = n :: rest ∧ maxBlock < n.toNat
    let fieldsBad : Prop :=
      (h.opc ∉ [0x20#8, 0x21#8, 0x22#8, 0x23#8, 0x32#8, 0x38#8, 0x39#8, 0x3B#8] ∧ h.band ≠ 0) ∨
        (h.opc ∉ [0x10#8, 0x20#8] ∧ h.kind ≠ 0) ∨
        (h.opc ∉ [0x18#8, 0x19#8, 0x20#8] ∧ h.ord ≠ 0) ∨
        (h.opc ∉ [0x18#8, 0x20#8, 0x38#8, 0x39#8, 0x3A#8] ∧ h.aux ≠ 0) ∨
        (h.opc = 0x20#8 ∧ 1#8 < h.aux) ∨ (h.opc = 0x38#8 ∧ 9#8 < h.aux) ∨
        (h.opc = 0x39#8 ∧ (31#8 < h.aux ∨ 9 < h.aux.toNat % 16)) ∨ (h.opc = 0x3A#8 ∧ 6#8 < h.aux)
    (h.opc ∉ known → decode maxBlock p header ws = .error .illegalOpcode) ∧
      (h.opc ∈ known → p = .q ∧ h.opc ∈ rtOnly → decode maxBlock p header ws = .error .portViolation) ∧
      (h.opc ∈ known → ¬(p = .q ∧ h.opc ∈ rtOnly) → badKind → decode maxBlock p header ws = .error .badKind) ∧
      (h.opc ∈ known → ¬(p = .q ∧ h.opc ∈ rtOnly) → ¬badKind → tooLong →
        decode maxBlock p header ws = .error .blockTooLong) ∧
      (h.opc ∈ known → ¬(p = .q ∧ h.opc ∈ rtOnly) → ¬badKind → ¬tooLong →
        (ws.length ≠ operandCount h (ws.headD 0) ∨ fieldsBad) →
        decode maxBlock p header ws = .error .illegalEncoding) ∧
      (h.opc ∈ known → ¬(p = .q ∧ h.opc ∈ rtOnly) → ¬badKind → ¬tooLong →
        ws.length = operandCount h (ws.headD 0) → ¬fieldsBad → ∃ i, decode maxBlock p header ws = .ok i)

/-- A step runs the decoded instruction: when the next input is a command that decodes to `i`, the step is `exec i` at
the state in which that input is taken and its port is noted (20_memory.md R59, R60). The other steps: an undecodable
command is answered with its fault; with no input nothing happens. That the inputs of both ports stand in one queue of
State, and that there is a step with no input, is the model's own (log entry 7). -/
def Obligations.StepRunsDecoded : Prop :=
  (∀ (s : State) (p : Port) (header : Word) (ws : List Word) (rest : List Input) (i : Instr),
    s.inbox = .command p header ws :: rest → decode s.cfg.maxBlock p header ws = .ok i →
    step s = exec i { s with inbox := rest, port := p }) ∧
  (∀ (s : State) (p : Port) (header : Word) (ws : List Word) (rest : List Input) (k : FaultCode),
    s.inbox = .command p header ws :: rest → decode s.cfg.maxBlock p header ws = .error k →
    step s = .next (State.raise { s with inbox := rest, port := p } (Header.ofWord header) k 0)) ∧
  ∀ s : State, s.inbox = [] → step s = .next s

/-- Responses: one packet on the port the operation came from, the header `OPC` 31:24, `STATUS` 23:16, `INFO` 15:0, then
the values; nothing else changes (30_encoding.md R75, 20_memory.md R50). -/
def Obligations.ResponseFormat : Prop :=
  ∀ (s : State) (o : Opc) (info : BitVec 16) (values : List Word),
    ∃ header : Word, header.extractLsb' 24 8 = o.byte ∧ header.extractLsb' 16 8 = 0#8 ∧ header.extractLsb' 0 16 = info ∧
      s.respond o info values =
        match s.port with
        | .rt => { s with rtOut := s.rtOut ++ [header :: values] }
        | .q => { s with qOut := s.qOut ++ [header :: values] }

/-- Effect of a fault with code `k` on port `p`: bit `k` of `FAULT` is set and no other, `LASTFAULT` holds code, `OPC`,
`BAND`, `KIND` and port, the response is one word with `OPC`, the code and `INFO`, and nothing else changes
(60_exceptions.md R262). -/
def Obligations.FaultEffect : Prop :=
  ∀ (s : State) (h : Header) (k : FaultCode) (info : BitVec 16),
    let t := s.raise h k info
    (∀ n, t.fault.getLsbD n = (s.fault.getLsbD n || decide (n = faultNumber k))) ∧
      t.lastFault.toNat = faultNumber k + h.opc.toNat * 2 ^ 8 + h.band.toNat * 2 ^ 16 + h.kind.toNat * 2 ^ 20 +
        (if s.port = .q then 2 ^ 24 else 0) ∧
      (∃ header : Word, header.toNat = h.opc.toNat * 2 ^ 24 + faultNumber k * 2 ^ 16 + info.toNat ∧
        t.out s.port = s.out s.port ++ [[header]]) ∧
      t.out (otherPort s.port) = s.out (otherPort s.port) ∧ t.bands = s.bands ∧ t.recomp = s.recomp ∧ t.fs = s.fs ∧
      t.cfg = s.cfg ∧ t.inbox = s.inbox ∧ t.port = s.port ∧ t.draws = s.draws

/-! ## The whole machine -/

/-- Every packet on either port gets exactly one response, on its own port, with its opcode echoed, and the operation is
then over (30_encoding.md R84, 20_memory.md R60). No operation stops the machine. The queue of inputs is the model's own
(log entry 7). -/
def Obligations.EveryCommandAnswered : Prop :=
  ∀ (s : State) (p : Port) (header : Word) (ws : List Word) (rest : List Input),
    s.inbox = .command p header ws :: rest →
    ∃ t r more, step s = .next t ∧ t.inbox = rest ∧ t.out p = s.out p ++ [r :: more] ∧
      t.out (otherPort p) = s.out (otherPort p) ∧ r.extractLsb' 24 8 = header.extractLsb' 24 8

/-- A faulting operation, decode fault or execution fault, has no effect on any register but `FAULT` and `LASTFAULT`, and
its response is the header alone; an operation that succeeds leaves `FAULT` and `LASTFAULT` alone
(60_exceptions.md R260, 30_encoding.md R75). -/
def Obligations.FaultingOperationChangesNothingElse : Prop :=
  ∀ (s t : State) (p : Port) (header r : Word) (ws more : List Word) (rest : List Input),
    s.inbox = .command p header ws :: rest → step s = .next t → t.out p = s.out p ++ [r :: more] →
    (r.extractLsb' 16 8 ≠ 0#8 → s.sameButFaults t ∧ more = []) ∧
      (r.extractLsb' 16 8 = 0#8 → t.fault = s.fault ∧ t.lastFault = s.lastFault)

/-- The only thing a Q-port operation can change is `FAULT` and `LASTFAULT`, by faulting (60_exceptions.md R278,
20_memory.md R61). -/
def Obligations.QPortChangesOnlyFaults : Prop :=
  ∀ (s t : State) (header : Word) (ws : List Word) (rest : List Input),
    s.inbox = .command .q header ws :: rest → step s = .next t → s.sameButFaults t ∧ t.rtOut = s.rtOut

/-- `FAULT` bits are sticky: no operation clears one, and none sets any but its own, the bit of the `STATUS` it answers
(10_state.md R35, 60_exceptions.md R261, R276). -/
def Obligations.FaultBitsSticky : Prop :=
  ∀ (s t : State) (p : Port) (header r : Word) (ws more : List Word) (rest : List Input),
    s.inbox = .command p header ws :: rest → step s = .next t → t.out p = s.out p ++ [r :: more] →
    let status := (r.extractLsb' 16 8).toNat
    (status = 0 → t.fault = s.fault) ∧
      (status ≠ 0 → status ≤ 10 ∧ ∀ n, t.fault.getLsbD n = (s.fault.getLsbD n || decide (n = status)))

/-- A command changes a coefficient register, a descriptor or the counter `RECOMP` only when it is an `UPDATE` that
commits, and then `RECOMP` counts one, modulo 2^32: with `RECOMP` unchanged, every band's published coefficients are
unchanged (10_state.md R24, R26, R37; 70_reset_and_hazards.md R301). -/
def Obligations.RecompCountsCoefficientWrites : Prop :=
  ∀ (s t : State) (p : Port) (header : Word) (ws : List Word) (rest : List Input),
    s.inbox = .command p header ws :: rest → step s = .next t →
    t.bands.length = s.bands.length ∧
      ((t.recomp = s.recomp ∧ List.Forall₂ Band.samePublished s.bands t.bands) ∨
        (t.recomp = s.recomp + 1 ∧ p = .rt ∧ header.extractLsb' 24 8 = 0x20#8 ∧
          ∀ n, n ≠ (header.extractLsb' 20 4).toNat → t.bands[n]? = s.bands[n]?))

/-- Stage state is written only by `PROC`, `PROCB`, `BRESET` and an `UPDATE` that changes the topology, which zeroes it
(10_state.md R22, R23; 43_band.md R187). -/
def Obligations.StageStateWriters : Prop :=
  ∀ (s t : State) (p : Port) (header : Word) (ws : List Word) (rest : List Input) (n : Nat) (b b' : Band),
    s.inbox = .command p header ws :: rest → step s = .next t → s.bands[n]? = some b → t.bands[n]? = some b' →
    b.sameStageState b' ∨ (p = .rt ∧ b.en = true ∧ header.extractLsb' 24 8 ∈ [0x28#8, 0x29#8]) ∨
      (p = .rt ∧ header.extractLsb' 24 8 ∈ [0x20#8, 0x21#8] ∧ n = (header.extractLsb' 20 4).toNat ∧
        b'.left = ChannelState.zero ∧ b'.right = ChannelState.zero ∧
        (header.extractLsb' 24 8 = 0x20#8 → (b'.kind, b'.eo) ≠ (b.kind, b.eo)))

/-- The enable bit of a band is changed only by `ENABLE` and `DISABLE` of that band. The dirty-check key of a band is
changed only by `SRATE`, which clears its valid bit and no other field, and by an `UPDATE` of that band that commits
(`RECOMP` counts one), which leaves it valid and holding that packet's fields and operands (10_state.md R28, R29,
R37). -/
def Obligations.EnableAndPrevWriters : Prop :=
  ∀ (s t : State) (p : Port) (header : Word) (ws : List Word) (rest : List Input) (n : Nat) (b b' : Band),
    s.inbox = .command p header ws :: rest → step s = .next t → s.bands[n]? = some b → t.bands[n]? = some b' →
    (b'.en ≠ b.en → p = .rt ∧ header.extractLsb' 24 8 = (if b'.en then 0x22#8 else 0x23#8) ∧
      n = (header.extractLsb' 20 4).toNat) ∧
      (b'.prev ≠ b.prev →
        (p = .rt ∧ header.extractLsb' 24 8 = 0x24#8 ∧ b'.prev = { b.prev with valid := false }) ∨
        (p = .rt ∧ header.extractLsb' 24 8 = 0x20#8 ∧ n = (header.extractLsb' 20 4).toNat ∧ t.recomp = s.recomp + 1 ∧
          b'.prev.valid = true ∧ b'.prev.kind.code = header.extractLsb' 16 4 ∧
          b'.prev.ord = header.extractLsb' 8 8 ∧ b'.prev.bwf = header.getLsbD 0 ∧
          ws = fsWords [b'.prev.freq, b'.prev.gain, b'.prev.bw, b'.prev.fs]))

/-- The invariant of the machine is kept by every step, reset included (10_state.md R26, R28, R35, R36, R39;
00_scope.md R5). -/
def Obligations.InvariantKept : Prop := ∀ s t : State, s.Inv → step s = .next t → t.Inv

/-- The invariant holds after reset of every legal CBFB, and so at `State.reset`, whatever the OPEN parameters are. -/
def Obligations.InvariantAtReset : Prop :=
  (∀ (n : Nat) (c : Config) (d : Nat), 1 ≤ n → n ≤ 16 → configLegal c = true → (State.resetFrom n c d).Inv) ∧
    State.reset.Inv

/-- No step changes the configuration, or the number of bands (00_scope.md R5). That both stand in State is the model's
choice (log entry 1). -/
def Obligations.ConfigurationFixed : Prop :=
  ∀ s t : State, step s = .next t → t.cfg = s.cfg ∧ t.nbands = s.nbands

/-! ## Reset -/

/-- The reset event gives every register its reset value: state `+0.0`, the Bell and LowPass1 records, Bell with
effective order 2, post gain 1.0, `fs_used` = `RESET_FS`, dirty checks invalid, bands disabled, control registers zero
(70_reset_and_hazards.md R290, R291). That responses already sent stay sent, and that the inputs behind the reset wait
for it, is the model's choice (log entry 9). The records are R122's and R132's, by the configuration's own `f_tan` whatever
it gives (R292; log entry 15) and, for a `RESET_Q` below 2^-1022, by the arithmetic against R291's remark on the mix (log
entry 11). The values of `prev`'s other fields are the model's own and not stated (log entry 6). -/
def Obligations.ResetEventGivesResetValues : Prop :=
  ∀ (s : State) (rest : List Input), s.inbox = .reset :: rest →
    ∃ t, step s = .next t ∧ t.inbox = rest ∧ t.rtOut = s.rtOut ∧ t.qOut = s.qOut ∧ t.fault = 0 ∧ t.lastFault = 0 ∧
      t.recomp = 0 ∧ t.fs = 0 ∧ t.nbands = s.nbands ∧ t.cfg = s.cfg ∧
      ∀ b ∈ t.bands, b.kind = .bell ∧ b.eo = .o2 ∧ b.gpost = 0x3FF0000000000000#64 ∧ b.fsUsed = s.cfg.resetFs ∧
        b.prev.valid = false ∧ b.en = false ∧
        (∀ c : Channel, ∀ sub : SubCascade, ((b.chan c).sub sub).first = 0 ∧
          ∀ i : Fin 4, ((b.chan c).sub sub).second[i] = ⟨0, 0⟩) ∧
        ∀ sub : SubCascade,
          IsRecord1 .lowPass1 0x408F400000000000#64 s.cfg.resetFs (b.coef sub).first ∧
            ∀ i : Fin 4, IsRecord2 .bell 0x408F400000000000#64 s.cfg.resetFs s.cfg.resetQ 0 (b.coef sub).second[i]

/-- The reset factory calls cannot fault: under the constraints on the OPEN parameters every check of
41_coefficient_factory.md R121 passes (70_reset_and_hazards.md R291); and the reset Bell has the mix (1, 0, 0), so that
a never-updated band passes its input in value (R292). The spec says the latter for every legal `RESET_Q`; below 2^-1022
the damping `1/RESET_Q` may overflow, so that clause asks for a `RESET_Q` of at least 2^-1022 (log entry 11). -/
def Obligations.ResetRecordsLegal : Prop :=
  ∀ c : Config, configLegal c = true →
    CornerLegal 0x408F400000000000#64 c.resetFs ∧ F.lt F.zero c.resetQ = true ∧
      (F.lt c.resetQ 0x0010000000000000#64 = false → ∀ d : Nat,
        (resetRecords c d).1.1.m0 = F.one ∧ (resetRecords c d).1.1.m1 = F.zero ∧
          (resetRecords c d).1.1.m2 = F.zero)

/-! ## Arithmetic -/

/-- `x + y` for every pair of operands (00_scope.md R7): no value where one is a NaN or the operands are unlike
infinities; an infinite operand is the sum; of finite operands the nearest binary64 value of the exact sum, ties to even,
where an exact zero is `+0.0` unless both operands are negative zeros. `x - y` is `x + y` with `y`'s sign bit
flipped. -/
def Obligations.SumCorrectlyRounded : Prop :=
  ∀ x y : F,
    (F.isNaN x = true ∨ F.isNaN y = true → F.add x y = none) ∧
      (F.isInf x = true → F.isNaN y = false →
        F.add x y = if F.isInf y = true ∧ F.sign y ≠ F.sign x then none else some x) ∧
      (F.isFinite x = true → F.isInf y = true → F.add x y = some y) ∧
      (F.isFinite x = true → F.isFinite y = true →
        ∃ r, F.add x y = some r ∧ IsNearest ((F.val x : ℚ) + F.val y) r ∧
          (F.val x + F.val y = 0 → (F.sign r = true ↔ F.sign x = true ∧ F.sign y = true))) ∧
      F.sub x y = F.add x (y ^^^ 0x8000000000000000#64)

/-- `x * y` for every pair of operands (00_scope.md R7): no value where one is a NaN or a zero meets an infinity; an
infinity where one is infinite and the other no zero; of finite operands the nearest binary64 value of the exact product,
ties to even. The sign of a result is the exclusive or of the operands' signs. -/
def Obligations.ProductCorrectlyRounded : Prop :=
  ∀ x y : F,
    (F.isNaN x = true ∨ F.isNaN y = true → F.mul x y = none) ∧
      (F.isInf x = true ∧ F.isZero y = true ∨ F.isZero x = true ∧ F.isInf y = true → F.mul x y = none) ∧
      (F.isNaN x = false → F.isNaN y = false → F.isZero x = false → F.isZero y = false →
        F.isInf x = true ∨ F.isInf y = true →
        ∃ r, F.mul x y = some r ∧ F.isInf r = true ∧ F.sign r = (F.sign x != F.sign y)) ∧
      (F.isFinite x = true → F.isFinite y = true →
        ∃ r, F.mul x y = some r ∧ IsNearest ((F.val x : ℚ) * F.val y / 2 ^ 1074) r ∧
          F.sign r = (F.sign x != F.sign y))

/-- `x / y` for every pair of operands (00_scope.md R7): no value where one is a NaN, both are zeros or both are
infinities; an infinity where the dividend is infinite, or no zero over a zero divisor; a zero where the divisor is
infinite; else, of finite operands, the nearest binary64 value of the exact quotient, ties to even. The sign of a result
is the exclusive or of the operands' signs. -/
def Obligations.QuotientCorrectlyRounded : Prop :=
  ∀ x y : F,
    (F.isNaN x = true ∨ F.isNaN y = true → F.div x y = none) ∧
      (F.isInf x = true ∧ F.isInf y = true ∨ F.isZero x = true ∧ F.isZero y = true → F.div x y = none) ∧
      (F.isInf x = true ∧ F.isFinite y = true ∨ F.isFinite x = true ∧ F.isZero x = false ∧ F.isZero y = true →
        ∃ r, F.div x y = some r ∧ F.isInf r = true ∧ F.sign r = (F.sign x != F.sign y)) ∧
      (F.isFinite x = true → F.isInf y = true →
        ∃ r, F.div x y = some r ∧ F.isZero r = true ∧ F.sign r = (F.sign x != F.sign y)) ∧
      (F.isFinite x = true → F.isFinite y = true → F.isZero y = false →
        ∃ r, F.div x y = some r ∧ IsNearest ((F.val x : ℚ) * 2 ^ 1074 / F.val y) r ∧
          F.sign r = (F.sign x != F.sign y))

/-- `f_sqrt` for every operand (00_scope.md R9): no value for a NaN and for a negative operand; a zero of either sign and
`+inf` are their own roots; of a finite positive operand the correctly rounded square root: no finite value is nearer to
the real root. -/
def Obligations.RootCorrectlyRounded : Prop :=
  ∀ x : F,
    (F.isNaN x = true → F.sqrt x = none) ∧ (F.isZero x = true → F.sqrt x = some x) ∧
      (F.isZero x = false → F.sign x = true → F.sqrt x = none) ∧
      (F.isInf x = true → F.sign x = false → F.sqrt x = some x) ∧
      (F.isFinite x = true → F.isZero x = false → F.sign x = false →
        ∃ r, F.sqrt x = some r ∧ F.isFinite r = true ∧ F.sign r = false ∧
          ∀ z : F, F.isFinite z = true →
            |(F.val r : ℝ) - Real.sqrt ((F.val x : ℝ) * 2 ^ 1074)| ≤
              |(F.val z : ℝ) - Real.sqrt ((F.val x : ℝ) * 2 ^ 1074)|)

/-- NaN is sticky through the ticks: a NaN in the input or in the state makes every output a NaN, whatever the
coefficients (40_stage_datapath.md R107). -/
def Obligations.NaNIsSticky : Prop :=
  (∀ a1 a2 a3 m0 m1 m2 i1 i2 x y i1' i2' : F, IsTick2 a1 a2 a3 m0 m1 m2 i1 i2 x y i1' i2' →
    F.isNaN x = true ∨ F.isNaN i1 = true ∨ F.isNaN i2 = true →
    F.isNaN y = true ∧ F.isNaN i1' = true ∧ F.isNaN i2' = true) ∧
  ∀ a m0 m1 s x y s' : F, IsTick1 a m0 m1 s x y s' → F.isNaN x = true ∨ F.isNaN s = true →
    F.isNaN y = true ∧ F.isNaN s' = true

/-- `clamp(x, lo, hi)`: below `lo` gives `lo`, above `hi` gives `hi`, else the operand's own bits, and a NaN passes
unchanged (00_scope.md R11). -/
def Obligations.ClampBounds : Prop :=
  ∀ x lo hi : F,
    (F.isNaN x = true → clamp x lo hi = x) ∧ (F.lt x lo = true → clamp x lo hi = lo) ∧
      (F.lt x lo = false → F.lt hi x = true → clamp x lo hi = hi) ∧
      (F.lt x lo = false → F.lt hi x = false → clamp x lo hi = x)

/-! ## The pure operations -/

/-- The two ticks: `TICK2` answers `y, ic1eq', ic2eq'` of the second-order tick and `TICK1` answers `y, s'` of the
first-order tick, on either port, for all operands, and neither changes a register (40_stage_datapath.md R101 to R105). -/
def Obligations.TickResults : Prop :=
  (∀ (s : State) (a1 a2 a3 m0 m1 m2 ic1eq ic2eq x : F), ∃ y i1 i2 d,
    IsTick2 a1 a2 a3 m0 m1 m2 ic1eq ic2eq x y i1 i2 ∧
      exec (.tick2 a1 a2 a3 m0 m1 m2 ic1eq ic2eq x) s =
        .next (State.respond { s with draws := d } .tick2 0 (fsWords [y, i1, i2]))) ∧
  ∀ (s : State) (a m0 m1 s0 x : F), ∃ y s' d, IsTick1 a m0 m1 s0 x y s' ∧
    exec (.tick1 a m0 m1 s0 x) s = .next (State.respond { s with draws := d } .tick1 0 (fsWords [y, s']))

/-- The law that ties the datapath to the evaluator (40_stage_datapath.md R109): over the reals, from zero state, the
output sequence of repeated ticks is the input sequence through the filter whose transfer function is the evaluator's. A
sequence is the power series in `z⁻¹` with its samples as coefficients, and the filter is multiplication by `H`, which is
the evaluator's own text at `z⁻¹` = `X` and `z⁻²` = `X ^ 2`. -/
def Obligations.ExactTransferFunction : Prop :=
  (∀ (g k m0 m1 m2 : ℝ) (x : Nat → ℝ), 1 + g * (g + k) ≠ 0 →
    let a1 := 1 / (1 + g * (g + k))
    let a2 := g * a1
    let a3 := g * a2
    PowerSeries.mk (exactOutput2 a1 a2 a3 m0 m1 m2 x) =
      PowerSeries.mk x *
        exactH2 PowerSeries.C (fun u => u⁻¹) g k m0 m1 m2 (g * g) PowerSeries.X (PowerSeries.X ^ 2)) ∧
  ∀ (g m0 m1 : ℝ) (x : Nat → ℝ), 1 + g ≠ 0 →
    PowerSeries.mk (exactOutput1 (g / (1 + g)) m0 m1 x) =
      PowerSeries.mk x * exactH1 PowerSeries.C (fun u => u⁻¹) g m0 m1 PowerSeries.X

/-- The factory's checks, in order: `f0`, then `fs`, then (second-order shapes) `Q`, each failing for a NaN; a `COEF`
whose check fails answers that fault and changes nothing but `FAULT` and `LASTFAULT` (41_coefficient_factory.md
R121). -/
def Obligations.FactoryChecksInOrder : Prop :=
  ∀ (s : State) (f0 fs q gainDb : F),
    let nyquistOk : Prop := ∃ t, IsProd F.two f0 t ∧ F.lt t fs = true
    let secondOrder : List (Instr × BitVec 4) :=
      [(.coefBell f0 fs q gainDb, 0), (.coefLp f0 fs q, 1), (.coefHp f0 fs q, 2), (.coefLs f0 fs q gainDb, 3),
        (.coefHs f0 fs q gainDb, 4), (.coefNotch f0 fs q, 5), (.coefBp f0 fs q, 6), (.coefAp f0 fs q, 9)]
    let firstOrder : List (Instr × BitVec 4) := [(.coefLp1 f0 fs, 10), (.coefHp1 f0 fs, 11)]
    let faults : Instr × BitVec 4 → FaultCode → Prop := fun i k =>
      exec i.1 s = .next (s.raise ⟨0x10, 0, i.2, 0, 0⟩ k 0)
    (F.lt F.zero f0 = false → ∀ i ∈ secondOrder ++ firstOrder, faults i .nonPositiveFrequency) ∧
      (F.lt F.zero f0 = true → ¬nyquistOk → ∀ i ∈ secondOrder ++ firstOrder, faults i .outsideNyquist) ∧
      (F.lt F.zero f0 = true → nyquistOk → F.lt F.zero q = false → ∀ i ∈ secondOrder, faults i .nonPositiveQ)

/-- The eight second-order shapes: when the checks pass, `COEF` answers the shape's record and changes no register
(41_coefficient_factory.md R122 to R131). -/
def Obligations.SecondOrderCoefficients : Prop :=
  ∀ (s : State) (f0 fs q gainDb : F), F.lt F.zero f0 = true → (∃ t, IsProd F.two f0 t ∧ F.lt t fs = true) →
    F.lt F.zero q = true →
    ∀ i ∈ [(Instr.coefBell f0 fs q gainDb, Shape2.bell), (.coefLp f0 fs q, .lowPass), (.coefHp f0 fs q, .highPass),
        (.coefLs f0 fs q gainDb, .lowShelf), (.coefHs f0 fs q gainDb, .highShelf), (.coefNotch f0 fs q, .notch),
        (.coefBp f0 fs q, .bandPass), (.coefAp f0 fs q, .allPass)],
      ∃ c d, IsRecord2 i.2 f0 fs q gainDb c ∧
        exec i.1 s = .next (State.respond { s with draws := d } .coef 0
          (fsWords [c.g, c.k, c.a1, c.a2, c.a3, c.m0, c.m1, c.m2, c.g2]))

/-- The two first-order shapes: when the two frequency checks pass, `COEF` answers `g, a, m0, m1` and changes no register
(41_coefficient_factory.md R132, R133). -/
def Obligations.FirstOrderCoefficients : Prop :=
  ∀ (s : State) (f0 fs : F), F.lt F.zero f0 = true → (∃ t, IsProd F.two f0 t ∧ F.lt t fs = true) →
    ∀ i ∈ [(Instr.coefLp1 f0 fs, Shape1.lowPass1), (.coefHp1 f0 fs, .highPass1)],
      ∃ c d, IsRecord1 i.2 f0 fs c ∧
        exec i.1 s = .next (State.respond { s with draws := d } .coef 0 (fsWords [c.g, c.a, c.m0, c.m1]))

/-- `POLEQ`: order outside 1..8 faults `UnsupportedOrder`; then a pole index out of range faults `IllegalEncoding`; the
one-pole marker answers `INFO` = 1 and `+0.0`; else the answer is `1/(2*cos(angle))` at the pole's angle
(42_cascade_builder.md R151). -/
def Obligations.PoleqResult : Prop :=
  ∀ (s : State) (ord pole : BitVec 8),
    let n := ord.toNat
    let h : Header := ⟨0x18, 0, 0, ord, pole⟩
    let inRange : Prop := if n % 2 = 0 then pole.toNat ≤ n / 2 - 1 else pole.toNat ≤ (n - 1) / 2
    (n = 0 ∨ 8 < n → exec (.poleq ord pole) s = .next (s.raise h .unsupportedOrder 0)) ∧
      (1 ≤ n → n ≤ 8 → ¬inRange → exec (.poleq ord pole) s = .next (s.raise h .illegalEncoding 0)) ∧
      (1 ≤ n → n ≤ 8 → inRange → n % 2 = 1 → pole = 0 →
        exec (.poleq ord pole) s = .next (s.respond .poleq 1 (fWords 0))) ∧
      (1 ≤ n → n ≤ 8 → inRange → (n % 2 = 0 ∨ pole ≠ 0) →
        ∃ inc angle c2 q d, IsQuot F.pi (F.ofNat n) inc ∧
          (if n % 2 = 0 then
            ∃ a b, IsQuot inc F.two a ∧ IsProd (F.ofNat pole.toNat) inc b ∧ IsSum a b angle
          else IsProd inc (F.ofNat pole.toNat) angle) ∧
          IsProd F.two (fCos angle) c2 ∧ IsQuot F.one c2 q ∧
          exec (.poleq ord pole) s = .next (State.respond { s with draws := d } .poleq 0 (fWords q)))

/-- `x < y` for every pair of operands, and `float(n)` for every whole number up to 2^32 (00_scope.md R7): a comparison
with a NaN is false, `-inf` is below and `+inf` above every other value, finite values compare by value (so the zeros are
equal), and `float(n)` is exactly `n`. -/
def Obligations.ComparisonsAndWholeNumbersExact : Prop :=
  (∀ x y : F,
    (F.isNaN x = true ∨ F.isNaN y = true → F.lt x y = false) ∧
      (F.isFinite x = true → F.isFinite y = true → (F.lt x y = true ↔ F.val x < F.val y)) ∧
      (F.isInf x = true → F.isNaN y = false →
        (F.lt x y = true ↔ F.sign x = true ∧ ¬(F.isInf y = true ∧ F.sign y = true))) ∧
      (F.isFinite x = true → F.isInf y = true → (F.lt x y = true ↔ F.sign y = false))) ∧
  ∀ n : Nat, n ≤ 2 ^ 32 → F.isFinite (F.ofNat n) = true ∧ F.val (F.ofNat n) = (n : Int) * 2 ^ 1074

/-- `QDIST`: an order other than 2, 4, 6, 8 faults `UnsupportedOrder`; order 2 answers the operand itself; else the
answer is the ratios of the order's row, in table order, each times the Q over `BUTTERWORTH_Q` with its excess over 1.0
compressed by the order's factor; `INFO` is the length, and no check is made on `Q` (42_cascade_builder.md R152, R153,
R154 a). The ratios and factors are the bit patterns of the spec's tables. -/
def Obligations.QdistResult : Prop :=
  ∀ (s : State) (q : F),
    (∀ ord : BitVec 8, ord ∉ [2#8, 4#8, 6#8, 8#8] →
      exec (.qdist ord q) s = .next (s.raise ⟨0x19, 0, 0, ord, 0⟩ .unsupportedOrder 0)) ∧
    exec (.qdist 2 q) s = .next (s.respond .qdist 1 (fsWords [q])) ∧
    ∀ p ∈ ([(4#8, 0x3FD6666666666666#64, [0x3FE1517A7BDB3895#64, 0x3FF4E7AE9144F0FC#64]),
        (6#8, 0x3FC999999999999A#64, [0x3FE0907DC1930690#64, 0x3FE6A09E667F3BCD#64, 0x3FFEE8DD4748BF15#64]),
        (8#8, 0x3FC1EB851EB851EC#64,
          [0x3FE0503ED17CBA53#64, 0x3FE33E37A1E0173E#64, 0x3FECCC9AEFB18D58#64, 0x400480D9D073B428#64])] :
        List (BitVec 8 × F × List F)),
      ∃ qn sc qs d, IsQuot q 0x3FE6A09E65DC27DF#64 qn ∧
        (if F.lt F.one qn then ∃ ex m, IsDiff qn F.one ex ∧ IsProd ex p.2.1 m ∧ IsSum F.one m sc else sc = qn) ∧
        List.Forall₂ (fun r x => IsProd r sc x) p.2.2 qs ∧ qs.length = p.1.toNat / 2 ∧
        exec (.qdist p.1 q) s =
          .next (State.respond { s with draws := d } .qdist (BitVec.ofNat 16 qs.length) (fsWords qs))

/-- `BW2Q` answers `1.0/(2.0*f_sinh((LN2/2.0)*bw))` for every operand, with the corner cases of 42_cascade_builder.md
R155: `+0.0` gives `+inf`, `-0.0` gives `-inf`, a NaN gives a NaN, and a `bw` below zero gives a `Q` that is no NaN, has
the sign set and is not positive (60_exceptions.md R264), and is below zero unless it is the formula's own `-0.0`, with
`2.0*f_sinh` infinite. Elsewhere, and for a `bw` below zero wherever the formula gives such a `Q`, it is the formula's
result; that the corner cases hold where a free `f_sinh` is against them is the model's reading (log entry 15,
DEDUCED). -/
def Obligations.Bw2qResult : Prop :=
  (∀ (s : State) (bw : F), ∃ q d, IsBw2q bw q ∧
    exec (.bw2q bw) s = .next (State.respond { s with draws := d } .bw2q 0 (fWords q))) ∧
  ∀ bw q : F, IsBw2q bw q →
    (bw = 0x0000000000000000#64 → q = 0x7FF0000000000000#64) ∧
      (bw = 0x8000000000000000#64 → q = 0xFFF0000000000000#64) ∧
      (F.isNaN bw = true → F.isNaN q = true) ∧
      (F.isZero bw = false → F.sign bw = false → IsBw2qFormula bw q) ∧
      (F.isNaN bw = false → F.isZero bw = false → F.sign bw = true →
        F.isNaN q = false ∧ F.sign q = true ∧ F.lt F.zero q = false ∧
          (F.lt q F.zero = true ∨ q = 0x8000000000000000#64 ∧
            ∃ x d, IsProd 0x3FD62E42FEFA39EF#64 bw x ∧ IsProd F.two (fSinh x) d ∧ F.isInf d = true) ∧
          (IsBw2qFormula bw q ∨ ∃ r, IsBw2qFormula bw r ∧ (F.isNaN r = true ∨ F.sign r = false)))

/-- `HSTAGE2` and `HSTAGE1` answer the transfer-function value of the record given as operands, for all operands, and
change no register (45_response_sampler.md R231 to R234, R236). At frequency 0 the powers of `z⁻¹` are 1 in value, the
imaginary parts zeros, and `fs = 0` gives NaN (R234); elsewhere the powers are what the lines of R231 give. That the
corner cases of R234 hold where free `f_cos` and `f_sin` are against them is the model's reading (log entry 15,
DEDUCED). -/
def Obligations.HstageResults : Prop :=
  (∀ (s : State) (c : SVFCoefficients) (f fs : F), ∃ h d, IsH2 c f fs h ∧
    exec (.hstage2 c f fs) s = .next (State.respond { s with draws := d } .hstage2 0 (fsWords [h.re, h.im]))) ∧
  (∀ (s : State) (c : OnePoleCoefficients) (f fs : F), ∃ h d, IsH1 c f fs h ∧
    exec (.hstage1 c f fs) s = .next (State.respond { s with draws := d } .hstage1 0 (fsWords [h.re, h.im]))) ∧
  (∀ (f fs : F) (z1 z2 : Complex64), F.isZero f = true → F.isNaN fs = false → F.isZero fs = false →
    IsZinv f fs z1 z2 →
    z1.re = F.one ∧ F.isZero z1.im = true ∧ z2.re = F.one ∧ F.isZero z2.im = true) ∧
  (∀ (f fs : F), F.isZero fs = true →
    (∀ c h, IsH2 c f fs h → F.isNaN h.re = true ∧ F.isNaN h.im = true) ∧
      ∀ c h, IsH1 c f fs h → F.isNaN h.re = true ∧ F.isNaN h.im = true) ∧
  ∀ (f fs : F) (z1 z2 : Complex64), F.isZero fs = false → F.isZero f = false ∨ F.isNaN fs = true →
    IsZinv f fs z1 z2 → IsZinvLines f fs z1 z2

/-! ## Reading the machine -/

/-- `BODE` of an existing band answers its response at `f`, enabled or not, and changes no register
(45_response_sampler.md R235, R238). At `f = 0` the powers of `z⁻¹` are those of R234's corner case, whatever `f_cos` and
`f_sin` are (log entry 15, DEDUCED); of a band at reset the answer is the formula's, also where that is not R238's
`(1.0, 0.0)` (log entry 16, DEDUCED). -/
def Obligations.BodeResult : Prop :=
  ∀ (s : State) (b : BitVec 4) (band : Band) (f : F), s.bands[b.toNat]? = some band →
    ∃ h d, IsBandResponse band f h ∧
      exec (.bode b f) s = .next (State.respond { s with draws := d } .bode 0 (fsWords [h.re, h.im]))

/-- What `BODE` answers of a band no `UPDATE` has reached: `(1.0, 0.0)`, unless the denominator, squared as complex
division squares it, is zero (45_response_sampler.md R238). The first clause says that the reset Bell is a flat record, the
second that a Bell with a flat record answers so. R238 says it for every `f` and every legal configuration; the formula
gives it where `g` and `z⁻¹` are numbers of ordinary size, which free `f_tan`, `f_cos` and `f_sin` need not give, and a NaN
`f` does not (log entry 16, DEDUCED). The clause on the reset record asks for a `RESET_Q` of at least 2^-900, above which
nothing overflows (log entries 11, 16). -/
def Obligations.ResetBandResponse : Prop :=
  (∀ (c : Config) (d : Nat), configLegal c = true → F.lt c.resetQ 0x07B0000000000000#64 = false →
    IsFlatRecord (resetRecords c d).1.1) ∧
  ∀ (s : State) (b : BitVec 4) (band : Band) (f : F), s.bands[b.toNat]? = some band → band.kind = .bell →
    band.eo = .o2 → IsFlatRecord band.coefA.second[0] → atMost 0x43F0000000000000#64 band.coefA.second[0].g = true →
    ∃ z1 z2 den n d, IsZinv f band.fsUsed z1 z2 ∧ IsDen2 band.coefA.second[0] z1 z2 den ∧
      IsSumOfProds den.re den.re den.im den.im n ∧
      (atMost F.two z1.re = true → atMost F.two z1.im = true →
        F.isNaN n = false ∧ (F.isZero n = false → exec (.bode b f) s =
          .next (State.respond { s with draws := d } .bode 0 (fsWords [0x3FF0000000000000#64, 0x0000000000000000#64]))))

/-- The query side learns nothing of the stage state: two machines whose bands agree on coefficients, descriptor, valid
and enable bits, and whose control registers agree, answer every Q-port packet alike, whatever their stage state is
(20_memory.md R61, 45_response_sampler.md R237), and their fault registers still agree. `Alike` is up to the bits of a NaN
the hardware makes, since the machines may have drawn different numbers of NaNs (log entry 2). -/
def Obligations.QPortSeesNoStageState : Prop :=
  ∀ (s₁ s₂ t₁ t₂ : State) (header : Word) (ws : List Word) (rest₁ rest₂ : List Input),
    s₁.inbox = .command .q header ws :: rest₁ → s₂.inbox = .command .q header ws :: rest₂ →
    List.Forall₂ (fun a b => Band.samePublished a b ∧ a.prev.valid = b.prev.valid ∧ a.en = b.en) s₁.bands s₂.bands →
    s₁.fault = s₂.fault → s₁.lastFault = s₂.lastFault → s₁.recomp = s₂.recomp → s₁.fs = s₂.fs → s₁.cfg = s₂.cfg →
    step s₁ = .next t₁ → step s₂ = .next t₂ →
    (∃ r₁ r₂, t₁.qOut = s₁.qOut ++ [r₁] ∧ t₂.qOut = s₂.qOut ++ [r₂] ∧ SameAnswer r₁ r₂) ∧ t₁.fault = t₂.fault ∧
      t₁.lastFault = t₂.lastFault

/-- `RDCOEF`, `RDSTATE` and `RDBAND`: a slot's record or state registers, active or not, in packet order, with `INFO` bit
0 marking a first-order slot, `RDSTATE` on the RT port; and the descriptor word (bits 3:0 the kind code, 7:4 `eo`, 10:8
`n`, 11 the first-order mark, 12 `prev.valid`, 13 `en`, the rest 0), `gpost` and `fs_used` (46_readback.md R250 to
R252). -/
def Obligations.ReadBackOfBand : Prop :=
  ∀ (s : State) (b : BitVec 4) (band : Band), s.bands[b.toNat]? = some band →
    (∀ sub : SubCascade,
      exec (.rdcoef b (.first sub)) s =
        .next (s.respond .rdcoef 1 (fsWords [(band.coef sub).first.g, (band.coef sub).first.a,
          (band.coef sub).first.m0, (band.coef sub).first.m1])) ∧
      ∀ i : Fin 4, ∃ c, (band.coef sub).second[i] = c ∧
        exec (.rdcoef b (.second sub i)) s =
          .next (s.respond .rdcoef 0 (fsWords [c.g, c.k, c.a1, c.a2, c.a3, c.m0, c.m1, c.m2, c.g2]))) ∧
    (s.port = .rt → ∀ (sub : SubCascade) (ch : Channel),
      exec (.rdstate b (.first sub) ch) s = .next (s.respond .rdstate 1 (fsWords [((band.chan ch).sub sub).first])) ∧
      ∀ i : Fin 4, ∃ st, ((band.chan ch).sub sub).second[i] = st ∧
        exec (.rdstate b (.second sub i) ch) s = .next (s.respond .rdstate 0 (fsWords [st.ic1eq, st.ic2eq]))) ∧
    ∃ w : Word, w.toNat = band.kind.code.toNat + band.eo.toNat * 2 ^ 4 + band.eo.stages * 2 ^ 8 +
        (if band.eo = .o1 then 2 ^ 11 else 0) + (if band.prev.valid then 2 ^ 12 else 0) +
        (if band.en then 2 ^ 13 else 0) ∧
      exec (.rdband b) s = .next (s.respond .rdband 0 (w :: fsWords [band.gpost, band.fsUsed]))

/-- `RDCSR` answers the register, zero-extended, low word then high word, and clears nothing (46_readback.md R253;
10_state.md R31 to R38): `ID` and `CONFIG` are the constants, `ENABLE` is the view of the enable bits. -/
def Obligations.ReadBackOfControlRegisters : Prop :=
  ∀ s : State, 1 ≤ s.nbands → s.nbands ≤ 16 →
    exec (.rdcsr .id) s = .next (s.respond .rdcsr 0 [0x43424642#32, 0]) ∧
      (∃ w : Word, w.toNat = s.nbands + 8 * 2 ^ 8 ∧ exec (.rdcsr .config) s = .next (s.respond .rdcsr 0 [w, 0])) ∧
      (∃ w : Word, (∀ n, w.getLsbD n = true ↔ ∃ b, s.bands[n]? = some b ∧ b.en = true) ∧
        exec (.rdcsr .enable) s = .next (s.respond .rdcsr 0 [w, 0])) ∧
      exec (.rdcsr .fault) s = .next (s.respond .rdcsr 0 [s.fault, 0]) ∧
      exec (.rdcsr .lastFault) s = .next (s.respond .rdcsr 0 [s.lastFault, 0]) ∧
      exec (.rdcsr .recomp) s = .next (s.respond .rdcsr 0 [s.recomp, 0]) ∧
      exec (.rdcsr .fs) s = .next (s.respond .rdcsr 0 [s.fs.extractLsb' 0 32, s.fs.extractLsb' 32 32])

/-- The analog prototypes (41_coefficient_factory.md R135): in exact arithmetic the evaluator's value of a shape's record
at `z⁻¹` = `w` is the table's `H(s)` at `s = (1/g)*(1 - w)/(1 + w)`; at `s = j` LowPass, BandPass and HighPass have
magnitude `Q`, Notch is 0, AllPass has magnitude 1 and Bell is `A²`; and `H` is `m0 + m2` (`m0 + m1` for a first-order
record) at `z⁻¹ = 1` and `m0` at `z⁻¹ = -1`, so that a shelf's gain stands at its end of the band. -/
def Obligations.AnalogPrototypes : Prop :=
  (∀ (shape : Shape2) (g k amp w : ℂ), g ≠ 0 → 1 + w ≠ 0 →
    let s := 1 / g * ((1 - w) / (1 + w))
    let m := exactMix shape k amp
    s ^ 2 + k * s + 1 ≠ 0 →
    exactH2 (fun r => r) (fun u => u⁻¹) g k m.1 m.2.1 m.2.2 (g * g) w (w * w) = prototype shape k amp s) ∧
  (∀ q amp : ℝ, 0 < q → 0 < amp →
    (∀ shape ∈ [Shape2.lowPass, .bandPass, .highPass], ‖prototype shape ((1 / q : ℝ) : ℂ) amp Complex.I‖ = q) ∧
      prototype .notch ((1 / q : ℝ) : ℂ) amp Complex.I = 0 ∧
      ‖prototype .allPass ((1 / q : ℝ) : ℂ) amp Complex.I‖ = 1 ∧
      prototype .bell ((1 / (q * amp) : ℝ) : ℂ) amp Complex.I = amp ^ 2) ∧
  ∀ g k m0 m1 m2 : ℂ, g ≠ 0 →
    exactH2 (fun r => r) (fun u => u⁻¹) g k m0 m1 m2 (g * g) 1 1 = m0 + m2 ∧
      exactH2 (fun r => r) (fun u => u⁻¹) g k m0 m1 m2 (g * g) (-1) 1 = m0 ∧
      exactH1 (fun r => r) (fun u => u⁻¹) g m0 m1 1 = m0 + m1

/-- The response laws of 45_response_sampler.md R240, in exact arithmetic, the evaluator's value taken at the frequency
itself: `z⁻¹` = `exp(2πi*f/fs)`, `g` = `tan(π*f0/fs)`. At its own frequency (a) a Bell of `gain` decibels has magnitude
`10^(gain/20)`, (b) a Notch is 0 and (d) LowPass and HighPass have magnitude the product of their stage Qs, that is `Q` at
order 2 (`1/√2` at order 1). (c) AllPass has magnitude 1 at every `f`. (e) One octave farther from the cutoff LowPass and
HighPass of effective order `eo` fall by a factor that tends to `2^eo`, which is `20*log10(2)*eo`, R240's 6·`eo` decibels:
HighPass as `f` tends to 0, LowPass far above its cutoff and far below the sample rate, near which the bilinear map bends
the scale. -/
def Obligations.ResponseLaws : Prop :=
  let g (f0 fs : ℝ) : ℝ := Real.tan (Real.pi * f0 / fs)
  let w (f fs : ℝ) : ℂ := Complex.exp ((2 * Real.pi * f / fs : ℝ) * Complex.I)
  (∀ f0 fs : ℝ, 0 < f0 → 2 * f0 < fs →
    (∀ q gain : ℝ, 0 < q → ∀ amp : ℝ, amp = 10 ^ (gain / 40) →
      ‖exactShape2 Complex.ofReal .bell (g f0 fs) (1 / (q * amp)) amp (w f0 fs)‖ = 10 ^ (gain / 20)) ∧
    (∀ q : ℝ, 0 < q → exactShape2 Complex.ofReal .notch (g f0 fs) (1 / q) 1 (w f0 fs) = 0) ∧
    (∀ q f : ℝ, 0 < q → ‖exactShape2 Complex.ofReal .allPass (g f0 fs) (1 / q) 1 (w f fs)‖ = 1) ∧
    ∀ (eo : EffOrder) (qs : List ℝ), qs.length = eo.stages → (∀ q ∈ qs, 0 < q) →
      ‖exactLowPass Complex.ofReal (g f0 fs) eo qs (w f0 fs)‖ = (if eo = .o1 then 1 / √2 else qs.prod) ∧
      ‖exactHighPass Complex.ofReal (g f0 fs) eo qs (w f0 fs)‖ = (if eo = .o1 then 1 / √2 else qs.prod) ∧
      Filter.Tendsto (fun f => ‖exactHighPass Complex.ofReal (g f0 fs) eo qs (w f fs)‖ /
        ‖exactHighPass Complex.ofReal (g f0 fs) eo qs (w (f / 2) fs)‖) (nhdsWithin 0 (Set.Ioi 0)) (nhds (2 ^ eo.toNat))) ∧
  ∀ (f0 ε : ℝ) (eo : EffOrder) (qs : List ℝ), 0 < f0 → 0 < ε → qs.length = eo.stages → (∀ q ∈ qs, 0 < q) →
    ∀ᶠ f in Filter.atTop, ∀ᶠ fs in Filter.atTop,
      |‖exactLowPass Complex.ofReal (g f0 fs) eo qs (w f fs)‖ /
        ‖exactLowPass Complex.ofReal (g f0 fs) eo qs (w (2 * f) fs)‖ - 2 ^ eo.toNat| < ε

/-! ## The band -/

/-- Port, band and order are checked in that order by every operation that has them: an RT-only operation on the Q port
faults `PortViolation`; a `BAND` that names no band faults `BadBand`; an `UPDATE` order outside 1..8 faults
`UnsupportedOrder`. None of them has any other effect (30_encoding.md R84 steps 2, 6, 7; 60_exceptions.md R268, R270,
R272). -/
def Obligations.PortBandOrderChecks : Prop :=
  ∀ (s : State) (b : BitVec 4) (ord : BitVec 8) (bwf : Bool) (freq gain bw fs f xL xR : F) (frames : List (F × F))
    (slot : Slot) (ch : Channel),
    let updates : List Instr :=
      [.updateBell b ord bwf freq gain bw fs, .updateLp b ord bwf freq gain bw fs, .updateHp b ord bwf freq gain bw fs,
        .updateLs b ord bwf freq gain bw fs, .updateHs b ord bwf freq gain bw fs, .updateNotch b ord bwf freq gain bw fs,
        .updateBp b ord bwf freq gain bw fs, .updateTilt b ord bwf freq gain bw fs, .updateMesa b ord bwf freq gain bw fs,
        .updateAp b ord bwf freq gain bw fs]
    let rtBand : List Instr := updates ++ [.breset b, .enable b, .disable b, .rdstate b slot ch]
    (s.port = .q → ∀ i ∈ rtBand ++ [.srate f, .proc xL xR, .procb frames],
      exec i s = .next (s.raise i.header .portViolation 0)) ∧
    (s.bands[b.toNat]? = none →
      (s.port = .rt → ∀ i ∈ rtBand, exec i s = .next (s.raise i.header .badBand 0)) ∧
      ∀ i ∈ [Instr.bode b f, .rdcoef b slot, .rdband b], exec i s = .next (s.raise i.header .badBand 0)) ∧
    (s.port = .rt → (∃ band, s.bands[b.toNat]? = some band) → (ord.toNat = 0 ∨ 8 < ord.toNat) →
      ∀ i ∈ updates, exec i s = .next (s.raise i.header .unsupportedOrder 0))

/-- The effective order of 43_band.md R174, for every kind and every order 1 to 8. -/
def Obligations.EffectiveOrder : Prop :=
  ∀ (kind : FilterKind) (ord : BitVec 8), 1 ≤ ord.toNat → ord.toNat ≤ 8 →
    (effOrder kind ord).toNat =
      if kind = .bell ∨ kind = .notch ∨ kind = .allPass then 2
      else if ord.toNat = 1 then (if kind = .lowPass ∨ kind = .highPass ∨ kind = .bandPass then 1 else 2)
      else ord.toNat + ord.toNat % 2

/-- The dirty check: with `prev[b]` valid and all compared fields bit-identical an `UPDATE` of any kind ends at once,
answers `INFO` = 1 and changes nothing; a difference in any one field, or an invalid `prev[b]`, is no hit
(43_band.md R171, R172). -/
def Obligations.DirtyCheck : Prop :=
  (∀ (p : Prev) (kind : FilterKind) (ord : BitVec 8) (bwf : Bool) (freq gain bw fs : F),
    dirtyCheckHit p kind ord bwf freq gain bw fs = true ↔
      p.valid = true ∧ p.kind = kind ∧ p.ord = ord ∧ p.bwf = bwf ∧ p.freq = freq ∧ p.gain = gain ∧ p.bw = bw ∧
        p.fs = fs) ∧
  ∀ (s : State) (b : BitVec 4) (band : Band) (ord : BitVec 8) (bwf : Bool) (freq gain bw fs : F), s.port = .rt →
    s.bands[b.toNat]? = some band → 1 ≤ ord.toNat → ord.toNat ≤ 8 →
    ∀ i ∈ [(Instr.updateBell b ord bwf freq gain bw fs, FilterKind.bell), (.updateLp b ord bwf freq gain bw fs, .lowPass),
        (.updateHp b ord bwf freq gain bw fs, .highPass), (.updateLs b ord bwf freq gain bw fs, .lowShelf),
        (.updateHs b ord bwf freq gain bw fs, .highShelf), (.updateNotch b ord bwf freq gain bw fs, .notch),
        (.updateBp b ord bwf freq gain bw fs, .bandPass), (.updateTilt b ord bwf freq gain bw fs, .tilt),
        (.updateMesa b ord bwf freq gain bw fs, .mesa), (.updateAp b ord bwf freq gain bw fs, .allPass)],
      band.prev = ⟨true, i.2, ord, bwf, freq, gain, bw, fs⟩ → exec i.1 s = .next (s.respond .update 1 [])

/-- Idempotence: an `UPDATE` that committed, sent again with no operation between, is skipped and changes no register
(43_band.md R172; 95_test_vectors.md E5). -/
def Obligations.UpdateTwiceSkips : Prop :=
  ∀ (s t u : State) (header : Word) (ws : List Word) (rest : List Input),
    s.inbox = .command .rt header ws :: .command .rt header ws :: rest → header.extractLsb' 24 8 = 0x20#8 →
    step s = .next t → t.recomp ≠ s.recomp → step t = .next u →
    u = { t with inbox := rest, rtOut := t.rtOut ++ [[0x20000001#32]] }

/-- The commit: the built records are written to their slots and no other slot's record changes; the descriptor and
`prev` are replaced; the enable bit is not touched; the band's state registers are all `+0.0` when the pair
`(kind, eo)` changes and untouched when it does not (43_band.md R175, R186, R187). -/
def Obligations.CommitEffect : Prop :=
  ∀ (band : Band) (key : Prev) (eo : EffOrder) (built : List BuiltStage) (gpost : F),
    let b := band.commit key eo built gpost
    b.kind = key.kind ∧ b.eo = eo ∧ b.gpost = gpost ∧ b.fsUsed = key.fs ∧ b.prev = key ∧ b.en = band.en ∧
      (key.kind = band.kind → eo = band.eo → b.left = band.left ∧ b.right = band.right) ∧
      ((key.kind, eo) ≠ (band.kind, band.eo) → ∀ (ch : Channel) (sub : SubCascade),
        ((b.chan ch).sub sub).first = 0 ∧ ∀ i : Fin 4, ((b.chan ch).sub sub).second[i] = ⟨0, 0⟩) ∧
      ∀ sub : SubCascade,
        ((∀ c, .first sub c ∉ built) → (b.coef sub).first = (band.coef sub).first) ∧
        (∀ i : Fin 4, (∀ c, .second sub i c ∉ built) → (b.coef sub).second[i] = (band.coef sub).second[i]) ∧
        (∀ c, .first sub c ∈ built → (∀ c', .first sub c' ∈ built → c' = c) → (b.coef sub).first = c) ∧
        ∀ (i : Fin 4) (c : SVFCoefficients), .second sub i c ∈ built → (∀ c', .second sub i c' ∈ built → c' = c) →
          (b.coef sub).second[i] = c

/-- `UPDATE` of the one-stage kinds Bell, Notch and AllPass: with a legal corner and a positive Q it commits one
record, in slot 1, and post gain 1.0, whatever the order field says (43_band.md R176, R181, R185). With `BWF = 1` the Q
is that of Obligations.Bw2qResult (log entry 15, DEDUCED). -/
def Obligations.UpdateOneStageKinds : Prop :=
  ∀ (s : State) (b : BitVec 4) (band : Band) (ord : BitVec 8) (bwf : Bool) (freq gain bw fs : F),
    CornerLegal (clampFreq freq) fs → UpdateQLegal bwf bw →
    ∀ i ∈ [(Instr.updateBell b ord bwf freq gain bw fs, FilterKind.bell, Shape2.bell),
        (.updateNotch b ord bwf freq gain bw fs, .notch, .notch), (.updateAp b ord bwf freq gain bw fs, .allPass, .allPass)],
      UpdateReaches s i.2.1 b band ord bwf freq gain bw fs →
      Commits s i.1 i.2.1 b band ord bwf freq gain bw fs fun built gpost =>
        gpost = F.one ∧ ∃ q c, IsUpdateQ bwf bw q ∧ IsRecord2 i.2.2 (clampFreq freq) fs q gain c ∧
          built = [.second .A 0 c]

/-- `UPDATE` of LowPass and HighPass: at effective order 1 one first-order record in slot 0, with no Q used or checked;
else a cascade in sub-cascade A over the per-stage Q list, for a positive Q (43_band.md R177, R178). With `BWF = 1` the
Q is that of Obligations.Bw2qResult (log entry 15, DEDUCED). -/
def Obligations.UpdateLowPassHighPass : Prop :=
  ∀ (s : State) (b : BitVec 4) (band : Band) (ord : BitVec 8) (bwf : Bool) (freq gain bw fs : F),
    CornerLegal (clampFreq freq) fs → (ord = 1 ∨ UpdateQLegal bwf bw) →
    ∀ i ∈ [(Instr.updateLp b ord bwf freq gain bw fs, FilterKind.lowPass, Shape1.lowPass1, Shape2.lowPass),
        (.updateHp b ord bwf freq gain bw fs, .highPass, .highPass1, .highPass)],
      UpdateReaches s i.2.1 b band ord bwf freq gain bw fs →
      Commits s i.1 i.2.1 b band ord bwf freq gain bw fs fun built gpost =>
        gpost = F.one ∧
          if ord = 1 then ∃ c, IsRecord1 i.2.2.1 (clampFreq freq) fs c ∧ built = [.first .A c]
          else ∃ qs, IsUpdateQList (effOrder i.2.1 ord) bwf bw qs ∧
            IsCascade .A i.2.2.2 (clampFreq freq) fs F.zero qs built

/-- `UPDATE` of LowShelf and HighShelf: a cascade in sub-cascade A, the gain divided evenly across the stages, post
gain 1.0 (43_band.md R179, R180). With `BWF = 1` the Q is that of Obligations.Bw2qResult (log entry 15, DEDUCED). -/
def Obligations.UpdateShelves : Prop :=
  ∀ (s : State) (b : BitVec 4) (band : Band) (ord : BitVec 8) (bwf : Bool) (freq gain bw fs : F),
    CornerLegal (clampFreq freq) fs → UpdateQLegal bwf bw →
    ∀ i ∈ [(Instr.updateLs b ord bwf freq gain bw fs, FilterKind.lowShelf, Shape2.lowShelf),
        (.updateHs b ord bwf freq gain bw fs, .highShelf, .highShelf)],
      UpdateReaches s i.2.1 b band ord bwf freq gain bw fs →
      Commits s i.1 i.2.1 b band ord bwf freq gain bw fs fun built gpost =>
        gpost = F.one ∧ ∃ qs pg, IsUpdateQList (effOrder i.2.1 ord) bwf bw qs ∧
          IsQuot gain (F.ofNat (effOrder i.2.1 ord).stages) pg ∧
          IsCascade .A i.2.2 (clampFreq freq) fs pg qs built

/-- `UPDATE.BP`: at effective order 1 a HighPass1 record in slot 0 and a LowPass1 record in slot 5, no Q used; else a
HighPass cascade in A and a LowPass cascade in B, with one Q list (43_band.md R182). With `BWF = 1` the Q is that of
Obligations.Bw2qResult (log entry 15, DEDUCED). -/
def Obligations.UpdateBandPass : Prop :=
  ∀ (s : State) (b : BitVec 4) (band : Band) (ord : BitVec 8) (bwf : Bool) (freq gain bw fs : F),
    CornerLegal (clampFreq freq) fs → (ord = 1 ∨ UpdateQLegal bwf bw) →
    UpdateReaches s .bandPass b band ord bwf freq gain bw fs →
    Commits s (.updateBp b ord bwf freq gain bw fs) .bandPass b band ord bwf freq gain bw fs fun built gpost =>
      gpost = F.one ∧
        if ord = 1 then ∃ ca cb, IsRecord1 .highPass1 (clampFreq freq) fs ca ∧
          IsRecord1 .lowPass1 (clampFreq freq) fs cb ∧ built = [.first .A ca, .first .B cb]
        else ∃ qs builtA builtB, IsUpdateQList (effOrder .bandPass ord) bwf bw qs ∧
          IsCascade .A .highPass (clampFreq freq) fs F.zero qs builtA ∧
          IsCascade .B .lowPass (clampFreq freq) fs F.zero qs builtB ∧ built = builtA ++ builtB

/-- `UPDATE.TILT`: a HighShelf cascade that carries twice the gain, and the post gain that takes half of it back, sign
inverted (43_band.md R183). With `BWF = 1` the Q is that of Obligations.Bw2qResult (log entry 15, DEDUCED). -/
def Obligations.UpdateTilt : Prop :=
  ∀ (s : State) (b : BitVec 4) (band : Band) (ord : BitVec 8) (bwf : Bool) (freq gain bw fs : F),
    CornerLegal (clampFreq freq) fs → UpdateQLegal bwf bw → UpdateReaches s .tilt b band ord bwf freq gain bw fs →
    Commits s (.updateTilt b ord bwf freq gain bw fs) .tilt b band ord bwf freq gain bw fs fun built gpost =>
      ∃ tg pg hg e qs, IsProd F.two gain tg ∧ IsQuot tg (F.ofNat (effOrder .tilt ord).stages) pg ∧
        IsUpdateQList (effOrder .tilt ord) bwf bw qs ∧ IsCascade .A .highShelf (clampFreq freq) fs pg qs built ∧
        IsProd F.half tg hg ∧ IsQuot (F.neg hg) F.twenty e ∧ gpost = fPow10 e

/-- `UPDATE.MESA`: two shelf cascades at the corners `f/(bw + 0.5)` and `f*(bw + 0.5)`, each clamped, with the shapes
and shelf gains of the configuration, and the gain as post gain (43_band.md R184). With `BWF = 1` the Q is that of
Obligations.Bw2qResult (log entry 15, DEDUCED). -/
def Obligations.UpdateMesa : Prop :=
  ∀ (s : State) (b : BitVec 4) (band : Band) (ord : BitVec 8) (bwf : Bool) (freq gain bw fs : F),
    (∀ fa fb, IsMesaCorners (clampFreq freq) bw fa fb → CornerLegal fa fs ∧ CornerLegal fb fs) → UpdateQLegal bwf bw →
    UpdateReaches s .mesa b band ord bwf freq gain bw fs →
    Commits s (.updateMesa b ord bwf freq gain bw fs) .mesa b band ord bwf freq gain bw fs fun built gpost =>
      ∃ fa fb ga gb e qs shapeA shapeB builtA builtB, IsMesaCorners (clampFreq freq) bw fa fb ∧
        IsUpdateQList (effOrder .mesa ord) bwf bw qs ∧ IsShelf s.cfg.mesaShapeA shapeA ∧
        IsShelf s.cfg.mesaShapeB shapeB ∧ IsQuot s.cfg.mesaGainADb (F.ofNat (effOrder .mesa ord).stages) ga ∧
        IsQuot s.cfg.mesaGainBDb (F.ofNat (effOrder .mesa ord).stages) gb ∧
        IsCascade .A shapeA fa fs ga qs builtA ∧ IsCascade .B shapeB fb fs gb qs builtB ∧ built = builtA ++ builtB ∧
        IsQuot gain F.twenty e ∧ gpost = fPow10 e

/-- Factory faults inside `UPDATE`: the operation answers the factory's fault with the number of the slot being computed
as `INFO`, and no register but `FAULT` and `LASTFAULT` changes (43_band.md R188). A bad corner stops at the first slot of
the plan; a Q that is not positive at slot 1; a bad upper corner of Mesa at slot 6. R188 and 60_exceptions.md R265 name a
NaN `freq` as the only way to `NonPositiveFrequency`; a NaN `bw` of `UPDATE.MESA` makes the lower corner a NaN by R184's
formula and gets there too (log entry 14, DEDUCED). With `BWF = 1` the Q is that of Obligations.Bw2qResult (log entry 15,
DEDUCED). -/
def Obligations.UpdateFactoryFaults : Prop :=
  ∀ (s : State) (b : BitVec 4) (band : Band) (ord : BitVec 8) (bwf : Bool) (freq gain bw fs : F),
    let plain : List (Instr × FilterKind) :=
      [(.updateBell b ord bwf freq gain bw fs, .bell), (.updateLp b ord bwf freq gain bw fs, .lowPass),
        (.updateHp b ord bwf freq gain bw fs, .highPass), (.updateLs b ord bwf freq gain bw fs, .lowShelf),
        (.updateHs b ord bwf freq gain bw fs, .highShelf), (.updateNotch b ord bwf freq gain bw fs, .notch),
        (.updateBp b ord bwf freq gain bw fs, .bandPass), (.updateTilt b ord bwf freq gain bw fs, .tilt),
        (.updateAp b ord bwf freq gain bw fs, .allPass)]
    let faults : Instr → FaultCode → BitVec 16 → Prop := fun i k info =>
      ∃ d, exec i s = .next (State.raise { s with draws := d } i.header k info)
    let qBad : Prop := ∀ q, IsUpdateQ bwf bw q → F.lt F.zero q = false
    let f := clampFreq freq
    (∀ i ∈ plain, UpdateReaches s i.2 b band ord bwf freq gain bw fs →
      (∀ k, CornerFault f fs k → faults i.1 k (if effOrder i.2 ord = .o1 then 0 else 1)) ∧
        (CornerLegal f fs → qBad → effOrder i.2 ord ≠ .o1 → faults i.1 .nonPositiveQ 1)) ∧
      (UpdateReaches s .mesa b band ord bwf freq gain bw fs →
        (∀ k, (∀ fa fb, IsMesaCorners f bw fa fb → CornerFault fa fs k) →
          faults (.updateMesa b ord bwf freq gain bw fs) k 1) ∧
        ((∀ fa fb, IsMesaCorners f bw fa fb → CornerLegal fa fs) → qBad →
          faults (.updateMesa b ord bwf freq gain bw fs) .nonPositiveQ 1) ∧
        ∀ k, (∀ fa fb, IsMesaCorners f bw fa fb → CornerLegal fa fs ∧ CornerFault fb fs k) → UpdateQLegal bwf bw →
          faults (.updateMesa b ord bwf freq gain bw fs) k 6)

/-- `BRESET` sets all state registers of the band, ten slots and both channels, to `+0.0`, and changes nothing else of
it (43_band.md R190, 40_stage_datapath.md R106). -/
def Obligations.BresetEffect : Prop :=
  ∀ (s : State) (b : BitVec 4) (band : Band), s.port = .rt → s.bands[b.toNat]? = some band →
    ∃ l r : ChannelState, (∀ c ∈ [l, r], ∀ sub : SubCascade,
        (c.sub sub).first = 0 ∧ ∀ i : Fin 4, (c.sub sub).second[i] = ⟨0, 0⟩) ∧
      exec (.breset b) s = .next (State.respond
        { s with bands := s.bands.set b.toNat { band with left := l, right := r } } .breset 0 [])

/-! ## The bank -/

/-- `ENABLE` and `DISABLE` set and clear the band's enable bit and change nothing else (44_filterbank.md R211, R212).
`SRATE` latches `FS`, unchecked, and invalidates the dirty check of every band; nothing else changes (R213, 10_state.md
R38). -/
def Obligations.EnableDisableSrateEffect : Prop :=
  ∀ s : State, s.port = .rt →
    (∀ (b : BitVec 4) (band : Band), s.bands[b.toNat]? = some band →
      exec (.enable b) s =
          .next (State.respond { s with bands := s.bands.set b.toNat { band with en := true } } .enable 0 []) ∧
        exec (.disable b) s =
          .next (State.respond { s with bands := s.bands.set b.toNat { band with en := false } } .disable 0 [])) ∧
    ∀ newFs : F, exec (.srate newFs) s = .next (State.respond
      { s with
        fs := newFs
        bands := s.bands.map fun band => { band with prev := { band.prev with valid := false } } } .srate 0 [])

/-- `PROC` passes one stereo frame through the enabled bands, ascending, for all operands, and changes only the state
registers of the active slots of enabled bands; with no band enabled the operands' bits are answered
(44_filterbank.md R214, R219; 43_band.md R195, R196). -/
def Obligations.ProcResult : Prop :=
  ∀ (s : State) (xL xR : F), s.port = .rt → ∃ bands' y d, IsFrame s.bands (xL, xR) bands' y ∧
    exec (.proc xL xR) s = .next (State.respond { s with bands := bands', draws := d } .proc 0 (fsWords [y.1, y.2])) ∧
    ((∀ b ∈ s.bands, b.en = false) → bands' = s.bands ∧ y = (xL, xR))

/-- `PROCB` processes its frames in order, each from the state the previous one left, and answers the count word and as
many frames; a block longer than `MAX_BLOCK` faults and processes none; an empty block changes nothing
(44_filterbank.md R215). -/
def Obligations.ProcbResult : Prop :=
  ∀ (s : State) (frames : List (F × F)), s.port = .rt →
    (frames.length ≤ s.cfg.maxBlock → ∃ bands' ys d, IsBlock s.bands frames bands' ys ∧
      ys.length = frames.length ∧
      exec (.procb frames) s = .next (State.respond { s with bands := bands', draws := d } .procb 0
        (BitVec.ofNat 32 frames.length :: fsWords (framesFlat ys)))) ∧
    (s.cfg.maxBlock < frames.length → exec (.procb frames) s = .next (s.raise ⟨0x29, 0, 0, 0, 0⟩ .blockTooLong 0)) ∧
    (frames = [] → exec (.procb frames) s = .next (s.respond .procb 0 [0]))

/-- The channels do not interact: two machines that agree on coefficients, descriptors, enable bits and the state of one
channel, given frames that agree on that channel, answer the same on it and leave the same state of it, for a frame and
for a block (43_band.md R197, 44_filterbank.md R214, R215, R217). `Same` is up to the bits of a NaN, in the premises as in
the conclusions, which is log entry 2's reading of R197; so the relation the machines start in is the one they end in. -/
def Obligations.ChannelsAreIndependent : Prop :=
  ∀ (s₁ s₂ : State) (ch : Channel), s₁.port = .rt → s₂.port = .rt →
    List.Forall₂ (SamePath ch) s₁.bands s₂.bands →
    (∀ (x₁ x₂ : F × F), SameF (side ch x₁) (side ch x₂) →
      ∃ (t₁ t₂ : State) (y₁ y₂ : F × F), exec (.proc x₁.1 x₁.2) s₁ = .next t₁ ∧ exec (.proc x₂.1 x₂.2) s₂ = .next t₂ ∧
        t₁.rtOut = s₁.rtOut ++ [0x28000000#32 :: fsWords [y₁.1, y₁.2]] ∧
        t₂.rtOut = s₂.rtOut ++ [0x28000000#32 :: fsWords [y₂.1, y₂.2]] ∧
        SameF (side ch y₁) (side ch y₂) ∧ List.Forall₂ (SamePath ch) t₁.bands t₂.bands) ∧
    ∀ xs₁ xs₂ : List (F × F), List.Forall₂ (fun x₁ x₂ => SameF (side ch x₁) (side ch x₂)) xs₁ xs₂ →
      xs₁.length ≤ s₁.cfg.maxBlock → xs₁.length ≤ s₂.cfg.maxBlock →
      ∃ (t₁ t₂ : State) (ys₁ ys₂ : List (F × F)), exec (.procb xs₁) s₁ = .next t₁ ∧ exec (.procb xs₂) s₂ = .next t₂ ∧
        t₁.rtOut = s₁.rtOut ++ [0x29000000#32 :: BitVec.ofNat 32 xs₁.length :: fsWords (framesFlat ys₁)] ∧
        t₂.rtOut = s₂.rtOut ++ [0x29000000#32 :: BitVec.ofNat 32 xs₁.length :: fsWords (framesFlat ys₂)] ∧
        List.Forall₂ (fun y₁ y₂ => SameF (side ch y₁) (side ch y₂)) ys₁ ys₂ ∧
        List.Forall₂ (SamePath ch) t₁.bands t₂.bands

/-- The capacity invariant: in a state that meets the invariant the active first-order slots never exceed `2*NBANDS`,
the active second-order slots never `8*NBANDS`, and no band has both widths active (60_exceptions.md R285,
44_filterbank.md R218, 43_band.md R196). -/
def Obligations.CapacityNeverExceeded : Prop :=
  ∀ s : State, s.Inv →
    (s.bands.map fun b => ((activeSlots b.kind b.eo).filter isFirstOrder).length).sum ≤ 2 * s.nbands ∧
      (s.bands.map fun b => ((activeSlots b.kind b.eo).filter fun sl => !isFirstOrder sl).length).sum ≤ 8 * s.nbands ∧
      ∀ b ∈ s.bands, (activeSlots b.kind b.eo).all isFirstOrder = true ∨
        (activeSlots b.kind b.eo).all (fun sl => !isFirstOrder sl) = true
end

