-- ==== Sys2Proof/Laws/Arith.lean ====
section
/-! SUPPORT. What the computations of the machine give, as the relations of Safety.lean: one lemma a function, for every
value of the draw counter. -/

namespace Sys2Proof.Machine

/-- Whatever the draw counter stands at, the computation's result meets `P`. -/
def Gives {α : Type} (m : FM α) (P : α → Prop) : Prop := ∀ d, P (m d).1

theorem gives_pure {α : Type} {a : α} {P : α → Prop} (h : P a) : Gives (pure a) P := fun _ => h

theorem gives_bind {α β : Type} {m : FM α} {k : α → FM β} {P : α → Prop} {Q : β → Prop} (hm : Gives m P)
    (hk : ∀ a, P a → Gives (k a) Q) : Gives (m >>= k) Q := fun d => hk _ (hm d) (m d).2

theorem gives_mono {α : Type} {m : FM α} {P Q : α → Prop} (h : Gives m P) (hpq : ∀ a, P a → Q a) : Gives m Q :=
  fun d => hpq _ (h d)

/-- The result of a pure computation, and the counter it leaves. -/
theorem pure_run {α : Type} (a : α) (d : Nat) : (pure a : FM α) d = (a, d) := rfl

theorem bind_run {α β : Type} (m : FM α) (k : α → FM β) (d : Nat) : (m >>= k) d = k (m d).1 (m d).2 := rfl

/-- Running a computation and answering with its result: the result meets what the computation gives. -/
theorem compute_eq {α : Type} {m : FM α} {P : α → Prop} (h : Gives m P) (s : State) (k : α → State → State) :
    ∃ a d, P a ∧ s.compute m k = k a { s with draws := d } := ⟨_, _, h s.draws, rfl⟩

/-! ## IEEE operations -/

/-- Setting the quiet bits of any pattern makes a quiet NaN. -/
theorem isQuietNaN_quieted (x : F) : F.isQuietNaN (x ||| F.quietNaNBits) = true := by
  generalize hy : x ||| F.quietNaNBits = y
  have hbit : ∀ i, F.quietNaNBits.getLsbD i = true → y.getLsbD i = true := by
    intro i hi
    rw [← hy, BitVec.getLsbD_or, hi, Bool.or_true]
  have hexp : F.expo y = 2047 := by
    have hb : y.extractLsb' 52 11 = 0x7FF#11 := by
      apply BitVec.eq_of_getLsbD_eq
      intro i hi
      have hq : ∀ j < 11, F.quietNaNBits.getLsbD (52 + j) = true ∧ (0x7FF#11).getLsbD j = true := by decide
      rw [BitVec.getLsbD_extractLsb', hbit _ (hq i hi).1, (hq i hi).2]
      simp [hi]
    have ht := congrArg BitVec.toNat hb
    simpa [BitVec.extractLsb'_toNat, Nat.shiftRight_eq_div_pow, F.expo] using ht
  have h51 : y.getLsbD 51 = true := hbit 51 (by decide)
  have hfrac : F.frac y ≠ 0 := by
    intro h0
    have h := h51
    rw [BitVec.getLsbD, Nat.testBit, Nat.shiftRight_eq_div_pow] at h
    unfold F.frac at h0
    simp at h
    omega
  rw [F.isQuietNaN, F.isNaN, hexp, h51]
  simp [hfrac]

theorem isNaN_of_isQuietNaN {x : F} (h : F.isQuietNaN x = true) : F.isNaN x = true := by
  simp only [F.isQuietNaN, Bool.and_eq_true] at h
  exact h.1

theorem gives_orNaN (o : Option F) : Gives (orNaN o) (IsResult o) := by
  intro d
  cases o with
  | some v => rfl
  | none => exact isQuietNaN_quieted _

theorem gives_fadd (x y : F) : Gives (fadd x y) (IsSum x y) := gives_orNaN _
theorem gives_fsub (x y : F) : Gives (fsub x y) (IsDiff x y) := gives_orNaN _
theorem gives_fmul (x y : F) : Gives (fmul x y) (IsProd x y) := gives_orNaN _
theorem gives_fdiv (x y : F) : Gives (fdiv x y) (IsQuot x y) := gives_orNaN _
theorem gives_fsqrt (x : F) : Gives (fsqrt x) (IsRoot x) := gives_orNaN _

/-! ## Complex arithmetic -/

theorem gives_cadd (u v : Complex64) : Gives (cadd u v) (IsCAdd u v) :=
  gives_bind (gives_fadd _ _) fun _ h1 => gives_bind (gives_fadd _ _) fun _ h2 => gives_pure ⟨h1, h2⟩

theorem gives_csub (u v : Complex64) : Gives (csub u v) (IsCSub u v) :=
  gives_bind (gives_fsub _ _) fun _ h1 => gives_bind (gives_fsub _ _) fun _ h2 => gives_pure ⟨h1, h2⟩

theorem gives_cscale (r : F) (u : Complex64) : Gives (cscale r u) (IsCScale r u) :=
  gives_bind (gives_fmul _ _) fun _ h1 => gives_bind (gives_fmul _ _) fun _ h2 => gives_pure ⟨h1, h2⟩

theorem gives_cmul (u v : Complex64) : Gives (cmul u v) (IsCMul u v) :=
  gives_bind (gives_fmul _ _) fun _ h1 => gives_bind (gives_fmul _ _) fun _ h2 =>
    gives_bind (gives_fsub _ _) fun _ h3 => gives_bind (gives_fmul _ _) fun _ h4 =>
      gives_bind (gives_fmul _ _) fun _ h5 => gives_bind (gives_fadd _ _) fun _ h6 =>
        gives_pure ⟨⟨_, _, h1, h2, h3⟩, ⟨_, _, h4, h5, h6⟩⟩

theorem gives_cdiv (u v : Complex64) : Gives (cdiv u v) (IsCDiv u v) :=
  gives_bind (gives_fmul _ _) fun _ h1 => gives_bind (gives_fmul _ _) fun _ h2 =>
    gives_bind (gives_fadd _ _) fun _ h3 => gives_bind (gives_fmul _ _) fun _ h4 =>
      gives_bind (gives_fmul _ _) fun _ h5 => gives_bind (gives_fadd _ _) fun _ h6 =>
        gives_bind (gives_fdiv _ _) fun _ h7 => gives_bind (gives_fmul _ _) fun _ h8 =>
          gives_bind (gives_fmul _ _) fun _ h9 => gives_bind (gives_fsub _ _) fun _ h10 =>
            gives_bind (gives_fdiv _ _) fun _ h11 =>
              gives_pure ⟨_, _, _, ⟨_, _, h1, h2, h3⟩, ⟨_, _, h4, h5, h6⟩, ⟨_, _, h8, h9, h10⟩, h7, h11⟩

/-! ## The stage functions -/

/-- The lines of `tick2` in the machine's arithmetic. -/
theorem gives_tick2Lines (a1 a2 a3 m0 m1 m2 ic1eq ic2eq x : F) :
    Gives (tick2Lines fadd fsub fmul F.two a1 a2 a3 m0 m1 m2 ic1eq ic2eq x) fun r =>
      IsTick2 a1 a2 a3 m0 m1 m2 ic1eq ic2eq x r.1 r.2.1 r.2.2 :=
  gives_bind (gives_fsub _ _) fun _ h1 => gives_bind (gives_fmul _ _) fun _ h2 =>
    gives_bind (gives_fmul _ _) fun _ h3 => gives_bind (gives_fadd _ _) fun _ h4 =>
      gives_bind (gives_fmul _ _) fun _ h5 => gives_bind (gives_fadd _ _) fun _ h6 =>
        gives_bind (gives_fmul _ _) fun _ h7 => gives_bind (gives_fadd _ _) fun _ h8 =>
          gives_bind (gives_fmul _ _) fun _ h9 => gives_bind (gives_fsub _ _) fun _ h10 =>
            gives_bind (gives_fmul _ _) fun _ h11 => gives_bind (gives_fsub _ _) fun _ h12 =>
              gives_bind (gives_fmul _ _) fun _ h13 => gives_bind (gives_fmul _ _) fun _ h14 =>
                gives_bind (gives_fmul _ _) fun _ h15 => gives_bind (gives_fadd _ _) fun _ h16 =>
                  gives_bind (gives_fadd _ _) fun _ h17 =>
                    gives_pure ⟨_, _, _, h1, ⟨_, _, h2, h3, h4⟩, ⟨_, _, _, h5, h6, h7, h8⟩, ⟨_, h9, h10⟩,
                      ⟨_, h11, h12⟩, _, _, ⟨_, _, h13, h14, h16⟩, h15, h17⟩

theorem gives_tick2 (c : SVFCoefficients) (st : SVFState) (x : F) :
    Gives (tick2 c st x) fun r =>
      IsTick2 c.a1 c.a2 c.a3 c.m0 c.m1 c.m2 st.ic1eq st.ic2eq x r.1 r.2.ic1eq r.2.ic2eq :=
  gives_bind (gives_tick2Lines _ _ _ _ _ _ _ _ _) fun _ h => gives_pure h

theorem gives_tick1 (c : OnePoleCoefficients) (s x : F) :
    Gives (tick1 c s x) fun r => IsTick1 c.a c.m0 c.m1 s x r.1 r.2 :=
  gives_bind (gives_fsub _ _) fun _ h1 => gives_bind (gives_fmul _ _) fun _ h2 =>
    gives_bind (gives_fadd _ _) fun _ h3 => gives_bind (gives_fadd _ _) fun _ h4 =>
      gives_bind (gives_fmul _ _) fun _ h5 => gives_bind (gives_fmul _ _) fun _ h6 =>
        gives_bind (gives_fadd _ _) fun _ h7 => gives_pure ⟨_, _, _, h1, h2, h3, h4, _, _, h5, h6, h7⟩

/-! ## The coefficient factory -/

theorem gives_tanOf (f0 fs : F) : Gives (tanOf f0 fs) (IsTanOf f0 fs) :=
  gives_bind (gives_fmul _ _) fun _ h1 => gives_bind (gives_fdiv _ _) fun _ h2 => gives_pure ⟨_, _, h1, h2, rfl⟩

theorem gives_amplitude (gainDb : F) : Gives (amplitude gainDb) (IsAmplitude gainDb) :=
  gives_bind (gives_fdiv _ _) fun _ h1 => gives_pure ⟨_, h1, rfl⟩

theorem gives_finishRecord (g k m0 m1 m2 : F) : Gives (finishRecord g k m0 m1 m2) fun c =>
    c.g = g ∧ c.k = k ∧ c.m0 = m0 ∧ c.m1 = m1 ∧ c.m2 = m2 ∧ IsDerived g k c.a1 c.a2 c.a3 c.g2 :=
  gives_bind (gives_fadd _ _) fun _ h1 => gives_bind (gives_fmul _ _) fun _ h2 =>
    gives_bind (gives_fadd _ _) fun _ h3 => gives_bind (gives_fdiv _ _) fun _ h4 =>
      gives_bind (gives_fmul _ _) fun _ h5 => gives_bind (gives_fmul _ _) fun _ h6 =>
        gives_bind (gives_fmul _ _) fun _ h7 =>
          gives_pure ⟨rfl, rfl, rfl, rfl, rfl, _, _, _, h1, h2, h3, h4, h5, h6, h7⟩

theorem gives_record2 (shape : Shape2) (f0 fs q gainDb : F) :
    Gives (record2 shape f0 fs q gainDb) (IsRecord2 shape f0 fs q gainDb) := by
  refine gives_bind (gives_tanOf f0 fs) fun g0 hg => ?_
  cases shape with
  | lowPass =>
    exact gives_bind (gives_fdiv _ _) fun k hk => gives_mono (gives_finishRecord _ _ _ _ _)
      fun c ⟨rg, rk, r0, r1, r2, hd⟩ => ⟨rg ▸ hg, rk ▸ hk, rg.symm ▸ rk.symm ▸ hd, r0, r1, r2⟩
  | highPass =>
    exact gives_bind (gives_fdiv _ _) fun k hk => gives_mono (gives_finishRecord _ _ _ _ _)
      fun c ⟨rg, rk, r0, r1, r2, hd⟩ => ⟨rg ▸ hg, rk ▸ hk, rg.symm ▸ rk.symm ▸ hd, r0, rk.symm ▸ r1, r2⟩
  | bandPass =>
    exact gives_bind (gives_fdiv _ _) fun k hk => gives_mono (gives_finishRecord _ _ _ _ _)
      fun c ⟨rg, rk, r0, r1, r2, hd⟩ => ⟨rg ▸ hg, rk ▸ hk, rg.symm ▸ rk.symm ▸ hd, r0, r1, r2⟩
  | notch =>
    exact gives_bind (gives_fdiv _ _) fun k hk => gives_mono (gives_finishRecord _ _ _ _ _)
      fun c ⟨rg, rk, r0, r1, r2, hd⟩ => ⟨rg ▸ hg, rk ▸ hk, rg.symm ▸ rk.symm ▸ hd, r0, rk.symm ▸ r1, r2⟩
  | allPass =>
    exact gives_bind (gives_fdiv _ _) fun k hk => gives_bind (gives_fmul _ _) fun t ht =>
      gives_mono (gives_finishRecord _ _ _ _ _) fun c ⟨rg, rk, r0, r1, r2, hd⟩ =>
        ⟨rg ▸ hg, rk ▸ hk, rg.symm ▸ rk.symm ▸ hd, r0, ⟨t, rk.symm ▸ ht, r1⟩, r2⟩
  | bell =>
    exact gives_bind (gives_amplitude _) fun amp ha => gives_bind (gives_fmul _ _) fun qa hqa =>
      gives_bind (gives_fdiv _ _) fun k hk => gives_bind (gives_fmul _ _) fun aa haa =>
        gives_bind (gives_fsub _ _) fun t ht => gives_bind (gives_fmul _ _) fun m1 hm1 =>
          gives_mono (gives_finishRecord _ _ _ _ _) fun c ⟨rg, rk, r0, r1, r2, hd⟩ =>
            ⟨g0, amp, aa, hg, ha, haa, rg.symm ▸ rk.symm ▸ hd, rg, ⟨qa, hqa, rk.symm ▸ hk⟩, r0,
              ⟨t, ht, rk.symm ▸ r1.symm ▸ hm1⟩, r2⟩
  | lowShelf =>
    exact gives_bind (gives_amplitude _) fun amp ha => gives_bind (gives_fsqrt _) fun r hr =>
      gives_bind (gives_fdiv _ _) fun g hgr => gives_bind (gives_fdiv _ _) fun k hk =>
        gives_bind (gives_fsub _ _) fun t ht => gives_bind (gives_fmul _ _) fun m1 hm1 =>
          gives_bind (gives_fmul _ _) fun aa haa => gives_bind (gives_fsub _ _) fun m2 hm2 =>
            gives_mono (gives_finishRecord _ _ _ _ _) fun c ⟨rg, rk, r0, r1, r2, hd⟩ =>
              ⟨g0, amp, aa, hg, ha, haa, rg.symm ▸ rk.symm ▸ hd, ⟨r, hr, rg.symm ▸ hgr⟩, rk.symm ▸ hk, r0,
                ⟨t, ht, rk.symm ▸ r1.symm ▸ hm1⟩, r2.symm ▸ hm2⟩
  | highShelf =>
    exact gives_bind (gives_amplitude _) fun amp ha => gives_bind (gives_fsqrt _) fun r hr =>
      gives_bind (gives_fmul _ _) fun g hgr => gives_bind (gives_fdiv _ _) fun k hk =>
        gives_bind (gives_fmul _ _) fun m0 hm0 => gives_bind (gives_fsub _ _) fun t ht =>
          gives_bind (gives_fmul _ _) fun u hu => gives_bind (gives_fmul _ _) fun m1 hm1 =>
            gives_bind (gives_fmul _ _) fun aa haa => gives_bind (gives_fsub _ _) fun m2 hm2 =>
              gives_mono (gives_finishRecord _ _ _ _ _) fun c ⟨rg, rk, r0, r1, r2, hd⟩ =>
                ⟨g0, amp, aa, hg, ha, haa, rg.symm ▸ rk.symm ▸ hd, ⟨r, hr, rg.symm ▸ hgr⟩, rk.symm ▸ hk,
                  r0.symm ▸ hm0, ⟨t, u, ht, rk.symm ▸ hu, r1.symm ▸ hm1⟩, r2.symm ▸ hm2⟩

theorem gives_record1 (shape : Shape1) (f0 fs : F) : Gives (record1 shape f0 fs) (IsRecord1 shape f0 fs) := by
  refine gives_bind (gives_tanOf f0 fs) fun g hg => gives_bind (gives_fadd _ _) fun den hden =>
    gives_bind (gives_fdiv _ _) fun a ha => ?_
  cases shape <;> exact gives_pure ⟨hg, ⟨den, hden, ha⟩, rfl, rfl⟩

/-- The Nyquist test as a relation. -/
theorem belowNyquist_iff (f0 fs : F) : belowNyquist f0 fs = true ↔ ∃ t, IsProd F.two f0 t ∧ F.lt t fs = true := by
  unfold belowNyquist IsProd IsResult
  cases F.mul F.two f0 with
  | some v => simp
  | none =>
    simp only [Bool.false_eq_true, false_iff, not_exists, not_and, Bool.not_eq_true]
    intro t ht
    simp [F.lt, isNaN_of_isQuietNaN ht]

theorem checkFrequency_none_iff (f0 fs : F) : checkFrequency f0 fs = none ↔ CornerLegal f0 fs := by
  unfold checkFrequency CornerLegal
  rw [← belowNyquist_iff]
  cases F.lt F.zero f0 <;> cases belowNyquist f0 fs <;> simp

theorem checkFrequency_some_iff (f0 fs : F) (k : FaultCode) :
    checkFrequency f0 fs = some k ↔ CornerFault f0 fs k := by
  unfold checkFrequency CornerFault
  rw [← belowNyquist_iff]
  cases F.lt F.zero f0 <;> cases belowNyquist f0 fs <;> simp [eq_comm]

/-! ## The calculators -/

theorem gives_compressQ (eo : EffOrder) (q : F) : Gives (compressQ eo q) (IsCompressed (comp eo) q) := by
  refine gives_bind (gives_fdiv _ _) fun qn hqn => ?_
  by_cases h : F.lt F.one qn = true
  · simp only [h, if_true]
    exact gives_bind (gives_fsub _ _) fun ex hex => gives_bind (gives_fmul _ _) fun sc hsc =>
      gives_mono (gives_fadd _ _) fun r hr => ⟨qn, hqn, by simpa only [h, if_true] using ⟨ex, sc, hex, hsc, hr⟩⟩
  · simp only [h]
    exact gives_pure ⟨qn, hqn, by simp [h]⟩

theorem gives_scaleRatios (sc : F) (l : List F) :
    Gives (scaleRatios sc l) fun qs => List.Forall₂ (fun r x => IsProd r sc x) l qs := by
  induction l with
  | nil => exact gives_pure .nil
  | cons r rest ih =>
    exact gives_bind (gives_fmul _ _) fun q hq => gives_bind ih fun more hm => gives_pure (.cons hq hm)

theorem gives_qdist (eo : EffOrder) (q : F) : Gives (qdist eo q) (IsQList eo q) := by
  cases eo with
  | o1 => exact gives_pure rfl
  | o2 => exact gives_pure rfl
  | o4 => exact gives_bind (gives_compressQ _ _) fun sc h => gives_mono (gives_scaleRatios _ _) fun qs hq => ⟨sc, h, hq⟩
  | o6 => exact gives_bind (gives_compressQ _ _) fun sc h => gives_mono (gives_scaleRatios _ _) fun qs hq => ⟨sc, h, hq⟩
  | o8 => exact gives_bind (gives_compressQ _ _) fun sc h => gives_mono (gives_scaleRatios _ _) fun qs hq => ⟨sc, h, hq⟩

/-- `LN2/2` is exact. -/
theorem div_ln2_two : F.div F.ln2 F.two = some 0x3FD62E42FEFA39EF#64 := by decide +kernel

theorem fdiv_ln2_two : fdiv F.ln2 F.two = pure 0x3FD62E42FEFA39EF#64 := by
  unfold fdiv
  rw [div_ln2_two]
  rfl

theorem gives_bw2q (bw : F) : Gives (bw2q bw) (IsBw2q bw) := by
  unfold bw2q
  rw [fdiv_ln2_two, pure_bind]
  exact gives_bind (gives_fmul _ _) fun _ h1 => gives_bind (gives_fmul _ _) fun _ h2 =>
    gives_bind (gives_fdiv _ _) fun _ h3 => gives_pure ⟨_, ⟨_, _, h1, h2, h3⟩, rfl⟩

theorem gives_updateQ (bwf : Bool) (bw : F) : Gives (updateQ bwf bw) (IsUpdateQ bwf bw) := by
  cases bwf with
  | false => exact gives_pure rfl
  | true => exact gives_bw2q bw

/-! ## The transfer function -/

theorem gives_zinvLines (f fs : F) : Gives (zinvLines f fs) fun z => IsZinvLines f fs z.1 z.2 :=
  gives_bind (gives_fmul _ _) fun _ h1 => gives_bind (gives_fmul _ _) fun _ h2 =>
    gives_bind (gives_fdiv _ _) fun _ h3 => gives_bind (gives_cmul _ _) fun _ h4 =>
      gives_pure ⟨_, ⟨_, _, h1, h2, h3⟩, rfl, h4⟩

theorem gives_complexNaN (z : Complex64) : Gives (complexNaN z) IsComplexNaN := by
  have h : ∀ x, Gives (asNaN x) fun r => F.isNaN r = true := fun x => by
    unfold asNaN
    split
    · exact gives_pure ‹_›
    · exact fun d => isNaN_of_isQuietNaN (isQuietNaN_quieted _)
  exact gives_bind (h _) fun _ re => gives_bind (h _) fun _ im => gives_pure ⟨re, im⟩

theorem gives_zinv (f fs : F) : Gives (zinv f fs) fun z => IsZinv f fs z.1 z.2 := by
  refine gives_bind (gives_zinvLines f fs) fun y hy => ?_
  unfold zinvCorner IsZinv
  by_cases h : F.isZero fs = true
  · simp only [h, if_true]
    exact gives_bind (gives_complexNaN _) fun _ h1 => gives_bind (gives_complexNaN _) fun _ h2 =>
      gives_pure ⟨_, _, hy, h1, h2⟩
  · simp only [h, Bool.false_eq_true, if_false]
    by_cases h' : (F.isZero f && !F.isNaN fs) = true
    · simp only [h', if_true]
      exact gives_pure ⟨_, _, hy, rfl, rfl⟩
    · simp only [h']
      exact gives_pure ⟨_, _, hy, rfl, rfl⟩

theorem gives_h2 (c : SVFCoefficients) (f fs : F) : Gives (h2 c f fs) (IsH2 c f fs) :=
  gives_bind (gives_zinv f fs) fun z hz => gives_bind (gives_fmul _ _) fun _ g1 =>
    gives_bind (gives_fadd _ _) fun _ g2 => gives_bind (gives_fadd _ _) fun _ g3 =>
      gives_bind (gives_fsub _ _) fun _ g4 => gives_bind (gives_fmul _ _) fun _ g5 =>
        gives_bind (gives_fsub _ _) fun _ g6 => gives_bind (gives_fadd _ _) fun _ g7 =>
          gives_bind (gives_cscale _ _) fun _ g8 => gives_bind (gives_cadd _ _) fun _ g9 =>
            gives_bind (gives_cscale _ _) fun _ g10 => gives_bind (gives_cadd _ _) fun _ g11 =>
              gives_bind (gives_fmul _ _) fun _ g12 => gives_bind (gives_csub _ _) fun _ g13 =>
                gives_bind (gives_cscale _ _) fun _ g14 => gives_bind (gives_fmul _ _) fun _ g15 =>
                  gives_bind (gives_cscale _ _) fun _ g16 => gives_bind (gives_cadd _ _) fun _ g17 =>
                    gives_bind (gives_cadd _ _) fun _ g18 => gives_bind (gives_cscale _ _) fun _ g19 =>
                      gives_bind (gives_cadd _ _) fun _ g20 => gives_bind (gives_cdiv _ _) fun _ g21 =>
                        gives_mono (gives_cadd _ _) fun _ g22 =>
                          ⟨z.1, z.2, _, _, _, hz,
                            ⟨_, _, _, _, g1, ⟨_, g2, g3⟩, ⟨_, g4, g5⟩, ⟨_, g6, g7⟩, _, _, _, g8, g9, g10, g11⟩, ⟨_, _, g12, g13, g14⟩,
                            ⟨_, _, _, _, g15, g16, g17, g18, g19⟩, _, _, g20, g21, g22⟩

theorem gives_h1 (c : OnePoleCoefficients) (f fs : F) : Gives (h1 c f fs) (IsH1 c f fs) :=
  gives_bind (gives_zinv f fs) fun z hz => gives_bind (gives_fmul _ _) fun _ g1 =>
    gives_bind (gives_cadd _ _) fun _ g2 => gives_bind (gives_cscale _ _) fun _ g3 =>
      gives_bind (gives_fadd _ _) fun _ g4 => gives_bind (gives_fsub _ _) fun _ g5 =>
        gives_bind (gives_cscale _ _) fun _ g6 => gives_bind (gives_cadd _ _) fun _ g7 =>
          gives_bind (gives_cdiv _ _) fun _ g8 => gives_mono (gives_cadd _ _) fun _ g9 =>
            ⟨z.1, z.2, _, _, hz, ⟨_, _, g1, g2, g3⟩, ⟨_, _, _, g4, g5, g6, g7⟩, _, g8, g9⟩

theorem gives_subResponse (c : SubCoefficients) (eo : EffOrder) (f fs : F) :
    Gives (subResponse c eo f fs) (IsSubResponse c eo f fs) := by
  cases eo with
  | o1 => exact gives_h1 _ _ _
  | o2 => exact gives_bind (gives_h2 _ _ _) fun h hh => gives_pure hh
  | o4 =>
    exact gives_bind (gives_h2 _ _ _) fun _ g0 => gives_bind (gives_h2 _ _ _) fun _ g1 =>
      gives_bind (gives_cmul _ _) fun _ p => gives_pure ⟨_, _, g0, g1, p⟩
  | o6 =>
    exact gives_bind (gives_h2 _ _ _) fun _ g0 => gives_bind (gives_h2 _ _ _) fun _ g1 =>
      gives_bind (gives_cmul _ _) fun _ p => gives_bind (gives_h2 _ _ _) fun _ g2 =>
        gives_bind (gives_cmul _ _) fun _ p2 => gives_pure ⟨_, _, _, _, g0, g1, g2, p, p2⟩
  | o8 =>
    exact gives_bind (gives_h2 _ _ _) fun _ g0 => gives_bind (gives_h2 _ _ _) fun _ g1 =>
      gives_bind (gives_cmul _ _) fun _ p => gives_bind (gives_h2 _ _ _) fun _ g2 =>
        gives_bind (gives_cmul _ _) fun _ p2 => gives_bind (gives_h2 _ _ _) fun _ g3 =>
          gives_bind (gives_cmul _ _) fun _ p3 => gives_pure ⟨_, _, _, _, _, _, g0, g1, g2, g3, p, p2, p3⟩

theorem gives_bandResponse (b : Band) (f : F) : Gives (bandResponse b f) (IsBandResponse b f) := by
  unfold bandResponse IsBandResponse
  cases b.kind with
  | mesa =>
    exact gives_bind (gives_subResponse _ _ _ _) fun _ ha => gives_bind (gives_subResponse _ _ _ _) fun _ hb =>
      gives_bind (gives_cadd _ _) fun _ hs => gives_mono (gives_cscale _ _) fun _ hy => ⟨_, _, _, ha, hb, hs, hy⟩
  | bandPass =>
    exact gives_bind (gives_subResponse _ _ _ _) fun _ ha => gives_bind (gives_subResponse _ _ _ _) fun _ hb =>
      gives_mono (gives_cmul _ _) fun _ hy => ⟨_, _, ha, hb, hy⟩
  | tilt =>
    exact gives_bind (gives_subResponse _ _ _ _) fun _ ha => gives_mono (gives_cscale _ _) fun _ hy => ⟨_, ha, hy⟩
  | bell | lowPass | highPass | lowShelf | highShelf | notch | allPass => exact gives_subResponse _ _ _ _

end Sys2Proof.Machine
end

