-- ==== Sys2Proof/Laws/Bank.lean ====
section
/-! SUPPORT. The path of a sample: what the machine computes for a slot list, a band, a frame and a block, as the
relations of Safety.lean. -/

namespace Sys2Proof.Machine

/-- A series splits where its slot list does. -/
theorem isSeries_append (b : Band) (l₁ l₂ : List Slot) (st : ChannelState) (x y : F) (st' : ChannelState) :
    IsSeries b (l₁ ++ l₂) st x y st' ↔ ∃ m stm, IsSeries b l₁ st x m stm ∧ IsSeries b l₂ stm m y st' := by
  induction l₁ generalizing st x with
  | nil =>
    constructor
    · exact fun h => ⟨x, st, ⟨rfl, rfl⟩, h⟩
    · rintro ⟨m, stm, ⟨rfl, rfl⟩, h⟩
      exact h
  | cons a l ih =>
    constructor
    · rintro ⟨m, stm, ha, h⟩
      obtain ⟨m', stm', h1, h2⟩ := (ih stm m).1 h
      exact ⟨m', stm', ⟨m, stm, ha, h1⟩, h2⟩
    · rintro ⟨m', stm', ⟨m, stm, ha, h1⟩, h2⟩
      exact ⟨m, stm, ha, (ih stm m).2 ⟨m', stm', h1, h2⟩⟩

theorem gives_runSlots_A (b : Band) (l : List (Fin 4)) (v : Vector SVFState 4) (x : F) :
    Gives (runSlots b.coefA.second l v x) fun r => ∀ st : ChannelState, st.subA.second = v →
      IsSeries b (l.map (.second .A)) st x r.1 { st with subA := { st.subA with second := r.2 } } := by
  induction l generalizing v x with
  | nil =>
    refine gives_pure ?_
    rintro st rfl
    exact ⟨rfl, rfl⟩
  | cons i rest ih =>
    refine gives_bind (gives_tick2 _ _ _) fun r hr => gives_mono (ih _ _) fun r' hr' st hst => ?_
    subst hst
    exact ⟨r.1, _, ⟨r.2, hr, rfl⟩, hr' { st with subA := { st.subA with second := st.subA.second.set i r.2 } } rfl⟩

theorem gives_runSlots_B (b : Band) (l : List (Fin 4)) (v : Vector SVFState 4) (x : F) :
    Gives (runSlots b.coefB.second l v x) fun r => ∀ st : ChannelState, st.subB.second = v →
      IsSeries b (l.map (.second .B)) st x r.1 { st with subB := { st.subB with second := r.2 } } := by
  induction l generalizing v x with
  | nil =>
    refine gives_pure ?_
    rintro st rfl
    exact ⟨rfl, rfl⟩
  | cons i rest ih =>
    refine gives_bind (gives_tick2 _ _ _) fun r hr => gives_mono (ih _ _) fun r' hr' st hst => ?_
    subst hst
    exact ⟨r.1, _, ⟨r.2, hr, rfl⟩, hr' { st with subB := { st.subB with second := st.subB.second.set i r.2 } } rfl⟩

theorem gives_runSecond_A (b : Band) (eo : EffOrder) (s : SubState) (x : F) :
    Gives (runSecond b.coefA eo s x) fun r => ∀ st : ChannelState, st.subA = s →
      IsSeries b ((activeIndices eo).map (.second .A)) st x r.1 { st with subA := r.2 } :=
  gives_bind (gives_runSlots_A b _ _ _) fun r hr => gives_pure fun st hst => by
    subst hst
    exact hr st rfl

theorem gives_runSecond_B (b : Band) (eo : EffOrder) (s : SubState) (x : F) :
    Gives (runSecond b.coefB eo s x) fun r => ∀ st : ChannelState, st.subB = s →
      IsSeries b ((activeIndices eo).map (.second .B)) st x r.1 { st with subB := r.2 } :=
  gives_bind (gives_runSlots_B b _ _ _) fun r hr => gives_pure fun st hst => by
    subst hst
    exact hr st rfl

theorem gives_runSub_A (b : Band) (eo : EffOrder) (s : SubState) (x : F) :
    Gives (runSub b.coefA eo s x) fun r => ∀ st : ChannelState, st.subA = s →
      IsSeries b (activeIn .A eo) st x r.1 { st with subA := r.2 } := by
  cases eo with
  | o1 =>
    refine gives_bind (gives_tick1 _ _ _) fun r hr => gives_pure fun st hst => ?_
    subst hst
    exact ⟨r.1, _, ⟨hr, rfl⟩, rfl, rfl⟩
  | o2 | o4 | o6 | o8 => exact gives_runSecond_A b _ s x

theorem gives_runSub_B (b : Band) (eo : EffOrder) (s : SubState) (x : F) :
    Gives (runSub b.coefB eo s x) fun r => ∀ st : ChannelState, st.subB = s →
      IsSeries b (activeIn .B eo) st x r.1 { st with subB := r.2 } := by
  cases eo with
  | o1 =>
    refine gives_bind (gives_tick1 _ _ _) fun r hr => gives_pure fun st hst => ?_
    subst hst
    exact ⟨r.1, _, ⟨hr, rfl⟩, rfl, rfl⟩
  | o2 | o4 | o6 | o8 => exact gives_runSecond_B b _ s x

theorem gives_bandTick (b : Band) (st : ChannelState) (x : F) :
    Gives (bandTick b st x) fun r => IsBandTick b st x r.1 r.2 := by
  unfold bandTick IsBandTick
  cases b.kind with
  | mesa =>
    exact gives_bind (gives_runSecond_A b _ _ _) fun ra ha => gives_bind (gives_runSecond_B b _ _ _) fun rb hb =>
      gives_bind (gives_fadd _ _) fun sum hs => gives_bind (gives_fmul _ _) fun y hy =>
        gives_pure ⟨ra.1, rb.1, sum, _, ha st rfl, hb { st with subA := ra.2 } rfl, hs, hy⟩
  | bandPass =>
    exact gives_bind (gives_runSub_A b _ _ _) fun ra ha => gives_bind (gives_runSub_B b _ _ _) fun rb hb =>
      gives_pure ((isSeries_append b _ _ _ _ _ _).2 ⟨ra.1, _, ha st rfl, hb { st with subA := ra.2 } rfl⟩)
  | tilt =>
    exact gives_bind (gives_runSub_A b _ _ _) fun ra ha => gives_bind (gives_fmul _ _) fun y hy =>
      gives_pure ⟨ra.1, ha st rfl, hy⟩
  | bell | lowPass | highPass | lowShelf | highShelf | notch | allPass =>
    exact gives_bind (gives_runSub_A b _ _ _) fun ra ha => gives_pure (ha st rfl)

theorem gives_frameThrough (bands : List Band) (x : F × F) :
    Gives (frameThrough bands x) fun r => IsFrame bands x r.1 r.2 := by
  induction bands generalizing x with
  | nil => exact gives_pure ⟨rfl, rfl⟩
  | cons b rest ih =>
    unfold frameThrough
    by_cases h : b.en = true
    · rw [if_pos h]
      exact gives_bind (gives_bandTick _ _ _) fun l hl => gives_bind (gives_bandTick _ _ _) fun r hr =>
        gives_bind (ih _) fun more hm => gives_pure ⟨_, _, _, rfl, hm, by rw [if_pos h]; exact ⟨hl, hr, rfl⟩⟩
    · rw [if_neg h]
      exact gives_bind (ih _) fun more hm => gives_pure ⟨_, _, _, rfl, hm, by rw [if_neg h]; exact ⟨rfl, rfl⟩⟩

theorem gives_blockThrough (bands : List Band) (xs : List (F × F)) :
    Gives (blockThrough bands xs) fun r => IsBlock bands xs r.1 r.2 := by
  induction xs generalizing bands with
  | nil => exact gives_pure ⟨rfl, rfl⟩
  | cons x rest ih =>
    exact gives_bind (gives_frameThrough _ _) fun r hr => gives_bind (ih _) fun more hm =>
      gives_pure ⟨_, _, _, hr, hm, rfl⟩

/-! ## What processing leaves alone -/

/-- Two bands agree on everything but their state registers; a disabled one on those too. -/
def OnlyStateMoved (b b' : Band) : Prop :=
  b' = { b with left := b'.left, right := b'.right } ∧ (b.en = false → b' = b)

theorem isFrame_onlyState {bands bands' : List Band} {x y : F × F} (h : IsFrame bands x bands' y) :
    List.Forall₂ OnlyStateMoved bands bands' := by
  induction bands generalizing x bands' with
  | nil => obtain ⟨rfl, -⟩ := h; exact .nil
  | cons b rest ih =>
    obtain ⟨b', rest', m, rfl, hrest, hb⟩ := h
    refine .cons ?_ (ih hrest)
    by_cases he : b.en = true
    · rw [if_pos he] at hb
      exact ⟨hb.2.2, fun h0 => absurd he (by simp [h0])⟩
    · rw [if_neg he] at hb
      exact ⟨by rw [hb.1], fun _ => hb.1⟩

theorem OnlyStateMoved.trans {a b c : Band} (h1 : OnlyStateMoved a b) (h2 : OnlyStateMoved b c) :
    OnlyStateMoved a c := by
  have hen : b.en = a.en := by rw [h1.1]
  refine ⟨?_, fun h => ?_⟩
  · rw [h2.1, h1.1]
  · rw [h2.2 (hen.trans h), h1.2 h]

theorem forall₂_trans {α : Type} {R : α → α → Prop} (hR : ∀ a b c, R a b → R b c → R a c) {l₁ l₂ l₃ : List α}
    (h1 : List.Forall₂ R l₁ l₂) (h2 : List.Forall₂ R l₂ l₃) : List.Forall₂ R l₁ l₃ := by
  induction h1 generalizing l₃ with
  | nil => cases h2; exact .nil
  | cons h _ ih =>
    cases h2 with
    | cons h' t' => exact .cons (hR _ _ _ h h') (ih t')

theorem forall₂_refl {α : Type} {R : α → α → Prop} (hR : ∀ a, R a a) (l : List α) : List.Forall₂ R l l := by
  induction l with
  | nil => exact .nil
  | cons a l ih => exact .cons (hR a) ih

theorem isBlock_onlyState {bands bands' : List Band} {xs ys : List (F × F)} (h : IsBlock bands xs bands' ys) :
    List.Forall₂ OnlyStateMoved bands bands' := by
  induction xs generalizing bands ys with
  | nil => obtain ⟨rfl, -⟩ := h; exact forall₂_refl (fun a => ⟨rfl, fun _ => rfl⟩) _
  | cons x rest ih =>
    obtain ⟨mid, y, more, hf, hb, -⟩ := h
    exact forall₂_trans (R := OnlyStateMoved) (fun _ _ _ h h' => h.trans h') (isFrame_onlyState hf) (ih hb)

theorem isBlock_length {bands bands' : List Band} {xs ys : List (F × F)} (h : IsBlock bands xs bands' ys) :
    ys.length = xs.length := by
  induction xs generalizing bands ys with
  | nil => obtain ⟨-, rfl⟩ := h; rfl
  | cons x rest ih =>
    obtain ⟨mid, y, more, -, hb, rfl⟩ := h
    simp [ih hb]

end Sys2Proof.Machine
end

