-- ==== Sys2Proof/Laws/Float.lean ====
section
/-! SUPPORT. Rounding: the fields and the value of a packed pattern, and that `F.roundBits` gives the binary64 value nearest
an exact magnitude, ties to even. -/

namespace Sys2Proof.Machine

/-! ## Packed patterns -/

theorem pack_toNat (s : Bool) {p : Nat} (hp : p < 2 ^ 63) :
    (F.pack s p).toNat = (if s then 2 ^ 63 else 0) + p := by
  unfold F.pack
  rw [BitVec.toNat_ofNat]
  cases s <;> (simp; try omega)

theorem sign_eq (x : F) : F.sign x = decide (2 ^ 63 ≤ x.toNat) := by
  unfold F.sign
  rw [BitVec.getLsbD, Nat.testBit, Nat.shiftRight_eq_div_pow]
  have := x.isLt
  rw [Bool.eq_iff_iff]
  simp
  omega

theorem sign_pack (s : Bool) {p : Nat} (hp : p < 2 ^ 63) : F.sign (F.pack s p) = s := by
  rw [sign_eq, pack_toNat s hp]
  cases s <;> (simp; try omega)

theorem expo_pack (s : Bool) {p : Nat} (hp : p < 2 ^ 63) : F.expo (F.pack s p) = p / 2 ^ 52 := by
  unfold F.expo
  rw [pack_toNat s hp]
  cases s <;> (simp; try omega)

theorem frac_pack (s : Bool) {p : Nat} (hp : p < 2 ^ 63) : F.frac (F.pack s p) = p % 2 ^ 52 := by
  unfold F.frac
  rw [pack_toNat s hp]
  cases s <;> (simp; try omega)

/-- The magnitude, in units of 2^-1074, of the pattern whose low 63 bits are `e * 2^52 + m`: the significand `m` scaled
by `2^e`, for a normal significand at any scale and any significand at scale 0. -/
theorem mag_pack (s : Bool) {e m : Nat} (hm : m ≤ 2 ^ 53) (hn : e = 0 ∨ 2 ^ 52 ≤ m) (hp : e * 2 ^ 52 + m < 2 ^ 63) :
    F.mag (F.pack s (e * 2 ^ 52 + m)) = m * 2 ^ e := by
  unfold F.mag F.mant F.scale
  rw [expo_pack s hp, frac_pack s hp]
  by_cases h1 : m < 2 ^ 52
  · have he : e = 0 := by omega
    subst he
    have hq : (0 * 2 ^ 52 + m) / 2 ^ 52 = 0 := by omega
    have hr : (0 * 2 ^ 52 + m) % 2 ^ 52 = m := by omega
    simp only [hq, hr, if_true, Nat.zero_sub]
  · by_cases h2 : m < 2 ^ 53
    · have hq : (e * 2 ^ 52 + m) / 2 ^ 52 = e + 1 := by omega
      have hr : (e * 2 ^ 52 + m) % 2 ^ 52 = m - 2 ^ 52 := by omega
      have hs : 2 ^ 52 + (m - 2 ^ 52) = m := by omega
      rw [hq, hr, if_neg (by omega), Nat.add_sub_cancel, hs]
    · have hq : (e * 2 ^ 52 + m) / 2 ^ 52 = e + 2 := by omega
      have hr : (e * 2 ^ 52 + m) % 2 ^ 52 = 0 := by omega
      have hm' : m = 2 ^ 53 := by omega
      rw [hq, hr, if_neg (by omega), hm', show e + 2 - 1 = e + 1 by omega, pow_succ]
      ring

theorem val_pack (s : Bool) {p : Nat} (hp : p < 2 ^ 63) :
    F.val (F.pack s p) = if s then -(F.mag (F.pack s p) : Int) else (F.mag (F.pack s p) : Int) := by
  unfold F.val
  rw [sign_pack s hp]

/-- A finite magnitude is a whole number of `2^e`, or below `2^(52+e)`. -/
theorem mag_multiple_or_small (z : F) (e : Nat) : 2 ^ e ∣ F.mag z ∨ F.mag z < 2 ^ (52 + e) := by
  by_cases h : e ≤ F.scale z
  · left
    exact Dvd.dvd.mul_left (pow_dvd_pow 2 h) _
  · right
    have hm : F.mant z < 2 ^ 53 := by
      have hf : F.frac z < 2 ^ 52 := Nat.mod_lt _ (by positivity)
      unfold F.mant
      split <;> omega
    have hs : F.scale z ≤ e - 1 := by omega
    calc F.mag z = F.mant z * 2 ^ F.scale z := rfl
      _ < 2 ^ 53 * 2 ^ F.scale z := Nat.mul_lt_mul_of_pos_right hm (by positivity)
      _ ≤ 2 ^ 53 * 2 ^ (e - 1) := Nat.mul_le_mul_left _ (Nat.pow_le_pow_right (by norm_num) hs)
      _ = 2 ^ (52 + e) := by rw [← pow_add]; congr 1; omega

/-! ## To the nearest whole number -/

/-- `nearestEven` is nearest: twice its distance, cleared of the denominator, is at most the denominator, and equal only
for an even result. -/
theorem nearestEven_spec (num : Nat) {den : Nat} (hd : 0 < den) :
    let m := F.nearestEven num den
    2 * (m * den) ≤ 2 * num + den ∧ 2 * num ≤ 2 * (m * den) + den ∧
      (2 * (m * den) = 2 * num + den ∨ 2 * num = 2 * (m * den) + den → m % 2 = 0) := by
  have hdm := Nat.div_add_mod num den
  have hlt := Nat.mod_lt num hd
  dsimp only
  unfold F.nearestEven
  generalize hq : num / den = q at *
  generalize hr : num % den = r at *
  have e0 : (q + 1) * den = den * q + den := by ring
  have e1 : q * den = den * q := by ring
  split
  · rw [e1]
    refine ⟨by omega, by omega, by omega⟩
  · split
    · rw [e0]
      refine ⟨by omega, by omega, by omega⟩
    · rcases Nat.mod_two_eq_zero_or_one q with h | h
      · rw [h, Nat.add_zero, e1]
        refine ⟨by omega, by omega, fun _ => h⟩
      · rw [h, e0]
        refine ⟨by omega, by omega, fun _ => by omega⟩

/-- `nearestEven` over the rationals: nearest among all whole numbers, even when another is as near. -/
theorem nearestEven_nearest (num : Nat) {den : Nat} (hd : 0 < den) (z : Int) :
    |((F.nearestEven num den : Nat) : ℚ) - num / den| ≤ |(z : ℚ) - num / den| ∧
      (|((F.nearestEven num den : Nat) : ℚ) - num / den| = |(z : ℚ) - num / den| → z ≠ F.nearestEven num den →
        F.nearestEven num den % 2 = 0) := by
  obtain ⟨h1, h2, h3⟩ := nearestEven_spec num hd
  generalize hm : F.nearestEven num den = m at *
  have hdq : (0 : ℚ) < den := by exact_mod_cast hd
  have habs : |(m : ℚ) - num / den| ≤ 1 / 2 := by
    have h1q : 2 * ((m : ℚ) * den) ≤ 2 * num + den := by exact_mod_cast h1
    have h2q : 2 * (num : ℚ) ≤ 2 * (m * den) + den := by exact_mod_cast h2
    rw [abs_le]
    constructor
    · have : (num : ℚ) / den ≤ m + 1 / 2 := by
        rw [div_le_iff₀ hdq]; linarith
      linarith
    · have : (m : ℚ) - 1 / 2 ≤ num / den := by
        rw [le_div_iff₀ hdq]; linarith
      linarith
  have hhalf : |(m : ℚ) - num / den| = 1 / 2 → m % 2 = 0 := by
    intro h
    apply h3
    rcases abs_eq (by norm_num : (0 : ℚ) ≤ 1 / 2) |>.1 h with h | h
    · left
      have : (num : ℚ) / den = m - 1 / 2 := by linarith
      rw [div_eq_iff hdq.ne'] at this
      have : 2 * ((m : ℚ) * den) = 2 * num + den := by linarith
      exact_mod_cast this
    · right
      have : (num : ℚ) / den = m + 1 / 2 := by linarith
      rw [div_eq_iff hdq.ne'] at this
      have : 2 * (num : ℚ) = 2 * (m * den) + den := by linarith
      exact_mod_cast this
  by_cases hz : z = m
  · subst hz
    exact ⟨le_of_eq (by push_cast; rfl), fun _ h => absurd rfl h⟩
  · have hzm : (1 : ℚ) ≤ |(z : ℚ) - m| := by
      have : (1 : Int) ≤ |z - m| := Int.one_le_abs (sub_ne_zero.2 hz)
      exact_mod_cast this
    have htri : |(z : ℚ) - m| ≤ |(z : ℚ) - num / den| + |(m : ℚ) - num / den| := by
      rw [abs_sub_comm (m : ℚ)]
      exact abs_sub_le _ _ _
    exact ⟨by linarith, fun h _ => hhalf (by linarith)⟩

/-- The whole-number square root: the greatest whole number whose square does not exceed `n`. -/
theorem isqrt_spec (fuel n : Nat) (h : n < 4 ^ fuel) :
    F.isqrt fuel n * F.isqrt fuel n ≤ n ∧ n < (F.isqrt fuel n + 1) * (F.isqrt fuel n + 1) := by
  induction fuel generalizing n with
  | zero => simp at h; simp [F.isqrt, h]
  | succ fuel ih =>
    obtain ⟨h1, h2⟩ := ih (n / 4) (by rw [pow_succ] at h; omega)
    unfold F.isqrt
    dsimp only
    generalize F.isqrt fuel (n / 4) = r at *
    have e1 : (2 * r + 1) * (2 * r + 1) = 4 * (r * r) + 4 * r + 1 := by ring
    have e2 : (2 * r + 1 + 1) * (2 * r + 1 + 1) = 4 * ((r + 1) * (r + 1)) := by ring
    have e3 : 2 * r * (2 * r) = 4 * (r * r) := by ring
    split
    · exact ⟨by assumption, by rw [e2]; omega⟩
    · exact ⟨by rw [e3]; omega, by omega⟩

/-! ## Rounding to binary64 -/

/-- What `roundBits` is made of: the scale and the significand of the result. -/
theorem roundBits_parts (num : Nat) {den : Nat} (hd : 0 < den) :
    ∃ e m, e = Nat.log2 (num / den) - 52 ∧ m = F.nearestEven num (den * 2 ^ e) ∧ m ≤ 2 ^ 53 ∧ (e = 0 ∨ 2 ^ 52 ≤ m) ∧
      (e ≠ 0 → 2 ^ (52 + e) * den ≤ num) ∧ num < 2 ^ (53 + e) * den ∧
      F.roundBits num den = min (e * 2 ^ 52 + m) F.infBits := by
  refine ⟨_, _, rfl, rfl, ?_⟩
  generalize he : Nat.log2 (num / den) - 52 = e
  have hup : num / den < 2 ^ (53 + e) :=
    calc num / den < 2 ^ (Nat.log2 (num / den) + 1) := Nat.lt_log2_self
      _ ≤ 2 ^ (53 + e) := Nat.pow_le_pow_right (by norm_num) (by omega)
  have hlt : num < 2 ^ (53 + e) * den := (Nat.div_lt_iff_lt_mul hd).1 hup
  have hlo : e ≠ 0 → 2 ^ (52 + e) * den ≤ num := by
    intro h0
    have hne : num / den ≠ 0 := by
      intro h; rw [h] at he; simp at he; omega
    have : 2 ^ Nat.log2 (num / den) ≤ num / den := Nat.log2_self_le hne
    rw [show Nat.log2 (num / den) = 52 + e by omega] at this
    exact (Nat.le_div_iff_mul_le hd).1 this
  have hd' : 0 < den * 2 ^ e := by positivity
  obtain ⟨h1, h2, -⟩ := nearestEven_spec num hd'
  have hroll : F.roundBits num den = min (e * 2 ^ 52 + F.nearestEven num (den * 2 ^ e)) F.infBits := by
    unfold F.roundBits
    dsimp only
    rw [he]
  rw [hroll]
  clear hroll
  generalize F.nearestEven num (den * 2 ^ e) = m at *
  have hpw : 2 ^ (53 + e) * den = 2 ^ 53 * (den * 2 ^ e) := by rw [pow_add]; ring
  have hpl : 2 ^ (52 + e) * den = 2 ^ 52 * (den * 2 ^ e) := by rw [pow_add]; ring
  refine ⟨?_, ?_, hlo, hlt, rfl⟩
  · by_contra hc
    have : (2 ^ 53 + 1) * (den * 2 ^ e) ≤ m * (den * 2 ^ e) := Nat.mul_le_mul_right _ (by omega)
    rw [hpw] at hlt
    rw [Nat.add_mul] at this
    omega
  · by_cases h0 : e = 0
    · exact .inl h0
    · right
      by_contra hc
      have hl := hlo h0
      rw [hpl] at hl
      have : (m + 1) * (den * 2 ^ e) ≤ 2 ^ 52 * (den * 2 ^ e) := Nat.mul_le_mul_right _ (by omega)
      rw [Nat.add_mul] at this
      omega
/-- The value of an unsigned pattern that `roundBits` gives, when it does not overflow. -/
theorem roundBits_finite (s : Bool) {e m : Nat} (hm : m ≤ 2 ^ 53) (hn : e = 0 ∨ 2 ^ 52 ≤ m)
    (hp : e * 2 ^ 52 + m < F.infBits) :
    F.isFinite (F.pack s (min (e * 2 ^ 52 + m) F.infBits)) = true ∧
      F.mag (F.pack s (min (e * 2 ^ 52 + m) F.infBits)) = m * 2 ^ e ∧
      F.frac (F.pack s (min (e * 2 ^ 52 + m) F.infBits)) % 2 = m % 2 := by
  have hb : e * 2 ^ 52 + m < 2 ^ 63 := lt_trans hp (by unfold F.infBits; norm_num)
  rw [min_eq_left hp.le]
  refine ⟨?_, mag_pack s hm hn hb, ?_⟩
  · unfold F.isFinite
    rw [expo_pack s hb]
    unfold F.infBits at hp
    have : (e * 2 ^ 52 + m) / 2 ^ 52 < 2047 := by omega
    simp
    omega
  · rw [frac_pack s hb]
    omega

/-- An overflowing result is an infinity. -/
theorem isInf_pack (s : Bool) : F.isInf (F.pack s F.infBits) = true ∧ F.sign (F.pack s F.infBits) = s := by
  cases s <;> decide

/-- The significand a nonnegative magnitude rounds to is nearest: among the magnitudes and negated magnitudes of all
patterns, none is nearer, and where a different one is as near, the significand is even. -/
theorem rounded_nearest (num : Nat) {den : Nat} (hd : 0 < den) {e : Nat} (he : e ≠ 0 → 2 ^ (52 + e) * den ≤ num) (z : F)
    (b : Bool) :
    let m := F.nearestEven num (den * 2 ^ e)
    let r : ℚ := (m : ℚ) * 2 ^ e
    let v : ℚ := (num : ℚ) / den
    let w : ℚ := if b then -(F.mag z : ℚ) else (F.mag z : ℚ)
    |r - v| ≤ |w - v| ∧ (|r - v| = |w - v| → w ≠ r → m % 2 = 0) := by
  dsimp only
  have hd' : 0 < den * 2 ^ e := by positivity
  have hdq : (0 : ℚ) < den := by exact_mod_cast hd
  have h2 : (0 : ℚ) < 2 ^ e := by positivity
  have hnear := nearestEven_nearest num hd'
  generalize F.nearestEven num (den * 2 ^ e) = m at *
  have hscale : ∀ k : ℚ, |k * 2 ^ e - (num : ℚ) / den| = |k - (num : ℚ) / ((den * 2 ^ e : Nat) : ℚ)| * 2 ^ e := by
    intro k
    rw [← abs_of_pos h2, ← abs_mul, abs_of_pos h2]
    congr 1
    push_cast
    field_simp
  -- a multiple of the quantum
  have hmul : ∀ k : Int, |(m : ℚ) * 2 ^ e - num / den| ≤ |(k : ℚ) * 2 ^ e - num / den| ∧
      (|(m : ℚ) * 2 ^ e - num / den| = |(k : ℚ) * 2 ^ e - num / den| → (k : ℚ) * 2 ^ e ≠ (m : ℚ) * 2 ^ e →
        m % 2 = 0) := by
    intro k
    obtain ⟨hk1, hk2⟩ := hnear k
    rw [hscale, hscale]
    refine ⟨mul_le_mul_of_nonneg_right hk1 h2.le, fun heq hne => hk2 (mul_right_cancel₀ h2.ne' heq) ?_⟩
    rintro rfl
    exact hne (by push_cast; rfl)
  rcases mag_multiple_or_small z e with hz | hz
  · obtain ⟨k, hk⟩ := hz
    have hw : (if b then -(F.mag z : ℚ) else (F.mag z : ℚ)) = ((if b then -(k : Int) else k : Int) : ℚ) * 2 ^ e := by
      rw [hk]
      cases b
      · push_cast
        ring_nf
      · rw [if_pos rfl, if_pos rfl]
        push_cast
        ring
    rw [hw]
    exact hmul _
  · by_cases h0 : e = 0
    · subst h0
      have hw : (if b then -(F.mag z : ℚ) else (F.mag z : ℚ)) =
          ((if b then -(F.mag z : Int) else F.mag z : Int) : ℚ) * 2 ^ 0 := by
        cases b <;> simp
      rw [hw]
      exact hmul _
    · -- below the binade of the exact value: its least multiple is nearer
      have hv : (2 : ℚ) ^ 52 * 2 ^ e ≤ num / den := by
        rw [le_div_iff₀ hdq, ← pow_add]
        exact_mod_cast he h0
      have hwlt : (if b then -(F.mag z : ℚ) else (F.mag z : ℚ)) < 2 ^ 52 * 2 ^ e := by
        have hzq : (F.mag z : ℚ) < 2 ^ 52 * 2 ^ e := by
          rw [← pow_add]
          exact_mod_cast hz
        have : (0 : ℚ) ≤ F.mag z := by positivity
        cases b
        · simpa using hzq
        · simp
          linarith
      obtain ⟨hk, -⟩ := hmul (2 ^ 52)
      push_cast at hk
      have hlt : |(2 : ℚ) ^ 52 * 2 ^ e - num / den| < |(if b then -(F.mag z : ℚ) else (F.mag z : ℚ)) - num / den| := by
        rw [abs_sub_comm, abs_of_nonneg (by linarith), abs_sub_comm, abs_of_nonneg (by linarith)]
        linarith
      exact ⟨(hk.trans_lt hlt).le, fun h => absurd h (hk.trans_lt hlt).ne⟩

/-- `roundBits` with a sign is the binary64 value nearest the signed magnitude, ties to even; a magnitude of zero keeps
the sign it is given, and an overflow is the infinity of that sign. -/
theorem roundBits_isNearest (s : Bool) (num : Nat) {den : Nat} (hd : 0 < den) :
    IsNearest (if s then -((num : ℚ) / den) else (num : ℚ) / den) (F.pack s (F.roundBits num den)) := by
  obtain ⟨e, m, he, hm, hm53, hn, hlo, hlt, hr⟩ := roundBits_parts num hd
  have hdq : (0 : ℚ) < den := by exact_mod_cast hd
  have hvpos : (0 : ℚ) ≤ (num : ℚ) / den := by positivity
  have habs : |(if s then -((num : ℚ) / den) else (num : ℚ) / den)| = (num : ℚ) / den := by
    cases s
    · simp [abs_of_nonneg hvpos]
    · simp [abs_of_nonneg hvpos]
  have hd' : 0 < den * 2 ^ e := by positivity
  obtain ⟨hs1, hs2, hs3⟩ := nearestEven_spec num hd'
  rw [← hm] at hs1 hs2 hs3
  unfold IsNearest
  rw [habs, hr]
  by_cases hover : (num : ℚ) / den < overflowBound
  · rw [if_pos hover]
    have hfin : e * 2 ^ 52 + m < F.infBits := by
      unfold F.infBits
      by_contra hc
      have hov : num < (2 ^ 54 - 1) * 2 ^ 2044 * den := by
        rw [div_lt_iff₀ hdq, overflowBound] at hover
        have h54 : ((2 : ℚ) ^ 54 - 1) = ((2 ^ 54 - 1 : Nat) : ℚ) := by norm_num
        rw [h54] at hover
        exact_mod_cast hover
      have hecases : 2045 ≤ e := by omega
      rcases Nat.lt_or_ge e 2046 with h46 | h46
      · have h45 : e = 2045 := by omega
        subst h45
        have hm' : m = 2 ^ 53 := by omega
        rw [hm'] at hs1
        have h1 : (2 : Nat) ^ 2045 = 2 * 2 ^ 2044 := by rw [show 2045 = 2044 + 1 from rfl, pow_succ, mul_comm]
        rw [h1] at hs1
        have h2 : ∀ t : Nat, 2 * (2 ^ 53 * (den * (2 * t))) = 2 ^ 55 * (den * t) := fun t => by ring
        have h3 : (2 ^ 54 - 1) * 2 ^ 2044 * den = (2 ^ 54 - 1) * (den * 2 ^ 2044) := by
          rw [Nat.mul_assoc, Nat.mul_comm _ den]
        have h4 : den * (2 * 2 ^ 2044) = 2 * (den * 2 ^ 2044) := Nat.mul_left_comm _ _ _
        rw [h3] at hov
        rw [h2 (2 ^ 2044), h4] at hs1
        generalize den * 2 ^ 2044 = t at *
        omega
      · have hl := hlo (by omega)
        have : (2 ^ 54 - 1) * 2 ^ 2044 * den ≤ 2 ^ (52 + e) * den := by
          apply Nat.mul_le_mul_right
          calc (2 ^ 54 - 1) * 2 ^ 2044 ≤ 2 ^ 54 * 2 ^ 2044 := Nat.mul_le_mul_right _ (Nat.sub_le _ _)
            _ = 2 ^ (54 + 2044) := (pow_add 2 54 2044).symm
            _ ≤ 2 ^ (52 + e) := Nat.pow_le_pow_right (by norm_num) (by omega)
        omega
    obtain ⟨hf, hmag, hfrac⟩ := roundBits_finite s hm53 hn hfin
    refine ⟨hf, fun z hz => ?_⟩
    have hval : (F.val (F.pack s (min (e * 2 ^ 52 + m) F.infBits)) : ℚ) =
        if s then -((m : ℚ) * 2 ^ e) else (m : ℚ) * 2 ^ e := by
      rw [val_pack s (lt_of_le_of_lt (min_le_right _ _) (by unfold F.infBits; norm_num)), hmag]
      cases s <;> (push_cast; simp)
    have hzval : (F.val z : ℚ) = if F.sign z then -(F.mag z : ℚ) else (F.mag z : ℚ) := by
      unfold F.val
      cases F.sign z <;> simp
    have key := rounded_nearest num hd hlo z (if s then !F.sign z else F.sign z)
    dsimp only at key
    rw [← hm] at key
    rw [hfrac, hval]
    have hne : F.val z ≠ F.val (F.pack s (min (e * 2 ^ 52 + m) F.infBits)) →
        (F.val z : ℚ) ≠ if s then -((m : ℚ) * 2 ^ e) else (m : ℚ) * 2 ^ e := by
      intro h h'
      exact h (by exact_mod_cast h'.trans hval.symm)
    cases s with
    | false =>
      simp only [Bool.false_eq_true, if_false] at key hne ⊢
      rw [← hzval] at key
      exact ⟨key.1, fun h h' => key.2 h (hne h')⟩
    | true =>
      simp only [if_true] at key hne ⊢
      have hneg : (if (!F.sign z) = true then -(F.mag z : ℚ) else (F.mag z : ℚ)) = -(F.val z : ℚ) := by
        rw [hzval]
        cases F.sign z <;> simp
      rw [hneg] at key
      have hflip : ∀ a b : ℚ, |(-a) - (-b)| = |a - b| := fun a b => by
        rw [← abs_neg]; congr 1; ring
      have h1 := hflip (m * 2 ^ e) (num / den)
      have h2 := hflip (-(F.val z : ℚ)) (num / den)
      rw [neg_neg] at h2
      rw [h1, h2]
      exact ⟨key.1, fun h h' => key.2 h fun h'' => hne h' (by linarith)⟩
  · rw [if_neg hover]
    have hinf : F.infBits ≤ e * 2 ^ 52 + m := by
      unfold F.infBits
      by_contra hc
      have hov : (2 ^ 54 - 1) * 2 ^ 2044 * den ≤ num := by
        rw [not_lt, le_div_iff₀ hdq, overflowBound] at hover
        have h54 : ((2 : ℚ) ^ 54 - 1) = ((2 ^ 54 - 1 : Nat) : ℚ) := by norm_num
        rw [h54] at hover
        exact_mod_cast hover
      have h3 : (2 ^ 54 - 1) * 2 ^ 2044 * den = (2 ^ 54 - 1) * (den * 2 ^ 2044) := by
          rw [Nat.mul_assoc, Nat.mul_comm _ den]
      have hecases : e ≤ 2045 := by omega
      rcases Nat.lt_or_ge e 2045 with h45 | h45
      · have : 2 ^ (53 + e) * den ≤ (2 ^ 54 - 1) * 2 ^ 2044 * den := by
          apply Nat.mul_le_mul_right
          calc 2 ^ (53 + e) ≤ 2 ^ (53 + 2044) := Nat.pow_le_pow_right (by norm_num) (by omega)
            _ = 2 ^ 53 * 2 ^ 2044 := by rw [pow_add]
            _ ≤ (2 ^ 54 - 1) * 2 ^ 2044 := Nat.mul_le_mul_right _ (by norm_num)
        omega
      · have h45' : e = 2045 := by omega
        subst h45'
        have hm' : m ≤ 2 ^ 53 - 1 := by omega
        have h1 : (2 : Nat) ^ 2045 = 2 * 2 ^ 2044 := by rw [show 2045 = 2044 + 1 from rfl, pow_succ, mul_comm]
        rw [h1] at hs2 hs3
        have h4 : den * (2 * 2 ^ 2044) = 2 * (den * 2 ^ 2044) := Nat.mul_left_comm _ _ _
        rw [h3] at hov
        rw [h4] at hs2 hs3
        have ht : 0 < den * 2 ^ 2044 := by positivity
        generalize den * 2 ^ 2044 = t at *
        have h5 : 2 * (m * (2 * t)) ≤ 2 * ((2 ^ 53 - 1) * (2 * t)) :=
          Nat.mul_le_mul_left _ (Nat.mul_le_mul_right _ hm')
        have hmeq : 2 * num = 2 * (m * (2 * t)) + 2 * t := by omega
        have heven := hs3 (.inr hmeq)
        have hm'' : m ≤ 2 ^ 53 - 2 := by omega
        have h6 : 2 * (m * (2 * t)) ≤ 2 * ((2 ^ 53 - 2) * (2 * t)) :=
          Nat.mul_le_mul_left _ (Nat.mul_le_mul_right _ hm'')
        omega
    rw [min_eq_right hinf]
    obtain ⟨hi, hsg⟩ := isInf_pack s
    refine ⟨hi, ?_⟩
    rw [hsg]
    have hpos : 0 < (num : ℚ) / den := by
      rw [not_lt] at hover
      exact lt_of_lt_of_le (by unfold overflowBound; positivity) hover
    cases s <;> simp <;> linarith

end Sys2Proof.Machine
end

