-- ==== Sys2Proof/Laws/Bound.lean ====
section
/-! SUPPORT. Magnitudes under the operations: a result of operands within powers of two is a number within a power of two,
so a computation that stays in range draws no NaN. -/

set_option Elab.async false

namespace Sys2Proof.Machine

/-- `x` is finite and at most `2^n` in magnitude. -/
def Within (n : Nat) (x : F) : Prop := F.isFinite x = true ∧ F.mag x ≤ 2 ^ (1074 + n)

theorem not_nan_inf_of_finite {x : F} (h : F.isFinite x = true) : F.isNaN x = false ∧ F.isInf x = false := by
  unfold F.isFinite at h
  unfold F.isNaN F.isInf
  simp only [bne_iff_ne] at h
  simp [h]

theorem finite_of_isZero {x : F} (h : F.isZero x = true) : F.isFinite x = true := by
  unfold F.isZero at h
  unfold F.isFinite
  simp only [Bool.and_eq_true, beq_iff_eq] at h
  rw [h.1]
  rfl

theorem mag_of_isZero {x : F} (h : F.isZero x = true) : F.mag x = 0 := by
  unfold F.isZero at h
  simp only [Bool.and_eq_true, beq_iff_eq] at h
  simp [F.mag, F.mant, h.1, h.2]

theorem natAbs_val (x : F) : (F.val x).natAbs = F.mag x := by
  unfold F.val
  split <;> simp

theorem Within.mono {a b : Nat} {x : F} (h : Within a x) (hab : a ≤ b) : Within b x :=
  ⟨h.1, h.2.trans (Nat.pow_le_pow_right (by norm_num) (by omega))⟩

theorem within_of_isZero {x : F} (h : F.isZero x = true) (n : Nat) : Within n x :=
  ⟨finite_of_isZero h, by rw [mag_of_isZero h]; exact Nat.zero_le _⟩

/-- A power of two is a value. -/
theorem exists_pow (n : Nat) (hn : n ≤ 1023) (s : Bool) :
    ∃ z : F, F.isFinite z = true ∧ F.sign z = s ∧ F.mag z = 2 ^ (1074 + n) := by
  have hp : (1022 + n) * 2 ^ 52 + 2 ^ 52 < 2 ^ 63 := by omega
  refine ⟨F.pack s ((1022 + n) * 2 ^ 52 + 2 ^ 52), ?_, sign_pack s hp, ?_⟩
  · unfold F.isFinite
    rw [expo_pack s hp, bne_iff_ne]
    omega
  · rw [mag_pack s (by norm_num) (.inr le_rfl) hp, ← pow_add]
    congr 1
    omega

/-- What is nearest to a value within a power of two is within it. -/
theorem within_of_nearest {e : ℚ} {r : F} {n : Nat} (h : IsNearest e r) (he : |e| ≤ 2 ^ (1074 + n)) (hn : n ≤ 1023) :
    Within n r := by
  have hb : |e| < overflowBound := by
    refine lt_of_le_of_lt (he.trans (pow_le_pow_right₀ (by norm_num) (by omega : 1074 + n ≤ 2097))) ?_
    unfold overflowBound
    rw [show (2097 : Nat) = 53 + 2044 from rfl, pow_add]
    exact mul_lt_mul_of_pos_right (by norm_num) (by positivity)
  unfold IsNearest at h
  rw [if_pos hb] at h
  refine ⟨h.1, ?_⟩
  have hv : |(F.val r : ℚ)| = F.mag r := by
    rw [← natAbs_val r, ← Int.cast_abs, Int.abs_eq_natAbs]
    simp
  obtain ⟨z, hz, hs, hm⟩ := exists_pow n hn (F.sign r)
  have hd := (h.2 z hz).1
  have hzv : (F.val z : ℚ) = if F.sign r then -(2 : ℚ) ^ (1074 + n) else 2 ^ (1074 + n) := by
    unfold F.val
    rw [hs, hm]
    split <;> push_cast <;> rfl
  have hrv : (F.val r : ℚ) = if F.sign r then -(F.mag r : ℚ) else F.mag r := by
    unfold F.val
    split <;> push_cast <;> rfl
  have : (F.mag r : ℚ) ≤ 2 ^ (1074 + n) := by
    obtain ⟨h1, h2⟩ := abs_le.1 he
    by_contra hlt
    rw [not_le] at hlt
    rw [hzv, hrv] at hd
    cases hsr : F.sign r
    · rw [hsr] at hd
      simp only [Bool.false_eq_true, if_false] at hd
      rw [abs_of_nonneg (by linarith), abs_of_nonneg (by linarith)] at hd
      linarith
    · rw [hsr] at hd
      simp only [if_true] at hd
      rw [abs_of_nonpos (by linarith), abs_of_nonpos (by linarith)] at hd
      linarith
  exact_mod_cast this

theorem within_round (s : Bool) (num : Nat) {den n : Nat} (hd : 0 < den) (h : num ≤ 2 ^ (1074 + n) * den) (hn : n ≤ 1023) :
    Within n (F.pack s (F.roundBits num den)) := by
  refine within_of_nearest (roundBits_isNearest s num hd) ?_ hn
  have hq : (num : ℚ) / den ≤ 2 ^ (1074 + n) := by
    rw [div_le_iff₀ (by exact_mod_cast hd)]
    exact_mod_cast h
  have h0 : (0 : ℚ) ≤ (num : ℚ) / den := by positivity
  cases s
  · simpa [abs_of_nonneg h0] using hq
  · simpa [abs_of_nonneg h0] using hq

theorem within_zero (s : Bool) (n : Nat) : Within n (F.pack s 0) :=
  within_of_isZero (by cases s <;> decide) n

variable {a b : Nat} {x y : F}

theorem add_within (hx : Within a x) (hy : Within a y) (ha : a + 1 ≤ 1023) :
    ∃ r, F.add x y = some r ∧ Within (a + 1) r := by
  obtain ⟨n1, i1⟩ := not_nan_inf_of_finite hx.1
  obtain ⟨n2, i2⟩ := not_nan_inf_of_finite hy.1
  unfold F.add
  simp only [n1, n2, i1, i2, Bool.or_false, Bool.false_eq_true, if_false]
  split
  · exact ⟨_, rfl, within_zero _ _⟩
  · refine ⟨_, rfl, within_round _ _ (by norm_num) ?_ ha⟩
    refine (Int.natAbs_add_le _ _).trans ?_
    rw [natAbs_val, natAbs_val, ← add_assoc, pow_succ]
    have := hx.2
    have := hy.2
    omega

theorem sign_neg (x : F) : F.sign (F.neg x) = !F.sign x := by simp [F.sign, F.neg]

theorem frac_neg (x : F) : F.frac (F.neg x) = F.frac x := by
  unfold F.frac F.neg
  rw [← BitVec.toNat_setWidth 52 x, ← BitVec.toNat_setWidth 52 (x ^^^ 0x8000000000000000#64)]
  congr 1
  ext i hi
  simp

theorem expo_neg (x : F) : F.expo (F.neg x) = F.expo x := by
  have h : ∀ v : BitVec 64, F.expo v = (BitVec.setWidth 11 (v >>> 52)).toNat := fun v => by
    rw [BitVec.toNat_setWidth, BitVec.toNat_ushiftRight, Nat.shiftRight_eq_div_pow]
    rfl
  rw [h, h]
  congr 1
  ext i hi
  have : (0x8000000000000000#64).getLsbD (52 + i) = false := by interval_cases i <;> rfl
  simp [F.neg, this]

theorem mag_neg (x : F) : F.mag (F.neg x) = F.mag x := by
  simp only [F.mag, F.mant, F.scale, expo_neg, frac_neg]

theorem val_neg (x : F) : F.val (F.neg x) = -F.val x := by
  unfold F.val
  rw [sign_neg, mag_neg]
  cases F.sign x <;> simp

theorem neg_within (hx : Within a x) : Within a (F.neg x) :=
  ⟨by unfold F.isFinite; rw [expo_neg]; exact hx.1, by rw [mag_neg]; exact hx.2⟩

theorem isZero_neg (x : F) : F.isZero (F.neg x) = F.isZero x := by
  unfold F.isZero
  rw [expo_neg, frac_neg]

theorem sub_within (hx : Within a x) (hy : Within a y) (ha : a + 1 ≤ 1023) :
    ∃ r, F.sub x y = some r ∧ Within (a + 1) r := add_within hx (neg_within hy) ha

theorem mul_within (hx : Within a x) (hy : Within b y) (hab : a + b ≤ 1023) :
    ∃ r, F.mul x y = some r ∧ Within (a + b) r := by
  obtain ⟨n1, i1⟩ := not_nan_inf_of_finite hx.1
  obtain ⟨n2, i2⟩ := not_nan_inf_of_finite hy.1
  unfold F.mul
  simp only [n1, n2, i1, i2, Bool.or_false, Bool.false_eq_true, if_false]
  refine ⟨_, rfl, within_round _ _ (by positivity) ?_ hab⟩
  refine (Nat.mul_le_mul hx.2 hy.2).trans (le_of_eq ?_)
  rw [← pow_add, ← pow_add]
  congr 1
  omega

/-- A zero times a number is a zero. -/
theorem zero_mul_number (hx : F.isZero x = true) (hy : F.isFinite y = true) : ∃ r, F.mul x y = some r ∧ F.isZero r = true := by
  obtain ⟨n1, i1⟩ := not_nan_inf_of_finite (finite_of_isZero hx)
  obtain ⟨n2, i2⟩ := not_nan_inf_of_finite hy
  unfold F.mul
  simp only [n1, n2, i1, i2, Bool.or_false, Bool.false_eq_true, if_false]
  refine ⟨_, rfl, ?_⟩
  have h : F.roundBits (F.mag x * F.mag y) (2 ^ 1074) = 0 := by
    rw [mag_of_isZero hx, Nat.zero_mul]
    unfold F.roundBits F.nearestEven
    simp
  rw [h]
  cases (F.sign x != F.sign y) <;> decide

/-- The sum of two zeros is a zero. -/
theorem zero_add_zero (hx : F.isZero x = true) (hy : F.isZero y = true) : ∃ r, F.add x y = some r ∧ F.isZero r = true := by
  obtain ⟨n1, i1⟩ := not_nan_inf_of_finite (finite_of_isZero hx)
  obtain ⟨n2, i2⟩ := not_nan_inf_of_finite (finite_of_isZero hy)
  have hv : F.val x + F.val y = 0 := by
    simp [F.val, mag_of_isZero hx, mag_of_isZero hy]
  unfold F.add
  simp only [n1, n2, i1, i2, hv, Bool.or_false, Bool.false_eq_true, if_false, if_true]
  exact ⟨_, rfl, by cases (F.sign x && F.sign y) <;> decide⟩

/-- What `atMost` a power of two says. -/
theorem within_of_atMost {n : Nat} {bound : F} (hb : F.isFinite bound = true) (hs : F.sign bound = false)
    (hm : F.mag bound = 2 ^ (1074 + n)) (hn : n ≤ 1023) (h : atMost bound x = true) : Within n x := by
  unfold atMost at h
  simp only [Bool.and_eq_true, Bool.not_eq_true'] at h
  obtain ⟨⟨h1, h2⟩, h3⟩ := h
  have hn1 := (not_nan_inf_of_finite hb).1
  have hn2 : F.isNaN (F.neg bound) = false := by
    unfold F.isNaN
    rw [expo_neg, frac_neg]
    exact hn1
  have hv : F.val bound = (F.mag bound : Int) := by
    unfold F.val
    rw [hs]
    rfl
  simp only [F.lt, h1, hn1, hn2, val_neg, hv, Bool.not_false, Bool.true_and, decide_eq_false_iff_not, not_lt] at h2 h3
  have hmag : F.mag x ≤ 2 ^ (1074 + n) := by
    have := natAbs_val x
    omega
  refine ⟨?_, hmag⟩
  by_contra hf
  simp only [F.isFinite, bne_iff_ne, ne_eq, not_not] at hf
  have hbig : 2 ^ 2098 ≤ F.mag x := by
    simp only [F.mag, F.mant, F.scale, hf]
    rw [if_neg (by norm_num), show (2098 : Nat) = 52 + 2046 from rfl, pow_add]
    exact Nat.mul_le_mul_right _ (Nat.le_add_right _ _)
  have : 2 ^ (1074 + n) < 2 ^ 2098 := Nat.pow_lt_pow_right (by norm_num) (by omega)
  omega

/-! ## Computations that stay in range draw nothing -/

theorem fadd_within (hx : Within a x) (hy : Within a y) (ha : a + 1 ≤ 1023) : ∃ r, fadd x y = pure r ∧ Within (a + 1) r :=
  have ⟨r, h, w⟩ := add_within hx hy ha
  ⟨r, by unfold fadd; rw [h]; rfl, w⟩

theorem fsub_within (hx : Within a x) (hy : Within a y) (ha : a + 1 ≤ 1023) : ∃ r, fsub x y = pure r ∧ Within (a + 1) r :=
  have ⟨r, h, w⟩ := sub_within hx hy ha
  ⟨r, by unfold fsub; rw [h]; rfl, w⟩

theorem fmul_within (hx : Within a x) (hy : Within b y) (hab : a + b ≤ 1023) : ∃ r, fmul x y = pure r ∧ Within (a + b) r :=
  have ⟨r, h, w⟩ := mul_within hx hy hab
  ⟨r, by unfold fmul; rw [h]; rfl, w⟩

theorem fmul_zero (hx : F.isZero x = true) (hy : F.isFinite y = true) : ∃ r, fmul x y = pure r ∧ F.isZero r = true :=
  have ⟨r, h, z⟩ := zero_mul_number hx hy
  ⟨r, by unfold fmul; rw [h]; rfl, z⟩

theorem fadd_zeros (hx : F.isZero x = true) (hy : F.isZero y = true) : ∃ r, fadd x y = pure r ∧ F.isZero r = true :=
  have ⟨r, h, z⟩ := zero_add_zero hx hy
  ⟨r, by unfold fadd; rw [h]; rfl, z⟩

theorem fsub_zeros (hx : F.isZero x = true) (hy : F.isZero y = true) : ∃ r, fsub x y = pure r ∧ F.isZero r = true :=
  fadd_zeros hx ((isZero_neg y).trans hy)

end Sys2Proof.Machine
end

