-- ==== Sys2Proof/Laws/Codec.lean ====
section
/-! SUPPORT. The pieces of the packet encoding, each with its inverse. -/

namespace Sys2Proof

/-! ## Headers and opcodes -/

@[simp] theorem Header.ofWord_toWord (h : Header) : Header.ofWord h.toWord = h := by
  obtain ⟨opc, band, kind, ord, aux⟩ := h
  simp only [Header.ofWord, Header.toWord, Header.mk.injEq]
  refine ⟨?_, ?_, ?_, ?_, ?_⟩ <;>
  · apply BitVec.eq_of_toNat_eq
    simp only [BitVec.extractLsb'_toNat, BitVec.toNat_append, Nat.shiftRight_eq_div_pow, Nat.shiftLeft_eq]
    rw [← Nat.shiftLeft_eq, ← Nat.shiftLeft_eq, ← Nat.shiftLeft_eq, ← Nat.shiftLeft_eq,
      ← Nat.shiftLeft_add_eq_or_of_lt aux.isLt, ← Nat.shiftLeft_add_eq_or_of_lt ord.isLt,
      ← Nat.shiftLeft_add_eq_or_of_lt kind.isLt, ← Nat.shiftLeft_add_eq_or_of_lt band.isLt]
    simp only [Nat.shiftLeft_eq]
    have := opc.isLt
    have := band.isLt
    have := kind.isLt
    have := ord.isLt
    have := aux.isLt
    omega

@[simp] theorem Header.toWord_ofWord (w : Word) : (Header.ofWord w).toWord = w := by
  simp only [Header.ofWord, Header.toWord]
  apply BitVec.eq_of_getLsbD_eq
  intro i hi
  simp only [BitVec.getLsbD_append, BitVec.getLsbD_extractLsb']
  have : i < 8 ∨ (8 ≤ i ∧ i < 16) ∨ (16 ≤ i ∧ i < 20) ∨ (20 ≤ i ∧ i < 24) ∨ (24 ≤ i ∧ i < 32) := by omega
  rcases this with h | h | h | h | h
  · simp [h]
  · simp [show ¬i < 8 by omega, show i - 8 < 8 by omega, show 8 + (i - 8) = i by omega]
  · simp [show ¬i < 8 by omega, show ¬i - 8 < 8 by omega, show i - 8 - 8 < 4 by omega,
      show 16 + (i - 8 - 8) = i by omega]
  · simp [show ¬i < 8 by omega, show ¬i - 8 < 8 by omega, show ¬i - 8 - 8 < 4 by omega,
      show i - 8 - 8 - 4 < 4 by omega, show 20 + (i - 8 - 8 - 4) = i by omega]
  · simp [show ¬i < 8 by omega, show ¬i - 8 < 8 by omega, show ¬i - 8 - 8 < 4 by omega,
      show ¬i - 8 - 8 - 4 < 4 by omega, show i - 8 - 8 - 4 - 4 < 8 by omega,
      show 24 + (i - 8 - 8 - 4 - 4) = i by omega]

@[simp] theorem Opc.ofByte_byte (o : Opc) : Opc.ofByte o.byte = some o := by cases o <;> decide

theorem Opc.byte_of_ofByte {v : BitVec 8} {o : Opc} (h : Opc.ofByte v = some o) : o.byte = v := by
  have := List.find?_some h
  simpa using this

/-! ## Operand words -/

@[simp] theorem fOfWords_fWords (x : F) : fOfWords (x.extractLsb' 0 32) (x.extractLsb' 32 32) = x := by
  apply BitVec.eq_of_getLsbD_eq
  intro i hi
  simp only [fOfWords, BitVec.getLsbD_append, BitVec.getLsbD_extractLsb']
  by_cases h : i < 32
  · simp [h]
  · simp [h, show i - 32 < 32 by omega, show 32 + (i - 32) = i by omega]

theorem fWords_fOfWords (lo hi : Word) : fWords (fOfWords lo hi) = [lo, hi] := by
  unfold fWords fOfWords
  congr 1
  · apply BitVec.eq_of_getLsbD_eq
    intro i h
    rw [BitVec.getLsbD_extractLsb', BitVec.getLsbD_append]; simp [h]
  · congr 1
    apply BitVec.eq_of_getLsbD_eq
    intro i h
    rw [BitVec.getLsbD_extractLsb', BitVec.getLsbD_append]; simp [h]

@[simp] theorem fsOfWords_fsWords (xs : List F) : fsOfWords (fsWords xs) = some xs := by
  induction xs with
  | nil => rfl
  | cons x rest ih => simp [fsWords, fWords, fsOfWords, ih]

theorem fsWords_of_fsOfWords {ws : List Word} {xs : List F} (h : fsOfWords ws = some xs) : fsWords xs = ws := by
  induction xs generalizing ws with
  | nil =>
    match ws, h with
    | [], _ => rfl
    | [_], h => simp [fsOfWords] at h
    | lo :: hi :: rest, h =>
      unfold fsOfWords at h
      split at h <;> simp at h
  | cons x more ih =>
    match ws, h with
    | [], h => simp [fsOfWords] at h
    | [_], h => simp [fsOfWords] at h
    | lo :: hi :: rest, h =>
      unfold fsOfWords at h
      split at h
      · rename_i ys hys
        simp only [Option.some.injEq, List.cons.injEq] at h
        obtain ⟨rfl, rfl⟩ := h
        simp [fsWords, fWords_fOfWords, ih hys]
      · simp at h

@[simp] theorem fsWords_length (xs : List F) : (fsWords xs).length = 2 * xs.length := by
  induction xs with
  | nil => rfl
  | cons x rest ih => simp [fsWords, fWords, ih]; omega

/-- Operand words split into `F` operands exactly when their count is even. -/
theorem fsOfWords_isSome (ws : List Word) : (fsOfWords ws).isSome = decide (ws.length % 2 = 0) := by
  induction ws using fsOfWords.induct with
  | case1 => rfl
  | case2 => rfl
  | case3 lo hi rest xs hx ih =>
    rw [hx] at ih
    simp only [fsOfWords, hx, List.length_cons]
    simp at ih
    simp; omega
  | case4 lo hi rest hx ih =>
    rw [hx] at ih
    simp only [fsOfWords, hx, List.length_cons]
    simp at ih
    simp; omega

@[simp] theorem framesOf_framesFlat (fs : List (F × F)) : framesOf (framesFlat fs) = some fs := by
  induction fs with
  | nil => rfl
  | cons x rest ih => simp [framesFlat, framesOf, ih]

theorem framesFlat_of_framesOf {xs : List F} {fs : List (F × F)} (h : framesOf xs = some fs) : framesFlat fs = xs := by
  induction fs generalizing xs with
  | nil =>
    match xs, h with
    | [], _ => rfl
    | [_], h => simp [framesOf] at h
    | l :: r :: rest, h =>
      unfold framesOf at h
      split at h <;> simp at h
  | cons x more ih =>
    match xs, h with
    | [], h => simp [framesOf] at h
    | [_], h => simp [framesOf] at h
    | l :: r :: rest, h =>
      unfold framesOf at h
      split at h
      · rename_i ys hys
        simp only [Option.some.injEq, List.cons.injEq] at h
        obtain ⟨rfl, rfl⟩ := h
        simp [framesFlat, ih hys]
      · simp at h

@[simp] theorem framesFlat_length (fs : List (F × F)) : (framesFlat fs).length = 2 * fs.length := by
  induction fs with
  | nil => rfl
  | cons x rest ih => simp [framesFlat, ih]; omega

theorem framesOf_isSome (xs : List F) : (framesOf xs).isSome = decide (xs.length % 2 = 0) := by
  induction xs using framesOf.induct with
  | case1 => rfl
  | case2 => rfl
  | case3 l r rest fs hx ih =>
    rw [hx] at ih
    simp only [framesOf, hx, List.length_cons]
    simp at ih
    simp; omega
  | case4 l r rest hx ih =>
    rw [hx] at ih
    simp only [framesOf, hx, List.length_cons]
    simp at ih
    simp; omega

/-! ## Numbered names -/

@[simp] theorem Slot.ofNumber_number (s : Slot) : Slot.ofNumber s.number = some s := by
  rcases s with ⟨_ | _⟩ | ⟨_ | _, i⟩
  · rfl
  · rfl
  · fin_cases i <;> rfl
  · fin_cases i <;> rfl

theorem Slot.number_of_ofNumber {n : BitVec 4} {s : Slot} (h : Slot.ofNumber n = some s) : s.number = n := by
  have hall : ∀ m : Fin 16, ∀ sl : Slot, Slot.ofNumber (BitVec.ofFin m) = some sl → sl.number = BitVec.ofFin m := by
    intro m sl hm
    fin_cases m <;> first | (cases hm; rfl) | cases hm
  exact hall n.toFin s h

@[simp] theorem Csr.ofNumber_number (c : Csr) : Csr.ofNumber c.number = some c := by cases c <;> rfl

theorem Csr.number_of_ofNumber {n : BitVec 8} {c : Csr} (h : Csr.ofNumber n = some c) : c.number = n := by
  have hlt : n.toNat < 7 := by
    have := (List.getElem?_eq_some_iff.1 h).1
    simpa [Csr.all] using this
  have hall : ∀ m < 7, ∀ c : Csr, Csr.ofNumber (BitVec.ofNat 8 m) = some c → c.number = BitVec.ofNat 8 m := by
    intro m hm c hc
    have : m ∈ [0, 1, 2, 3, 4, 5, 6] := by simp; omega
    simp only [List.mem_cons, List.not_mem_nil, or_false] at this
    rcases this with rfl | rfl | rfl | rfl | rfl | rfl | rfl <;> (cases hc; rfl)
  have hn : BitVec.ofNat 8 n.toNat = n := by simp
  rw [← hn] at h ⊢
  exact hall _ hlt c h

end Sys2Proof
end

