-- ==== Sys2Proof/Laws/Exact.lean ====
section
/-! SUPPORT. The stage functions in exact arithmetic, written out, the unit circle, and the elimination behind the law of
40_stage_datapath.md R109. -/

namespace Sys2Proof.Machine

variable {K : Type} [Field K]

theorem exactTick2_eq (a1 a2 a3 m0 m1 m2 ic1eq ic2eq x : K) :
    exactTick2 a1 a2 a3 m0 m1 m2 ic1eq ic2eq x =
      (m0 * x + m1 * (a1 * ic1eq + a2 * (x - ic2eq)) + m2 * (ic2eq + a2 * ic1eq + a3 * (x - ic2eq)),
        2 * (a1 * ic1eq + a2 * (x - ic2eq)) - ic1eq, 2 * (ic2eq + a2 * ic1eq + a3 * (x - ic2eq)) - ic2eq) := rfl

theorem exactTick1_eq (a m0 m1 s x : K) :
    exactTick1 a m0 m1 s x = (m0 * x + m1 * (a * (x - s) + s), a * (x - s) + s + a * (x - s)) := rfl

theorem exactH2_eq {V : Type} [CommRing V] (ofReal : K → V) (inv : V → V) (g k m0 m1 m2 g2 : K) (z1 z2 : V) :
    exactH2 ofReal inv g k m0 m1 m2 g2 z1 z2 =
      ofReal m0 + (ofReal (m1 * g) * (ofReal 1 - z2) + ofReal (m2 * g2) * (ofReal 1 + ofReal 2 * z1 + z2)) *
        inv (ofReal (g2 + g * k + 1) + ofReal (2 * (g2 - 1)) * z1 + ofReal (g2 - g * k + 1) * z2) := rfl

theorem exactH1_eq {V : Type} [CommRing V] (ofReal : K → V) (inv : V → V) (g m0 m1 : K) (z1 : V) :
    exactH1 ofReal inv g m0 m1 z1 =
      ofReal m0 + ofReal (m1 * g) * (ofReal 1 + z1) * inv (ofReal (g + 1) + ofReal (g - 1) * z1) := rfl

/-- The evaluator on a real record is the evaluator on the same record among the complex numbers. -/
theorem exactShape2_ofReal (shape : Shape2) (g k amp : ℝ) (w : ℂ) :
    exactShape2 Complex.ofReal shape g k amp w = exactShape2 (fun r : ℂ => r) shape (g : ℂ) k amp w := by
  simp only [exactShape2, exactH2_eq]
  cases shape <;> simp [exactMix]

/-- `1 + z⁻¹` on the unit circle, `t` = `π*f/fs`. -/
theorem one_add_exp_two_mul (t : ℝ) :
    1 + Complex.exp ((2 * t : ℝ) * Complex.I) = 2 * Real.cos t * Complex.exp (t * Complex.I) := by
  have h : Complex.exp ((2 * t : ℝ) * Complex.I) = Complex.exp (t * Complex.I) * Complex.exp (t * Complex.I) := by
    rw [← Complex.exp_add]; congr 1; push_cast; ring
  rw [h, Complex.exp_mul_I, Complex.ofReal_cos]
  linear_combination Complex.sin t ^ 2 * Complex.I_sq - Complex.cos_sq_add_sin_sq (t : ℂ)

/-- `1 - z⁻¹` on the unit circle. -/
theorem one_sub_exp_two_mul (t : ℝ) :
    1 - Complex.exp ((2 * t : ℝ) * Complex.I) = -2 * Complex.I * Real.sin t * Complex.exp (t * Complex.I) := by
  have h : Complex.exp ((2 * t : ℝ) * Complex.I) = Complex.exp (t * Complex.I) * Complex.exp (t * Complex.I) := by
    rw [← Complex.exp_add]; congr 1; push_cast; ring
  rw [h, Complex.exp_mul_I, Complex.ofReal_sin]
  linear_combination Complex.sin t ^ 2 * Complex.I_sq - Complex.cos_sq_add_sin_sq (t : ℂ)

/-- A sequence that starts at zero is its shift, delayed by one sample. -/
theorem mk_eq_X_mul_shift (f : Nat → K) (h : f 0 = 0) :
    PowerSeries.mk f = PowerSeries.X * PowerSeries.mk (fun n => f (n + 1)) := by
  ext n
  cases n with
  | zero => simp [h]
  | succ n => simp [PowerSeries.coeff_succ_X_mul]

/-- Eliminating the integrators from the tick's equations: the band-pass node `V1` and the low-pass node `V2` in terms of
the input `U`, `X` the delay. -/
theorem tick2_nodes {R : Type} [CommRing R] [IsDomain R] {X G k A1 A2 A3 S1 S2 U V1 V2 : R} (hX : 1 - X ≠ 0)
    (h1 : A1 * (1 + G * (G + k)) = 1) (h2 : A2 = G * A1) (h3 : A3 = G * A2) (e1 : S1 = X * (2 * V1 - S1))
    (e2 : S2 = X * (2 * V2 - S2)) (hv1 : V1 = A1 * S1 + A2 * (U - S2)) (hv2 : V2 = S2 + A2 * S1 + A3 * (U - S2)) :
    (G * G + G * k + 1 + 2 * (G * G - 1) * X + (G * G - G * k + 1) * X ^ 2) * V1 = G * (1 - X ^ 2) * U ∧
      (G * G + G * k + 1 + 2 * (G * G - 1) * X + (G * G - G * k + 1) * X ^ 2) * V2 =
        G * G * (1 + 2 * X + X ^ 2) * U := by
  subst h3 h2
  have f1 : (1 + G * (G + k)) * V1 = S1 + G * (U - S2) := by
    linear_combination (1 + G * (G + k)) * hv1 + (S1 + G * (U - S2)) * h1
  have f2 : V2 = S2 + G * V1 := by linear_combination hv2 - G * hv1
  have f3 : (1 - X) * V2 = G * (1 + X) * V1 := by linear_combination (1 + X) * f2 + e2
  have k1 : (G * G + G * k + 1 + 2 * (G * G - 1) * X + (G * G - G * k + 1) * X ^ 2) * V1 = G * (1 - X ^ 2) * U := by
    linear_combination (1 - X ^ 2) * f1 + (1 - X) * e1 - G * (1 - X) * e2 - 2 * G * X * f3
  refine ⟨k1, mul_left_cancel₀ hX ?_⟩
  linear_combination
    (G * G + G * k + 1 + 2 * (G * G - 1) * X + (G * G - G * k + 1) * X ^ 2) * f3 + G * (1 + X) * k1

end Sys2Proof.Machine
end

