-- ==== Sys2Proof/Laws/State.lean ====
section
/-! SUPPORT. What each operation of Machine/Ops.lean leaves in each field of the state, one lemma a field. -/

namespace Sys2Proof.Machine

/-! ## Sending a response -/

@[simp] theorem State.send_bands (s : State) (r : Packet) : (s.send r).bands = s.bands := by
  unfold State.send; split <;> rfl
@[simp] theorem State.send_fault (s : State) (r : Packet) : (s.send r).fault = s.fault := by
  unfold State.send; split <;> rfl
@[simp] theorem State.send_lastFault (s : State) (r : Packet) : (s.send r).lastFault = s.lastFault := by
  unfold State.send; split <;> rfl
@[simp] theorem State.send_recomp (s : State) (r : Packet) : (s.send r).recomp = s.recomp := by
  unfold State.send; split <;> rfl
@[simp] theorem State.send_fs (s : State) (r : Packet) : (s.send r).fs = s.fs := by
  unfold State.send; split <;> rfl
@[simp] theorem State.send_cfg (s : State) (r : Packet) : (s.send r).cfg = s.cfg := by
  unfold State.send; split <;> rfl
@[simp] theorem State.send_inbox (s : State) (r : Packet) : (s.send r).inbox = s.inbox := by
  unfold State.send; split <;> rfl
@[simp] theorem State.send_port (s : State) (r : Packet) : (s.send r).port = s.port := by
  unfold State.send; split <;> rfl
@[simp] theorem State.send_draws (s : State) (r : Packet) : (s.send r).draws = s.draws := by
  unfold State.send; split <;> rfl

/-- A response goes to the port the operation came from. -/
@[simp] theorem State.send_out_port (s : State) (r : Packet) : (s.send r).out s.port = s.out s.port ++ [r] := by
  cases h : s.port <;> simp [State.send, State.out, h]

/-- Nothing is sent on the other port. -/
@[simp] theorem State.send_out_other (s : State) (r : Packet) :
    (s.send r).out (otherPort s.port) = s.out (otherPort s.port) := by
  cases h : s.port <;> simp [State.send, State.out, otherPort, h]

theorem State.send_rt {s : State} (h : s.port = .rt) (r : Packet) : s.send r = { s with rtOut := s.rtOut ++ [r] } := by
  simp [State.send, h]

theorem State.send_q {s : State} (h : s.port = .q) (r : Packet) : s.send r = { s with qOut := s.qOut ++ [r] } := by
  simp [State.send, h]

/-! ## A successful response -/

@[simp] theorem State.respond_bands (s : State) (o : Opc) (n : BitVec 16) (v : List Word) :
    (s.respond o n v).bands = s.bands := s.send_bands _
@[simp] theorem State.respond_fault (s : State) (o : Opc) (n : BitVec 16) (v : List Word) :
    (s.respond o n v).fault = s.fault := s.send_fault _
@[simp] theorem State.respond_lastFault (s : State) (o : Opc) (n : BitVec 16) (v : List Word) :
    (s.respond o n v).lastFault = s.lastFault := s.send_lastFault _
@[simp] theorem State.respond_recomp (s : State) (o : Opc) (n : BitVec 16) (v : List Word) :
    (s.respond o n v).recomp = s.recomp := s.send_recomp _
@[simp] theorem State.respond_fs (s : State) (o : Opc) (n : BitVec 16) (v : List Word) :
    (s.respond o n v).fs = s.fs := s.send_fs _
@[simp] theorem State.respond_cfg (s : State) (o : Opc) (n : BitVec 16) (v : List Word) :
    (s.respond o n v).cfg = s.cfg := s.send_cfg _
@[simp] theorem State.respond_inbox (s : State) (o : Opc) (n : BitVec 16) (v : List Word) :
    (s.respond o n v).inbox = s.inbox := s.send_inbox _
@[simp] theorem State.respond_port (s : State) (o : Opc) (n : BitVec 16) (v : List Word) :
    (s.respond o n v).port = s.port := s.send_port _
@[simp] theorem State.respond_draws (s : State) (o : Opc) (n : BitVec 16) (v : List Word) :
    (s.respond o n v).draws = s.draws := s.send_draws _
@[simp] theorem State.respond_out_port (s : State) (o : Opc) (n : BitVec 16) (v : List Word) :
    (s.respond o n v).out s.port = s.out s.port ++ [responseHeader o.byte 0 n :: v] := s.send_out_port _
@[simp] theorem State.respond_out_other (s : State) (o : Opc) (n : BitVec 16) (v : List Word) :
    (s.respond o n v).out (otherPort s.port) = s.out (otherPort s.port) := s.send_out_other _

/-! ## A fault -/

@[simp] theorem State.raise_bands (s : State) (h : Header) (k : FaultCode) (n : BitVec 16) :
    (s.raise h k n).bands = s.bands := State.send_bands _ _
@[simp] theorem State.raise_fault (s : State) (h : Header) (k : FaultCode) (n : BitVec 16) :
    (s.raise h k n).fault = setFaultBit s.fault k := State.send_fault _ _
@[simp] theorem State.raise_lastFault (s : State) (h : Header) (k : FaultCode) (n : BitVec 16) :
    (s.raise h k n).lastFault = lastFaultWord k h s.port := State.send_lastFault _ _
@[simp] theorem State.raise_recomp (s : State) (h : Header) (k : FaultCode) (n : BitVec 16) :
    (s.raise h k n).recomp = s.recomp := State.send_recomp _ _
@[simp] theorem State.raise_fs (s : State) (h : Header) (k : FaultCode) (n : BitVec 16) :
    (s.raise h k n).fs = s.fs := State.send_fs _ _
@[simp] theorem State.raise_cfg (s : State) (h : Header) (k : FaultCode) (n : BitVec 16) :
    (s.raise h k n).cfg = s.cfg := State.send_cfg _ _
@[simp] theorem State.raise_inbox (s : State) (h : Header) (k : FaultCode) (n : BitVec 16) :
    (s.raise h k n).inbox = s.inbox := State.send_inbox _ _
@[simp] theorem State.raise_port (s : State) (h : Header) (k : FaultCode) (n : BitVec 16) :
    (s.raise h k n).port = s.port := State.send_port _ _
@[simp] theorem State.raise_draws (s : State) (h : Header) (k : FaultCode) (n : BitVec 16) :
    (s.raise h k n).draws = s.draws := State.send_draws _ _
@[simp] theorem State.raise_out_port (s : State) (h : Header) (k : FaultCode) (n : BitVec 16) :
    (s.raise h k n).out s.port = s.out s.port ++ [[responseHeader h.opc (faultStatus k) n]] :=
  State.send_out_port { s with fault := setFaultBit s.fault k, lastFault := lastFaultWord k h s.port } _
@[simp] theorem State.raise_out_other (s : State) (h : Header) (k : FaultCode) (n : BitVec 16) :
    (s.raise h k n).out (otherPort s.port) = s.out (otherPort s.port) :=
  State.send_out_other { s with fault := setFaultBit s.fault k, lastFault := lastFaultWord k h s.port } _

/-! ## Writing a band, taking an input, resetting -/

@[simp] theorem State.setBand_bands (s : State) (b : BitVec 4) (x : Band) :
    (s.setBand b x).bands = s.bands.set b.toNat x := rfl
@[simp] theorem State.setBand_fault (s : State) (b : BitVec 4) (x : Band) : (s.setBand b x).fault = s.fault := rfl
@[simp] theorem State.setBand_lastFault (s : State) (b : BitVec 4) (x : Band) :
    (s.setBand b x).lastFault = s.lastFault := rfl
@[simp] theorem State.setBand_recomp (s : State) (b : BitVec 4) (x : Band) : (s.setBand b x).recomp = s.recomp := rfl
@[simp] theorem State.setBand_fs (s : State) (b : BitVec 4) (x : Band) : (s.setBand b x).fs = s.fs := rfl
@[simp] theorem State.setBand_cfg (s : State) (b : BitVec 4) (x : Band) : (s.setBand b x).cfg = s.cfg := rfl
@[simp] theorem State.setBand_inbox (s : State) (b : BitVec 4) (x : Band) : (s.setBand b x).inbox = s.inbox := rfl
@[simp] theorem State.setBand_port (s : State) (b : BitVec 4) (x : Band) : (s.setBand b x).port = s.port := rfl
@[simp] theorem State.setBand_draws (s : State) (b : BitVec 4) (x : Band) : (s.setBand b x).draws = s.draws := rfl

@[simp] theorem State.accept_bands (s : State) (p : Port) (l : List Input) : (s.accept p l).bands = s.bands := rfl
@[simp] theorem State.accept_fault (s : State) (p : Port) (l : List Input) : (s.accept p l).fault = s.fault := rfl
@[simp] theorem State.accept_lastFault (s : State) (p : Port) (l : List Input) :
    (s.accept p l).lastFault = s.lastFault := rfl
@[simp] theorem State.accept_recomp (s : State) (p : Port) (l : List Input) : (s.accept p l).recomp = s.recomp := rfl
@[simp] theorem State.accept_fs (s : State) (p : Port) (l : List Input) : (s.accept p l).fs = s.fs := rfl
@[simp] theorem State.accept_cfg (s : State) (p : Port) (l : List Input) : (s.accept p l).cfg = s.cfg := rfl
@[simp] theorem State.accept_inbox (s : State) (p : Port) (l : List Input) : (s.accept p l).inbox = l := rfl
@[simp] theorem State.accept_rtOut (s : State) (p : Port) (l : List Input) : (s.accept p l).rtOut = s.rtOut := rfl
@[simp] theorem State.accept_qOut (s : State) (p : Port) (l : List Input) : (s.accept p l).qOut = s.qOut := rfl
@[simp] theorem State.accept_port (s : State) (p : Port) (l : List Input) : (s.accept p l).port = p := rfl
@[simp] theorem State.accept_draws (s : State) (p : Port) (l : List Input) : (s.accept p l).draws = s.draws := rfl
@[simp] theorem State.accept_out (s : State) (p o : Port) (l : List Input) : (s.accept p l).out o = s.out o := by
  cases o <;> rfl

@[simp] theorem State.hardwareReset_bands (s : State) (l : List Input) :
    (s.hardwareReset l).bands = List.replicate s.nbands
      (resetBand s.cfg (resetRecords s.cfg s.draws).1.1 (resetRecords s.cfg s.draws).1.2) := rfl
@[simp] theorem State.hardwareReset_fault (s : State) (l : List Input) : (s.hardwareReset l).fault = 0 := rfl
@[simp] theorem State.hardwareReset_lastFault (s : State) (l : List Input) : (s.hardwareReset l).lastFault = 0 := rfl
@[simp] theorem State.hardwareReset_recomp (s : State) (l : List Input) : (s.hardwareReset l).recomp = 0 := rfl
@[simp] theorem State.hardwareReset_fs (s : State) (l : List Input) : (s.hardwareReset l).fs = F.zero := rfl
@[simp] theorem State.hardwareReset_cfg (s : State) (l : List Input) : (s.hardwareReset l).cfg = s.cfg := rfl
@[simp] theorem State.hardwareReset_inbox (s : State) (l : List Input) : (s.hardwareReset l).inbox = l := rfl
@[simp] theorem State.hardwareReset_rtOut (s : State) (l : List Input) : (s.hardwareReset l).rtOut = s.rtOut := rfl
@[simp] theorem State.hardwareReset_qOut (s : State) (l : List Input) : (s.hardwareReset l).qOut = s.qOut := rfl

/-! ## The registers of a band -/

@[simp] theorem Band.coef_A (b : Band) : b.coef .A = b.coefA := rfl
@[simp] theorem Band.coef_B (b : Band) : b.coef .B = b.coefB := rfl
@[simp] theorem Band.chan_left (b : Band) : b.chan .left = b.left := rfl
@[simp] theorem Band.chan_right (b : Band) : b.chan .right = b.right := rfl
@[simp] theorem ChannelState.sub_A (c : ChannelState) : c.sub .A = c.subA := rfl
@[simp] theorem ChannelState.sub_B (c : ChannelState) : c.sub .B = c.subB := rfl

@[simp] theorem Band.writeBuilt_left (b : Band) (x : BuiltStage) : (b.writeBuilt x).left = b.left := by
  rcases x with ⟨_ | _, _⟩ | ⟨_ | _, _, _⟩ <;> rfl
@[simp] theorem Band.writeBuilt_right (b : Band) (x : BuiltStage) : (b.writeBuilt x).right = b.right := by
  rcases x with ⟨_ | _, _⟩ | ⟨_ | _, _, _⟩ <;> rfl
@[simp] theorem Band.writeBuilt_kind (b : Band) (x : BuiltStage) : (b.writeBuilt x).kind = b.kind := by
  rcases x with ⟨_ | _, _⟩ | ⟨_ | _, _, _⟩ <;> rfl
@[simp] theorem Band.writeBuilt_eo (b : Band) (x : BuiltStage) : (b.writeBuilt x).eo = b.eo := by
  rcases x with ⟨_ | _, _⟩ | ⟨_ | _, _, _⟩ <;> rfl
@[simp] theorem Band.writeBuilt_prev (b : Band) (x : BuiltStage) : (b.writeBuilt x).prev = b.prev := by
  rcases x with ⟨_ | _, _⟩ | ⟨_ | _, _, _⟩ <;> rfl
@[simp] theorem Band.writeBuilt_en (b : Band) (x : BuiltStage) : (b.writeBuilt x).en = b.en := by
  rcases x with ⟨_ | _, _⟩ | ⟨_ | _, _, _⟩ <;> rfl

@[simp] theorem Band.foldl_writeBuilt_left (l : List BuiltStage) (b : Band) :
    (l.foldl Band.writeBuilt b).left = b.left := by
  induction l generalizing b <;> simp_all
@[simp] theorem Band.foldl_writeBuilt_right (l : List BuiltStage) (b : Band) :
    (l.foldl Band.writeBuilt b).right = b.right := by
  induction l generalizing b <;> simp_all
@[simp] theorem Band.foldl_writeBuilt_en (l : List BuiltStage) (b : Band) :
    (l.foldl Band.writeBuilt b).en = b.en := by
  induction l generalizing b <;> simp_all

@[simp] theorem Band.commit_kind (b : Band) (key : Prev) (eo : EffOrder) (l : List BuiltStage) (g : F) :
    (b.commit key eo l g).kind = key.kind := rfl
@[simp] theorem Band.commit_eo (b : Band) (key : Prev) (eo : EffOrder) (l : List BuiltStage) (g : F) :
    (b.commit key eo l g).eo = eo := rfl
@[simp] theorem Band.commit_gpost (b : Band) (key : Prev) (eo : EffOrder) (l : List BuiltStage) (g : F) :
    (b.commit key eo l g).gpost = g := rfl
@[simp] theorem Band.commit_fsUsed (b : Band) (key : Prev) (eo : EffOrder) (l : List BuiltStage) (g : F) :
    (b.commit key eo l g).fsUsed = key.fs := rfl
@[simp] theorem Band.commit_prev (b : Band) (key : Prev) (eo : EffOrder) (l : List BuiltStage) (g : F) :
    (b.commit key eo l g).prev = key := rfl
@[simp] theorem Band.commit_en (b : Band) (key : Prev) (eo : EffOrder) (l : List BuiltStage) (g : F) :
    (b.commit key eo l g).en = b.en := by
  unfold Band.commit Band.stageReset; dsimp only; split <;> simp

end Sys2Proof.Machine
end

