-- ==== Sys2Proof/Laws/Exec.lean ====
section
/-! SUPPORT. Everything an operation can do, said once: `exec` always answers a next state, and that state is one of the
outcomes of `Effect`. -/

namespace Sys2Proof.Machine

/-! ## The shared checks -/

@[simp] theorem State.rtOnly_rt {s : State} (h : s.port = .rt) (hd : Header) (k : State) : s.rtOnly hd k = k := by
  simp [State.rtOnly, h]

@[simp] theorem State.rtOnly_q {s : State} (h : s.port = .q) (hd : Header) (k : State) :
    s.rtOnly hd k = s.raise hd .portViolation 0 := by
  simp [State.rtOnly, h]

@[simp] theorem State.onBand_some {s : State} {b : BitVec 4} {band : Band} (h : s.bands[b.toNat]? = some band)
    (hd : Header) (k : Band → State) : s.onBand hd b k = k band := by
  simp [State.onBand, h]

@[simp] theorem State.onBand_none {s : State} {b : BitVec 4} (h : s.bands[b.toNat]? = none) (hd : Header)
    (k : Band → State) : s.onBand hd b k = s.raise hd .badBand 0 := by
  simp [State.onBand, h]

/-- A band that exists can be written, and what was there is known. -/
theorem getElem?_set_band {s : State} {b : BitVec 4} {band band' : Band} (h : s.bands[b.toNat]? = some band) :
    (s.bands.set b.toNat band')[b.toNat]? = some band' := by
  have : b.toNat < s.bands.length := (List.getElem?_eq_some_iff.1 h).1
  simp [this]

/-! ## The outcomes -/

/-- What the execution of an operation can leave, by cases. `d` is the draw counter after it. -/
inductive Effect (s : State) (i : Instr) : State → Prop
  /-- A fault: nothing but `FAULT`, `LASTFAULT` and the response. -/
  | fault (k : FaultCode) (info : BitVec 16) (d : Nat) :
    Effect s i (State.raise { s with draws := d } i.header k info)
  /-- An answer that changes no register. -/
  | answer (info : BitVec 16) (values : List Word) (d : Nat) :
    Effect s i (State.respond { s with draws := d } i.opc info values)
  /-- An `UPDATE` that commits. -/
  | commit (b : BitVec 4) (band : Band) (kind : FilterKind) (ord : BitVec 8) (bwf : Bool) (freq gain bw fs : F)
    (built : List BuiltStage) (gpost : F) (d : Nat) (hp : s.port = .rt) (hi : i.header = updateHeader kind b ord bwf)
    (hw : (encode i).2 = fsWords [freq, gain, bw, fs])
    (hb : s.bands[b.toNat]? = some band) (ho : orderLegal ord = true)
    (hd : dirtyCheckHit band.prev kind ord bwf freq gain bw fs = false) :
    Effect s i (State.respond
      { s with
        bands := s.bands.set b.toNat
          (band.commit (updateKey kind ord bwf freq gain bw fs) (effOrder kind ord) built gpost)
        recomp := s.recomp + 1
        draws := d } .update 0 [])
  /-- `BRESET`. -/
  | breset (b : BitVec 4) (band : Band) (hp : s.port = .rt) (hi : i = .breset b) (hb : s.bands[b.toNat]? = some band) :
    Effect s i (State.respond { s with bands := s.bands.set b.toNat band.stageReset } .breset 0 [])
  /-- `ENABLE` and `DISABLE`. -/
  | enable (b : BitVec 4) (band : Band) (on : Bool) (hp : s.port = .rt)
    (hi : i = if on then .enable b else .disable b) (hb : s.bands[b.toNat]? = some band) :
    Effect s i (State.respond { s with bands := s.bands.set b.toNat { band with en := on } } i.opc 0 [])
  /-- `SRATE`. -/
  | srate (newFs : F) (hp : s.port = .rt) (hi : i = .srate newFs) :
    Effect s i (State.respond { s with fs := newFs, bands := s.bands.map Band.invalidate } .srate 0 [])
  /-- `PROC` and `PROCB`: only state registers of enabled bands move. -/
  | proc (bands' : List Band) (values : List Word) (d : Nat) (hp : s.port = .rt)
    (hi : i.opc = .proc ∨ i.opc = .procb) (hm : List.Forall₂ OnlyStateMoved s.bands bands') :
    Effect s i (State.respond { s with bands := bands', draws := d } i.opc 0 values)

/-- Every outcome ends in one response, a fault's or a success's, from a state whose port, sent responses and fault
registers are those the operation found. -/
theorem Effect.ends {s t : State} {i : Instr} (h : Effect s i t) :
    ∃ s' : State, (s'.port = s.port ∧ s'.rtOut = s.rtOut ∧ s'.qOut = s.qOut ∧ s'.fault = s.fault ∧
        s'.lastFault = s.lastFault) ∧
      ((∃ k info, t = s'.raise i.header k info) ∨ ∃ o info values, t = s'.respond o info values) := by
  cases h with
  | fault k info d => exact ⟨{ s with draws := d }, ⟨rfl, rfl, rfl, rfl, rfl⟩, .inl ⟨k, info, rfl⟩⟩
  | answer info values d => exact ⟨{ s with draws := d }, ⟨rfl, rfl, rfl, rfl, rfl⟩, .inr ⟨_, _, _, rfl⟩⟩
  | commit | breset | enable | srate | proc =>
    refine ⟨_, ?_, .inr ⟨_, _, _, rfl⟩⟩
    exact ⟨rfl, rfl, rfl, rfl, rfl⟩

/-- The common part of the ten `UPDATE`s. -/
theorem updateBand_effect (kind : FilterKind) (plan : F → F → EffOrder → FM Plan) (b : BitVec 4) (ord : BitVec 8)
    (bwf : Bool) (freq gain bw fs : F) (s : State) (i : Instr) (hi : i.header = updateHeader kind b ord bwf)
    (ho : i.opc = .update) (hw : (encode i).2 = fsWords [freq, gain, bw, fs]) :
    Effect s i (updateBand kind plan b ord bwf freq gain bw fs s) := by
  unfold updateBand
  dsimp only
  rw [← hi]
  cases hp : s.port with
  | q => rw [State.rtOnly_q hp]; exact .fault _ _ s.draws
  | rt =>
    rw [State.rtOnly_rt hp]
    cases hb : s.bands[b.toNat]? with
    | none => rw [State.onBand_none hb]; exact .fault _ _ s.draws
    | some band =>
      rw [State.onBand_some hb]
      by_cases hord : orderLegal ord = true
      · by_cases hd : dirtyCheckHit band.prev kind ord bwf freq gain bw fs = true
        · simp only [hord, hd, Bool.not_true, if_true]
          exact ho ▸ Effect.answer (i := i) 1 [] s.draws
        · simp only [hord, hd, Bool.not_true]
          unfold State.compute
          cases prepareUpdate plan (effOrder kind ord) bwf freq bw fs s.draws with
          | mk r d =>
            cases r with
            | error e => exact .fault _ _ d
            | ok v =>
              exact .commit b band kind ord bwf freq gain bw fs v.1 v.2 d hp hi hw hb hord (by simpa using hd)
      · simp only [hord]
        exact .fault _ _ s.draws

theorem answerCoef2_effect (shape : Shape2) (f0 fs q gainDb : F) (s : State) (i : Instr)
    (hi : i.header = coefHeader shape.code) (ho : i.opc = .coef) : Effect s i (answerCoef2 shape f0 fs q gainDb s) := by
  unfold answerCoef2 State.compute
  cases coef2 shape f0 fs q gainDb s.draws with
  | mk r d =>
    cases r with
    | error k => exact hi ▸ .fault k 0 d
    | ok c => exact ho ▸ .answer (i := i) 0 _ d

theorem answerCoef1_effect (shape : Shape1) (f0 fs : F) (s : State) (i : Instr)
    (hi : i.header = coefHeader shape.code) (ho : i.opc = .coef) : Effect s i (answerCoef1 shape f0 fs s) := by
  unfold answerCoef1 State.compute
  cases coef1 shape f0 fs s.draws with
  | mk r d =>
    cases r with
    | error k => exact hi ▸ .fault k 0 d
    | ok c => exact ho ▸ .answer (i := i) 0 _ d

/-- `exec` always answers a next state, which is one of the outcomes of `Effect`. -/
theorem exec_effect (i : Instr) (s : State) : ∃ t, exec i s = .next t ∧ Effect s i t := by
  cases i with
  | tick2 | tick1 | bw2q | hstage2 | hstage1 => exact ⟨_, rfl, .answer _ _ _⟩
  | coefLp | coefHp | coefBp | coefNotch | coefAp | coefBell | coefLs | coefHs =>
    exact ⟨_, rfl, answerCoef2_effect _ _ _ _ _ _ _ rfl rfl⟩
  | coefLp1 | coefHp1 => exact ⟨_, rfl, answerCoef1_effect _ _ _ _ _ rfl rfl⟩
  | poleq ord pole =>
    refine ⟨_, rfl, ?_⟩
    split
    · exact .fault (i := .poleq ord pole) _ _ s.draws
    · split
      · exact .fault (i := .poleq ord pole) _ _ s.draws
      · exact .answer _ _ _
  | qdist ord q =>
    refine ⟨_, rfl, ?_⟩
    split
    · exact .fault (i := .qdist ord q) _ _ s.draws
    · exact .answer _ _ _
  | updateBell | updateLp | updateHp | updateLs | updateHs | updateNotch | updateBp | updateTilt | updateMesa
  | updateAp => exact ⟨_, rfl, updateBand_effect _ _ _ _ _ _ _ _ _ _ _ rfl rfl rfl⟩
  | breset b =>
    refine ⟨_, rfl, ?_⟩
    cases hp : s.port with
    | q => rw [State.rtOnly_q hp]; exact .fault (i := .breset b) _ _ s.draws
    | rt =>
      rw [State.rtOnly_rt hp]
      cases hb : s.bands[b.toNat]? with
      | none => rw [State.onBand_none hb]; exact .fault (i := .breset b) _ _ s.draws
      | some band => rw [State.onBand_some hb]; exact .breset b band hp rfl hb
  | enable b =>
    refine ⟨_, rfl, ?_⟩
    cases hp : s.port with
    | q => rw [State.rtOnly_q hp]; exact .fault (i := .enable b) _ _ s.draws
    | rt =>
      rw [State.rtOnly_rt hp]
      cases hb : s.bands[b.toNat]? with
      | none => rw [State.onBand_none hb]; exact .fault (i := .enable b) _ _ s.draws
      | some band => rw [State.onBand_some hb]; exact .enable b band true hp rfl hb
  | disable b =>
    refine ⟨_, rfl, ?_⟩
    cases hp : s.port with
    | q => rw [State.rtOnly_q hp]; exact .fault (i := .disable b) _ _ s.draws
    | rt =>
      rw [State.rtOnly_rt hp]
      cases hb : s.bands[b.toNat]? with
      | none => rw [State.onBand_none hb]; exact .fault (i := .disable b) _ _ s.draws
      | some band => rw [State.onBand_some hb]; exact .enable b band false hp rfl hb
  | srate newFs =>
    refine ⟨_, rfl, ?_⟩
    obtain hp | hp : s.port = .rt ∨ s.port = .q := by cases s.port <;> simp
    · rw [State.rtOnly_rt hp]; exact .srate newFs hp rfl
    · rw [State.rtOnly_q hp]; exact .fault (i := .srate newFs) _ _ s.draws
  | proc xL xR =>
    refine ⟨_, rfl, ?_⟩
    cases hp : s.port with
    | q => rw [State.rtOnly_q hp]; exact .fault (i := .proc xL xR) _ _ s.draws
    | rt =>
      rw [State.rtOnly_rt hp]
      exact .proc _ _ _ hp (.inl rfl) (isFrame_onlyState (gives_frameThrough s.bands (xL, xR) s.draws))
  | procb frames =>
    refine ⟨_, rfl, ?_⟩
    cases hp : s.port with
    | q => rw [State.rtOnly_q hp]; exact .fault (i := .procb frames) _ _ s.draws
    | rt =>
      rw [State.rtOnly_rt hp]
      split
      · exact .fault (i := .procb frames) _ _ s.draws
      · exact .proc _ _ _ hp (.inr rfl) (isBlock_onlyState (gives_blockThrough s.bands frames s.draws))
  | bode b f =>
    refine ⟨_, rfl, ?_⟩
    cases hb : s.bands[b.toNat]? with
    | none => rw [State.onBand_none hb]; exact .fault (i := .bode b f) _ _ s.draws
    | some band => rw [State.onBand_some hb]; exact .answer _ _ _
  | rdcoef b slot =>
    refine ⟨_, rfl, ?_⟩
    cases hb : s.bands[b.toNat]? with
    | none => rw [State.onBand_none hb]; exact .fault (i := .rdcoef b slot) _ _ s.draws
    | some band => rw [State.onBand_some hb]; cases slot <;> exact .answer _ _ s.draws
  | rdstate b slot ch =>
    refine ⟨_, rfl, ?_⟩
    cases hp : s.port with
    | q => rw [State.rtOnly_q hp]; exact .fault (i := .rdstate b slot ch) _ _ s.draws
    | rt =>
      rw [State.rtOnly_rt hp]
      cases hb : s.bands[b.toNat]? with
      | none => rw [State.onBand_none hb]; exact .fault (i := .rdstate b slot ch) _ _ s.draws
      | some band => rw [State.onBand_some hb]; cases slot <;> exact .answer _ _ s.draws
  | rdcsr n => exact ⟨_, rfl, .answer _ _ s.draws⟩
  | rdband b =>
    refine ⟨_, rfl, ?_⟩
    cases hb : s.bands[b.toNat]? with
    | none => rw [State.onBand_none hb]; exact .fault (i := .rdband b) _ _ s.draws
    | some band => rw [State.onBand_some hb]; exact .answer _ _ s.draws

/-! ## The stages an update builds -/

/-- A factory call whose checks pass. -/
theorem gives_buildStage_first {fs f0 : F} (h : CornerLegal f0 fs) (s : SubCascade) (shape : Shape1) :
    Gives (buildStage fs (.first s shape f0)) fun r => ∃ c, IsRecord1 shape f0 fs c ∧ r = .ok (.first s c) := by
  have hc : coef1 shape f0 fs = (do let c ← record1 shape f0 fs; pure (.ok c)) := by
    unfold coef1; rw [(checkFrequency_none_iff f0 fs).2 h]
  unfold buildStage
  dsimp only
  rw [hc]
  exact gives_bind (gives_bind (gives_record1 _ _ _) fun c hc => gives_pure (P := fun r => ∃ c,
    IsRecord1 shape f0 fs c ∧ r = Except.ok c) ⟨c, hc, rfl⟩) fun r ⟨c, hc, hr⟩ => gives_pure ⟨c, hc, by rw [hr]; rfl⟩

/-- A factory call whose checks pass. -/
theorem gives_buildStage_second {fs f0 q : F} (h : CornerLegal f0 fs) (hq : F.lt F.zero q = true) (s : SubCascade)
    (i : Fin 4) (shape : Shape2) (gainDb : F) :
    Gives (buildStage fs (.second s i shape f0 q gainDb)) fun r =>
      ∃ c, IsRecord2 shape f0 fs q gainDb c ∧ r = .ok (.second s i c) := by
  have hs : checkShape2 f0 fs q = none := by
    unfold checkShape2; rw [(checkFrequency_none_iff f0 fs).2 h]; simp [hq]
  have hc : coef2 shape f0 fs q gainDb = (do let c ← record2 shape f0 fs q gainDb; pure (.ok c)) := by
    unfold coef2; rw [hs]
  unfold buildStage
  dsimp only
  rw [hc]
  exact gives_bind (gives_bind (gives_record2 _ _ _ _ _) fun c hc => gives_pure (P := fun r => ∃ c,
    IsRecord2 shape f0 fs q gainDb c ∧ r = Except.ok c) ⟨c, hc, rfl⟩) fun r ⟨c, hc, hr⟩ => gives_pure ⟨c, hc, by rw [hr]; rfl⟩

/-- A factory call whose frequency checks fail, whatever the shape. -/
theorem buildStage_cornerFault {fs f0 : F} {k : FaultCode} (h : CornerFault f0 fs k) :
    (∀ s shape, buildStage fs (.first s shape f0) = pure (.error k)) ∧
      ∀ s i shape q gainDb, buildStage fs (.second s i shape f0 q gainDb) = pure (.error k) := by
  have hk := (checkFrequency_some_iff f0 fs k).2 h
  refine ⟨fun s shape => ?_, fun s i shape q gainDb => ?_⟩
  · unfold buildStage coef1; dsimp only; rw [hk]; rfl
  · unfold buildStage coef2 checkShape2; dsimp only; rw [hk]; rfl

/-- A factory call whose Q check fails. -/
theorem buildStage_qFault {fs f0 q : F} (h : CornerLegal f0 fs) (hq : F.lt F.zero q = false) (s : SubCascade)
    (i : Fin 4) (shape : Shape2) (gainDb : F) :
    buildStage fs (.second s i shape f0 q gainDb) = pure (.error .nonPositiveQ) := by
  have hs : checkShape2 f0 fs q = some .nonPositiveQ := by
    unfold checkShape2; rw [(checkFrequency_none_iff f0 fs).2 h]; simp [hq]
  unfold buildStage coef2
  dsimp only
  rw [hs]
  rfl

end Sys2Proof.Machine
end

