-- ==== Sys2Proof/Laws/Invariant.lean ====
section
/-! SUPPORT. What keeps the invariant: legal descriptors, legal fault registers, and the outcomes of an operation. -/

namespace Sys2Proof.Machine

/-- The effective order of a legal order is one the kind can have. -/
theorem effOrder_legal (k : FilterKind) (ord : BitVec 8) (h : orderLegal ord = true) :
    legalTopology k (effOrder k ord) = true := by
  simp only [orderLegal, Bool.and_eq_true, decide_eq_true_eq] at h
  have : ord.toNat = 1 ∨ ord.toNat = 2 ∨ ord.toNat = 3 ∨ ord.toNat = 4 ∨ ord.toNat = 5 ∨ ord.toNat = 6 ∨
      ord.toNat = 7 ∨ ord.toNat = 8 := by omega
  rcases this with h | h | h | h | h | h | h | h <;> cases k <;> simp [effOrder, h, evenOrder, legalTopology]

/-- `LASTFAULT` as a number. -/
theorem lastFaultWord_toNat (k : FaultCode) (h : Header) (p : Port) :
    (lastFaultWord k h p).toNat = faultNumber k + h.opc.toNat * 2 ^ 8 + h.band.toNat * 2 ^ 16 + h.kind.toNat * 2 ^ 20 +
      (portBit p).toNat * 2 ^ 24 := by
  have hk : (faultStatus k).toNat = faultNumber k := by cases k <;> rfl
  have := h.opc.isLt; have := h.band.isLt; have := h.kind.isLt; have := (portBit p).isLt
  have hs : faultNumber k < 256 := by cases k <;> decide
  simp only [lastFaultWord, BitVec.toNat_append, hk]
  rw [← Nat.shiftLeft_add_eq_or_of_lt (by omega), ← Nat.shiftLeft_add_eq_or_of_lt (by omega),
    ← Nat.shiftLeft_add_eq_or_of_lt (by omega), ← Nat.shiftLeft_add_eq_or_of_lt (by omega),
    ← Nat.shiftLeft_add_eq_or_of_lt (by omega)]
  simp only [Nat.shiftLeft_eq]
  simp
  omega

/-- A fault leaves legal fault registers. -/
theorem faultsLegal_raise (f l : Word) (k : FaultCode) (h : Header) (p : Port) (hl : faultsLegal f l = true) :
    faultsLegal (setFaultBit f k) (lastFaultWord k h p) = true := by
  have h0 : f.getLsbD 0 = false ∧ f.extractLsb' 11 21 = 0#21 := by
    simp only [faultsLegal, Bool.and_eq_true, beq_iff_eq] at hl
    exact ⟨hl.1.1.1, hl.1.1.2⟩
  have ht := lastFaultWord_toNat k h p
  have hn : faultNumber k < 256 := by cases k <;> decide
  have := h.opc.isLt; have := h.band.isLt; have := h.kind.isLt; have := (portBit p).isLt
  have e1 : (lastFaultWord k h p).extractLsb' 25 7 = 0#7 := by
    apply BitVec.eq_of_toNat_eq
    rw [BitVec.extractLsb'_toNat, ht, Nat.shiftRight_eq_div_pow]
    simp
    omega
  have e2 : ((lastFaultWord k h p).extractLsb' 0 8).toNat = faultNumber k := by
    rw [BitVec.extractLsb'_toNat, ht, Nat.shiftRight_eq_div_pow]
    simp
    omega
  have e3 : (setFaultBit f k).getLsbD 0 = false := by
    unfold setFaultBit; rw [BitVec.getLsbD_or, h0.1]; cases k <;> decide
  have e4 : (setFaultBit f k).extractLsb' 11 21 = 0#21 := by
    have hor : ∀ x y : Word, (x ||| y).extractLsb' 11 21 = x.extractLsb' 11 21 ||| y.extractLsb' 11 21 := by
      intro x y; ext i hi; simp
    unfold setFaultBit; rw [hor, h0.2]; cases k <;> decide
  have e5 : (setFaultBit f k).getLsbD ((lastFaultWord k h p).extractLsb' 0 8).toNat = true := by
    have hb : (BitVec.ofNat 32 (2 ^ faultNumber k)).getLsbD (faultNumber k) = true := by cases k <;> decide
    rw [e2]; unfold setFaultBit; rw [BitVec.getLsbD_or, hb, Bool.or_true]
  simp only [faultsLegal, e1, e3, e4, e5, beq_self_eq_true, Bool.and_true, Bool.or_true]

/-- The invariant is about the configuration, the fault registers and each band. -/
theorem inv_of_fields {s t : State} (h : s.Inv) (hc : t.cfg = s.cfg) (hf : t.fault = s.fault)
    (hl : t.lastFault = s.lastFault) (hn : t.bands.length = s.bands.length)
    (hb : ∀ b ∈ t.bands, Band.legal b = true) : t.Inv := by
  obtain ⟨h1, h2, -, h4⟩ := h
  exact ⟨by unfold State.nbands at *; rw [hn]; exact h1, hc ▸ h2, hb, by rw [hf, hl]; exact h4⟩

/-- A fault keeps the invariant. -/
theorem inv_raise {s : State} (hI : s.Inv) (h : Header) (k : FaultCode) (info : BitVec 16) : (s.raise h k info).Inv := by
  obtain ⟨h1, h2, h3, h4⟩ := hI
  exact ⟨by simpa [State.nbands] using h1, by simpa using h2, by simpa using h3,
    by simpa using faultsLegal_raise _ _ k _ _ h4⟩

/-- Writing one band keeps every band legal. -/
theorem legal_set {l : List Band} (h : ∀ b ∈ l, Band.legal b = true) (n : Nat) {x : Band} (hx : Band.legal x = true) :
    ∀ b ∈ l.set n x, Band.legal b = true := by
  intro b hb
  rcases List.mem_or_eq_of_mem_set hb with hb | rfl
  · exact h b hb
  · exact hx

/-- Every outcome of an operation keeps the invariant. -/
theorem inv_effect {s t : State} {i : Instr} (hI : s.Inv) (h : Effect s i t) : t.Inv := by
  have hb := hI.2.2.1
  cases h with
  | fault k info d => exact inv_raise (s := { s with draws := d }) hI _ _ _
  | answer => exact inv_of_fields hI (by simp) (by simp) (by simp) (by simp) (by simpa using hb)
  | commit b band kind ord bwf freq gain bw fs built gpost d hp hi _ hbb ho hd =>
    refine inv_of_fields hI (by simp) (by simp) (by simp) (by simp) ?_
    rw [State.respond_bands]
    exact legal_set hb _ (by simp [Band.legal, updateKey, effOrder_legal _ _ ho, ho])
  | breset b band hp hi hbb =>
    refine inv_of_fields hI (by simp) (by simp) (by simp) (by simp) ?_
    rw [State.respond_bands]
    exact legal_set hb _ (hb band (List.mem_of_getElem? hbb))
  | enable b band on hp hi hbb =>
    refine inv_of_fields hI (by simp) (by simp) (by simp) (by simp) ?_
    rw [State.respond_bands]
    exact legal_set hb _ (hb band (List.mem_of_getElem? hbb))
  | srate f hp hi =>
    refine inv_of_fields hI (by simp) (by simp) (by simp) (by simp) ?_
    intro x hx
    rw [State.respond_bands, List.mem_map] at hx
    obtain ⟨y, hy, rfl⟩ := hx
    have := hb y hy
    simp only [Band.legal, Bool.and_eq_true] at this
    simp [Band.legal, Band.invalidate, this.1]
  | proc bands' v d hp hi hm =>
    refine inv_of_fields hI (by simp) (by simp) (by simp) (by simpa using hm.length_eq.symm) ?_
    intro x hx
    rw [State.respond_bands] at hx
    have key : ∀ {l l' : List Band}, List.Forall₂ OnlyStateMoved l l' → ∀ x ∈ l', ∃ y ∈ l, OnlyStateMoved y x := by
      intro l l' h
      induction h with
      | nil => intro x hx; cases hx
      | cons h _ ih =>
        intro x hx
        rcases List.mem_cons.1 hx with rfl | hx
        · exact ⟨_, List.mem_cons_self, h⟩
        · obtain ⟨y, hy, h⟩ := ih x hx
          exact ⟨y, List.mem_cons_of_mem _ hy, h⟩
    obtain ⟨y, hy, h⟩ := key hm x hx
    rw [h.1]
    exact hb y hy

/-- The bands of the state at reset are legal. -/
theorem legal_resetFrom (n : Nat) (c : Config) (d : Nat) : ∀ b ∈ (State.resetFrom n c d).bands, Band.legal b = true := by
  intro b hb
  simp only [State.resetFrom] at hb
  rw [List.eq_of_mem_replicate hb]
  rfl

end Sys2Proof.Machine
end

