-- ==== Sys2Proof/Laws/PerInstr.lean ====
section
/-! SUPPORT. Statements made per instruction. Family `Packet`: what the packet of each instruction is made of. The host's
case split over `Instr` closes a claim about every instruction from one lemma per constructor. -/

namespace Sys2Proof.Laws

/-- The packet of a well-formed instruction is a legal one: its header names the instruction's opcode, `KIND` and the
unused fields are as 30_encoding.md R78 wants them, the count word of a `PROCB` does not exceed `MAX_BLOCK`, and the
operand words hold the instruction's operands. -/
def Packet.Statement (i : Instr) : Prop :=
  ∀ maxBlock : Nat, i.wf maxBlock = true →
    i.header.opc = i.opc.byte ∧ i.opc.kindLegal i.header.kind = true ∧ i.opc.fieldsLegal i.header = true ∧
      blockTooLong maxBlock i.opc i.operandWords = false ∧ decodeOperands i.opc i.header i.operandWords = some i

theorem bwf_of_aux (bwf : Bool) : (bwfAux bwf).getLsbD 0 = bwf ∧ (bwfAux bwf).extractLsb' 1 7 = 0#7 := by
  cases bwf <;> decide

theorem slot_of_aux (slot : Slot) :
    (0#4 ++ slot.number : BitVec 8).extractLsb' 0 4 = slot.number ∧ (0#4 ++ slot.number : BitVec 8) ≤ 9#8 := by
  rcases slot with ⟨_ | _⟩ | ⟨_ | _, i⟩
  · decide
  · decide
  · fin_cases i <;> decide
  · fin_cases i <;> decide

theorem slot_channel_of_aux (slot : Slot) (ch : Channel) :
    (0#3 ++ ch.number ++ slot.number : BitVec 8).extractLsb' 0 4 = slot.number ∧ slot.number ≤ 9#4 ∧
      (0#3 ++ ch.number ++ slot.number : BitVec 8).extractLsb' 5 3 = 0#3 ∧
      Channel.ofBit ((0#3 ++ ch.number ++ slot.number : BitVec 8).getLsbD 4) = ch := by
  rcases slot with ⟨_ | _⟩ | ⟨_ | _, i⟩
  · cases ch <;> decide
  · cases ch <;> decide
  · fin_cases i <;> cases ch <;> decide
  · fin_cases i <;> cases ch <;> decide

theorem Packet.tick2 (a1 a2 a3 m0 m1 m2 ic1eq ic2eq x : F) :
    Packet.Statement (.tick2 a1 a2 a3 m0 m1 m2 ic1eq ic2eq x) := by
  intro maxBlock _
  refine ⟨rfl, rfl, rfl, rfl, ?_⟩
  change decodeOperands .tick2 _ (fsWords [a1, a2, a3, m0, m1, m2, ic1eq, ic2eq, x]) = _
  delta decodeOperands
  dsimp only
  rw [fsOfWords_fsWords]

theorem Packet.tick1 (a m0 m1 s x : F) : Packet.Statement (.tick1 a m0 m1 s x) := by
  intro maxBlock _
  refine ⟨rfl, rfl, rfl, rfl, ?_⟩
  change decodeOperands .tick1 _ (fsWords [a, m0, m1, s, x]) = _
  delta decodeOperands
  dsimp only
  rw [fsOfWords_fsWords]

theorem Packet.coefLp (f0 fs q : F) : Packet.Statement (.coefLp f0 fs q) := by
  intro maxBlock _
  refine ⟨rfl, rfl, rfl, rfl, ?_⟩
  change decodeOperands .coef _ (fsWords [f0, fs, q]) = _
  delta decodeOperands
  dsimp only
  rw [fsOfWords_fsWords]
  rfl

theorem Packet.coefHp (f0 fs q : F) : Packet.Statement (.coefHp f0 fs q) := by
  intro maxBlock _
  refine ⟨rfl, rfl, rfl, rfl, ?_⟩
  change decodeOperands .coef _ (fsWords [f0, fs, q]) = _
  delta decodeOperands
  dsimp only
  rw [fsOfWords_fsWords]
  rfl

theorem Packet.coefBp (f0 fs q : F) : Packet.Statement (.coefBp f0 fs q) := by
  intro maxBlock _
  refine ⟨rfl, rfl, rfl, rfl, ?_⟩
  change decodeOperands .coef _ (fsWords [f0, fs, q]) = _
  delta decodeOperands
  dsimp only
  rw [fsOfWords_fsWords]
  rfl

theorem Packet.coefNotch (f0 fs q : F) : Packet.Statement (.coefNotch f0 fs q) := by
  intro maxBlock _
  refine ⟨rfl, rfl, rfl, rfl, ?_⟩
  change decodeOperands .coef _ (fsWords [f0, fs, q]) = _
  delta decodeOperands
  dsimp only
  rw [fsOfWords_fsWords]
  rfl

theorem Packet.coefAp (f0 fs q : F) : Packet.Statement (.coefAp f0 fs q) := by
  intro maxBlock _
  refine ⟨rfl, rfl, rfl, rfl, ?_⟩
  change decodeOperands .coef _ (fsWords [f0, fs, q]) = _
  delta decodeOperands
  dsimp only
  rw [fsOfWords_fsWords]
  rfl

theorem Packet.coefBell (f0 fs q gainDb : F) : Packet.Statement (.coefBell f0 fs q gainDb) := by
  intro maxBlock _
  refine ⟨rfl, rfl, rfl, rfl, ?_⟩
  change decodeOperands .coef _ (fsWords [f0, fs, q, gainDb]) = _
  delta decodeOperands
  dsimp only
  rw [fsOfWords_fsWords]
  rfl

theorem Packet.coefLs (f0 fs q gainDb : F) : Packet.Statement (.coefLs f0 fs q gainDb) := by
  intro maxBlock _
  refine ⟨rfl, rfl, rfl, rfl, ?_⟩
  change decodeOperands .coef _ (fsWords [f0, fs, q, gainDb]) = _
  delta decodeOperands
  dsimp only
  rw [fsOfWords_fsWords]
  rfl

theorem Packet.coefHs (f0 fs q gainDb : F) : Packet.Statement (.coefHs f0 fs q gainDb) := by
  intro maxBlock _
  refine ⟨rfl, rfl, rfl, rfl, ?_⟩
  change decodeOperands .coef _ (fsWords [f0, fs, q, gainDb]) = _
  delta decodeOperands
  dsimp only
  rw [fsOfWords_fsWords]
  rfl

theorem Packet.coefLp1 (f0 fs : F) : Packet.Statement (.coefLp1 f0 fs) := by
  intro maxBlock _
  refine ⟨rfl, rfl, rfl, rfl, ?_⟩
  change decodeOperands .coef _ (fsWords [f0, fs]) = _
  delta decodeOperands
  dsimp only
  rw [fsOfWords_fsWords]
  rfl

theorem Packet.coefHp1 (f0 fs : F) : Packet.Statement (.coefHp1 f0 fs) := by
  intro maxBlock _
  refine ⟨rfl, rfl, rfl, rfl, ?_⟩
  change decodeOperands .coef _ (fsWords [f0, fs]) = _
  delta decodeOperands
  dsimp only
  rw [fsOfWords_fsWords]
  rfl

theorem Packet.poleq (ord pole : BitVec 8) : Packet.Statement (.poleq ord pole) := fun _ _ => ⟨rfl, rfl, rfl, rfl, rfl⟩

theorem Packet.qdist (ord : BitVec 8) (q : F) : Packet.Statement (.qdist ord q) := by
  intro maxBlock _
  refine ⟨rfl, rfl, rfl, rfl, ?_⟩
  change decodeOperands .qdist _ (fsWords [q]) = _
  delta decodeOperands
  dsimp only
  rw [fsOfWords_fsWords]
  rfl

theorem Packet.bw2q (bw : F) : Packet.Statement (.bw2q bw) := by
  intro maxBlock _
  refine ⟨rfl, rfl, rfl, rfl, ?_⟩
  change decodeOperands .bw2q _ (fsWords [bw]) = _
  delta decodeOperands
  dsimp only
  rw [fsOfWords_fsWords]

theorem Packet.updateBell (b : BitVec 4) (ord : BitVec 8) (bwf : Bool) (freq gain bw fs : F) :
    Packet.Statement (.updateBell b ord bwf freq gain bw fs) := by
  intro maxBlock _
  refine ⟨rfl, rfl, ?_, rfl, ?_⟩
  · exact beq_iff_eq.2 (bwf_of_aux bwf).2
  · change decodeOperands .update _ (fsWords [freq, gain, bw, fs]) = _
    delta decodeOperands
    dsimp only
    rw [fsOfWords_fsWords]
    exact congrArg (fun x => some (Instr.updateBell b ord x freq gain bw fs)) (bwf_of_aux bwf).1

theorem Packet.updateLp (b : BitVec 4) (ord : BitVec 8) (bwf : Bool) (freq gain bw fs : F) :
    Packet.Statement (.updateLp b ord bwf freq gain bw fs) := by
  intro maxBlock _
  refine ⟨rfl, rfl, ?_, rfl, ?_⟩
  · exact beq_iff_eq.2 (bwf_of_aux bwf).2
  · change decodeOperands .update _ (fsWords [freq, gain, bw, fs]) = _
    delta decodeOperands
    dsimp only
    rw [fsOfWords_fsWords]
    exact congrArg (fun x => some (Instr.updateLp b ord x freq gain bw fs)) (bwf_of_aux bwf).1

theorem Packet.updateHp (b : BitVec 4) (ord : BitVec 8) (bwf : Bool) (freq gain bw fs : F) :
    Packet.Statement (.updateHp b ord bwf freq gain bw fs) := by
  intro maxBlock _
  refine ⟨rfl, rfl, ?_, rfl, ?_⟩
  · exact beq_iff_eq.2 (bwf_of_aux bwf).2
  · change decodeOperands .update _ (fsWords [freq, gain, bw, fs]) = _
    delta decodeOperands
    dsimp only
    rw [fsOfWords_fsWords]
    exact congrArg (fun x => some (Instr.updateHp b ord x freq gain bw fs)) (bwf_of_aux bwf).1

theorem Packet.updateLs (b : BitVec 4) (ord : BitVec 8) (bwf : Bool) (freq gain bw fs : F) :
    Packet.Statement (.updateLs b ord bwf freq gain bw fs) := by
  intro maxBlock _
  refine ⟨rfl, rfl, ?_, rfl, ?_⟩
  · exact beq_iff_eq.2 (bwf_of_aux bwf).2
  · change decodeOperands .update _ (fsWords [freq, gain, bw, fs]) = _
    delta decodeOperands
    dsimp only
    rw [fsOfWords_fsWords]
    exact congrArg (fun x => some (Instr.updateLs b ord x freq gain bw fs)) (bwf_of_aux bwf).1

theorem Packet.updateHs (b : BitVec 4) (ord : BitVec 8) (bwf : Bool) (freq gain bw fs : F) :
    Packet.Statement (.updateHs b ord bwf freq gain bw fs) := by
  intro maxBlock _
  refine ⟨rfl, rfl, ?_, rfl, ?_⟩
  · exact beq_iff_eq.2 (bwf_of_aux bwf).2
  · change decodeOperands .update _ (fsWords [freq, gain, bw, fs]) = _
    delta decodeOperands
    dsimp only
    rw [fsOfWords_fsWords]
    exact congrArg (fun x => some (Instr.updateHs b ord x freq gain bw fs)) (bwf_of_aux bwf).1

theorem Packet.updateNotch (b : BitVec 4) (ord : BitVec 8) (bwf : Bool) (freq gain bw fs : F) :
    Packet.Statement (.updateNotch b ord bwf freq gain bw fs) := by
  intro maxBlock _
  refine ⟨rfl, rfl, ?_, rfl, ?_⟩
  · exact beq_iff_eq.2 (bwf_of_aux bwf).2
  · change decodeOperands .update _ (fsWords [freq, gain, bw, fs]) = _
    delta decodeOperands
    dsimp only
    rw [fsOfWords_fsWords]
    exact congrArg (fun x => some (Instr.updateNotch b ord x freq gain bw fs)) (bwf_of_aux bwf).1

theorem Packet.updateBp (b : BitVec 4) (ord : BitVec 8) (bwf : Bool) (freq gain bw fs : F) :
    Packet.Statement (.updateBp b ord bwf freq gain bw fs) := by
  intro maxBlock _
  refine ⟨rfl, rfl, ?_, rfl, ?_⟩
  · exact beq_iff_eq.2 (bwf_of_aux bwf).2
  · change decodeOperands .update _ (fsWords [freq, gain, bw, fs]) = _
    delta decodeOperands
    dsimp only
    rw [fsOfWords_fsWords]
    exact congrArg (fun x => some (Instr.updateBp b ord x freq gain bw fs)) (bwf_of_aux bwf).1

theorem Packet.updateTilt (b : BitVec 4) (ord : BitVec 8) (bwf : Bool) (freq gain bw fs : F) :
    Packet.Statement (.updateTilt b ord bwf freq gain bw fs) := by
  intro maxBlock _
  refine ⟨rfl, rfl, ?_, rfl, ?_⟩
  · exact beq_iff_eq.2 (bwf_of_aux bwf).2
  · change decodeOperands .update _ (fsWords [freq, gain, bw, fs]) = _
    delta decodeOperands
    dsimp only
    rw [fsOfWords_fsWords]
    exact congrArg (fun x => some (Instr.updateTilt b ord x freq gain bw fs)) (bwf_of_aux bwf).1

theorem Packet.updateMesa (b : BitVec 4) (ord : BitVec 8) (bwf : Bool) (freq gain bw fs : F) :
    Packet.Statement (.updateMesa b ord bwf freq gain bw fs) := by
  intro maxBlock _
  refine ⟨rfl, rfl, ?_, rfl, ?_⟩
  · exact beq_iff_eq.2 (bwf_of_aux bwf).2
  · change decodeOperands .update _ (fsWords [freq, gain, bw, fs]) = _
    delta decodeOperands
    dsimp only
    rw [fsOfWords_fsWords]
    exact congrArg (fun x => some (Instr.updateMesa b ord x freq gain bw fs)) (bwf_of_aux bwf).1

theorem Packet.updateAp (b : BitVec 4) (ord : BitVec 8) (bwf : Bool) (freq gain bw fs : F) :
    Packet.Statement (.updateAp b ord bwf freq gain bw fs) := by
  intro maxBlock _
  refine ⟨rfl, rfl, ?_, rfl, ?_⟩
  · exact beq_iff_eq.2 (bwf_of_aux bwf).2
  · change decodeOperands .update _ (fsWords [freq, gain, bw, fs]) = _
    delta decodeOperands
    dsimp only
    rw [fsOfWords_fsWords]
    exact congrArg (fun x => some (Instr.updateAp b ord x freq gain bw fs)) (bwf_of_aux bwf).1

theorem Packet.breset (b : BitVec 4) : Packet.Statement (.breset b) := fun _ _ => ⟨rfl, rfl, rfl, rfl, rfl⟩

theorem Packet.enable (b : BitVec 4) : Packet.Statement (.enable b) := fun _ _ => ⟨rfl, rfl, rfl, rfl, rfl⟩

theorem Packet.disable (b : BitVec 4) : Packet.Statement (.disable b) := fun _ _ => ⟨rfl, rfl, rfl, rfl, rfl⟩

theorem Packet.srate (newFs : F) : Packet.Statement (.srate newFs) := by
  intro maxBlock _
  refine ⟨rfl, rfl, rfl, rfl, ?_⟩
  change decodeOperands .srate _ (fsWords [newFs]) = _
  delta decodeOperands
  dsimp only
  rw [fsOfWords_fsWords]

theorem Packet.proc (xL xR : F) : Packet.Statement (.proc xL xR) := by
  intro maxBlock _
  refine ⟨rfl, rfl, rfl, rfl, ?_⟩
  change decodeOperands .proc _ (fsWords [xL, xR]) = _
  delta decodeOperands
  dsimp only
  rw [fsOfWords_fsWords]

theorem Packet.procb (frames : List (F × F)) : Packet.Statement (.procb frames) := by
  intro maxBlock h
  have h1 : frames.length < 2 ^ 32 := of_decide_eq_true (Bool.and_eq_true_iff.1 h).1
  have h2 : frames.length ≤ maxBlock := of_decide_eq_true (Bool.and_eq_true_iff.1 h).2
  have hn : (BitVec.ofNat 32 frames.length).toNat = frames.length := by
    rw [BitVec.toNat_ofNat, Nat.mod_eq_of_lt h1]
  refine ⟨rfl, rfl, rfl, ?_, ?_⟩
  · change decide (maxBlock < (BitVec.ofNat 32 frames.length).toNat) = false
    rw [hn]
    exact decide_eq_false (by omega)
  · change decodeProcb (BitVec.ofNat 32 frames.length :: fsWords (framesFlat frames)) = _
    unfold decodeProcb
    dsimp only
    rw [fsOfWords_fsWords]
    dsimp only
    rw [framesOf_framesFlat]
    exact if_pos hn.symm

theorem Packet.hstage2 (c : SVFCoefficients) (f fs : F) : Packet.Statement (.hstage2 c f fs) := by
  intro maxBlock _
  refine ⟨rfl, rfl, rfl, rfl, ?_⟩
  change decodeOperands .hstage2 _ (fsWords [c.g, c.k, c.a1, c.a2, c.a3, c.m0, c.m1, c.m2, c.g2, f, fs]) = _
  delta decodeOperands
  dsimp only
  rw [fsOfWords_fsWords]

theorem Packet.hstage1 (c : OnePoleCoefficients) (f fs : F) : Packet.Statement (.hstage1 c f fs) := by
  intro maxBlock _
  refine ⟨rfl, rfl, rfl, rfl, ?_⟩
  change decodeOperands .hstage1 _ (fsWords [c.g, c.a, c.m0, c.m1, f, fs]) = _
  delta decodeOperands
  dsimp only
  rw [fsOfWords_fsWords]

theorem Packet.bode (b : BitVec 4) (f : F) : Packet.Statement (.bode b f) := by
  intro maxBlock _
  refine ⟨rfl, rfl, rfl, rfl, ?_⟩
  change decodeOperands .bode _ (fsWords [f]) = _
  delta decodeOperands
  dsimp only
  rw [fsOfWords_fsWords]
  rfl

theorem Packet.rdcoef (b : BitVec 4) (slot : Slot) : Packet.Statement (.rdcoef b slot) := by
  intro maxBlock _
  refine ⟨rfl, rfl, ?_, rfl, ?_⟩
  · exact decide_eq_true (slot_of_aux slot).2
  · change (Slot.ofNumber ((0#4 ++ slot.number : BitVec 8).extractLsb' 0 4)).map _ = _
    rw [(slot_of_aux slot).1, Slot.ofNumber_number]
    rfl

theorem Packet.rdstate (b : BitVec 4) (slot : Slot) (ch : Channel) : Packet.Statement (.rdstate b slot ch) := by
  intro maxBlock _
  obtain ⟨h1, h2, h3, h4⟩ := slot_channel_of_aux slot ch
  refine ⟨rfl, rfl, ?_, rfl, ?_⟩
  · change (true && ((0#3 ++ ch.number ++ slot.number : BitVec 8).extractLsb' 5 3 == 0#3)
      && decide ((0#3 ++ ch.number ++ slot.number : BitVec 8).extractLsb' 0 4 ≤ 9#4)) = true
    rw [h1, h3, decide_eq_true h2]
    rfl
  · change (Slot.ofNumber ((0#3 ++ ch.number ++ slot.number : BitVec 8).extractLsb' 0 4)).map
      (fun sl => Instr.rdstate b sl (Channel.ofBit ((0#3 ++ ch.number ++ slot.number : BitVec 8).getLsbD 4))) = _
    rw [h1, h4, Slot.ofNumber_number]
    rfl

theorem Packet.rdcsr (n : Csr) : Packet.Statement (.rdcsr n) := by
  intro maxBlock _
  refine ⟨rfl, rfl, ?_, rfl, ?_⟩
  · cases n <;> rfl
  · cases n <;> rfl

theorem Packet.rdband (b : BitVec 4) : Packet.Statement (.rdband b) := fun _ _ => ⟨rfl, rfl, rfl, rfl, rfl⟩

end Sys2Proof.Laws
end

