-- ==== Sys2Proof/Laws/Positive.lean ====
section
/-! SUPPORT. Positive values stay positive on their way through the per-stage Q list: a positive Q gives positive stage
Qs, so that the Q check of the factory passes at every stage of a cascade. -/

namespace Sys2Proof.Machine

theorem lt_zero_iff (x : F) : F.lt F.zero x = true ↔ F.isNaN x = false ∧ 0 < F.val x := by
  have h0 : F.val F.zero = 0 := by decide
  have h1 : F.isNaN F.zero = false := by decide
  unfold F.lt
  rw [h0, h1]
  simp

theorem roundBits_le (num den : Nat) : F.roundBits num den ≤ F.infBits := min_le_right _ _

theorem infBits_lt : F.infBits < 2 ^ 63 := by unfold F.infBits; norm_num

/-- A magnitude above half a unit does not round to zero. -/
theorem roundBits_pos {num den : Nat} (hd : 0 < den) (h : den < 2 * num) : 1 ≤ F.roundBits num den := by
  obtain ⟨e, m, -, hm, -, hn, -, -, hr⟩ := roundBits_parts num hd
  rw [hr]
  refine le_min ?_ (by unfold F.infBits; norm_num)
  by_cases he : e = 0
  · subst he
    obtain ⟨-, h2, -⟩ := nearestEven_spec num (show 0 < den * 2 ^ 0 by simpa using hd)
    rw [← hm] at h2
    by_contra hc
    have hm0 : m = 0 := by omega
    rw [hm0] at h2
    simp at h2
    omega
  · have : 1 * 2 ^ 52 ≤ e * 2 ^ 52 := Nat.mul_le_mul_right _ (by omega)
    omega

/-- A pattern with the sign clear that is no NaN: not a NaN, and positive unless it is zero. -/
theorem pack_false {p : Nat} (hp : p ≤ F.infBits) :
    F.isNaN (F.pack false p) = false ∧ 0 ≤ F.val (F.pack false p) ∧ (1 ≤ p → 0 < F.val (F.pack false p)) := by
  have hb := lt_of_le_of_lt hp infBits_lt
  refine ⟨?_, ?_, fun h1 => ?_⟩
  · unfold F.isNaN
    rw [expo_pack _ hb, frac_pack _ hb]
    unfold F.infBits at hp
    by_cases h : p / 2 ^ 52 = 2047
    · have : p % 2 ^ 52 = 0 := by omega
      rw [this]
      simp
    · simp only [Bool.and_eq_false_iff, beq_eq_false_iff_ne]
      exact .inl h
  · rw [val_pack _ hb]
    exact Int.natCast_nonneg _
  · rw [val_pack _ hb]
    simp only [Bool.false_eq_true, if_false]
    have : 0 < F.mag (F.pack false p) := by
      unfold F.mag F.mant
      rw [expo_pack _ hb, frac_pack _ hb]
      refine Nat.mul_pos ?_ (by positivity)
      split
      · rename_i h
        omega
      · positivity
    exact_mod_cast this

theorem pack_false_pos {p : Nat} (hp : p ≤ F.infBits) (h1 : 1 ≤ p) : F.lt F.zero (F.pack false p) = true :=
  (lt_zero_iff _).2 ⟨(pack_false hp).1, (pack_false hp).2.2 h1⟩

/-- A positive value is no NaN, has the sign clear, and is no zero. -/
theorem pos_parts {x : F} (h : F.lt F.zero x = true) :
    F.isNaN x = false ∧ F.sign x = false ∧ F.isZero x = false ∧ 0 < F.mag x := by
  obtain ⟨hn, hv⟩ := (lt_zero_iff x).1 h
  have hs : F.sign x = false := by
    by_contra hc
    simp only [Bool.not_eq_false] at hc
    unfold F.val at hv
    rw [hc] at hv
    simp at hv
    omega
  have hm : 0 < F.mag x := by
    unfold F.val at hv
    rw [hs] at hv
    simpa using hv
  refine ⟨hn, hs, ?_, hm⟩
  by_contra hc
  simp only [Bool.not_eq_false] at hc
  unfold F.isZero at hc
  simp only [Bool.and_eq_true, beq_iff_eq] at hc
  unfold F.mag F.mant at hm
  rw [if_pos hc.1, hc.2] at hm
  simp at hm

/-- A positive value times a finite one above one half is positive. -/
theorem isProd_pos {r x z : F} (hf : F.isInf r = false) (hr : F.lt F.zero r = true) (hh : 2 ^ 1073 < F.mag r)
    (hx : F.lt F.zero x = true) (h : IsProd r x z) : F.lt F.zero z = true := by
  obtain ⟨rn, rs, rz, -⟩ := pos_parts hr
  obtain ⟨xn, xs, xz, xm⟩ := pos_parts hx
  unfold IsProd F.mul at h
  rw [rn, rs, rz, xn, xs, xz, hf] at h
  simp only [Bool.or_false, Bool.false_or, Bool.false_eq_true, if_false, bne_self_eq_false] at h
  split at h
  · exact h ▸ pack_false_pos le_rfl (by unfold F.infBits; norm_num)
  · refine h ▸ pack_false_pos (roundBits_le _ _) (roundBits_pos (by positivity) ?_)
    have : 2 ^ 1073 * 1 < F.mag r * F.mag x := Nat.mul_lt_mul_of_lt_of_le hh xm xm
    rw [show 1074 = 1073 + 1 from rfl, pow_succ]
    generalize 2 ^ 1073 = t at *
    generalize F.mag r * F.mag x = y at *
    omega

/-- A value that is no NaN and not negative. -/
def NonNeg (x : F) : Prop := F.isNaN x = false ∧ F.sign x = false

theorem nonNeg_pack {p : Nat} (hp : p ≤ F.infBits) : NonNeg (F.pack false p) :=
  ⟨(pack_false hp).1, sign_pack _ (lt_of_le_of_lt hp infBits_lt)⟩

theorem isProd_nonNeg {x r z : F} (hx : NonNeg x) (hr : F.lt F.zero r = true) (hf : F.isInf r = false)
    (h : IsProd x r z) : NonNeg z := by
  obtain ⟨rn, rs, rz, -⟩ := pos_parts hr
  unfold IsProd F.mul at h
  rw [rn, rs, rz, hx.1, hx.2, hf] at h
  simp only [Bool.or_false, Bool.false_eq_true, if_false, bne_self_eq_false] at h
  split at h
  · rename_i hi
    have hz : F.isZero x = false := by
      unfold F.isInf at hi
      unfold F.isZero
      simp only [Bool.and_eq_true, beq_iff_eq] at hi
      rw [hi.1]
      rfl
    rw [hz] at h
    exact h ▸ nonNeg_pack le_rfl
  · exact h ▸ nonNeg_pack (roundBits_le _ _)

theorem isSum_one_pos {x z : F} (hx : NonNeg x) (h : IsSum F.one x z) : F.lt F.zero z = true := by
  have h1 : F.isNaN F.one = false ∧ F.isInf F.one = false ∧ F.sign F.one = false := by decide
  have hv1 : 0 < F.val F.one := by decide +kernel
  unfold IsSum F.add at h
  rw [h1.1, h1.2.1, hx.1] at h
  simp only [Bool.or_false, Bool.false_eq_true, if_false] at h
  have hvx : 0 ≤ F.val x := by
    unfold F.val
    rw [hx.2]
    exact Int.natCast_nonneg _
  split at h
  · rename_i hi
    refine h ▸ (lt_zero_iff x).2 ⟨hx.1, ?_⟩
    unfold F.isInf at hi
    simp only [Bool.and_eq_true, beq_iff_eq] at hi
    unfold F.val F.mag F.mant
    rw [hx.2, hi.1, hi.2]
    simp
  · rw [if_neg (by omega), decide_eq_false (by omega)] at h
    exact h ▸ pack_false_pos (roundBits_le _ _) (roundBits_pos one_pos (by omega))

theorem isDiff_one_nonNeg {x z : F} (hx : F.lt F.one x = true) (h : IsDiff x F.one z) : NonNeg z := by
  have h1 : F.isNaN (F.neg F.one) = false ∧ F.isInf (F.neg F.one) = false := by decide
  have hv1 : F.val (F.neg F.one) = -F.val F.one := by decide +kernel
  have hv0 : 0 < F.val F.one := by decide +kernel
  unfold F.lt at hx
  simp only [Bool.and_eq_true, Bool.not_eq_true', decide_eq_true_eq] at hx
  obtain ⟨⟨-, xn⟩, hlt⟩ := hx
  unfold IsDiff F.sub F.add at h
  rw [h1.1, h1.2, xn, hv1] at h
  simp only [Bool.or_false, Bool.false_and, Bool.false_eq_true, if_false] at h
  have xs : F.sign x = false := by
    by_contra hc
    simp only [Bool.not_eq_false] at hc
    have : F.val x ≤ 0 := by
      unfold F.val
      rw [hc]
      simp
    omega
  split at h
  · exact h ▸ ⟨xn, xs⟩
  · rw [if_neg (by omega), decide_eq_false (by omega)] at h
    exact h ▸ nonNeg_pack (roundBits_le _ _)

theorem isQuot_butterworth_pos {q z : F} (hq : F.lt F.zero q = true) (h : IsQuot q F.butterworthQ z) :
    F.lt F.zero z = true := by
  obtain ⟨qn, qs, -, qm⟩ := pos_parts hq
  have hb : F.isNaN F.butterworthQ = false ∧ F.sign F.butterworthQ = false ∧ F.isInf F.butterworthQ = false ∧
      F.isZero F.butterworthQ = false := by decide
  have hbm : F.mag F.butterworthQ < 2 * 2 ^ 1074 ∧ 0 < F.mag F.butterworthQ := by decide +kernel
  unfold IsQuot F.div at h
  rw [hb.1, hb.2.1, hb.2.2.1, hb.2.2.2, qn, qs] at h
  simp only [Bool.or_false, Bool.false_eq_true, if_false, bne_self_eq_false] at h
  split at h
  · exact h ▸ pack_false_pos le_rfl (by unfold F.infBits; norm_num)
  · refine h ▸ pack_false_pos (roundBits_le _ _) (roundBits_pos hbm.2 ?_)
    have : 1 * 2 ^ 1074 ≤ F.mag q * 2 ^ 1074 := Nat.mul_le_mul_right _ qm
    generalize 2 ^ 1074 = t at *
    generalize F.mag q * t = y at *
    omega

/-- A finite positive value above one half, as a computation. -/
def aboveHalf (r : F) : Bool := !F.isInf r && F.lt F.zero r && Nat.blt (2 ^ 1073) (F.mag r)

theorem qratio_aboveHalf (eo : EffOrder) : (qratio eo).all aboveHalf = true := by cases eo <;> decide +kernel

/-- The ratios of the table are finite, positive and above one half. -/
theorem qratio_big (eo : EffOrder) :
    ∀ r ∈ qratio eo, F.isInf r = false ∧ F.lt F.zero r = true ∧ 2 ^ 1073 < F.mag r := by
  intro r hr
  have h := List.all_eq_true.1 (qratio_aboveHalf eo) r hr
  unfold aboveHalf at h
  rw [Bool.and_eq_true, Bool.and_eq_true, Bool.not_eq_true'] at h
  exact ⟨h.1.1, h.1.2, Nat.blt_eq.mp h.2⟩

theorem comp_pos (eo : EffOrder) : F.isInf (comp eo) = false ∧ F.lt F.zero (comp eo) = true := by
  cases eo <;> decide +kernel

/-- The compressed Q of a positive Q is positive. -/
theorem isCompressed_pos (eo : EffOrder) {q qs : F} (hq : F.lt F.zero q = true) (h : IsCompressed (comp eo) q qs) :
    F.lt F.zero qs = true := by
  obtain ⟨qn, hqn, h⟩ := h
  have hpos := isQuot_butterworth_pos hq hqn
  split at h
  · rename_i hlt
    obtain ⟨ex, sc, hex, hsc, hs⟩ := h
    exact isSum_one_pos (isProd_nonNeg (isDiff_one_nonNeg hlt hex) (comp_pos eo).2 (comp_pos eo).1 hsc) hs
  · exact h ▸ hpos

/-- The stage Qs of a positive Q are positive. -/
theorem isQList_pos {eo : EffOrder} {q : F} {qs : List F} (hq : F.lt F.zero q = true) (h : IsQList eo q qs) :
    ∀ x ∈ qs, F.lt F.zero x = true := by
  have hmany : ∀ (l : List F) (sc : F), F.lt F.zero sc = true →
      (∀ r ∈ l, F.isInf r = false ∧ F.lt F.zero r = true ∧ 2 ^ 1073 < F.mag r) → ∀ qs,
      List.Forall₂ (fun r x => IsProd r sc x) l qs → ∀ x ∈ qs, F.lt F.zero x = true := by
    intro l sc hsc hl qs h
    induction h with
    | nil => simp
    | cons h _ ih =>
      intro x hx
      obtain ⟨h1, h2, h3⟩ := hl _ List.mem_cons_self
      rcases List.mem_cons.1 hx with rfl | hx
      · exact isProd_pos h1 h2 h3 hsc h
      · exact ih (fun r hr => hl r (List.mem_cons_of_mem _ hr)) x hx
  cases eo with
  | o1 => intro x hx; rw [show qs = [] from h] at hx; simp at hx
  | o2 =>
    intro x hx
    rw [show qs = [q] from h] at hx
    exact (List.mem_singleton.1 hx) ▸ hq
  | o4 =>
    obtain ⟨sc, hc, hl⟩ := h
    exact hmany _ sc (isCompressed_pos .o4 hq hc) (qratio_big .o4) _ hl
  | o6 =>
    obtain ⟨sc, hc, hl⟩ := h
    exact hmany _ sc (isCompressed_pos .o6 hq hc) (qratio_big .o6) _ hl
  | o8 =>
    obtain ⟨sc, hc, hl⟩ := h
    exact hmany _ sc (isCompressed_pos .o8 hq hc) (qratio_big .o8) _ hl

end Sys2Proof.Machine
end

