-- ==== Sys2Proof/Laws/Same.lean ====
section
/-! SUPPORT. Computations on operands that agree up to a NaN's bits give results that agree up to a NaN's bits, whatever
the two draw counters are (00_scope.md R8, log entry 2): one lemma a function. -/

namespace Sys2Proof.Machine

theorem SameF.refl (x : F) : SameF x x := .inl rfl

theorem SameF.symm {x y : F} (h : SameF x y) : SameF y x := h.imp Eq.symm And.symm

theorem SameF.isNaN_eq {x y : F} (h : SameF x y) : F.isNaN x = F.isNaN y := by
  rcases h with rfl | ⟨hx, hy⟩
  · rfl
  · rw [hx, hy]

theorem SameSVF.refl (a : SVFState) : SameSVF a a := ⟨.refl _, .refl _⟩

theorem SameSub.refl (a : SubState) : SameSub a a := ⟨.refl _, fun _ => .refl _⟩

theorem SameChannel.refl (a : ChannelState) : SameChannel a a := ⟨.refl _, .refl _⟩

theorem forall₂_sameF_refl : ∀ xs : List F, List.Forall₂ SameF xs xs
  | [] => .nil
  | x :: xs => .cons (.refl x) (forall₂_sameF_refl xs)

theorem SameAnswer.refl (r : Packet) : SameAnswer r r := .inl rfl

/-! ## Two computations -/

/-- Whatever the two draw counters stand at, the two results are related. -/
def Same {α β : Type} (R : α → β → Prop) (m₁ : FM α) (m₂ : FM β) : Prop := ∀ d₁ d₂, R (m₁ d₁).1 (m₂ d₂).1

theorem same_pure {α β : Type} {R : α → β → Prop} {a : α} {b : β} (h : R a b) : Same R (pure a) (pure b) :=
  fun _ _ => h

theorem same_bind {α β γ δ : Type} {R : α → β → Prop} {Q : γ → δ → Prop} {m₁ : FM α} {m₂ : FM β} {k₁ : α → FM γ}
    {k₂ : β → FM δ} (hm : Same R m₁ m₂) (hk : ∀ a b, R a b → Same Q (k₁ a) (k₂ b)) : Same Q (m₁ >>= k₁) (m₂ >>= k₂) :=
  fun _ _ => hk _ _ (hm _ _) _ _

theorem same_orNaN {o₁ o₂ : Option F} (h : o₁ = o₂) : Same SameF (orNaN o₁) (orNaN o₂) := by
  subst h
  intro d₁ d₂
  cases o₁ with
  | some v => exact .refl v
  | none => exact .inr ⟨isNaN_of_isQuietNaN (isQuietNaN_quieted _), isNaN_of_isQuietNaN (isQuietNaN_quieted _)⟩

/-! ## IEEE operations: an operand's NaN is not looked into -/

theorem add_same {x x' y y' : F} (hx : SameF x x') (hy : SameF y y') : F.add x y = F.add x' y' := by
  rcases hx with rfl | ⟨h1, h2⟩
  · rcases hy with rfl | ⟨h3, h4⟩
    · rfl
    · simp [F.add, h3, h4]
  · simp [F.add, h1, h2]

theorem isNaN_neg (x : F) : F.isNaN (F.neg x) = F.isNaN x := by
  have h : (F.neg x).toNat % 2 ^ 63 = x.toNat % 2 ^ 63 := by
    rw [F.neg, BitVec.toNat_xor, Nat.xor_mod_two_pow]
    simp
  have he : F.expo (F.neg x) = F.expo x := by unfold F.expo; omega
  have hf : F.frac (F.neg x) = F.frac x := by unfold F.frac; omega
  rw [F.isNaN, F.isNaN, he, hf]

theorem neg_same {x y : F} (h : SameF x y) : SameF (F.neg x) (F.neg y) := by
  rcases h with rfl | ⟨hx, hy⟩
  · exact .refl _
  · exact .inr ⟨by rw [isNaN_neg, hx], by rw [isNaN_neg, hy]⟩

theorem mul_same {x x' y y' : F} (hx : SameF x x') (hy : SameF y y') : F.mul x y = F.mul x' y' := by
  rcases hx with rfl | ⟨h1, h2⟩
  · rcases hy with rfl | ⟨h3, h4⟩
    · rfl
    · simp [F.mul, h3, h4]
  · simp [F.mul, h1, h2]

theorem div_same {x x' y y' : F} (hx : SameF x x') (hy : SameF y y') : F.div x y = F.div x' y' := by
  rcases hx with rfl | ⟨h1, h2⟩
  · rcases hy with rfl | ⟨h3, h4⟩
    · rfl
    · simp [F.div, h3, h4]
  · simp [F.div, h1, h2]

theorem sqrt_same {x y : F} (h : SameF x y) : F.sqrt x = F.sqrt y := by
  rcases h with rfl | ⟨h1, h2⟩
  · rfl
  · simp [F.sqrt, h1, h2]

theorem lt_same {x x' y y' : F} (hx : SameF x x') (hy : SameF y y') : F.lt x y = F.lt x' y' := by
  rcases hx with rfl | ⟨h1, h2⟩
  · rcases hy with rfl | ⟨h3, h4⟩
    · rfl
    · simp [F.lt, h3, h4]
  · simp [F.lt, h1, h2]

variable {x x' y y' : F}

theorem same_fadd (hx : SameF x x') (hy : SameF y y') : Same SameF (fadd x y) (fadd x' y') := same_orNaN (add_same hx hy)
theorem same_fsub (hx : SameF x x') (hy : SameF y y') : Same SameF (fsub x y) (fsub x' y') :=
  same_orNaN (add_same hx (neg_same hy))
theorem same_fmul (hx : SameF x x') (hy : SameF y y') : Same SameF (fmul x y) (fmul x' y') := same_orNaN (mul_same hx hy)
theorem same_fdiv (hx : SameF x x') (hy : SameF y y') : Same SameF (fdiv x y) (fdiv x' y') := same_orNaN (div_same hx hy)
theorem same_fsqrt (hx : SameF x x') : Same SameF (fsqrt x) (fsqrt x') := same_orNaN (sqrt_same hx)

/-! ## Elementary functions: a NaN gives a NaN -/

theorem elementary_isNaN (raw : F → F) {x : F} (h : F.isNaN x = true) : F.isNaN (elementary raw x) = true := by
  unfold elementary
  rw [h]
  exact isNaN_of_isQuietNaN (isQuietNaN_quieted _)

theorem isZero_of_isNaN {x : F} (h : F.isNaN x = true) : F.isZero x = false := by
  unfold F.isNaN at h
  unfold F.isZero
  simp only [Bool.and_eq_true, beq_iff_eq, bne_iff_ne] at h
  rw [h.1]
  rfl

theorem fTan_isNaN {x : F} (h : F.isNaN x = true) : F.isNaN (fTan x) = true := elementary_isNaN _ h

theorem fPow10_isNaN {x : F} (h : F.isNaN x = true) : F.isNaN (fPow10 x) = true := by
  unfold fPow10
  rw [if_neg]
  · exact elementary_isNaN _ h
  · rintro rfl
    exact absurd h (by decide)

theorem fSinh_isNaN {x : F} (h : F.isNaN x = true) : F.isNaN (fSinh x) = true := elementary_isNaN _ h
theorem fCos_isNaN {x : F} (h : F.isNaN x = true) : F.isNaN (fCos x) = true := elementary_isNaN _ h

theorem fSin_isNaN {x : F} (h : F.isNaN x = true) : F.isNaN (fSin x) = true := elementary_isNaN _ h

/-- A function that gives a NaN for a NaN keeps agreement. -/
theorem same_of_isNaN {f : F → F} (hf : ∀ {x}, F.isNaN x = true → F.isNaN (f x) = true) (h : SameF x y) :
    SameF (f x) (f y) := by
  rcases h with rfl | ⟨h1, h2⟩
  · exact .refl _
  · exact .inr ⟨hf h1, hf h2⟩

/-! ## The stage functions -/

theorem same_tick2 (c : SVFCoefficients) {st st' : SVFState} (hs : SameSVF st st') (hx : SameF x x') :
    Same (fun r r' => SameF r.1 r'.1 ∧ SameSVF r.2 r'.2) (tick2 c st x) (tick2 c st' x') :=
  same_bind (R := fun r r' => SameF r.1 r'.1 ∧ SameF r.2.1 r'.2.1 ∧ SameF r.2.2 r'.2.2)
    (same_bind (same_fsub hx hs.2) fun _ _ v3 => same_bind (same_fmul (.refl _) hs.1) fun _ _ p1 =>
      same_bind (same_fmul (.refl _) v3) fun _ _ p2 => same_bind (same_fadd p1 p2) fun _ _ v1 =>
        same_bind (same_fmul (.refl _) hs.1) fun _ _ p3 => same_bind (same_fadd hs.2 p3) fun _ _ p4 =>
          same_bind (same_fmul (.refl _) v3) fun _ _ p5 => same_bind (same_fadd p4 p5) fun _ _ v2 =>
            same_bind (same_fmul (.refl _) v1) fun _ _ t1 => same_bind (same_fsub t1 hs.1) fun _ _ i1 =>
              same_bind (same_fmul (.refl _) v2) fun _ _ t2 => same_bind (same_fsub t2 hs.2) fun _ _ i2 =>
                same_bind (same_fmul (.refl _) hx) fun _ _ q0 => same_bind (same_fmul (.refl _) v1) fun _ _ q1 =>
                  same_bind (same_fmul (.refl _) v2) fun _ _ q2 => same_bind (same_fadd q0 q1) fun _ _ q3 =>
                    same_bind (same_fadd q3 q2) fun _ _ y => same_pure ⟨y, i1, i2⟩)
    fun _ _ h => same_pure ⟨h.1, h.2.1, h.2.2⟩

theorem same_tick1 (c : OnePoleCoefficients) {s s' : F} (hs : SameF s s') (hx : SameF x x') :
    Same (fun r r' => SameF r.1 r'.1 ∧ SameF r.2 r'.2) (tick1 c s x) (tick1 c s' x') :=
  same_bind (same_fsub hx hs) fun _ _ e => same_bind (same_fmul (.refl _) e) fun _ _ v =>
    same_bind (same_fadd v hs) fun _ _ lp => same_bind (same_fadd lp v) fun _ _ s2 =>
      same_bind (same_fmul (.refl _) hx) fun _ _ q0 => same_bind (same_fmul (.refl _) lp) fun _ _ q1 =>
        same_bind (same_fadd q0 q1) fun _ _ y => same_pure ⟨y, s2⟩

/-! ## The path of a sample -/

theorem same_runSlots (cs : Vector SVFCoefficients 4) (l : List (Fin 4)) {st st' : Vector SVFState 4}
    (hs : ∀ i : Fin 4, SameSVF st[i] st'[i]) (hx : SameF x x') :
    Same (fun r r' => SameF r.1 r'.1 ∧ ∀ i : Fin 4, SameSVF r.2[i] r'.2[i]) (runSlots cs l st x) (runSlots cs l st' x') := by
  induction l generalizing st st' x x' with
  | nil => exact same_pure ⟨hx, hs⟩
  | cons i rest ih =>
    refine same_bind (same_tick2 _ (hs i) hx) fun r r' h => ih (fun j => ?_) h.1
    simp only [Fin.getElem_fin, Vector.getElem_set]
    split
    · exact h.2
    · exact hs j

theorem same_runSecond (c : SubCoefficients) (eo : EffOrder) {st st' : SubState} (hs : SameSub st st')
    (hx : SameF x x') :
    Same (fun r r' => SameF r.1 r'.1 ∧ SameSub r.2 r'.2) (runSecond c eo st x) (runSecond c eo st' x') :=
  same_bind (same_runSlots _ _ hs.2 hx) fun _ _ h => same_pure ⟨h.1, hs.1, h.2⟩

theorem same_runSub (c : SubCoefficients) (eo : EffOrder) {st st' : SubState} (hs : SameSub st st')
    (hx : SameF x x') :
    Same (fun r r' => SameF r.1 r'.1 ∧ SameSub r.2 r'.2) (runSub c eo st x) (runSub c eo st' x') := by
  cases eo with
  | o1 => exact same_bind (same_tick1 _ hs.1 hx) fun _ _ h => same_pure ⟨h.1, h.2, hs.2⟩
  | o2 | o4 | o6 | o8 => exact same_runSecond c _ hs hx

/-- Two bands that agree on what a tick reads of them, given the same channel state and sample up to a NaN's bits. -/
theorem same_bandTick {a b : Band} (h : a.samePublished b) {st st' : ChannelState} (hs : SameChannel st st')
    (hx : SameF x x') :
    Same (fun r r' => SameF r.1 r'.1 ∧ SameChannel r.2 r'.2) (bandTick a st x) (bandTick b st' x') := by
  obtain ⟨hA, hB, hk, he, hg, -⟩ := h
  unfold bandTick
  rw [hA, hB, hk, he, hg]
  cases b.kind with
  | mesa =>
    exact same_bind (same_runSecond _ _ hs.1 hx) fun _ _ ra => same_bind (same_runSecond _ _ hs.2 hx) fun _ _ rb =>
      same_bind (same_fadd ra.1 rb.1) fun _ _ sum => same_bind (same_fmul sum (.refl _)) fun _ _ y =>
        same_pure ⟨y, ra.2, rb.2⟩
  | bandPass =>
    exact same_bind (same_runSub _ _ hs.1 hx) fun _ _ ra => same_bind (same_runSub _ _ hs.2 ra.1) fun _ _ rb =>
      same_pure ⟨rb.1, ra.2, rb.2⟩
  | tilt =>
    exact same_bind (same_runSub _ _ hs.1 hx) fun _ _ ra => same_bind (same_fmul ra.1 (.refl _)) fun _ _ y =>
      same_pure ⟨y, ra.2, hs.2⟩
  | bell | lowPass | highPass | lowShelf | highShelf | notch | allPass =>
    exact same_bind (same_runSub _ _ hs.1 hx) fun _ _ ra => same_pure ⟨ra.1, ra.2, hs.2⟩

theorem same_any {α β : Type} (m₁ : FM α) (m₂ : FM β) : Same (fun _ _ => True) m₁ m₂ := fun _ _ => trivial

/-- One channel of a frame through the bank depends on that channel alone (43_band.md R197). -/
theorem same_frameThrough (ch : Channel) {bands bands' : List Band} (h : List.Forall₂ (SamePath ch) bands bands')
    {lr lr' : F × F} (hx : SameF (side ch lr) (side ch lr')) :
    Same (fun r r' => List.Forall₂ (SamePath ch) r.1 r'.1 ∧ SameF (side ch r.2) (side ch r'.2))
      (frameThrough bands lr) (frameThrough bands' lr') := by
  induction h generalizing lr lr' with
  | nil => exact same_pure ⟨.nil, hx⟩
  | @cons a b _ _ hab _ ih =>
    unfold frameThrough
    rw [hab.2.1]
    split
    · cases ch with
      | left =>
        exact same_bind (same_bandTick hab.1 hab.2.2 hx) fun _ _ l => same_bind (same_any _ _) fun _ _ _ =>
          same_bind (ih l.1) fun _ _ m => same_pure ⟨.cons ⟨hab.1, rfl, l.2⟩ m.1, m.2⟩
      | right =>
        exact same_bind (same_any _ _) fun _ _ _ => same_bind (same_bandTick hab.1 hab.2.2 hx) fun _ _ r =>
          same_bind (ih r.1) fun _ _ m => same_pure ⟨.cons ⟨hab.1, rfl, r.2⟩ m.1, m.2⟩
    · exact same_bind (ih hx) fun _ _ m => same_pure ⟨.cons hab m.1, m.2⟩

theorem same_blockThrough (ch : Channel) {xs xs' : List (F × F)}
    (hx : List.Forall₂ (fun x x' => SameF (side ch x) (side ch x')) xs xs') {bands bands' : List Band}
    (h : List.Forall₂ (SamePath ch) bands bands') :
    Same (fun r r' => List.Forall₂ (SamePath ch) r.1 r'.1 ∧
        List.Forall₂ (fun y y' => SameF (side ch y) (side ch y')) r.2 r'.2)
      (blockThrough bands xs) (blockThrough bands' xs') := by
  induction hx generalizing bands bands' with
  | nil => exact same_pure ⟨h, .nil⟩
  | cons hx _ ih =>
    exact same_bind (same_frameThrough ch h hx) fun _ _ r => same_bind (ih r.1) fun _ _ m =>
      same_pure ⟨m.1, .cons r.2 m.2⟩

/-! ## The coefficient factory and the calculators, twice on the same operands -/

variable {g g' k k' m0 m0' m1 m1' m2 m2' : F}

theorem same_tanOf (f0 fs : F) : Same SameF (tanOf f0 fs) (tanOf f0 fs) :=
  same_bind (same_fmul (.refl _) (.refl _)) fun _ _ p => same_bind (same_fdiv p (.refl _)) fun _ _ x =>
    same_pure (same_of_isNaN (fun h => fTan_isNaN h) x)

theorem same_amplitude (gainDb : F) : Same SameF (amplitude gainDb) (amplitude gainDb) :=
  same_bind (same_fdiv (.refl _) (.refl _)) fun _ _ x => same_pure (same_of_isNaN (fun h => fPow10_isNaN h) x)

theorem same_finishRecord (hg : SameF g g') (hk : SameF k k') (h0 : SameF m0 m0') (h1 : SameF m1 m1')
    (h2 : SameF m2 m2') : Same (fun c c' => List.Forall₂ SameF c.toList c'.toList) (finishRecord g k m0 m1 m2)
      (finishRecord g' k' m0' m1' m2') :=
  same_bind (same_fadd hg hk) fun _ _ gk => same_bind (same_fmul hg gk) fun _ _ ggk =>
    same_bind (same_fadd (.refl _) ggk) fun _ _ den => same_bind (same_fdiv (.refl _) den) fun _ _ a1 =>
      same_bind (same_fmul hg a1) fun _ _ a2 => same_bind (same_fmul hg a2) fun _ _ a3 =>
        same_bind (same_fmul hg hg) fun _ _ g2 => same_pure
          (.cons hg (.cons hk (.cons a1 (.cons a2 (.cons a3 (.cons h0 (.cons h1 (.cons h2 (.cons g2 .nil)))))))))

theorem same_record2 (shape : Shape2) (f0 fs q gainDb : F) :
    Same (fun c c' => List.Forall₂ SameF c.toList c'.toList) (record2 shape f0 fs q gainDb)
      (record2 shape f0 fs q gainDb) := by
  refine same_bind (same_tanOf f0 fs) fun _ _ hg => ?_
  have hk : Same SameF (fdiv F.one q) (fdiv F.one q) := same_fdiv (.refl _) (.refl _)
  cases shape with
  | lowPass | bandPass => exact same_bind hk fun _ _ k => same_finishRecord hg k (.refl _) (.refl _) (.refl _)
  | highPass | notch => exact same_bind hk fun _ _ k => same_finishRecord hg k (.refl _) (neg_same k) (.refl _)
  | allPass =>
    exact same_bind hk fun _ _ k => same_bind (same_fmul (.refl _) k) fun _ _ k2 =>
      same_finishRecord hg k (.refl _) (neg_same k2) (.refl _)
  | bell =>
    exact same_bind (same_amplitude _) fun _ _ a => same_bind (same_fmul (.refl _) a) fun _ _ qa =>
      same_bind (same_fdiv (.refl _) qa) fun _ _ k => same_bind (same_fmul a a) fun _ _ aa =>
        same_bind (same_fsub aa (.refl _)) fun _ _ t => same_bind (same_fmul k t) fun _ _ m1 =>
          same_finishRecord hg k (.refl _) m1 (.refl _)
  | lowShelf =>
    exact same_bind (same_amplitude _) fun _ _ a => same_bind (same_fsqrt a) fun _ _ r =>
      same_bind (same_fdiv hg r) fun _ _ g => same_bind hk fun _ _ k =>
        same_bind (same_fsub a (.refl _)) fun _ _ t => same_bind (same_fmul k t) fun _ _ m1 =>
          same_bind (same_fmul a a) fun _ _ aa => same_bind (same_fsub aa (.refl _)) fun _ _ m2 =>
            same_finishRecord g k (.refl _) m1 m2
  | highShelf =>
    exact same_bind (same_amplitude _) fun _ _ a => same_bind (same_fsqrt a) fun _ _ r =>
      same_bind (same_fmul hg r) fun _ _ g => same_bind hk fun _ _ k => same_bind (same_fmul a a) fun _ _ m0 =>
        same_bind (same_fsub (.refl _) a) fun _ _ t => same_bind (same_fmul k t) fun _ _ km =>
          same_bind (same_fmul km a) fun _ _ m1 => same_bind (same_fmul a a) fun _ _ aa =>
            same_bind (same_fsub (.refl _) aa) fun _ _ m2 => same_finishRecord g k m0 m1 m2

theorem same_record1 (shape : Shape1) (f0 fs : F) :
    Same (fun c c' => List.Forall₂ SameF c.toList c'.toList) (record1 shape f0 fs) (record1 shape f0 fs) := by
  refine same_bind (same_tanOf f0 fs) fun _ _ g => same_bind (same_fadd (.refl _) g) fun _ _ den =>
    same_bind (same_fdiv g den) fun _ _ a => ?_
  cases shape <;> exact same_pure (.cons g (.cons a (.cons (.refl _) (.cons (.refl _) .nil))))

theorem same_poleq (order pole : Nat) :
    Same (fun r r' => r.1 = r'.1 ∧ SameF r.2 r'.2) (poleq order pole) (poleq order pole) := by
  have hq : ∀ {angle angle' : F}, SameF angle angle' → Same (fun r r' : Bool × F => r.1 = r'.1 ∧ SameF r.2 r'.2)
      (do let c2 ← fmul F.two (fCos angle); let q ← fdiv F.one c2; pure (false, q))
      (do let c2 ← fmul F.two (fCos angle'); let q ← fdiv F.one c2; pure (false, q)) := fun ha =>
    same_bind (same_fmul (.refl _) (same_of_isNaN (fun h => fCos_isNaN h) ha)) fun _ _ c2 =>
      same_bind (same_fdiv (.refl _) c2) fun _ _ q => same_pure ⟨rfl, q⟩
  refine same_bind (same_fdiv (.refl _) (.refl _)) fun _ _ inc => ?_
  split
  · exact same_bind (same_fdiv inc (.refl _)) fun _ _ h => same_bind (same_fmul (.refl _) inc) fun _ _ p =>
      same_bind (same_fadd h p) fun _ _ angle => hq angle
  · split
    · exact same_pure ⟨rfl, .refl _⟩
    · exact same_bind (same_fmul inc (.refl _)) fun _ _ angle => hq angle

theorem same_scaleRatios (l : List F) (h : SameF x y) :
    Same (List.Forall₂ SameF) (scaleRatios x l) (scaleRatios y l) := by
  induction l with
  | nil => exact same_pure .nil
  | cons r rest ih =>
    exact same_bind (same_fmul (.refl _) h) fun _ _ q => same_bind ih fun _ _ more => same_pure (.cons q more)

theorem same_compressQ (eo : EffOrder) (q : F) : Same SameF (compressQ eo q) (compressQ eo q) := by
  refine same_bind (same_fdiv (.refl _) (.refl _)) fun qn qn' hn => ?_
  rw [lt_same (.refl _) hn]
  split
  · exact same_bind (same_fsub hn (.refl _)) fun _ _ ex => same_bind (same_fmul ex (.refl _)) fun _ _ sc =>
      same_fadd (.refl _) sc
  · exact same_pure hn

theorem same_qdist (eo : EffOrder) (q : F) : Same (List.Forall₂ SameF) (qdist eo q) (qdist eo q) := by
  cases eo with
  | o1 => exact same_pure .nil
  | o2 => exact same_pure (forall₂_sameF_refl _)
  | o4 | o6 | o8 => exact same_bind (same_compressQ _ _) fun _ _ h => same_scaleRatios _ h

theorem same_bw2qCorner (bw : F) (h : SameF x y) : SameF (bw2qCorner bw x) (bw2qCorner bw y) := by
  rcases h with rfl | ⟨h1, h2⟩
  · exact .refl _
  · unfold bw2qCorner
    simp only [h1, h2, Bool.not_true, Bool.and_false, Bool.false_eq_true, if_false]
    split
    · exact .refl _
    · split
      · exact .inr ⟨h1, h2⟩
      · exact .refl _

theorem same_bw2q (bw : F) : Same SameF (bw2q bw) (bw2q bw) :=
  same_bind (same_fdiv (.refl _) (.refl _)) fun _ _ c => same_bind (same_fmul c (.refl _)) fun _ _ x =>
    same_bind (same_fmul (.refl _) (same_of_isNaN (fun h => fSinh_isNaN h) x)) fun _ _ d =>
      same_bind (same_fdiv (.refl _) d) fun _ _ q => same_pure (same_bw2qCorner bw q)

/-! ## The transfer function -/

/-- Two complex values agree up to a NaN's bits. -/
def SameC (u v : Complex64) : Prop := SameF u.re v.re ∧ SameF u.im v.im

theorem SameC.refl (u : Complex64) : SameC u u := ⟨.refl _, .refl _⟩

variable {u u' v v' : Complex64}

theorem same_creal (h : SameF x y) : SameC (creal x) (creal y) := ⟨h, .refl _⟩

theorem same_cadd (hu : SameC u u') (hv : SameC v v') : Same SameC (cadd u v) (cadd u' v') :=
  same_bind (same_fadd hu.1 hv.1) fun _ _ re => same_bind (same_fadd hu.2 hv.2) fun _ _ im => same_pure ⟨re, im⟩

theorem same_csub (hu : SameC u u') (hv : SameC v v') : Same SameC (csub u v) (csub u' v') :=
  same_bind (same_fsub hu.1 hv.1) fun _ _ re => same_bind (same_fsub hu.2 hv.2) fun _ _ im => same_pure ⟨re, im⟩

theorem same_cscale (hx : SameF x x') (hu : SameC u u') : Same SameC (cscale x u) (cscale x' u') :=
  same_bind (same_fmul hx hu.1) fun _ _ re => same_bind (same_fmul hx hu.2) fun _ _ im => same_pure ⟨re, im⟩

theorem same_cmul (hu : SameC u u') (hv : SameC v v') : Same SameC (cmul u v) (cmul u' v') :=
  same_bind (same_fmul hu.1 hv.1) fun _ _ ac => same_bind (same_fmul hu.2 hv.2) fun _ _ bd =>
    same_bind (same_fsub ac bd) fun _ _ re => same_bind (same_fmul hu.1 hv.2) fun _ _ ad =>
      same_bind (same_fmul hu.2 hv.1) fun _ _ bc => same_bind (same_fadd ad bc) fun _ _ im => same_pure ⟨re, im⟩

theorem same_cdiv (hu : SameC u u') (hv : SameC v v') : Same SameC (cdiv u v) (cdiv u' v') :=
  same_bind (same_fmul hv.1 hv.1) fun _ _ cc => same_bind (same_fmul hv.2 hv.2) fun _ _ dd =>
    same_bind (same_fadd cc dd) fun _ _ den => same_bind (same_fmul hu.1 hv.1) fun _ _ ac =>
      same_bind (same_fmul hu.2 hv.2) fun _ _ bd => same_bind (same_fadd ac bd) fun _ _ nr =>
        same_bind (same_fdiv nr den) fun _ _ re => same_bind (same_fmul hu.2 hv.1) fun _ _ bc =>
          same_bind (same_fmul hu.1 hv.2) fun _ _ ad => same_bind (same_fsub bc ad) fun _ _ ni =>
            same_bind (same_fdiv ni den) fun _ _ im => same_pure ⟨re, im⟩

theorem same_zinvLines (f fs : F) :
    Same (fun z z' => SameC z.1 z'.1 ∧ SameC z.2 z'.2) (zinvLines f fs) (zinvLines f fs) :=
  same_bind (same_fmul (.refl _) (.refl _)) fun _ _ tp => same_bind (same_fmul tp (.refl _)) fun _ _ t =>
    same_bind (same_fdiv t (.refl _)) fun _ _ theta =>
      have z1 : SameC _ _ := ⟨same_of_isNaN (fun h => fCos_isNaN h) theta, same_of_isNaN (fun h => fSin_isNaN h) theta⟩
      same_bind (same_cmul z1 z1) fun _ _ z2 => same_pure ⟨z1, z2⟩

theorem same_complexNaN (u v : Complex64) : Same SameC (complexNaN u) (complexNaN v) := fun d₁ d₂ =>
  have h₁ := gives_complexNaN u d₁
  have h₂ := gives_complexNaN v d₂
  ⟨.inr ⟨h₁.1, h₂.1⟩, .inr ⟨h₁.2, h₂.2⟩⟩

theorem same_complexOne (h : SameC u v) : SameC (complexOne u) (complexOne v) := by
  refine ⟨.refl _, ?_⟩
  unfold complexOne
  rcases h.2 with he | ⟨h1, h2⟩
  · rw [he]
    exact .refl _
  · simp only [isZero_of_isNaN h1, isZero_of_isNaN h2, Bool.false_eq_true, if_false]
    exact .refl _

theorem same_zinv (f fs : F) : Same (fun z z' => SameC z.1 z'.1 ∧ SameC z.2 z'.2) (zinv f fs) (zinv f fs) := by
  refine same_bind (same_zinvLines f fs) fun y y' h => ?_
  unfold zinvCorner
  split
  · exact same_bind (same_complexNaN _ _) fun _ _ h1 => same_bind (same_complexNaN _ _) fun _ _ h2 => same_pure ⟨h1, h2⟩
  · split
    · exact same_pure ⟨same_complexOne h.1, same_complexOne h.2⟩
    · exact same_pure h

theorem same_h2 (c : SVFCoefficients) (f fs : F) : Same SameC (h2 c f fs) (h2 c f fs) :=
  same_bind (same_zinv f fs) fun _ _ z => same_bind (same_fmul (.refl _) (.refl _)) fun _ _ gk =>
    same_bind (same_fadd (.refl _) gk) fun _ _ g2gk => same_bind (same_fadd g2gk (.refl _)) fun _ _ d0 =>
      same_bind (same_fsub (.refl _) (.refl _)) fun _ _ g2m1 => same_bind (same_fmul (.refl _) g2m1) fun _ _ d1 =>
        same_bind (same_fsub (.refl _) gk) fun _ _ g2mgk => same_bind (same_fadd g2mgk (.refl _)) fun _ _ d2 =>
          same_bind (same_cscale d1 z.1) fun _ _ dz1 => same_bind (same_cadd (same_creal d0) dz1) fun _ _ den0 =>
            same_bind (same_cscale d2 z.2) fun _ _ dz2 => same_bind (same_cadd den0 dz2) fun _ _ den =>
              same_bind (same_fmul (.refl _) (.refl _)) fun _ _ m1g =>
                same_bind (same_csub (.refl _) z.2) fun _ _ om => same_bind (same_cscale m1g om) fun _ _ nb =>
                  same_bind (same_fmul (.refl _) (.refl _)) fun _ _ m2g2 =>
                    same_bind (same_cscale (.refl _) z.1) fun _ _ tz => same_bind (same_cadd (.refl _) tz) fun _ _ l0 =>
                      same_bind (same_cadd l0 z.2) fun _ _ l1 => same_bind (same_cscale m2g2 l1) fun _ _ nl =>
                        same_bind (same_cadd nb nl) fun _ _ num => same_bind (same_cdiv num den) fun _ _ quot =>
                          same_cadd (.refl _) quot

theorem same_h1 (c : OnePoleCoefficients) (f fs : F) : Same SameC (h1 c f fs) (h1 c f fs) :=
  same_bind (same_zinv f fs) fun _ _ z => same_bind (same_fmul (.refl _) (.refl _)) fun _ _ m1g =>
    same_bind (same_cadd (.refl _) z.1) fun _ _ op => same_bind (same_cscale m1g op) fun _ _ num =>
      same_bind (same_fadd (.refl _) (.refl _)) fun _ _ gp1 => same_bind (same_fsub (.refl _) (.refl _)) fun _ _ gm1 =>
        same_bind (same_cscale gm1 z.1) fun _ _ gz => same_bind (same_cadd (same_creal gp1) gz) fun _ _ den =>
          same_bind (same_cdiv num den) fun _ _ quot => same_cadd (.refl _) quot

theorem same_productOver (cs : Vector SVFCoefficients 4) (f fs : F) (l : List (Fin 4)) (h : SameC u v) :
    Same SameC (productOver cs f fs l u) (productOver cs f fs l v) := by
  induction l generalizing u v with
  | nil => exact same_pure h
  | cons i rest ih => exact same_bind (same_h2 _ _ _) fun _ _ hh => same_bind (same_cmul h hh) fun _ _ acc => ih acc

theorem same_subResponse (c : SubCoefficients) (eo : EffOrder) (f fs : F) :
    Same SameC (subResponse c eo f fs) (subResponse c eo f fs) := by
  cases eo with
  | o1 => exact same_h1 _ _ _
  | o2 | o4 | o6 | o8 => exact same_bind (same_h2 _ _ _) fun _ _ h => same_productOver _ _ _ _ h

theorem same_bandResponse {a b : Band} (h : a.samePublished b) (f : F) :
    Same SameC (bandResponse a f) (bandResponse b f) := by
  obtain ⟨hA, hB, hk, he, hg, hf⟩ := h
  unfold bandResponse
  rw [hA, hB, hk, he, hg, hf]
  cases b.kind with
  | mesa =>
    exact same_bind (same_subResponse _ _ _ _) fun _ _ ha => same_bind (same_subResponse _ _ _ _) fun _ _ hb =>
      same_bind (same_cadd ha hb) fun _ _ sum => same_cscale (.refl _) sum
  | bandPass =>
    exact same_bind (same_subResponse _ _ _ _) fun _ _ ha => same_bind (same_subResponse _ _ _ _) fun _ _ hb =>
      same_cmul ha hb
  | tilt => exact same_bind (same_subResponse _ _ _ _) fun _ _ ha => same_cscale (.refl _) ha
  | bell | lowPass | highPass | lowShelf | highShelf | notch | allPass => exact same_subResponse _ _ _ _

end Sys2Proof.Machine
end

