-- ==== Sys2Proof/Laws/Update.lean ====
section
/-! SUPPORT. What the build step of an update gives: cascades, their concatenation, and the whole of `prepareUpdate`. -/

namespace Sys2Proof.Machine

/-- The computation gives success with a list that meets `P`. -/
def Builds (m : FM (Except (FaultCode × Slot) (List BuiltStage))) (P : List BuiltStage → Prop) : Prop :=
  Gives m fun r => ∃ l, P l ∧ r = .ok l

theorem builds_nil (fs : F) : Builds (buildStages fs []) fun l => l = [] := gives_pure ⟨[], rfl, rfl⟩

/-- One stage that is built, then the rest. -/
theorem builds_cons {fs : F} {st : PlannedStage} {rest : List PlannedStage} {P : BuiltStage → Prop}
    {Q : List BuiltStage → Prop} (h : Gives (buildStage fs st) fun r => ∃ c, P c ∧ r = .ok c)
    (hr : Builds (buildStages fs rest) Q) :
    Builds (buildStages fs (st :: rest)) fun l => ∃ c l', P c ∧ Q l' ∧ l = c :: l' := by
  refine gives_bind h fun r ⟨c, hc, hrc⟩ => ?_
  subst hrc
  refine gives_bind hr fun r' ⟨l', hl', hr'⟩ => ?_
  subst hr'
  exact gives_pure ⟨c :: l', ⟨c, l', hc, hl', rfl⟩, rfl⟩

theorem buildStages_cons (fs : F) (st : PlannedStage) (rest : List PlannedStage) :
    buildStages fs (st :: rest) = buildStage fs st >>= fun r =>
      match r with
      | .error k => pure (.error (k, st.slot))
      | .ok b => buildStages fs rest >>= fun more => pure (more.map (b :: ·)) := rfl

/-- Building a concatenation: the first list, and if none of it faults the second. -/
theorem buildStages_append (fs : F) (l₁ l₂ : List PlannedStage) :
    buildStages fs (l₁ ++ l₂) = buildStages fs l₁ >>= fun r =>
      match r with
      | .error e => pure (.error e)
      | .ok a => buildStages fs l₂ >>= fun r' => pure (r'.map (a ++ ·)) := by
  induction l₁ with
  | nil =>
    change buildStages fs l₂ = buildStages fs l₂ >>= fun r' => pure (r'.map ([] ++ ·))
    have h : (fun r' : Except (FaultCode × Slot) (List BuiltStage) => (pure (r'.map ([] ++ ·)) : FM _)) = pure := by
      funext r'
      cases r' <;> rfl
    rw [h, bind_pure]
  | cons st rest ih =>
    rw [List.cons_append, buildStages_cons, buildStages_cons, bind_assoc]
    refine congrArg (buildStage fs st >>= ·) (funext fun r => ?_)
    cases r with
    | error k => rfl
    | ok c =>
      dsimp only
      rw [ih, bind_assoc, bind_assoc]
      refine congrArg (buildStages fs rest >>= ·) (funext fun r => ?_)
      cases r with
      | error e => rfl
      | ok l =>
        rw [pure_bind]
        dsimp only [Except.map]
        rw [bind_assoc]
        refine congrArg (buildStages fs l₂ >>= ·) (funext fun r => ?_)
        cases r <;> rfl

theorem builds_append {fs : F} {l₁ l₂ : List PlannedStage} {P Q : List BuiltStage → Prop}
    (h₁ : Builds (buildStages fs l₁) P) (h₂ : Builds (buildStages fs l₂) Q) :
    Builds (buildStages fs (l₁ ++ l₂)) fun l => ∃ a b, P a ∧ Q b ∧ l = a ++ b := by
  unfold Builds
  rw [buildStages_append]
  refine gives_bind h₁ fun r ⟨a, ha, hr⟩ => ?_
  subst hr
  refine gives_bind h₂ fun r' ⟨b, hb, hr'⟩ => ?_
  subst hr'
  exact gives_pure ⟨a ++ b, ⟨a, b, ha, hb, rfl⟩, rfl⟩

/-- A cascade at a legal corner with positive Qs builds. -/
theorem builds_cascade {fs f0 : F} (hc : CornerLegal f0 fs) (sub : SubCascade) (shape : Shape2) (gainDb : F)
    {qs : List F} (hq : ∀ q ∈ qs, F.lt F.zero q = true) (hl : qs.length ≤ 4) :
    Builds (buildStages fs (cascadeStages sub shape f0 gainDb qs)) (IsCascade sub shape f0 fs gainDb qs) := by
  have general : ∀ (is : List (Fin 4)) (qs : List F), (∀ q ∈ qs, F.lt F.zero q = true) → qs.length ≤ is.length →
      Builds (buildStages fs ((is.zip qs).map fun iq => .second sub iq.1 shape f0 iq.2 gainDb)) fun l =>
        ∃ cs, List.Forall₂ (fun q c => IsRecord2 shape f0 fs q gainDb c) qs cs ∧
          l = (is.zip cs).map fun ic => .second sub ic.1 ic.2 := by
    intro is qs hq
    induction qs generalizing is with
    | nil =>
      intro _
      rw [List.zip_nil_right]
      exact gives_mono (builds_nil fs) fun r ⟨l, hl, hr⟩ => ⟨l, ⟨[], .nil, by rw [hl, List.zip_nil_right]; rfl⟩, hr⟩
    | cons q rest ih =>
      intro hlen
      cases is with
      | nil => simp at hlen
      | cons i is =>
        have h1 := gives_buildStage_second hc (hq q List.mem_cons_self) sub i shape gainDb
        have h2 := ih is (fun x hx => hq x (List.mem_cons_of_mem _ hx)) (by simpa using hlen)
        have := builds_cons (rest := (is.zip rest).map fun iq => .second sub iq.1 shape f0 iq.2 gainDb)
          (P := fun x => ∃ c, IsRecord2 shape f0 fs q gainDb c ∧ x = .second sub i c)
          (gives_mono h1 fun r ⟨c, hc, hr⟩ => ⟨_, ⟨c, hc, rfl⟩, hr⟩) h2
        refine gives_mono this fun r ⟨l, ⟨x, l', ⟨c, hc, hx⟩, ⟨cs, hcs, hl'⟩, hl⟩, hr⟩ => ?_
        exact ⟨l, ⟨c :: cs, .cons hc hcs, by rw [hl, hx, hl']; rfl⟩, hr⟩
  exact general [0, 1, 2, 3] qs hq hl

theorem isQList_length {eo : EffOrder} {q : F} {qs : List F} (h : IsQList eo q qs) : qs.length = eo.stages := by
  cases eo with
  | o1 => rw [show qs = [] from h]; rfl
  | o2 => rw [show qs = [q] from h]; rfl
  | o4 => obtain ⟨sc, -, hl⟩ := h; rw [← hl.length_eq]; rfl
  | o6 => obtain ⟨sc, -, hl⟩ := h; rw [← hl.length_eq]; rfl
  | o8 => obtain ⟨sc, -, hl⟩ := h; rw [← hl.length_eq]; rfl

/-- A cascade over the stage Qs of a positive Q builds at a legal corner. -/
theorem builds_qcascade {fs f0 q : F} {eo : EffOrder} {qs : List F} (hc : CornerLegal f0 fs)
    (hq : F.lt F.zero q = true) (hqs : IsQList eo q qs) (sub : SubCascade) (shape : Shape2) (gainDb : F) :
    Builds (buildStages fs (cascadeStages sub shape f0 gainDb qs)) (IsCascade sub shape f0 fs gainDb qs) :=
  builds_cascade hc sub shape gainDb (isQList_pos hq hqs) (by rw [isQList_length hqs]; cases eo <;> decide)

/-- The build step of an update, from what its plan gives. `R` ties the plan to the Q. -/
theorem gives_prepareUpdate {plan : F → F → EffOrder → FM Plan} {eo : EffOrder} {bwf : Bool} {freq bw fs : F}
    {R : F → Plan → Prop} {S : List BuiltStage → F → Prop}
    (hp : ∀ q, IsUpdateQ bwf bw q → Gives (plan (clampFreq freq) q eo) (R q))
    (hb : ∀ q p, IsUpdateQ bwf bw q → R q p → Builds (buildStages fs p.stages) fun l => S l p.gpost) :
    Gives (prepareUpdate plan eo bwf freq bw fs) fun r => ∃ l g, S l g ∧ r = .ok (l, g) := by
  refine gives_bind (gives_updateQ bwf bw) fun q hq => gives_bind (hp q hq) fun p hpl => ?_
  refine gives_bind (hb q p hq hpl) fun r hr => ?_
  obtain ⟨l, hl, rfl⟩ := hr
  exact gives_pure ⟨l, p.gpost, hl, rfl⟩

/-- An update that reaches its build step and builds, commits. -/
theorem commits_of_builds {s : State} {i : Instr} {kind : FilterKind} {b : BitVec 4} {band : Band} {ord : BitVec 8}
    {bwf : Bool} {freq gain bw fs : F} {plan : F → F → EffOrder → FM Plan} {good : List BuiltStage → F → Prop}
    (hi : exec i s = .next (updateBand kind plan b ord bwf freq gain bw fs s))
    (hr : UpdateReaches s kind b band ord bwf freq gain bw fs)
    (hg : Gives (prepareUpdate plan (effOrder kind ord) bwf freq bw fs) fun r => ∃ l g, good l g ∧ r = .ok (l, g)) :
    Commits s i kind b band ord bwf freq gain bw fs good := by
  obtain ⟨hp, hb, h1, h8, hne⟩ := hr
  have hord : orderLegal ord = true := by simp [orderLegal, h1, h8]
  have hdc : dirtyCheckHit band.prev kind ord bwf freq gain bw fs = false := by
    rw [← Bool.not_eq_true]
    intro h
    apply hne
    cases hpv : band.prev with
    | mk v k o w f g bb ff =>
      rw [hpv] at h
      simp [dirtyCheckHit] at h
      simp [h]
  obtain ⟨l, g, hlg, hr⟩ := hg s.draws
  refine ⟨l, g, (prepareUpdate plan (effOrder kind ord) bwf freq bw fs s.draws).2, hlg, ?_⟩
  rw [hi]
  unfold updateBand State.compute
  dsimp only
  rw [State.rtOnly_rt hp, State.onBand_some hb, hord, hdc, hr]
  rfl

/-- An update that reaches its build step and faults there. -/
theorem faults_of_builds {s : State} {i : Instr} {kind : FilterKind} {b : BitVec 4} {band : Band} {ord : BitVec 8}
    {bwf : Bool} {freq gain bw fs : F} {plan : F → F → EffOrder → FM Plan} {k : FaultCode} {slot : Slot}
    (hi : exec i s = .next (updateBand kind plan b ord bwf freq gain bw fs s))
    (hh : i.header = updateHeader kind b ord bwf)
    (hr : UpdateReaches s kind b band ord bwf freq gain bw fs)
    (hg : Gives (prepareUpdate plan (effOrder kind ord) bwf freq bw fs) fun r => r = .error (k, slot)) :
    ∃ d, exec i s = .next (State.raise { s with draws := d } i.header k (slot.number.setWidth 16)) := by
  obtain ⟨hp, hb, h1, h8, hne⟩ := hr
  have hord : orderLegal ord = true := by simp [orderLegal, h1, h8]
  have hdc : dirtyCheckHit band.prev kind ord bwf freq gain bw fs = false := by
    rw [← Bool.not_eq_true]
    intro h
    apply hne
    cases hpv : band.prev with
    | mk v k o w f g bb ff =>
      rw [hpv] at h
      simp [dirtyCheckHit] at h
      simp [h]
  refine ⟨(prepareUpdate plan (effOrder kind ord) bwf freq bw fs s.draws).2, ?_⟩
  rw [hi, hh]
  unfold updateBand State.compute
  dsimp only
  rw [State.rtOnly_rt hp, State.onBand_some hb, hord, hdc, hg s.draws]
  rfl

end Sys2Proof.Machine
end

