-- ==== Sys2Proof/Tests/Slice0.lean ====
section
/-! SUPPORT. The model's own tests. Expected values are those of spec/95_test_vectors.md (the vector is named at each
test), of the examples of the rules, or worked out by hand from the encoding tables. -/

namespace Sys2Proof.Tests

set_option Elab.async false

open Sys2Proof.Machine

/-! ## A small machine -/

/-- The reference configuration of 95_test_vectors.md; the Mesa parameters are those of V30's first illustration. -/
def cfg : Config := ⟨65536, .high, .low, F.zero, F.zero, 0x40E7700000000000#64, 0x3FE6A09E65DC27DF#64⟩

/-- The Bell record of V10. -/
def v10 : SVFCoefficients := ⟨0x3FB0C774D5420EED#64, 0x3FE6A77DEAE8AB8A#64, 0x3FEE74BA5E77CBA6#64,
  0x3FAFF06490A59973#64, 0x3F70BF45D5FCEAFC#64, 0x3FF0000000000000#64, 0x3FE68C0404E83096#64, 0x0000000000000000#64,
    0x3F7198A018120866#64⟩

/-- The reset record of V35b. -/
def v35 : SVFCoefficients := ⟨0x3FB0C774D5420EED#64, 0x3FF6A09E67224FBA#64, 0x3FED2BB7CDC0F258#64,
  0x3FAE975C8D930445#64, 0x3F700A5B3EE8141C#64, 0x3FF0000000000000#64, 0x0000000000000000#64, 0x0000000000000000#64,
    0x3F7198A018120866#64⟩

/-- The first-order record of V13. -/
def v13 : OnePoleCoefficients := ⟨0x3FB0C774D5420EED#64, 0x3FAF7E7874159848#64, 0x0000000000000000#64,
  0x3FF0000000000000#64⟩

/-- A band at reset in the reference configuration (V35b). -/
def resting : Band := resetBand cfg v35 v13

/-- The dirty-check key of the `UPDATE.BELL` of P1 step 1. -/
def bellKey : Prev := ⟨true, .bell, 2, false, 0x408F400000000000#64, 0x4018000000000000#64, 0x3FF0000000000000#64,
  0x40E7700000000000#64⟩

/-- Band 0 after P1 steps 1 and 2: the Bell of V10, enabled. -/
def belled : Band :=
  { resting with coefA := ⟨v13, resting.coefA.second.set 0 v10⟩, prev := bellKey, en := true }

/-- Band 0 after P2 step 3: the state of V5's first tick in slot 1, both channels. -/
def rung : Band :=
  { belled with
    left := ⟨⟨F.zero, ChannelState.zero.subA.second.set 0 ⟨0x3FBFF06490A59973#64, 0x3F80BF45D5FCEAFC#64⟩⟩,
      SubState.zero⟩
    right := ⟨⟨F.zero, ChannelState.zero.subA.second.set 0 ⟨0x3FBFF06490A59973#64, 0x3F80BF45D5FCEAFC#64⟩⟩,
      SubState.zero⟩ }

/-- A machine with the given bands, nothing sent, an operation in execution on port `p`. -/
def machine (p : Port) (bands : List Band) : State :=
  ⟨bands, 0, 0, 0, F.zero, cfg, [], [], [], p, 0⟩

/-- Four bands at reset. -/
def fresh : State := machine .rt [resting, resting, resting, resting]

/-- The state an operation leaves. -/
def after (i : Instr) (s : State) : State :=
  match exec i s with
  | .next t => t
  | .fault _ => s
  | .refused _ => s

/-- The one response an operation sends on the RT port. -/
def answer (i : Instr) (s : State) : Packet := (after i s).rtOut.headD []

/-- The response to a command packet, and `LASTFAULT` after it. -/
def reply (p : Port) (packet : Packet) (s : State) : Packet × Word :=
  match step { s with inbox := [.command p (packet.headD 0) packet.tail] } with
  | .next t => ((t.out p).headD [], t.lastFault)
  | .fault _ => ([], 0)
  | .refused _ => ([], 0)

/-- The result of a computation, the draw counter at 0. -/
def result {α : Type} (m : FM α) : α := (m 0).1

/-! ## Well-formedness -/

/-- A block longer than `MAX_BLOCK` has no packet (30_encoding.md R79 g). -/
theorem test_illformed_procb_maxBlock : Instr.wf 1 (.procb [(0, 0), (0, 0)]) = false := by decide

/-- A frame count that does not fit the count word has no packet (R73). -/
theorem test_illformed_procb_count :
    (fun n : Nat => decide (n < 2 ^ 32) && decide (n ≤ 2 ^ 40)) (2 ^ 32) = false := by decide

/-- Blocks up to `MAX_BLOCK` are well formed. -/
theorem test_wellformed_procb : Instr.wf 2 (.procb [(0, 0), (0, 0)]) = true := by decide

/-! ## Decoding, a word for every constructor -/

/-- `TICK2` and `TICK1` (30_encoding.md R74, R77; V1, V2). -/
theorem test_decode_datapath :
    decode 65536 .rt 0x01000000#32 [0x00000000#32, 0x3FE00000#32, 0x00000000#32, 0x3FD00000#32, 0x00000000#32,
      0x3FC00000#32, 0x00000000#32, 0x3FF00000#32, 0x00000000#32, 0x3FE00000#32, 0x00000000#32, 0x3FD00000#32,
        0x00000000#32, 0x3FF00000#32, 0x00000000#32, 0x40000000#32, 0x00000000#32, 0x40100000#32] =
      .ok (.tick2 0x3FE0000000000000#64 0x3FD0000000000000#64 0x3FC0000000000000#64 0x3FF0000000000000#64
        0x3FE0000000000000#64 0x3FD0000000000000#64 0x3FF0000000000000#64 0x4000000000000000#64
          0x4010000000000000#64) ∧
    decode 65536 .q 0x02000000#32 [0x00000000#32, 0x3FD00000#32, 0x00000000#32, 0x00000000#32, 0x00000000#32,
      0x3FF00000#32, 0x00000000#32, 0x3FF00000#32, 0x00000000#32, 0x40140000#32] =
      .ok (.tick1 0x3FD0000000000000#64 0x0000000000000000#64 0x3FF0000000000000#64 0x3FF0000000000000#64
        0x4014000000000000#64) := by decide

/-- The five gain-less `COEF` shapes, codes 1, 2, 6, 5, 9 (41_coefficient_factory.md R120; V11). -/
theorem test_decode_coef3 :
    decode 65536 .rt 0x10010000#32 [0x00000000#32, 0x408F4000#32, 0x00000000#32, 0x40E77000#32, 0x00000000#32,
      0x40000000#32] =
      .ok (.coefLp 0x408F400000000000#64 0x40E7700000000000#64 0x4000000000000000#64) ∧
    decode 65536 .rt 0x10020000#32 [0x00000000#32, 0x408F4000#32, 0x00000000#32, 0x40E77000#32, 0x00000000#32,
      0x40000000#32] =
      .ok (.coefHp 0x408F400000000000#64 0x40E7700000000000#64 0x4000000000000000#64) ∧
    decode 65536 .rt 0x10060000#32 [0x00000000#32, 0x408F4000#32, 0x00000000#32, 0x40E77000#32, 0x00000000#32,
      0x40000000#32] =
      .ok (.coefBp 0x408F400000000000#64 0x40E7700000000000#64 0x4000000000000000#64) ∧
    decode 65536 .rt 0x10050000#32 [0x00000000#32, 0x408F4000#32, 0x00000000#32, 0x40E77000#32, 0x00000000#32,
      0x40000000#32] =
      .ok (.coefNotch 0x408F400000000000#64 0x40E7700000000000#64 0x4000000000000000#64) ∧
    decode 65536 .rt 0x10090000#32 [0x00000000#32, 0x408F4000#32, 0x00000000#32, 0x40E77000#32, 0x00000000#32,
      0x40000000#32] =
      .ok (.coefAp 0x408F400000000000#64 0x40E7700000000000#64 0x4000000000000000#64) := by decide

/-- The three `COEF` shapes with a gain, codes 0, 3, 4, and the two first-order ones, codes 10, 11 (R120; V10, V13). -/
theorem test_decode_coef4 :
    decode 65536 .q 0x10000000#32 [0x00000000#32, 0x408F4000#32, 0x00000000#32, 0x40E77000#32, 0x00000000#32,
      0x40000000#32, 0x00000000#32, 0x40180000#32] =
      .ok (.coefBell 0x408F400000000000#64 0x40E7700000000000#64 0x4000000000000000#64 0x4018000000000000#64) ∧
    decode 65536 .q 0x10030000#32 [0x00000000#32, 0x408F4000#32, 0x00000000#32, 0x40E77000#32, 0x00000000#32,
      0x40000000#32, 0x00000000#32, 0x40180000#32] =
      .ok (.coefLs 0x408F400000000000#64 0x40E7700000000000#64 0x4000000000000000#64 0x4018000000000000#64) ∧
    decode 65536 .q 0x10040000#32 [0x00000000#32, 0x408F4000#32, 0x00000000#32, 0x40E77000#32, 0x00000000#32,
      0x40000000#32, 0x00000000#32, 0x40180000#32] =
      .ok (.coefHs 0x408F400000000000#64 0x40E7700000000000#64 0x4000000000000000#64 0x4018000000000000#64) ∧
    decode 65536 .q 0x100A0000#32 [0x00000000#32, 0x408F4000#32, 0x00000000#32, 0x40E77000#32] =
      .ok (.coefLp1 0x408F400000000000#64 0x40E7700000000000#64) ∧
    decode 65536 .q 0x100B0000#32 [0x00000000#32, 0x408F4000#32, 0x00000000#32, 0x40E77000#32] =
      .ok (.coefHp1 0x408F400000000000#64 0x40E7700000000000#64) := by decide

/-- `POLEQ`, `QDIST`, `BW2Q` (V20, V21, V22). -/
theorem test_decode_calculators :
    decode 65536 .rt 0x18000401#32 [] =
      .ok (.poleq 4 1) ∧
    decode 65536 .rt 0x19000400#32 [0x00000000#32, 0x3FF00000#32] =
      .ok (.qdist 4 0x3FF0000000000000#64) ∧
    decode 65536 .q 0x1A000000#32 [0x00000000#32, 0x3FF00000#32] =
      .ok (.bw2q 0x3FF0000000000000#64) := by decide

/-- `UPDATE` of kinds 0 to 4; `BAND` 2, `ORD` 3, `BWF` 1 (43_band.md R171). -/
theorem test_decode_update_0_4 :
    decode 65536 .rt 0x20200301#32 [0x00000000#32, 0x408F4000#32, 0x00000000#32, 0x40080000#32, 0x65DC27DF#32,
      0x3FE6A09E#32, 0x00000000#32, 0x40E77000#32] =
      .ok (.updateBell 2 3 true 0x408F400000000000#64 0x4008000000000000#64 0x3FE6A09E65DC27DF#64
        0x40E7700000000000#64) ∧
    decode 65536 .rt 0x20210301#32 [0x00000000#32, 0x408F4000#32, 0x00000000#32, 0x40080000#32, 0x65DC27DF#32,
      0x3FE6A09E#32, 0x00000000#32, 0x40E77000#32] =
      .ok (.updateLp 2 3 true 0x408F400000000000#64 0x4008000000000000#64 0x3FE6A09E65DC27DF#64
        0x40E7700000000000#64) ∧
    decode 65536 .rt 0x20220301#32 [0x00000000#32, 0x408F4000#32, 0x00000000#32, 0x40080000#32, 0x65DC27DF#32,
      0x3FE6A09E#32, 0x00000000#32, 0x40E77000#32] =
      .ok (.updateHp 2 3 true 0x408F400000000000#64 0x4008000000000000#64 0x3FE6A09E65DC27DF#64
        0x40E7700000000000#64) ∧
    decode 65536 .rt 0x20230301#32 [0x00000000#32, 0x408F4000#32, 0x00000000#32, 0x40080000#32, 0x65DC27DF#32,
      0x3FE6A09E#32, 0x00000000#32, 0x40E77000#32] =
      .ok (.updateLs 2 3 true 0x408F400000000000#64 0x4008000000000000#64 0x3FE6A09E65DC27DF#64
        0x40E7700000000000#64) ∧
    decode 65536 .rt 0x20240301#32 [0x00000000#32, 0x408F4000#32, 0x00000000#32, 0x40080000#32, 0x65DC27DF#32,
      0x3FE6A09E#32, 0x00000000#32, 0x40E77000#32] =
      .ok (.updateHs 2 3 true 0x408F400000000000#64 0x4008000000000000#64 0x3FE6A09E65DC27DF#64
        0x40E7700000000000#64) := by decide

/-- `UPDATE` of kinds 5 to 9; `BAND` 15, `ORD` 255, `BWF` 0. -/
theorem test_decode_update_5_9 :
    decode 65536 .rt 0x20F5FF00#32 [0x00000000#32, 0x408F4000#32, 0x00000000#32, 0x40080000#32, 0x65DC27DF#32,
      0x3FE6A09E#32, 0x00000000#32, 0x40E77000#32] =
      .ok (.updateNotch 15 255 false 0x408F400000000000#64 0x4008000000000000#64 0x3FE6A09E65DC27DF#64
        0x40E7700000000000#64) ∧
    decode 65536 .rt 0x20F6FF00#32 [0x00000000#32, 0x408F4000#32, 0x00000000#32, 0x40080000#32, 0x65DC27DF#32,
      0x3FE6A09E#32, 0x00000000#32, 0x40E77000#32] =
      .ok (.updateBp 15 255 false 0x408F400000000000#64 0x4008000000000000#64 0x3FE6A09E65DC27DF#64
        0x40E7700000000000#64) ∧
    decode 65536 .rt 0x20F7FF00#32 [0x00000000#32, 0x408F4000#32, 0x00000000#32, 0x40080000#32, 0x65DC27DF#32,
      0x3FE6A09E#32, 0x00000000#32, 0x40E77000#32] =
      .ok (.updateTilt 15 255 false 0x408F400000000000#64 0x4008000000000000#64 0x3FE6A09E65DC27DF#64
        0x40E7700000000000#64) ∧
    decode 65536 .rt 0x20F8FF00#32 [0x00000000#32, 0x408F4000#32, 0x00000000#32, 0x40080000#32, 0x65DC27DF#32,
      0x3FE6A09E#32, 0x00000000#32, 0x40E77000#32] =
      .ok (.updateMesa 15 255 false 0x408F400000000000#64 0x4008000000000000#64 0x3FE6A09E65DC27DF#64
        0x40E7700000000000#64) ∧
    decode 65536 .rt 0x20F9FF00#32 [0x00000000#32, 0x408F4000#32, 0x00000000#32, 0x40080000#32, 0x65DC27DF#32,
      0x3FE6A09E#32, 0x00000000#32, 0x40E77000#32] =
      .ok (.updateAp 15 255 false 0x408F400000000000#64 0x4008000000000000#64 0x3FE6A09E65DC27DF#64
        0x40E7700000000000#64) := by decide

/-- `BRESET`, `ENABLE`, `DISABLE`, `SRATE`, `PROC`, `PROCB` (P1, P2). -/
theorem test_decode_bank :
    decode 65536 .rt 0x21300000#32 [] =
      .ok (.breset 3) ∧
    decode 65536 .rt 0x22100000#32 [] =
      .ok (.enable 1) ∧
    decode 65536 .rt 0x23F00000#32 [] =
      .ok (.disable 15) ∧
    decode 65536 .rt 0x24000000#32 [0x00000000#32, 0x40E77000#32] =
      .ok (.srate 0x40E7700000000000#64) ∧
    decode 65536 .rt 0x28000000#32 [0x00000000#32, 0x3FF00000#32, 0x00000000#32, 0xBFF00000#32] =
      .ok (.proc 0x3FF0000000000000#64 0xBFF0000000000000#64) ∧
    decode 65536 .rt 0x29000000#32 [0x00000002#32, 0x00000000#32, 0x3FF00000#32, 0x00000000#32, 0x3FE00000#32,
      0x00000000#32, 0x00000000#32, 0x00000000#32, 0x40140000#32] =
      .ok (.procb [(0x3FF0000000000000#64, 0x3FE0000000000000#64), (0x0000000000000000#64, 0x4014000000000000#64)])
        := by decide

/-- `HSTAGE2`, `HSTAGE1`, `BODE` (V31, V37, P4). -/
theorem test_decode_response :
    decode 65536 .q 0x30000000#32 [0xD5420EED#32, 0x3FB0C774#32, 0xEAE8AB8A#32, 0x3FE6A77D#32, 0x5E77CBA6#32,
      0x3FEE74BA#32, 0x90A59973#32, 0x3FAFF064#32, 0xD5FCEAFC#32, 0x3F70BF45#32, 0x00000000#32, 0x3FF00000#32,
        0x04E83096#32, 0x3FE68C04#32, 0x00000000#32, 0x00000000#32, 0x18120866#32, 0x3F7198A0#32, 0x00000000#32,
          0x408F4000#32, 0x00000000#32, 0x40E77000#32] =
      .ok (.hstage2 v10 0x408F400000000000#64 0x40E7700000000000#64) ∧
    decode 65536 .q 0x31000000#32 [0xD5420EED#32, 0x3FB0C774#32, 0x74159848#32, 0x3FAF7E78#32, 0x00000000#32,
      0x00000000#32, 0x00000000#32, 0x3FF00000#32, 0x00000000#32, 0x408F4000#32, 0x00000000#32, 0x40E77000#32] =
      .ok (.hstage1 v13 0x408F400000000000#64 0x40E7700000000000#64) ∧
    decode 65536 .q 0x32200000#32 [0x00000000#32, 0x408F4000#32] =
      .ok (.bode 2 0x408F400000000000#64) := by decide

/-- `RDCOEF`, `RDSTATE`, `RDCSR`, `RDBAND`: slots and channel in `AUX` (46_readback.md; P1, V45). -/
theorem test_decode_readback :
    decode 65536 .q 0x38100009#32 [] =
      .ok (.rdcoef 1 (.second .B 3)) ∧
    decode 65536 .q 0x38000005#32 [] =
      .ok (.rdcoef 0 (.first .B)) ∧
    decode 65536 .rt 0x39200011#32 [] =
      .ok (.rdstate 2 (.second .A 0) .right) ∧
    decode 65536 .rt 0x39000000#32 [] =
      .ok (.rdstate 0 (.first .A) .left) ∧
    decode 65536 .q 0x3A000006#32 [] =
      .ok (.rdcsr .fs) ∧
    decode 65536 .q 0x3B100000#32 [] =
      .ok (.rdband 1) := by decide

/-! ## Faults: response and `LASTFAULT` -/

/-- F1, F3, F4, F23: an unknown opcode, and kinds that name nothing. -/
theorem test_fault_opcode_kind :
    reply .rt [0xFF000000#32] fresh = ([0xFF040000#32], 0x0000FF04#32) ∧
    reply .rt [0x200A0200#32, 0x00000000#32, 0x00000000#32, 0x00000000#32, 0x00000000#32, 0x00000000#32,
      0x00000000#32, 0x00000000#32, 0x00000000#32] fresh = ([0x20070000#32], 0x00A02007#32) ∧
    reply .rt [0x10070000#32] fresh = ([0x10070000#32], 0x00701007#32) ∧
    reply .q [0xFF000000#32] fresh = ([0xFF040000#32], 0x0100FF04#32) := by decide +kernel

/-- F6, F7, F11, F12, F19, F20, F21, F26: lengths and must-be-zero fields. -/
theorem test_fault_encoding :
    reply .rt [0x22000100#32] fresh = ([0x22050000#32], 0x00002205#32) ∧
    reply .rt [0x22500001#32] fresh = ([0x22050000#32], 0x00052205#32) ∧
    reply .rt [0x20000202#32, 0x00000000#32, 0x00000000#32, 0x00000000#32, 0x00000000#32, 0x00000000#32,
      0x00000000#32, 0x00000000#32, 0x00000000#32] fresh = ([0x20050000#32], 0x00002005#32) ∧
    reply .rt [0x20000200#32, 0x00000000#32, 0x00000000#32, 0x00000000#32, 0x00000000#32, 0x00000000#32,
      0x00000000#32, 0x00000000#32] fresh = ([0x20050000#32], 0x00002005#32) ∧
    reply .rt [0x29000000#32] fresh = ([0x29050000#32], 0x00002905#32) ∧
    reply .rt [0x3A000007#32] fresh = ([0x3A050000#32], 0x00003A05#32) ∧
    reply .rt [0x3800000A#32] fresh = ([0x38050000#32], 0x00003805#32) ∧
    reply .rt [0x10100000#32, 0x00000000#32, 0x00000000#32, 0x00000000#32, 0x00000000#32, 0x00000000#32,
      0x00000000#32, 0x00000000#32, 0x00000000#32] fresh = ([0x10050000#32], 0x00011005#32) := by decide +kernel

/-- F5, F8, F9, F10, F13, F14, F15, F16: bands, orders and the order of the checks. -/
theorem test_fault_order_band :
    reply .rt [0x22500000#32] fresh = ([0x22060000#32], 0x00052206#32) ∧
    reply .rt [0x20000000#32, 0x00000000#32, 0x00000000#32, 0x00000000#32, 0x00000000#32, 0x00000000#32,
      0x00000000#32, 0x00000000#32, 0x00000000#32] fresh = ([0x20080000#32], 0x00002008#32) ∧
    reply .rt [0x20010900#32, 0x00000000#32, 0x00000000#32, 0x00000000#32, 0x00000000#32, 0x00000000#32,
      0x00000000#32, 0x00000000#32, 0x00000000#32] fresh = ([0x20080000#32], 0x00102008#32) ∧
    reply .rt [0x20710900#32, 0x00000000#32, 0x00000000#32, 0x00000000#32, 0x00000000#32, 0x00000000#32,
      0x00000000#32, 0x00000000#32, 0x00000000#32] fresh = ([0x20060000#32], 0x00172006#32) ∧
    reply .rt [0x19000300#32, 0x00000000#32, 0x3FF00000#32] fresh = ([0x19080000#32], 0x00001908#32) ∧
    reply .rt [0x19000300#32] fresh = ([0x19050000#32], 0x00001905#32) ∧
    reply .rt [0x18000402#32] fresh = ([0x18050000#32], 0x00001805#32) ∧
    reply .rt [0x18000005#32] fresh = ([0x18080000#32], 0x00001808#32) := by decide +kernel

/-- F17, F18, F22, F24: the block limit and the port right. -/
theorem test_fault_port_block :
    reply .rt [0x29000000#32, 0x00010001#32] fresh = ([0x29090000#32], 0x00002909#32) ∧
    reply .rt [0x29000000#32, 0x00000002#32, 0x00000000#32, 0x00000000#32, 0x00000000#32, 0x00000000#32] fresh =
      ([0x29050000#32], 0x00002905#32) ∧
    reply .q [0x39500001#32] fresh = ([0x390A0000#32], 0x0105390A#32) ∧
    reply .q [0x22000000#32] fresh = ([0x220A0000#32], 0x0100220A#32) := by decide +kernel

/-- V14: the factory checks in order (`f0` = -0.0, NaN; `2*f0` = `fs`; `fs` NaN; Q = 0.0; all bad). -/
theorem test_fault_factory :
    reply .rt [0x10010000#32, 0x00000000#32, 0x80000000#32, 0x00000000#32, 0x40E77000#32, 0x00000000#32,
      0x3FF00000#32] fresh = ([0x10030000#32], 0x00101003#32) ∧
    reply .rt [0x10020000#32, 0x00000000#32, 0x7FF80000#32, 0x00000000#32, 0x40E77000#32, 0x00000000#32,
      0x3FF00000#32] fresh = ([0x10030000#32], 0x00201003#32) ∧
    reply .rt [0x10060000#32, 0x00000000#32, 0x40D77000#32, 0x00000000#32, 0x40E77000#32, 0x00000000#32,
      0x3FF00000#32] fresh = ([0x10010000#32], 0x00601001#32) ∧
    reply .rt [0x10050000#32, 0x00000000#32, 0x408F4000#32, 0x00000000#32, 0x7FF80000#32, 0x00000000#32,
      0x3FF00000#32] fresh = ([0x10010000#32], 0x00501001#32) ∧
    reply .rt [0x10090000#32, 0x00000000#32, 0x408F4000#32, 0x00000000#32, 0x40E77000#32, 0x00000000#32,
      0x00000000#32] fresh = ([0x10020000#32], 0x00901002#32) ∧
    reply .rt [0x100B0000#32, 0x00000000#32, 0x408F4000#32, 0x00000000#32, 0x409F4000#32] fresh = ([0x10010000#32],
      0x00B01001#32) := by decide +kernel

/-! ## The stage functions -/

/-- V1. -/
theorem test_tick2 :
    answer (.tick2 0x3FE0000000000000#64 0x3FD0000000000000#64 0x3FC0000000000000#64 0x3FF0000000000000#64
      0x3FE0000000000000#64 0x3FD0000000000000#64 0x3FF0000000000000#64 0x4000000000000000#64 0x4010000000000000#64)
        fresh =
      [0x01000000#32, 0x00000000#32, 0x40148000#32, 0x00000000#32, 0x3FF00000#32, 0x00000000#32, 0x40080000#32] :=
        by decide +kernel

/-- V3. -/
theorem test_tick2_signed_zero :
    answer (.tick2 0x3FE0000000000000#64 0x3FD0000000000000#64 0x3FC0000000000000#64 0x3FF0000000000000#64 0 0 0 0
      0x8000000000000000#64) fresh = [0x01000000#32, 0x00000000#32, 0x00000000#32, 0x00000000#32, 0x00000000#32,
        0x00000000#32, 0x00000000#32] := by decide +kernel

/-- V2. -/
theorem test_tick1_lowpass :
    answer (.tick1 0x3FD0000000000000#64 0 0x3FF0000000000000#64 0x3FF0000000000000#64 0x4014000000000000#64) fresh =
      [0x02000000#32, 0x00000000#32, 0x40000000#32, 0x00000000#32, 0x40080000#32] := by decide +kernel

/-- V2, the high-pass mix. -/
theorem test_tick1_highpass :
    answer (.tick1 0x3FD0000000000000#64 0x3FF0000000000000#64 0xBFF0000000000000#64 0x3FF0000000000000#64
      0x4014000000000000#64) fresh = [0x02000000#32, 0x00000000#32, 0x40080000#32, 0x00000000#32, 0x40080000#32] :=
        by decide +kernel

/-- V4: an infinite input gives infinities. -/
theorem test_tick2_inf :
    result (tick2 ⟨0, 0, 0x3FE0000000000000#64, 0x3FD0000000000000#64, 0x3FC0000000000000#64, 0x3FF0000000000000#64,
      0x3FE0000000000000#64, 0x3FD0000000000000#64, 0⟩ ⟨0, 0⟩ 0x7FF0000000000000#64) =
      (0x7FF0000000000000#64, ⟨0x7FF0000000000000#64, 0x7FF0000000000000#64⟩) := by decide +kernel

/-- V4: a product of 0 and NaN, infinity minus infinity, 0 times infinity and 0/0 are NaNs. -/
theorem test_nan_results :
    F.mul 0 0x7FF8000000000000#64 = none ∧ F.sub 0x7FF0000000000000#64 0x7FF0000000000000#64 = none ∧
    F.mul 0 0x7FF0000000000000#64 = none ∧ F.div 0 0 = none := by decide +kernel

/-! ## The coefficient factory, given `g0` and `A` -/

/-- V10. -/
theorem test_record_bell :
    result (recordBell 0x3FB0C774D5420EED#64 0x3FF0000000000000#64 0x3FF699C0F7E86E10#64) = v10 := by decide +kernel

/-- V11. -/
theorem test_record_lp :
    result (recordLowPass 0x3FB0C774D5420EED#64 0x4000000000000000#64) = ⟨0x3FB0C774D5420EED#64,
      0x3FE0000000000000#64, 0x3FEEDB31F7A37921#64, 0x3FB02DECC2C595EE#64, 0x3F70F79E1816BFE9#64,
        0x0000000000000000#64, 0x0000000000000000#64, 0x3FF0000000000000#64, 0x3F7198A018120866#64⟩ :=
          by decide +kernel

/-- V11. -/
theorem test_record_hp :
    result (recordHighPass 0x3FB0C774D5420EED#64 0x4000000000000000#64) = ⟨0x3FB0C774D5420EED#64,
      0x3FE0000000000000#64, 0x3FEEDB31F7A37921#64, 0x3FB02DECC2C595EE#64, 0x3F70F79E1816BFE9#64,
        0x3FF0000000000000#64, 0xBFE0000000000000#64, 0xBFF0000000000000#64, 0x3F7198A018120866#64⟩ :=
          by decide +kernel

/-- V11. -/
theorem test_record_bp :
    result (recordBandPass 0x3FB0C774D5420EED#64 0x4000000000000000#64) = ⟨0x3FB0C774D5420EED#64,
      0x3FE0000000000000#64, 0x3FEEDB31F7A37921#64, 0x3FB02DECC2C595EE#64, 0x3F70F79E1816BFE9#64,
        0x0000000000000000#64, 0x3FF0000000000000#64, 0x0000000000000000#64, 0x3F7198A018120866#64⟩ :=
          by decide +kernel

/-- V11. -/
theorem test_record_notch :
    result (recordNotch 0x3FB0C774D5420EED#64 0x4000000000000000#64) = ⟨0x3FB0C774D5420EED#64, 0x3FE0000000000000#64,
      0x3FEEDB31F7A37921#64, 0x3FB02DECC2C595EE#64, 0x3F70F79E1816BFE9#64, 0x3FF0000000000000#64,
        0xBFE0000000000000#64, 0x0000000000000000#64, 0x3F7198A018120866#64⟩ := by decide +kernel

/-- V11. -/
theorem test_record_ap :
    result (recordAllPass 0x3FB0C774D5420EED#64 0x4000000000000000#64) = ⟨0x3FB0C774D5420EED#64,
      0x3FE0000000000000#64, 0x3FEEDB31F7A37921#64, 0x3FB02DECC2C595EE#64, 0x3F70F79E1816BFE9#64,
        0x3FF0000000000000#64, 0xBFF0000000000000#64, 0x0000000000000000#64, 0x3F7198A018120866#64⟩ :=
          by decide +kernel

/-- V12, +6 dB, in the five values it lists. -/
theorem test_record_ls :
    (fun c : SVFCoefficients => [c.g, c.a1, c.m0, c.m1, c.m2]) (result (recordLowShelf 0x3FB0C774D5420EED#64
      0x3FE6A0902DE00D1B#64 0x3FF699C0F7E86E10#64)) =
      [0x3FAC3C5A2D836C75#64, 0x3FED99EFD5A671EF#64, 0x3FF0000000000000#64, 0x3FE2AB642A227CDB#64,
        0x3FEFD9305AB77160#64] := by decide +kernel

/-- V12, +6 dB, in the five values it lists. -/
theorem test_record_hs :
    (fun c : SVFCoefficients => [c.g, c.a1, c.m0, c.m1, c.m2]) (result (recordHighShelf 0x3FB0C774D5420EED#64
      0x3FE6A0902DE00D1B#64 0x3FF699C0F7E86E10#64)) =
      [0x3FB3F128D34FF6BF#64, 0x3FECAAF5CCDD39B1#64, 0x3FFFEC982D5BB8B0#64, 0xBFEA5F11D1B95EF9#64,
        0xBFEFD9305AB77160#64] := by decide +kernel

/-- V13. -/
theorem test_record_first :
    result (recordFirst .lowPass1 0x3FB0C774D5420EED#64) = v13 ∧ result (recordFirst .highPass1
      0x3FB0C774D5420EED#64) = { v13 with m0 := 0x3FF0000000000000#64, m1 := 0xBFF0000000000000#64 } :=
        by decide +kernel

/-- A `COEF` whose checks pass answers success with 2 words a value (R274; V14: `fs` = +inf, `Q` = 5e-324, `f0` just
below `fs/2`). -/
theorem test_coef_answers :
    (answer (.coefLp 0x408F400000000000#64 0x7FF0000000000000#64 0x3FF0000000000000#64) fresh).length = 19 ∧
    (answer (.coefBell 0x408F400000000000#64 0x40E7700000000000#64 0x0000000000000001#64 0x7FF8000000000000#64)
      fresh).length = 19 ∧
    (answer (.coefHp1 0x40D76FFFEF9DB22D#64 0x40E7700000000000#64) fresh).length = 9 := by decide +kernel

/-! ## The calculators -/

/-- V20: `POLEQ ord=3 pole=0`. -/
theorem test_poleq_marker :
    answer (.poleq 3 0) fresh = [0x18000001#32, 0x00000000#32, 0x00000000#32] := by decide +kernel

/-- V21: `QDIST ord=4 : 1.0`. -/
theorem test_qdist :
    answer (.qdist 4 0x3FF0000000000000#64) fresh = [0x19000002#32, 0x8B163489#32, 0x3FE3D438#32, 0x673C47B0#32,
      0x3FF7EF8A#32] := by decide +kernel

/-- V21: order 2 keeps the bits; order 4 of -1.0 is not checked. The examples of 42_cascade_builder.md R153 at orders 6
and 8: `QDIST ord=6 : 0.5` and `QDIST ord=8 : 2.0`. -/
theorem test_qdist_rows :
    answer (.qdist 2 0x3FD3333333333333#64) fresh = 0x19000001#32 :: fWords 0x3FD3333333333333#64 ∧
    answer (.qdist 4 0xBFF0000000000000#64) fresh = 0x19000002#32 :: fsWords [0xBFE87DE2A75F2D05#64,
      0xBFFD906BD0079F92#64] ∧
    answer (.qdist 6 0x3FE0000000000000#64) fresh = 0x19000003#32 :: fsWords [0x3FD76CF5D1596DF7#64,
      0x3FE000000073503E#64, 0x3FF5DB3D74C9ABBC#64] ∧
    answer (.qdist 8 0x4000000000000000#64) fresh = 0x19000004#32 :: fsWords [0x3FE47D47A339802E#64,
      0x3FE82B3ABBBF3566#64, 0x3FF215EBEE7EF17E#64, 0x4009C0735B7B0499#64] := by decide +kernel

/-- The corner cases of `BW2Q` that need no value of `f_sinh`: `+0.0`, `-0.0` (42_cascade_builder.md R155). -/
theorem test_bw2q_zeros :
    answer (.bw2q 0x0000000000000000#64) fresh = 0x1A000000#32 :: fWords 0x7FF0000000000000#64 ∧
    answer (.bw2q 0x8000000000000000#64) fresh = 0x1A000000#32 :: fWords 0xFFF0000000000000#64 := by decide +kernel

/-- `BW2Q` answers one value (V22). -/
theorem test_bw2q :
    (answer (.bw2q 0x3FF0000000000000#64) fresh).length = 3 ∧ (answer (.bw2q 0x3FF0000000000000#64) fresh).head? =
      some 0x1A000000#32 := by decide +kernel

/-! ## The band -/

/-- P2 step 4: the same operands again are skipped. -/
theorem test_update_skip :
    answer (.updateBell 0 2 false 0x408F400000000000#64 0x4018000000000000#64 0x3FF0000000000000#64
      0x40E7700000000000#64) (machine .rt [rung]) = [0x20000001#32] := by decide +kernel

/-- P1 steps 1, 8 and V26: a commit, the descriptor word, `RECOMP`; a gain of -0.0 is another key. -/
theorem test_update_commit_bell :
    (after (.updateBell 0 2 false 0x408F400000000000#64 0x4018000000000000#64 0x3FF0000000000000#64
      0x40E7700000000000#64) fresh).bands.head?.map descriptorWord = some 0x00001120#32 ∧
    (after (.updateBell 0 2 false 0x408F400000000000#64 0x8000000000000000#64 0x3FF0000000000000#64
      0x40E7700000000000#64) (machine .rt [belled])).recomp = 1 := by decide +kernel

/-- P3 step 4 (not enabled): LowPass of order 3; P4 step 12: HighPass of order 1, which takes Q = 0.0. -/
theorem test_update_commit_lp_hp :
    (after (.updateLp 0 3 false 0x408F400000000000#64 0 0x3FE6A09E65DC27DF#64 0x40E7700000000000#64)
      fresh).bands.head?.map descriptorWord = some 0x00001241#32 ∧
    (after (.updateHp 0 1 false 0x4054000000000000#64 0 0 0x40E7700000000000#64) fresh).bands.head?.map
      descriptorWord = some 0x00001812#32 := by decide +kernel

/-- V30 with R252: LowShelf and HighShelf of order 4. -/
theorem test_update_commit_shelves :
    (after (.updateLs 0 4 false 0x4069000000000000#64 0x4018000000000000#64 0x3FE6A09E65DC27DF#64
      0x40E7700000000000#64) fresh).bands.head?.map descriptorWord = some 0x00001243#32 ∧
    (after (.updateHs 0 4 false 0x4069000000000000#64 0x4018000000000000#64 0x3FE6A09E65DC27DF#64
      0x40E7700000000000#64) fresh).bands.head?.map descriptorWord = some 0x00001244#32 := by decide +kernel

/-- P2 step 15 (band enabled) and V34: Notch; AllPass, whose order is ignored. -/
theorem test_update_commit_notch_ap :
    (after (.updateNotch 0 2 false 0x408F400000000000#64 0x4008000000000000#64 0x3FF0000000000000#64
      0x40E7700000000000#64) (machine .rt [rung])).bands.head?.map descriptorWord = some 0x00003125#32 ∧
    (after (.updateAp 0 8 false 0x408F400000000000#64 0 0x3FE6A0902DE00D1B#64 0x40E7700000000000#64)
      fresh).bands.head?.map descriptorWord = some 0x00001129#32 := by decide +kernel

/-- P4 step 12 (not enabled) and R252: BandPass of order 1, Tilt, Mesa. -/
theorem test_update_commit_bp_tilt_mesa :
    (after (.updateBp 0 1 false 0x408F400000000000#64 0 0x3FF0000000000000#64 0x40E7700000000000#64)
      fresh).bands.head?.map descriptorWord = some 0x00001816#32 ∧
    (after (.updateTilt 0 2 false 0x408F400000000000#64 0x4008000000000000#64 0x3FE6A09E65DC27DF#64
      0x40E7700000000000#64) fresh).bands.head?.map descriptorWord = some 0x00001127#32 ∧
    (after (.updateMesa 0 2 false 0x408F400000000000#64 0x4018000000000000#64 0x3FF8000000000000#64
      0x40E7700000000000#64) fresh).bands.head?.map descriptorWord = some 0x00001128#32 := by decide +kernel

/-- P2 steps 7 and 14: the same pair keeps the state, another one zeroes it. -/
theorem test_update_topology :
    (after (.updateBell 0 2 false 0x408F400000000000#64 0x4008000000000000#64 0x3FF0000000000000#64
      0x40E7700000000000#64) (machine .rt [rung])).bands.map Band.left = [rung.left] ∧
    (after (.updateNotch 0 2 false 0x408F400000000000#64 0x4008000000000000#64 0x3FF0000000000000#64
      0x40E7700000000000#64) (machine .rt [rung])).bands.map Band.left = [ChannelState.zero] := by decide +kernel

/-- P3 step 5: `freq` is clamped to 20000; the fault names slot 1. -/
theorem test_update_nyquist_fault :
    answer (.updateLp 1 4 false 0x40DD4C0000000000#64 0 0x3FE6A09E65DC27DF#64 0x40DD4C0000000000#64) fresh =
      [0x20010001#32] := by decide +kernel

/-- P3 step 8: the first stage Q is 0. -/
theorem test_update_q_fault :
    answer (.updateLp 1 4 false 0x408F400000000000#64 0 0 0x40E7700000000000#64) fresh = [0x20020001#32] :=
      by decide +kernel

/-- V30: `fa` = 500, `fb` = 2000; with `bw` = 99.5 both corners are clamped (R184). -/
theorem test_mesa_corners :
    (result (planMesa cfg 0x408F400000000000#64 0x4018000000000000#64 0x3FF8000000000000#64 0x3FF8000000000000#64
      .o2)).stages =
      [.second .A 0 .highShelf 0x407F400000000000#64 0x3FF8000000000000#64 0, .second .B 0 .lowShelf
        0x409F400000000000#64 0x3FF8000000000000#64 0] ∧
    (result (planMesa cfg 0x408F400000000000#64 0x4018000000000000#64 0x4058E00000000000#64 0x3FF8000000000000#64
      .o2)).stages =
      [.second .A 0 .highShelf 0x4034000000000000#64 0x3FF8000000000000#64 0, .second .B 0 .lowShelf
        0x40D3880000000000#64 0x3FF8000000000000#64 0] := by decide +kernel

/-- R190: after `BRESET` the state is zero and the key stays. -/
theorem test_breset :
    (after (.breset 0) (machine .rt [rung])).bands.map Band.left = [ChannelState.zero] ∧
    (after (.breset 0) (machine .rt [rung])).bands.map Band.prev = [bellKey] := by decide +kernel

/-! ## The bank -/

/-- R211: after reset, `ENABLE b2` makes `ENABLE` read 4. -/
theorem test_enable :
    enableView (after (.enable 2) fresh).bands = 4#32 := by decide +kernel

/-- R212; V35f: the state is frozen, the enable bit is cleared. -/
theorem test_disable :
    (after (.disable 0) (machine .rt [rung])).bands = [{ rung with en := false }] := by decide +kernel

/-- P2 step 9: `FS` is latched and the key is invalid. -/
theorem test_srate :
    (after (.srate 0x40E7700000000000#64) (machine .rt [rung])).fs = 0x40E7700000000000#64 ∧
    (after (.srate 0x40E7700000000000#64) (machine .rt [rung])).bands.map (fun x => x.prev.valid) = [false] :=
      by decide +kernel

/-- V35a: with no band enabled the bits pass. -/
theorem test_proc_disabled :
    answer (.proc 0x8000000000000000#64 0x7FF8000000000000#64) fresh = [0x28000000#32, 0x00000000#32, 0x80000000#32,
      0x00000000#32, 0x7FF80000#32] := by decide +kernel

/-- P2 step 3. -/
theorem test_proc :
    answer (.proc 0x3FF0000000000000#64 0x3FF0000000000000#64) (machine .rt [belled]) = [0x28000000#32,
      0x26F2E860#32, 0x3FF0B408#32, 0x26F2E860#32, 0x3FF0B408#32] := by decide +kernel

/-- P1 step 3. -/
theorem test_procb :
    answer (.procb [(0x3FF0000000000000#64, 0x3FE0000000000000#64), (0, 0), (0, 0)]) (machine .rt [belled]) =
      [0x29000000#32, 0x00000003#32, 0x26F2E860#32, 0x3FF0B408#32, 0x26F2E860#32, 0x3FE0B408#32, 0x4736FC87#32,
        0x3FB5537D#32, 0x4736FC87#32, 0x3FA5537D#32, 0x5E834468#32, 0x3FB2E8E2#32, 0x5E834468#32, 0x3FA2E8E2#32] :=
          by decide +kernel

/-- V35c: `PROCB N=0`. -/
theorem test_procb_empty :
    answer (.procb []) fresh = [0x29000000#32, 0x00000000#32] := by decide +kernel

/-! ## The response evaluator -/

/-- R274: two values each. -/
theorem test_hstage_answers :
    (answer (.hstage2 v10 0x408F400000000000#64 0x40E7700000000000#64) fresh).length = 5 ∧ (answer (.hstage1 v13
      0x408F400000000000#64 0x40E7700000000000#64) fresh).length = 5 := by decide +kernel

/-- R238: two values, enabled or not; F5's fault for a band that does not exist. -/
theorem test_bode :
    (answer (.bode 3 0x408F400000000000#64) fresh).length = 5 ∧ answer (.bode 5 0x408F400000000000#64) fresh =
      [0x32060000#32] := by decide +kernel

/-! ## Read-back -/

/-- V45: `ID` and `CONFIG`. -/
theorem test_rdcsr :
    answer (.rdcsr .id) fresh = [0x3A000000#32, 0x43424642#32, 0x00000000#32] ∧ answer (.rdcsr .config) fresh =
      [0x3A000000#32, 0x00000804#32, 0x00000000#32] := by decide +kernel

/-- V45. -/
theorem test_rdband :
    answer (.rdband 0) fresh = [0x3B000000#32, 0x00000120#32, 0x00000000#32, 0x3FF00000#32, 0x00000000#32,
      0x40E77000#32] := by decide +kernel

/-- P2 step 5 and V45. -/
theorem test_rdstate :
    answer (.rdstate 0 (.second .A 0) .left) (machine .rt [rung]) = [0x39000000#32, 0x90A59973#32, 0x3FBFF064#32,
      0xD5FCEAFC#32, 0x3F80BF45#32] ∧
    answer (.rdstate 0 (.second .A 0) .right) fresh = [0x39000000#32, 0x00000000#32, 0x00000000#32, 0x00000000#32,
      0x00000000#32] := by decide +kernel

/-- V45 with V13, and V10: `INFO` marks a first-order record. -/
theorem test_rdcoef :
    answer (.rdcoef 0 (.first .A)) fresh = [0x38000001#32, 0xD5420EED#32, 0x3FB0C774#32, 0x74159848#32,
      0x3FAF7E78#32, 0x00000000#32, 0x00000000#32, 0x00000000#32, 0x3FF00000#32] ∧
    answer (.rdcoef 0 (.second .A 0)) (machine .rt [belled]) = 0x38000000#32 :: fsWords v10.toList := by decide +kernel

/-! ## Bytes and the step -/

/-- 20_memory.md R54: the low byte of a word first. -/
theorem test_bytes :
    wordBytes 0x11223344#32 = [0x44#8, 0x33#8, 0x22#8, 0x11#8] ∧
    wordsOfBytes [0x44#8, 0x33#8, 0x22#8, 0x11#8] = some [0x11223344#32] := by decide +kernel

/-- 70_reset_and_hazards.md R291: the reset input disables every band and clears the control registers. -/
theorem test_reset_step :
    (match step { machine .rt [rung] with fault := 6, recomp := 9, inbox := [.reset] } with
      | .next t => (t.fault, t.recomp, t.bands.map Band.en, t.bands.map Band.left)
      | .fault _ => (1, 1, [], [])
      | .refused _ => (1, 1, [], [])) = (0, 0, [false], [ChannelState.zero]) := by decide +kernel

/-- The host's entry points: a table word runs as the first instruction after reset. -/
theorem test_table_word :
    decodeTableWord 32 0x22200000 = some (.enable 2) ∧
    (match step (State.reset.withFetchWord 32 0x22200000) with
      | .next t => enableView t.bands
      | .fault _ => 0
      | .refused _ => 0) = 4#32 := by decide +kernel

end Sys2Proof.Tests
end

