-- ==== Sys2Proof/Tests/Witnesses.lean ====
section
/-! SUPPORT. For every statement with hypotheses, concrete states and operands that meet them, one theorem a clause
where a statement has several. The theorems say only that the hypotheses can be met, at boundary values where there are any. -/

namespace Sys2Proof.Tests

open Sys2Proof.Machine

set_option Elab.async false

/-- A machine about to take one command. -/
def about (p : Port) (header : Word) (ws : List Word) : State :=
  { machine p [belled, resting] with inbox := [.command p header ws] }

/-- The operand words of an `UPDATE` at 1000 Hz, 6 dB, Q 1.0, 48 kHz (P1 step 1). -/
def bellWords : List Word := [0, 0x408F4000#32, 0, 0x40180000#32, 0, 0x3FF00000#32, 0, 0x40E77000#32]

/-- The `OPC` values of 30_encoding.md R77. -/
def knownOpcs : List (BitVec 8) :=
  [0x01, 0x02, 0x10, 0x18, 0x19, 0x1A, 0x20, 0x21, 0x22, 0x23, 0x24, 0x28, 0x29, 0x30, 0x31, 0x32, 0x38, 0x39, 0x3A,
    0x3B]

/-- The state a step leaves. -/
def nextOf (s : State) : State :=
  match step s with
  | .next t => t
  | .fault _ => s
  | .refused _ => s

/-- Every step leaves one. -/
theorem step_nextOf (s : State) : step s = .next (nextOf s) := by
  have h : ∃ t, step s = .next t := by
    unfold step
    split
    · exact ⟨_, rfl⟩
    · exact ⟨_, rfl⟩
    · split
      · exact (exec_effect _ _).imp fun _ h => h.1
      · exact ⟨_, rfl⟩
  obtain ⟨t, ht⟩ := h
  simp [nextOf, ht]

/-! ## Packets and the step -/

theorem witness_DecodeOfEncode :
    Instr.wf 1 (.procb [(0, 0)]) = true ∧ (Instr.procb [(0, 0)]).opc.allowedOn .rt = true ∧
    (Instr.rdcsr .fs).wf 1 = true ∧ (Instr.rdcsr .fs).opc.allowedOn .q = true := by decide

theorem witness_EncodeOfDecode :
    decode 65536 .rt 0x22F00000#32 [] = .ok (.enable 15) := by decide

theorem witness_DecodeChecksInOrder_opcode :
    (Header.ofWord 0x03000000#32).opc ∉ knownOpcs ∧ (Header.ofWord 0x3C000000#32).opc ∉ knownOpcs := by decide

theorem witness_DecodeChecksInOrder_port :
    (Header.ofWord 0x39000000#32).opc ∈ knownOpcs ∧
    (Header.ofWord 0x39000000#32).opc ∈ ([0x20, 0x21, 0x22, 0x23, 0x24, 0x28, 0x29, 0x39] : List (BitVec 8)) :=
      by decide

theorem witness_DecodeChecksInOrder_kind :
    (Header.ofWord 0x100F0000#32).opc = 0x10#8 ∧ (Header.ofWord 0x100F0000#32).kind ∈ [7#4, 8#4, 12#4, 13#4, 14#4,
      15#4] ∧
    (Header.ofWord 0x200A0000#32).opc = 0x20#8 ∧ 10#4 ≤ (Header.ofWord 0x200A0000#32).kind := by decide

theorem witness_DecodeChecksInOrder_block :
    (Header.ofWord 0x29000000#32).opc = 0x29#8 ∧ ∃ n rest, [0x00010001#32] = n :: rest ∧ 65536 < n.toNat := ⟨by
      decide, _, _, rfl, by decide⟩

/-- A `PROCB` without its count word has the wrong length; slot 10 is out of range. -/
theorem witness_DecodeChecksInOrder_encoding :
    ([] : List Word).length ≠ operandCount (Header.ofWord 0x29000000#32) 0 ∧
    (Header.ofWord 0x3800000A#32).opc = 0x38#8 ∧ 9#8 < (Header.ofWord 0x3800000A#32).aux := by decide

/-- Slot 9 of channel 1 passes every check. -/
theorem witness_DecodeChecksInOrder_ok :
    (let h := Header.ofWord 0x39F00019#32;
      h.opc ∈ knownOpcs ∧ ([] : List Word).length = operandCount h 0 ∧ h.kind = 0 ∧ h.ord = 0 ∧ ¬31#8 < h.aux ∧
        ¬9 < h.aux.toNat % 16) := by decide

theorem witness_StepRunsDecoded :
    (about .rt 0x22100000#32 []).inbox = [.command .rt 0x22100000#32 []] ∧
    decode (about .rt 0x22100000#32 []).cfg.maxBlock .rt 0x22100000#32 [] = .ok (.enable 1) := ⟨rfl, by decide⟩

theorem witness_StepRunsDecoded_other :
    decode (about .q 0x22100000#32 []).cfg.maxBlock .q 0x22100000#32 [] = .error .portViolation ∧ fresh.inbox = [] :=
      by decide

theorem witness_EveryCommandAnswered :
    (about .q 0xFF000000#32 []).inbox = [.command .q 0xFF000000#32 []] := rfl

theorem witness_FaultingOperationChangesNothingElse_fault :
    ∃ t, step (about .rt 0x03000000#32 []) = .next t ∧ t.out .rt = [[0x03040000#32]] ∧
    (0x03040000#32).extractLsb' 16 8 ≠ 0#8 := ⟨_, rfl, by decide +kernel, by decide⟩

theorem witness_FaultingOperationChangesNothingElse_success :
    ∃ t, step (about .rt 0x22100000#32 []) = .next t ∧ t.out .rt = [[0x22000000#32]] ∧
    (0x22000000#32).extractLsb' 16 8 = 0#8 := ⟨_, rfl, by decide +kernel, by decide⟩

theorem witness_QPortChangesOnlyFaults :
    ∃ t, step (about .q 0x22100000#32 []) = .next t ∧ t.fault ≠ (about .q 0x22100000#32 []).fault := ⟨_, rfl,
      by decide +kernel⟩

theorem witness_FaultBitsSticky_fault :
    ∃ t, step { about .rt 0x03000000#32 [] with fault := 4 } = .next t ∧ t.out .rt = [[0x03040000#32]] ∧
      (0x03040000#32).extractLsb' 16 8 = 4#8 ∧ t.fault = 0x14#32 :=
  ⟨_, rfl, by decide +kernel, by decide, by decide +kernel⟩

theorem witness_FaultBitsSticky_success :
    ∃ t, step { about .rt 0x22100000#32 [] with fault := 4 } = .next t ∧ t.out .rt = [[0x22000000#32]] ∧
      t.fault = 4 := ⟨_, rfl, by decide +kernel, by decide +kernel⟩

/-- An `UPDATE.NOTCH` of band 1 commits. -/
theorem witness_RecompCountsCoefficientWrites :
    ∃ t, step (about .rt 0x20150200#32 bellWords) = .next t ∧ t.recomp = 1 := ⟨_, rfl, by decide +kernel⟩

theorem witness_StageStateWriters :
    ∃ t, step (about .rt 0x28000000#32 [0, 0x3FF00000#32, 0, 0x3FF00000#32]) = .next t ∧
      t.bands.head?.map Band.left ≠ some belled.left ∧ belled.en = true :=
  ⟨_, step_nextOf _, by decide +kernel, rfl⟩

theorem witness_EnableAndPrevWriters :
    (∃ t b, step (about .rt 0x23000000#32 []) = .next t ∧ t.bands[0]? = some b ∧ b.en ≠ belled.en) ∧
    (∃ t b, step (about .rt 0x24000000#32 [0, 0]) = .next t ∧ t.bands[0]? = some b ∧ b.prev ≠ belled.prev) ∧
    ∃ t, step (about .rt 0x20150200#32 bellWords) = .next t ∧ t.bands[1]?.map Band.prev =
      some ⟨true, .notch, 2, false, 0x408F400000000000#64, 0x4018000000000000#64, 0x3FF0000000000000#64,
        0x40E7700000000000#64⟩ ∧ t.recomp = 1 :=
  ⟨⟨_, _, rfl, rfl, by decide +kernel⟩, ⟨_, _, rfl, rfl, by decide +kernel⟩,
    ⟨_, step_nextOf _, by decide +kernel, by decide +kernel⟩⟩

/-! ## The whole machine -/

theorem witness_InvariantKept :
    fresh.Inv ∧ ∃ t, step fresh = .next t := ⟨⟨by decide, by decide +kernel, by decide +kernel, by decide⟩, _, rfl⟩

theorem witness_InvariantKept_busy :
    (about .rt 0x20150200#32 bellWords).Inv ∧ ∃ t, step (about .rt 0x20150200#32 bellWords) = .next t ∧ t.recomp = 1
      := ⟨⟨by decide, by decide +kernel, by decide +kernel, by decide⟩, _, rfl, by decide +kernel⟩

theorem witness_InvariantAtReset :
    1 ≤ 1 ∧ 16 ≤ 16 ∧ configLegal cfg = true := by decide +kernel

theorem witness_ConfigurationFixed :
    ∃ t, step (about .rt 0x22100000#32 []) = .next t ∧ t.bands ≠ (about .rt 0x22100000#32 []).bands := ⟨_, rfl,
      by decide +kernel⟩

theorem witness_ResetEventGivesResetValues :
    ({ machine .rt [rung] with inbox := [.reset] } : State).inbox = [.reset] := rfl

theorem witness_ResetRecordsLegal :
    configLegal cfg = true ∧ F.lt cfg.resetQ 0x0010000000000000#64 = false ∧
    configLegal { cfg with resetQ := 0x0010000000000000#64 } = true ∧
    F.lt 0x0010000000000000#64 0x0010000000000000#64 = false := by decide +kernel

/-! ## Arithmetic -/

/-- A NaN, an infinity of each sign, a zero, finite values at both ends of the range: every clause of the statements about
one operation has its operands among these. -/
theorem witness_arithmetic :
    F.isNaN 0x7FF8000000000000#64 = true ∧
      (F.isInf 0x7FF0000000000000#64 = true ∧ F.sign 0x7FF0000000000000#64 = false ∧
        F.isNaN 0x7FF0000000000000#64 = false ∧ F.isZero 0x7FF0000000000000#64 = false) ∧
      (F.isInf 0xFFF0000000000000#64 = true ∧ F.sign 0xFFF0000000000000#64 = true) ∧
      (F.isZero 0x8000000000000000#64 = true ∧ F.isFinite 0x8000000000000000#64 = true) ∧
      (F.isFinite 0x7FEFFFFFFFFFFFFF#64 = true ∧ F.isZero 0x7FEFFFFFFFFFFFFF#64 = false) ∧
      F.isFinite 0x0000000000000001#64 = true ∧ F.isZero 0x0000000000000001#64 = false ∧
      F.isNaN 0x0000000000000001#64 = false ∧ F.sign 0x0000000000000001#64 = false := by decide +kernel

/-- Unlike infinities, like infinities, an infinity on the right, two finite operands of exact sum zero. -/
theorem witness_SumCorrectlyRounded :
    (F.isInf 0x7FF0000000000000#64 = true ∧ F.isInf 0xFFF0000000000000#64 = true ∧
      F.sign 0xFFF0000000000000#64 ≠ F.sign 0x7FF0000000000000#64) ∧
    (F.isFinite 0x3FF0000000000000#64 = true ∧ F.isFinite 0xBFF0000000000000#64 = true ∧
      F.val 0x3FF0000000000000#64 + F.val 0xBFF0000000000000#64 = 0) := by decide +kernel

/-- Infinity times zero, infinity times the least subnormal, the greatest times the least. -/
theorem witness_ProductCorrectlyRounded :
    (F.isInf 0x7FF0000000000000#64 = true ∧ F.isZero 0x8000000000000000#64 = true) ∧
    (F.isInf 0x7FF0000000000000#64 = true ∧ F.isNaN 0x0000000000000001#64 = false ∧
      F.isZero 0x0000000000000001#64 = false) ∧
    (F.isFinite 0x7FEFFFFFFFFFFFFF#64 = true ∧ F.isFinite 0x0000000000000001#64 = true) := by decide +kernel

/-- Zero over zero, the least over zero, the least over infinity, the greatest over the least. -/
theorem witness_QuotientCorrectlyRounded :
    (F.isZero 0#64 = true ∧ F.isZero 0x8000000000000000#64 = true) ∧
    (F.isFinite 0x0000000000000001#64 = true ∧ F.isZero 0x0000000000000001#64 = false ∧
      F.isZero 0x8000000000000000#64 = true) ∧
    (F.isFinite 0x0000000000000001#64 = true ∧ F.isInf 0xFFF0000000000000#64 = true) ∧
    (F.isFinite 0x7FEFFFFFFFFFFFFF#64 = true ∧ F.isFinite 0x0000000000000001#64 = true ∧
      F.isZero 0x0000000000000001#64 = false) := by decide +kernel

/-- A NaN, a zero, the negative infinity, the infinity, the least subnormal. -/
theorem witness_RootCorrectlyRounded :
    F.isNaN 0xFFF8000000000000#64 = true ∧ F.isZero 0x8000000000000000#64 = true ∧
    (F.isZero 0xFFF0000000000000#64 = false ∧ F.sign 0xFFF0000000000000#64 = true) ∧
    (F.isInf 0x7FF0000000000000#64 = true ∧ F.sign 0x7FF0000000000000#64 = false) ∧
    (F.isFinite 0x0000000000000001#64 = true ∧ F.isZero 0x0000000000000001#64 = false ∧
      F.sign 0x0000000000000001#64 = false) := by decide +kernel

/-- `g` = 1 and `k` = 1, and `g` = 1. -/
theorem witness_ExactTransferFunction : (1 : ℝ) + 1 * (1 + 1) ≠ 0 ∧ (1 : ℝ) + 1 ≠ 0 := by norm_num

/-- `g` = 1, `k` = 1 at `z⁻¹` = 0, where `s` = 1, and at the shape's own corner on the unit circle, `s` = `j`; `Q` and `A`
are 1. -/
theorem witness_AnalogPrototypes :
    ((1 : ℂ) ≠ 0 ∧ (1 : ℂ) + 0 ≠ 0 ∧ (1 / 1 * ((1 - 0) / (1 + 0)) : ℂ) ^ 2 + 1 * (1 / 1 * ((1 - 0) / (1 + 0))) + 1 ≠ 0) ∧
    Complex.I ^ 2 + 1 * Complex.I + 1 ≠ 0 ∧ (0 : ℝ) < 1 := by
  refine ⟨by norm_num, ?_, one_pos⟩
  simp

/-- A cutoff of 1 at a sample rate of 4, every effective order with stage Qs of 1, and a Bell of 0 decibels. -/
theorem witness_ResponseLaws :
    (0 : ℝ) < 1 ∧ (2 : ℝ) * 1 < 4 ∧ (1 : ℝ) = 10 ^ ((0 : ℝ) / 40) ∧
    ∀ eo : EffOrder, ∃ qs : List ℝ, qs.length = eo.stages ∧ ∀ q ∈ qs, 0 < q :=
  ⟨by norm_num, by norm_num, by simp, fun eo => ⟨List.replicate eo.stages 1, by simp, fun q h => by
    rw [List.eq_of_mem_replicate h]; norm_num⟩⟩

theorem witness_NaNIsSticky_tick2 :
    ∃ y i1 i2, IsTick2 0x3FE0000000000000#64 0x3FD0000000000000#64 0x3FC0000000000000#64 0 0 0 0 0
      0x7FF8000000000000#64 y i1 i2 ∧ F.isNaN 0x7FF8000000000000#64 = true := ⟨_, _, _, gives_tick2 ⟨0, 0,
        0x3FE0000000000000#64, 0x3FD0000000000000#64, 0x3FC0000000000000#64, 0, 0, 0, 0⟩ ⟨0, 0⟩ 0x7FF8000000000000#64
          0, by decide⟩

theorem witness_NaNIsSticky_tick1 :
    ∃ y s, IsTick1 0x3FE0000000000000#64 0 0 0x7FF8000000000000#64 0 y s ∧ F.isNaN 0x7FF8000000000000#64 = true :=
      ⟨_, _, gives_tick1 ⟨0, 0x3FE0000000000000#64, 0, 0⟩ 0x7FF8000000000000#64 0 0, by decide⟩

theorem witness_ClampBounds :
    F.isNaN 0x7FF8000000000000#64 = true ∧ F.lt 0x4014000000000000#64 F.twenty = true ∧
    (F.lt 0x41CDCD6500000000#64 F.twenty = false ∧ F.lt F.twentyThousand 0x41CDCD6500000000#64 = true) ∧
    F.lt F.twenty F.twenty = false ∧ F.lt F.twentyThousand F.twenty = false := by decide +kernel

/-! ## The pure operations -/

theorem witness_FactoryChecksInOrder_f0 :
    F.lt F.zero 0 = false ∧ F.lt F.zero 0x8000000000000000#64 = false ∧ F.lt F.zero 0x7FF8000000000000#64 = false :=
      by decide +kernel

theorem witness_FactoryChecksInOrder_fs :
    F.lt F.zero 0x40D7700000000000#64 = true ∧ ¬∃ t, IsProd F.two 0x40D7700000000000#64 t ∧ F.lt t
      0x40E7700000000000#64 = true := ⟨by decide +kernel, fun h => absurd ((belowNyquist_iff _ _).2 h)
        (by decide +kernel)⟩

theorem witness_FactoryChecksInOrder_q :
    F.lt F.zero 0x408F400000000000#64 = true ∧ (∃ t, IsProd F.two 0x408F400000000000#64 t ∧ F.lt t
      0x40E7700000000000#64 = true) ∧ F.lt F.zero 0 = false ∧
    F.lt F.zero 0x7FF8000000000000#64 = false := ⟨by decide +kernel, (belowNyquist_iff _ _).1 (by decide +kernel),
      by decide +kernel, by decide +kernel⟩

theorem witness_SecondOrderCoefficients :
    F.lt F.zero 0x40D76FFFEF9DB22D#64 = true ∧ (∃ t, IsProd F.two 0x40D76FFFEF9DB22D#64 t ∧ F.lt t
      0x40E7700000000000#64 = true) ∧
    F.lt F.zero 0x0000000000000001#64 = true := ⟨by decide +kernel, (belowNyquist_iff _ _).1 (by decide +kernel),
      by decide +kernel⟩

theorem witness_FirstOrderCoefficients :
    F.lt F.zero 0x40D76FFFEF9DB22D#64 = true ∧ ∃ t, IsProd F.two 0x40D76FFFEF9DB22D#64 t ∧ F.lt t
      0x40E7700000000000#64 = true := ⟨by decide +kernel, (belowNyquist_iff _ _).1 (by decide +kernel)⟩

/-- Orders 0 and 9; order 4 with pole 2 (out of range) and 1; order 7 with pole 3 and 4 (out of range). -/
theorem witness_PoleqResult :
    ((0#8).toNat = 0 ∧ 8 < (9#8).toNat) ∧
    (1 ≤ (4#8).toNat ∧ (4#8).toNat ≤ 8 ∧ (4#8).toNat % 2 = 0 ∧ ¬(2#8).toNat ≤ (4#8).toNat / 2 - 1 ∧
      (1#8).toNat ≤ (4#8).toNat / 2 - 1) ∧
    (1 ≤ (7#8).toNat ∧ (7#8).toNat ≤ 8 ∧ (7#8).toNat % 2 = 1 ∧ (3#8).toNat ≤ ((7#8).toNat - 1) / 2 ∧ (3#8) ≠ 0 ∧
      ¬(4#8).toNat ≤ ((7#8).toNat - 1) / 2) := by decide

/-- A NaN on either side, two finite values, each infinity against each and against a finite value; and 2^32. -/
theorem witness_ComparisonsAndWholeNumbersExact :
    F.isNaN 0x7FF8000000000000#64 = true ∧ (F.isFinite 0#64 = true ∧ F.isFinite 0x0000000000000001#64 = true) ∧
    (F.isInf 0xFFF0000000000000#64 = true ∧ F.isNaN 0x7FF0000000000000#64 = false) ∧
    (F.isInf 0x7FF0000000000000#64 = true ∧ F.isNaN 0#64 = false) ∧ 2 ^ 32 ≤ 2 ^ 32 := by decide +kernel

theorem witness_QdistResult :
    (3#8 : BitVec 8) ∉ [2#8, 4#8, 6#8, 8#8] ∧ (0#8 : BitVec 8) ∉ [2#8, 4#8, 6#8, 8#8] := by decide

/-- What a bandwidth converts to is a value of the computation. -/
theorem witness_Bw2qResult : (∃ q, IsBw2q 0x0000000000000000#64 q) ∧ (∃ q, IsBw2q 0x8000000000000000#64 q) ∧
    (∃ q, IsBw2q 0x7FF8000000000000#64 q) ∧
    (∃ q, IsBw2q 0xBFF0000000000000#64 q ∧ F.isNaN 0xBFF0000000000000#64 = false ∧
      F.sign 0xBFF0000000000000#64 = true) :=
  ⟨⟨_, gives_bw2q _ 0⟩, ⟨_, gives_bw2q _ 0⟩, ⟨_, gives_bw2q _ 0⟩, ⟨_, gives_bw2q _ 0, by decide, by decide⟩⟩

/-- The smallest bandwidth of each sign. -/
theorem witness_Bw2qResult_formula :
    (∃ q, IsBw2q 0x0000000000000001#64 q) ∧ F.isZero 0x0000000000000001#64 = false ∧ F.sign 0x0000000000000001#64 = false ∧
    (∃ q, IsBw2q 0x8000000000000001#64 q) ∧ F.isNaN 0x8000000000000001#64 = false ∧
    F.isZero 0x8000000000000001#64 = false ∧ F.sign 0x8000000000000001#64 = true :=
  ⟨⟨_, gives_bw2q _ 0⟩, by decide, by decide, ⟨_, gives_bw2q _ 0⟩, by decide, by decide, by decide⟩

theorem witness_HstageResults :
    F.isZero 0x8000000000000000#64 = true ∧ F.isNaN 0x40E7700000000000#64 = false ∧
    F.isZero 0x40E7700000000000#64 = false ∧ ∃ z1 z2, IsZinv 0x8000000000000000#64 0x40E7700000000000#64 z1 z2 :=
  ⟨by decide, by decide, by decide, _, _, gives_zinv _ _ 0⟩

/-- A sample rate of zero; a frequency that is no zero; a sample rate that is a NaN. -/
theorem witness_HstageResults_corners :
    F.isZero 0x0000000000000000#64 = true ∧ F.isZero 0x8000000000000000#64 = true ∧
    (∃ h, IsH2 v10 0x408F400000000000#64 0x8000000000000000#64 h) ∧
    (∃ h, IsH1 v13 0x7FF0000000000000#64 0x0000000000000000#64 h) ∧
    F.isZero 0x0000000000000001#64 = false ∧ F.isNaN 0x7FF8000000000000#64 = true ∧
    (∃ z1 z2, IsZinv 0x0000000000000001#64 0x0000000000000001#64 z1 z2) ∧
    ∃ z1 z2, IsZinv 0x0000000000000000#64 0x7FF8000000000000#64 z1 z2 :=
  ⟨by decide, by decide, ⟨_, gives_h2 _ _ _ 0⟩, ⟨_, gives_h1 _ _ _ 0⟩, by decide, by decide, ⟨_, _, gives_zinv _ _ 0⟩,
    _, _, gives_zinv _ _ 0⟩

/-! ## Reading the machine -/

/-- The smallest `RESET_Q` of the first clause. -/
theorem witness_ResetBandResponse_record :
    configLegal { cfg with resetQ := 0x07B0000000000000#64 } = true ∧
    F.lt 0x07B0000000000000#64 0x07B0000000000000#64 = false := by decide +kernel

/-- The denominator of R232, computed, and the sum of its parts' squares. -/
def denominator (c : SVFCoefficients) (z1 z2 : Complex64) : FM (Complex64 × F) := do
  let gk ← fmul c.g c.k
  let t0 ← fadd c.g2 gk
  let d0 ← fadd t0 F.one
  let t1 ← fsub c.g2 F.one
  let d1 ← fmul F.two t1
  let t2 ← fsub c.g2 gk
  let d2 ← fadd t2 F.one
  let u ← cscale d1 z1
  let v ← cadd (creal d0) u
  let w ← cscale d2 z2
  let den ← cadd v w
  let p ← fmul den.re den.re
  let q ← fmul den.im den.im
  let n ← fadd p q
  pure (den, n)

theorem gives_denominator (c : SVFCoefficients) (z1 z2 : Complex64) :
    Gives (denominator c z1 z2) fun r => IsDen2 c z1 z2 r.1 ∧ IsSumOfProds r.1.re r.1.re r.1.im r.1.im r.2 :=
  gives_bind (gives_fmul _ _) fun _ g1 => gives_bind (gives_fadd _ _) fun _ g2 => gives_bind (gives_fadd _ _) fun _ g3 =>
    gives_bind (gives_fsub _ _) fun _ g4 => gives_bind (gives_fmul _ _) fun _ g5 => gives_bind (gives_fsub _ _) fun _ g6 =>
      gives_bind (gives_fadd _ _) fun _ g7 => gives_bind (gives_cscale _ _) fun _ g8 =>
        gives_bind (gives_cadd _ _) fun _ g9 => gives_bind (gives_cscale _ _) fun _ g10 =>
          gives_bind (gives_cadd _ _) fun _ g11 => gives_bind (gives_fmul _ _) fun _ g12 =>
            gives_bind (gives_fmul _ _) fun _ g13 => gives_bind (gives_fadd _ _) fun _ g14 => gives_pure
              ⟨⟨_, _, _, _, g1, ⟨_, g2, g3⟩, ⟨_, g4, g5⟩, ⟨_, g6, g7⟩, _, _, _, g8, g9, g10, g11⟩, _, _, g12, g13, g14⟩

/-- A zero is one of two patterns. -/
theorem zero_cases {x : F} (h : F.isZero x = true) : x = 0x0000000000000000#64 ∨ x = 0x8000000000000000#64 := by
  simp only [F.isZero, F.expo, F.frac, Bool.and_eq_true, beq_iff_eq] at h
  have hx := x.isLt
  have h' : x.toNat = 0 ∨ x.toNat = 2 ^ 63 := by omega
  exact h'.imp (fun h => BitVec.eq_of_toNat_eq (by simpa using h)) fun h => BitVec.eq_of_toNat_eq (by simpa using h)

/-- A band at reset at frequency 0: the powers are `(1, 0)` with zeros of either sign, and the denominator `4*g2` is no
zero. -/
theorem witness_ResetBandResponse_band :
    fresh.bands[(3#4).toNat]? = some resting ∧ resting.kind = .bell ∧ resting.eo = .o2 ∧
    IsFlatRecord resting.coefA.second[0] ∧ atMost 0x43F0000000000000#64 resting.coefA.second[0].g = true ∧
    ∃ z1 z2 den n, IsZinv F.zero resting.fsUsed z1 z2 ∧ IsDen2 resting.coefA.second[0] z1 z2 den ∧
      IsSumOfProds den.re den.re den.im den.im n ∧ atMost F.two z1.re = true ∧ atMost F.two z1.im = true ∧
      F.isZero n = false := by
  have hg : IsProd v35.g v35.g v35.g2 := by
    have h : F.mul v35.g v35.g = some v35.g2 := by decide +kernel
    rw [IsProd, h]
    exact rfl
  obtain ⟨y1, y2, hy⟩ : ∃ y1 y2, IsZinvLines F.zero resting.fsUsed y1 y2 := ⟨_, _, gives_zinvLines _ _ 0⟩
  have one : ∀ y, ∃ x, F.isZero x = true ∧ complexOne y = ⟨F.one, x⟩ := fun y => by
    unfold complexOne
    split
    · exact ⟨_, ‹_›, rfl⟩
    · exact ⟨_, by decide, rfl⟩
  obtain ⟨x1, h1, e1⟩ := one y1
  obtain ⟨x2, h2, e2⟩ := one y2
  have den := gives_denominator v35 ⟨F.one, x1⟩ ⟨F.one, x2⟩ 0
  have hz : IsZinv F.zero resting.fsUsed ⟨F.one, x1⟩ ⟨F.one, x2⟩ := by
    refine ⟨y1, y2, hy, ?_⟩
    rw [if_neg (by decide), if_pos (by decide)]
    exact ⟨e1.symm, e2.symm⟩
  refine ⟨rfl, rfl, rfl, ⟨rfl, rfl, rfl, by decide +kernel, hg⟩, by decide +kernel, _, _, _, _, hz, den.1, den.2,
    (by decide +kernel : atMost F.two F.one = true), ?_⟩
  rcases zero_cases h1 with rfl | rfl <;> rcases zero_cases h2 with rfl | rfl <;> decide +kernel

theorem witness_BodeResult :
    fresh.bands[(3#4).toNat]? = some resting := rfl

/-- The two machines hold different stage state and have drawn different numbers of NaNs. -/
theorem witness_QPortSeesNoStageState :
    let s₁ : State := { machine .q [belled] with inbox := [.command .q 0x38000001#32 []] }
    let s₂ : State := { machine .q [rung] with inbox := [.command .q 0x38000001#32 []], draws := 7, qOut := [[0]] }
    List.Forall₂ (fun a b => Band.samePublished a b ∧ a.prev.valid = b.prev.valid ∧ a.en = b.en) s₁.bands s₂.bands ∧
      belled.left ≠ rung.left ∧ s₁.draws ≠ s₂.draws ∧ s₁.fault = s₂.fault ∧ s₁.lastFault = s₂.lastFault ∧
      s₁.recomp = s₂.recomp ∧ s₁.fs = s₂.fs ∧ s₁.cfg = s₂.cfg ∧ (∃ t, step s₁ = .next t) ∧ ∃ t, step s₂ = .next t :=
  ⟨.cons ⟨⟨rfl, rfl, rfl, rfl, rfl, rfl⟩, rfl, rfl⟩ .nil, by decide +kernel, by decide, rfl, rfl, rfl, rfl, rfl,
    ⟨_, rfl⟩, ⟨_, rfl⟩⟩

theorem witness_ReadBackOfBand :
    fresh.bands[(0#4).toNat]? = some resting ∧ fresh.port = .rt ∧
    (machine .rt [rung]).bands[(0#4).toNat]? = some rung := ⟨rfl, rfl, rfl⟩

theorem witness_ReadBackOfControlRegisters :
    1 ≤ (machine .rt [belled]).nbands ∧ (machine .rt [belled]).nbands ≤ 16 ∧
    (machine .q (List.replicate 16 belled)).nbands ≤ 16 := by decide

/-! ## The band -/

theorem witness_PortBandOrderChecks :
    (machine .q [resting]).port = .q ∧ fresh.bands[(4#4).toNat]? = none ∧ fresh.port = .rt ∧
    (∃ band, fresh.bands[(3#4).toNat]? = some band) ∧ (0#8).toNat = 0 ∧ 8 < (9#8).toNat := ⟨rfl, rfl, rfl, ⟨_, rfl⟩,
      by decide, by decide⟩

theorem witness_EffectiveOrder :
    1 ≤ (1#8).toNat ∧ (8#8).toNat ≤ 8 := by decide

theorem witness_DirtyCheck :
    (machine .rt [belled]).port = .rt ∧ (machine .rt [belled]).bands[(0#4).toNat]? = some belled ∧
    belled.prev = ⟨true, .bell, 2, false, 0x408F400000000000#64, 0x4018000000000000#64, 0x3FF0000000000000#64,
      0x40E7700000000000#64⟩ := ⟨rfl, rfl, rfl⟩

theorem witness_UpdateTwiceSkips :
    let s : State :=
      { machine .rt [belled, resting] with
        inbox := [.command .rt 0x20150200#32 bellWords, .command .rt 0x20150200#32 bellWords] }
    ∃ t u, step s = .next t ∧ t.recomp ≠ s.recomp ∧ step t = .next u :=
  ⟨_, _, step_nextOf _, by decide +kernel, step_nextOf _⟩

theorem witness_CommitEffect :
    (bellKey.kind = belled.kind ∧ EffOrder.o2 = belled.eo) ∧ (bellKey.kind, EffOrder.o4) ≠ (belled.kind, belled.eo) ∧
    (∀ c, BuiltStage.first .A c ∉ [BuiltStage.second .A 0 v10]) ∧
    (∀ c, BuiltStage.second .A 1 c ∉ [BuiltStage.second .A 0 v10]) ∧
    (BuiltStage.first .B v13 ∈ [BuiltStage.first .B v13] ∧
      ∀ c, BuiltStage.first .B c ∈ [BuiltStage.first .B v13] → c = v13) ∧
    (BuiltStage.second .A 0 v10 ∈ [BuiltStage.second .A 0 v10] ∧
      ∀ c, BuiltStage.second .A 0 c ∈ [BuiltStage.second .A 0 v10] → c = v10) := ⟨by decide, by decide, by simp,
        by simp, by simp, by simp⟩

/-- 1000 Hz, 6 dB, Q 1.0 and 48 kHz: the operands of the updates below. -/
abbrev f1000 : F := 0x408F400000000000#64
/-- 6 dB. -/
abbrev db6 : F := 0x4018000000000000#64
/-- Q 1.0. -/
abbrev q1 : F := 0x3FF0000000000000#64
/-- 48 kHz. -/
abbrev fs48000 : F := 0x40E7700000000000#64

/-- The corners of the committing updates: 1000 Hz, and both ends of the clamp. -/
theorem witness_corner :
    CornerLegal (clampFreq f1000) fs48000 ∧ CornerLegal (clampFreq 0) fs48000 ∧
      CornerLegal (clampFreq 0x41CDCD6500000000#64) fs48000 :=
  ⟨⟨by decide +kernel, (belowNyquist_iff _ _).1 (by decide +kernel)⟩,
    ⟨by decide +kernel, (belowNyquist_iff _ _).1 (by decide +kernel)⟩,
    ⟨by decide +kernel, (belowNyquist_iff _ _).1 (by decide +kernel)⟩⟩

/-- A Q given as it is is legal when it is positive. -/
theorem qLegal_of_pos {q : F} (hq : F.lt F.zero q = true) : UpdateQLegal false q := fun x hx => (show x = q from hx) ▸ hq

theorem pos_one : F.lt F.zero q1 = true := by decide +kernel

theorem pos_least : F.lt F.zero 0x0000000000000001#64 = true := by decide +kernel

theorem pos_one_and_half : F.lt F.zero 0x3FF8000000000000#64 = true := by decide +kernel

theorem witness_positive_q : UpdateQLegal false q1 ∧ UpdateQLegal false 0x0000000000000001#64 :=
  ⟨qLegal_of_pos pos_one, qLegal_of_pos pos_least⟩

theorem witness_UpdateOneStageKinds :
    (CornerLegal (clampFreq f1000) fs48000 ∧ UpdateQLegal false q1) ∧
    UpdateReaches fresh .bell 0 resting 1 false f1000 db6 q1 fs48000 ∧
    UpdateReaches fresh .notch 0 resting 8 false f1000 db6 q1 fs48000 ∧
    UpdateReaches fresh .allPass 0 resting 8 false f1000 db6 q1 fs48000 :=
  ⟨⟨witness_corner.1, witness_positive_q.1⟩, ⟨rfl, rfl, by decide, by decide, by decide⟩,
    ⟨rfl, rfl, by decide, by decide, by decide⟩, ⟨rfl, rfl, by decide, by decide, by decide⟩⟩

theorem witness_UpdateLowPassHighPass :
    (CornerLegal (clampFreq f1000) fs48000 ∧ UpdateQLegal false q1 ∧ (1#8 : BitVec 8) = 1) ∧
    UpdateReaches fresh .lowPass 0 resting 1 false f1000 db6 q1 fs48000 ∧
    UpdateReaches fresh .highPass 0 resting 8 false f1000 db6 q1 fs48000 :=
  ⟨⟨witness_corner.1, witness_positive_q.1, rfl⟩, ⟨rfl, rfl, by decide, by decide, by decide⟩,
    ⟨rfl, rfl, by decide, by decide, by decide⟩⟩

theorem witness_UpdateShelves :
    (CornerLegal (clampFreq f1000) fs48000 ∧ UpdateQLegal false q1) ∧
    UpdateReaches fresh .lowShelf 0 resting 1 false f1000 db6 q1 fs48000 ∧
    UpdateReaches fresh .highShelf 0 resting 8 false f1000 db6 q1 fs48000 :=
  ⟨⟨witness_corner.1, witness_positive_q.1⟩, ⟨rfl, rfl, by decide, by decide, by decide⟩,
    ⟨rfl, rfl, by decide, by decide, by decide⟩⟩

theorem witness_UpdateBandPass :
    (CornerLegal (clampFreq f1000) fs48000 ∧ UpdateQLegal false q1 ∧ (1#8 : BitVec 8) = 1) ∧
    UpdateReaches fresh .bandPass 0 resting 1 false f1000 db6 q1 fs48000 ∧
    UpdateReaches fresh .bandPass 0 resting 7 false f1000 db6 q1 fs48000 :=
  ⟨⟨witness_corner.1, witness_positive_q.1, rfl⟩, ⟨rfl, rfl, by decide, by decide, by decide⟩,
    ⟨rfl, rfl, by decide, by decide, by decide⟩⟩

theorem witness_UpdateTilt :
    (CornerLegal (clampFreq f1000) fs48000 ∧ UpdateQLegal false q1) ∧
    UpdateReaches fresh .tilt 0 resting 1 false f1000 db6 q1 fs48000 ∧
    UpdateReaches fresh .tilt 0 resting 8 false f1000 db6 q1 fs48000 :=
  ⟨⟨witness_corner.1, witness_positive_q.1⟩, ⟨rfl, rfl, by decide, by decide, by decide⟩,
    ⟨rfl, rfl, by decide, by decide, by decide⟩⟩

/-- The corners of a Mesa, from the exact results of its three operations. -/
theorem mesa_corners_eq {f bw w t u fa fb : F} (hw : F.add bw F.half = some w) (ht : F.div f w = some t)
    (hu : F.mul f w = some u) (h : IsMesaCorners f bw fa fb) : fa = clampFreq t ∧ fb = clampFreq u := by
  obtain ⟨w', h1, ⟨t', h2, rfl⟩, ⟨u', h3, rfl⟩⟩ := h
  simp only [IsSum, hw, IsResult] at h1
  subst h1
  simp only [IsQuot, ht, IsResult] at h2
  simp only [IsProd, hu, IsResult] at h3
  exact ⟨by rw [h2], by rw [h3]⟩

/-- At 1000 Hz and `bw` = 1.5 they are 500 Hz and 2000 Hz. -/
theorem mesa_corners_1000 (fa fb : F)
    (h : IsMesaCorners (clampFreq 0x408F400000000000#64) 0x3FF8000000000000#64 fa fb) :
    fa = 0x407F400000000000#64 ∧ fb = 0x409F400000000000#64 := by
  have h0 : clampFreq 0x408F400000000000#64 = 0x408F400000000000#64 := by decide +kernel
  have h2 : F.add 0x3FF8000000000000#64 F.half = some 0x4000000000000000#64 ∧
      F.div 0x408F400000000000#64 0x4000000000000000#64 = some 0x407F400000000000#64 ∧
      F.mul 0x408F400000000000#64 0x4000000000000000#64 = some 0x409F400000000000#64 ∧
      clampFreq 0x407F400000000000#64 = 0x407F400000000000#64 ∧
      clampFreq 0x409F400000000000#64 = 0x409F400000000000#64 := by decide +kernel
  rw [h0] at h
  have h3 := mesa_corners_eq h2.1 h2.2.1 h2.2.2.1 h
  rwa [h2.2.2.2.1, h2.2.2.2.2] at h3

/-- 500 Hz is legal at 48 kHz and at 4 kHz, not at 1 kHz; 2000 Hz is legal at 48 kHz, not at 4 kHz. -/
theorem mesa_corners_legal :
    CornerLegal 0x407F400000000000#64 0x40E7700000000000#64 ∧ CornerLegal 0x409F400000000000#64 0x40E7700000000000#64 ∧
    CornerLegal 0x407F400000000000#64 0x40AF400000000000#64 ∧
    CornerFault 0x409F400000000000#64 0x40AF400000000000#64 .outsideNyquist ∧
    CornerFault 0x407F400000000000#64 0x408F400000000000#64 .outsideNyquist :=
  ⟨⟨by decide +kernel, (belowNyquist_iff _ _).1 (by decide +kernel)⟩,
    ⟨by decide +kernel, (belowNyquist_iff _ _).1 (by decide +kernel)⟩,
    ⟨by decide +kernel, (belowNyquist_iff _ _).1 (by decide +kernel)⟩,
    .inr ⟨by decide +kernel, fun h => absurd ((belowNyquist_iff _ _).2 h) (by decide +kernel), rfl⟩,
    .inr ⟨by decide +kernel, fun h => absurd ((belowNyquist_iff _ _).2 h) (by decide +kernel), rfl⟩⟩

/-- One set of operands for all three hypotheses: 1000 Hz, a Q and bandwidth of 1.5, 48 kHz. -/
theorem witness_UpdateMesa :
    (∀ fa fb, IsMesaCorners (clampFreq f1000) 0x3FF8000000000000#64 fa fb →
      CornerLegal fa fs48000 ∧ CornerLegal fb fs48000) ∧
    UpdateQLegal false 0x3FF8000000000000#64 ∧
    UpdateReaches fresh .mesa 0 resting 2 false f1000 db6 0x3FF8000000000000#64 fs48000 := by
  refine ⟨fun fa fb h => ?_, qLegal_of_pos pos_one_and_half, ⟨rfl, rfl, by decide, by decide, by decide⟩⟩
  rw [(mesa_corners_1000 fa fb h).1, (mesa_corners_1000 fa fb h).2]
  exact ⟨mesa_corners_legal.1, mesa_corners_legal.2.1⟩

/-- A NaN frequency, and 20 kHz at 40 kHz, each in an update that reaches the build. -/
theorem witness_UpdateFactoryFaults_corner :
    (CornerFault (clampFreq 0x7FF8000000000000#64) fs48000 .nonPositiveFrequency ∧
      UpdateReaches fresh .lowPass 0 resting 1 false 0x7FF8000000000000#64 0 q1 fs48000) ∧
    CornerFault (clampFreq 0x41CDCD6500000000#64) 0x40E3880000000000#64 .outsideNyquist ∧
    UpdateReaches fresh .lowPass 0 resting 1 false 0x41CDCD6500000000#64 0 q1 0x40E3880000000000#64 :=
  ⟨⟨.inl ⟨by decide +kernel, rfl⟩, ⟨rfl, rfl, by decide, by decide, by decide⟩⟩,
    .inr ⟨by decide +kernel, fun h => absurd ((belowNyquist_iff _ _).2 h) (by decide +kernel), rfl⟩,
    ⟨rfl, rfl, by decide, by decide, by decide⟩⟩

theorem witness_UpdateFactoryFaults_q :
    CornerLegal (clampFreq f1000) fs48000 ∧ (∀ q, IsUpdateQ false 0 q → F.lt F.zero q = false) ∧
    effOrder .lowPass 3 ≠ .o1 ∧ UpdateReaches fresh .lowPass 0 resting 3 false f1000 0 0 fs48000 :=
  ⟨witness_corner.1, fun q h => (show q = 0 from h) ▸ (by decide), by decide,
    ⟨rfl, rfl, by decide, by decide, by decide⟩⟩

/-- At `fs` = 1000 the lower corner, 500 Hz, is at the Nyquist limit. -/
theorem witness_UpdateFactoryFaults_mesa_lower :
    UpdateReaches fresh .mesa 0 resting 2 false f1000 db6 0x3FF8000000000000#64 f1000 ∧
    ∀ fa fb, IsMesaCorners (clampFreq f1000) 0x3FF8000000000000#64 fa fb → CornerFault fa f1000 .outsideNyquist := by
  refine ⟨⟨rfl, rfl, by decide, by decide, by decide⟩, fun fa fb h => ?_⟩
  rw [(mesa_corners_1000 fa fb h).1]
  exact mesa_corners_legal.2.2.2.2

/-- A NaN `bw` makes the lower corner a NaN, which is not above zero (43_band.md R184, 00_scope.md R11). -/
theorem mesa_corner_nan {f bw fs fa fb : F} (hn : F.isNaN bw = true) (h : IsMesaCorners f bw fa fb) :
    CornerFault fa fs .nonPositiveFrequency := by
  obtain ⟨w, hw, ⟨t, ht, rfl⟩, -⟩ := h
  have hw' : F.isNaN w = true := by
    unfold IsSum F.add at hw
    rw [hn] at hw
    exact isNaN_of_isQuietNaN hw
  have ht' : F.isNaN t = true := by
    unfold IsQuot F.div at ht
    rw [hw', Bool.or_true] at ht
    exact isNaN_of_isQuietNaN ht
  exact .inl ⟨by simp [clampFreq, clamp, F.lt, ht'], rfl⟩

theorem isNaN_quiet : F.isNaN 0x7FF8000000000000#64 = true := by decide

/-- An update with a NaN `bw` gets there (log entry 14). -/
theorem witness_UpdateFactoryFaults_mesa_nan :
    UpdateReaches fresh .mesa 0 resting 2 false f1000 db6 0x7FF8000000000000#64 fs48000 ∧
    ∀ fa fb, IsMesaCorners (clampFreq f1000) 0x7FF8000000000000#64 fa fb →
      CornerFault fa fs48000 .nonPositiveFrequency :=
  ⟨⟨rfl, rfl, by decide, by decide, by decide⟩, fun _ _ h => mesa_corner_nan isNaN_quiet h⟩

/-- With `bw` = 0 the corners are 2000 and 500 Hz, and the Q is not positive. -/
theorem witness_UpdateFactoryFaults_mesa_q :
    UpdateReaches fresh .mesa 0 resting 2 false f1000 db6 0 fs48000 ∧
    (∀ q, IsUpdateQ false 0 q → F.lt F.zero q = false) ∧
    ∀ fa fb, IsMesaCorners (clampFreq f1000) 0 fa fb → CornerLegal fa fs48000 := by
  refine ⟨⟨rfl, rfl, by decide, by decide, by decide⟩, fun q h => (show q = 0 from h) ▸ (by decide), fun fa fb h => ?_⟩
  have h0 : clampFreq f1000 = f1000 := by decide +kernel
  have h2 : F.add 0 F.half = some F.half ∧ F.div f1000 F.half = some 0x409F400000000000#64 ∧
      F.mul f1000 F.half = some 0x407F400000000000#64 ∧
      clampFreq 0x409F400000000000#64 = 0x409F400000000000#64 := by decide +kernel
  rw [h0] at h
  rw [(mesa_corners_eq h2.1 h2.2.1 h2.2.2.1 h).1, h2.2.2.2]
  exact mesa_corners_legal.2.1

/-- At `fs` = 4000 the upper corner, 2000 Hz, is at the Nyquist limit. -/
theorem witness_UpdateFactoryFaults_mesa_upper :
    UpdateReaches fresh .mesa 0 resting 2 false f1000 db6 0x3FF8000000000000#64 0x40AF400000000000#64 ∧
    UpdateQLegal false 0x3FF8000000000000#64 ∧
    ∀ fa fb, IsMesaCorners (clampFreq f1000) 0x3FF8000000000000#64 fa fb →
      CornerLegal fa 0x40AF400000000000#64 ∧ CornerFault fb 0x40AF400000000000#64 .outsideNyquist := by
  refine ⟨⟨rfl, rfl, by decide, by decide, by decide⟩, qLegal_of_pos pos_one_and_half, fun fa fb h => ?_⟩
  rw [(mesa_corners_1000 fa fb h).1, (mesa_corners_1000 fa fb h).2]
  exact ⟨mesa_corners_legal.2.2.1, mesa_corners_legal.2.2.2.1⟩

theorem witness_BresetEffect :
    (machine .rt [rung]).port = .rt ∧ (machine .rt [rung]).bands[(0#4).toNat]? = some rung := ⟨rfl, rfl⟩

/-! ## The bank -/

theorem witness_EnableDisableSrateEffect :
    fresh.port = .rt ∧ fresh.bands[(3#4).toNat]? = some resting := ⟨rfl, rfl⟩

theorem witness_ProcResult :
    (machine .rt [belled]).port = .rt ∧ fresh.port = .rt ∧ ∀ b ∈ fresh.bands, b.en = false := ⟨rfl, rfl, by decide⟩

theorem witness_ProcbResult :
    (machine .rt [belled]).port = .rt ∧
    ([(0, 0)] : List (F × F)).length ≤ ({ machine .rt [belled] with cfg := { cfg with maxBlock := 1 } } :
      State).cfg.maxBlock ∧
    ({ machine .rt [belled] with cfg := { cfg with maxBlock := 1 } } : State).cfg.maxBlock <
      ([(0, 0), (0, 0)] : List (F × F)).length := by decide

/-- The other channel differs, the draws differ, and the common channel's samples are two NaNs. -/
theorem witness_ChannelsAreIndependent :
    let s₁ := machine .rt [rung]
    let s₂ := { machine .rt [{ rung with right := ChannelState.zero }] with draws := 7 }
    s₁.port = .rt ∧ s₂.port = .rt ∧ List.Forall₂ (SamePath .left) s₁.bands s₂.bands ∧
      SameF (side .left (0x7FF8000000000000#64, 0)) (side .left (0xFFF8000000000000#64, 0x3FF0000000000000#64)) ∧
      List.Forall₂ (fun x₁ x₂ => SameF (side .left x₁) (side .left x₂)) [(0x3FF0000000000000#64, 0)]
        [(0x3FF0000000000000#64, 0x3FF0000000000000#64)] ∧
      [(0x3FF0000000000000#64, 0)].length ≤ s₁.cfg.maxBlock ∧ [(0x3FF0000000000000#64, 0)].length ≤ s₂.cfg.maxBlock :=
  ⟨rfl, rfl, .cons ⟨⟨rfl, rfl, rfl, rfl, rfl, rfl⟩, rfl, .refl _⟩ .nil, .inr ⟨by decide, by decide⟩,
    .cons (.refl _) .nil, by decide, by decide⟩

theorem witness_CapacityNeverExceeded :
    (machine .rt [{ belled with kind := .bandPass, eo := .o8, prev := resetPrev }]).Inv := ⟨by decide,
      by decide +kernel, by decide +kernel, by decide⟩

end Sys2Proof.Tests
end

section
/-! The clamp of 00_scope.md R11: what it answers on each side of its two bounds. -/

namespace Sys2Proof

variable {x lo hi : F}

theorem F.lt_nan_left (hx : F.isNaN x = true) (y : F) : F.lt x y = false := by simp [F.lt, hx]

theorem F.lt_nan_right (hx : F.isNaN x = true) (y : F) : F.lt y x = false := by simp [F.lt, hx]

theorem clamp_of_below (h : F.lt x lo = true) : clamp x lo hi = lo := if_pos h

theorem clamp_of_above (hlo : F.lt x lo = false) (hhi : F.lt hi x = true) : clamp x lo hi = hi := by
  simp [clamp, hlo, hhi]

theorem clamp_of_within (hlo : F.lt x lo = false) (hhi : F.lt hi x = false) : clamp x lo hi = x := by
  simp [clamp, hlo, hhi]

/-- R11: both comparisons with a NaN are false. -/
theorem clamp_nan (hx : F.isNaN x = true) : clamp x lo hi = x :=
  clamp_of_within (F.lt_nan_left hx lo) (F.lt_nan_right hx hi)

/-- Settles O25: one lemma for each side of the two bounds, and a NaN is on neither side. -/
theorem clampBounds : Obligations.ClampBounds := by
  unfold Obligations.ClampBounds
  exact fun _ _ _ => ⟨clamp_nan, clamp_of_below, clamp_of_above, clamp_of_within⟩

end Sys2Proof
end

section
/-! The read-back of the control registers: the two words of a zero-extended register, and the bits of the `CONFIG` and
`ENABLE` views (10_state.md R33, R34). -/

namespace Sys2Proof.Machine

/-- A register shorter than `F` reads as its own word and a zero high word (46_readback.md R253). -/
theorem fWords_setWidth (w : Word) : fWords (w.setWidth 64) = [w, 0] := by
  have hlo : (w.setWidth 64).extractLsb' 0 32 = w := by simp [BitVec.extractLsb'_setWidth_of_le]
  have hhi : (w.setWidth 64).extractLsb' 32 32 = 0 := by ext i hi; simp
  rw [fWords, hlo, hhi]

theorem exec_rdcsr (n : Csr) (s : State) : exec (.rdcsr n) s = execRdcsr n s := rfl

/-- What `RDCSR` answers of a register that is one word wide. -/
theorem execRdcsr_of_word {s : State} {n : Csr} {w : Word} (h : csrValue s n = w.setWidth 64) :
    exec (.rdcsr n) s = .next (s.respond .rdcsr 0 [w, 0]) := by
  rw [exec_rdcsr, execRdcsr, h, fWords_setWidth]

/-- `NBANDS` is at most 16, so its five bits hold it and the fields of `CONFIG` do not overlap. -/
theorem configView_toNat {n : Nat} (hn : n ≤ 16) : (configView n).toNat = n + 8 * 2 ^ 8 := by
  interval_cases n <;> rfl

theorem enableNumber_testBit (bands : List Band) (n : Nat) :
    (enableNumber bands).testBit n = true ↔ ∃ b, bands[n]? = some b ∧ b.en = true := by
  induction bands generalizing n with
  | nil => simp [enableNumber]
  | cons b rest ih =>
    cases n with
    | zero => cases hb : b.en <;> simp [enableNumber, hb, Nat.testBit_zero]
    | succ n =>
      have hhalf : enableNumber (b :: rest) / 2 = enableNumber rest := by
        rw [enableNumber]; split <;> omega
      rw [Nat.testBit_succ, hhalf, ih, List.getElem?_cons_succ]

/-- At most 32 enable bits, so the word drops none of them. -/
theorem enableView_getLsbD {bands : List Band} (hlen : bands.length ≤ 32) (n : Nat) :
    (enableView bands).getLsbD n = true ↔ ∃ b, bands[n]? = some b ∧ b.en = true := by
  rw [enableView, BitVec.getLsbD_ofNat, Bool.and_eq_true, enableNumber_testBit, decide_eq_true_iff,
    and_iff_right_iff_imp]
  rintro ⟨b, hb, -⟩
  obtain ⟨hn, -⟩ := List.getElem?_eq_some_iff.1 hb
  omega

/-- Settles O40: six registers are one word wide, `CONFIG` and `ENABLE` by the bits of their views, and `FS` is held in
two words. -/
theorem readBackOfControlRegisters : Obligations.ReadBackOfControlRegisters := by
  unfold Obligations.ReadBackOfControlRegisters
  intro s _ hmax
  have hlen : s.bands.length ≤ 32 := hmax.trans (by decide)
  exact ⟨execRdcsr_of_word rfl, ⟨configView s.nbands, configView_toNat hmax, execRdcsr_of_word rfl⟩,
    ⟨enableView s.bands, enableView_getLsbD hlen, execRdcsr_of_word rfl⟩,
    execRdcsr_of_word rfl, execRdcsr_of_word rfl, execRdcsr_of_word rfl, rfl⟩

end Sys2Proof.Machine
end

section
/-! The stage datapath: the two tick operations on the machine, and the law of 40_stage_datapath.md R109 for each order.
The law eliminates the state of repeated ticks among power series in the delay and divides by the denominator of the
evaluator's `H`. -/

namespace Sys2Proof.Machine

/-! ## The tick operations -/

theorem exec_tick2 (a1 a2 a3 m0 m1 m2 ic1eq ic2eq x : F) (s : State) :
    exec (.tick2 a1 a2 a3 m0 m1 m2 ic1eq ic2eq x) s = execTick2 a1 a2 a3 m0 m1 m2 ic1eq ic2eq x s := rfl

theorem exec_tick1 (a m0 m1 s0 x : F) (s : State) : exec (.tick1 a m0 m1 s0 x) s = execTick1 a m0 m1 s0 x s := rfl

theorem execTick2_responds (a1 a2 a3 m0 m1 m2 ic1eq ic2eq x : F) (s : State) : ∃ y i1 i2 d,
    IsTick2 a1 a2 a3 m0 m1 m2 ic1eq ic2eq x y i1 i2 ∧
      execTick2 a1 a2 a3 m0 m1 m2 ic1eq ic2eq x s =
        .next (State.respond { s with draws := d } .tick2 0 (fsWords [y, i1, i2])) := by
  obtain ⟨r, d, hr, hs⟩ := compute_eq
    (gives_tick2 ⟨F.zero, F.zero, a1, a2, a3, m0, m1, m2, F.zero⟩ ⟨ic1eq, ic2eq⟩ x) s
    fun r s' => s'.respond .tick2 0 (fsWords [r.1, r.2.ic1eq, r.2.ic2eq])
  exact ⟨_, _, _, d, hr, congrArg Host.Outcome.next hs⟩

theorem execTick1_responds (a m0 m1 s0 x : F) (s : State) : ∃ y s' d, IsTick1 a m0 m1 s0 x y s' ∧
    execTick1 a m0 m1 s0 x s = .next (State.respond { s with draws := d } .tick1 0 (fsWords [y, s'])) := by
  obtain ⟨r, d, hr, hs⟩ := compute_eq (gives_tick1 ⟨F.zero, a, m0, m1⟩ s0 x) s
    fun r s' => s'.respond .tick1 0 (fsWords [r.1, r.2])
  exact ⟨_, _, d, hr, congrArg Host.Outcome.next hs⟩

/-- Settles O26: each tick operation runs its stage function and answers what that gives. -/
theorem tickResults : Obligations.TickResults := by
  unfold Obligations.TickResults
  refine ⟨fun s a1 a2 a3 m0 m1 m2 ic1eq ic2eq x => ?_, fun s a m0 m1 s0 x => ?_⟩
  · rw [exec_tick2]
    exact execTick2_responds a1 a2 a3 m0 m1 m2 ic1eq ic2eq x s
  · rw [exec_tick1]
    exact execTick1_responds a m0 m1 s0 x s

/-! ## Sequences as power series in the delay -/

/-- A register at rest that each sample sets to `2 * v - s`, the trapezoidal integrator of R101, as power series. -/
theorem mk_eq_of_trapezoidal {K : Type} [Field K] {s v : Nat → K} (h0 : s 0 = 0)
    (hs : ∀ n, s (n + 1) = 2 * v n - s n) :
    PowerSeries.mk s = PowerSeries.X * (2 * PowerSeries.mk v - PowerSeries.mk s) := by
  have hshift : PowerSeries.mk (fun n => s (n + 1)) = 2 * PowerSeries.mk v - PowerSeries.mk s := by
    ext n
    simp [hs, two_mul]
  rw [← hshift, ← mk_eq_X_mul_shift s h0]

theorem one_sub_X_ne_zero {K : Type} [Field K] : (1 - PowerSeries.X : PowerSeries K) ≠ 0 := fun h => by
  simpa using congrArg PowerSeries.constantCoeff h

/-! ## Repeated second-order ticks -/

section SecondOrder

open PowerSeries (C X)

variable {K : Type} [Field K] (a1 a2 a3 m0 m1 m2 : K) (x : Nat → K)

/-- The first integrator before each sample. -/
def integrator1 (n : Nat) : K := (exactState2 a1 a2 a3 m0 m1 m2 x n).1

/-- The second integrator before each sample. -/
def integrator2 (n : Nat) : K := (exactState2 a1 a2 a3 m0 m1 m2 x n).2

/-- `v1` of R101 at each sample. -/
def bandNode (n : Nat) : K :=
  a1 * integrator1 a1 a2 a3 m0 m1 m2 x n + a2 * (x n - integrator2 a1 a2 a3 m0 m1 m2 x n)

/-- `v2` of R101 at each sample. -/
def lowNode (n : Nat) : K :=
  integrator2 a1 a2 a3 m0 m1 m2 x n + a2 * integrator1 a1 a2 a3 m0 m1 m2 x n +
    a3 * (x n - integrator2 a1 a2 a3 m0 m1 m2 x n)

theorem integrator1_succ (n : Nat) : integrator1 a1 a2 a3 m0 m1 m2 x (n + 1) =
    2 * bandNode a1 a2 a3 m0 m1 m2 x n - integrator1 a1 a2 a3 m0 m1 m2 x n := rfl

theorem integrator2_succ (n : Nat) : integrator2 a1 a2 a3 m0 m1 m2 x (n + 1) =
    2 * lowNode a1 a2 a3 m0 m1 m2 x n - integrator2 a1 a2 a3 m0 m1 m2 x n := rfl

theorem exactOutput2_eq_mix (n : Nat) : exactOutput2 a1 a2 a3 m0 m1 m2 x n =
    m0 * x n + m1 * bandNode a1 a2 a3 m0 m1 m2 x n + m2 * lowNode a1 a2 a3 m0 m1 m2 x n := rfl

/-- The mix of R101 as power series. -/
theorem mk_exactOutput2 : PowerSeries.mk (exactOutput2 a1 a2 a3 m0 m1 m2 x) =
    C m0 * PowerSeries.mk x + C m1 * PowerSeries.mk (bandNode a1 a2 a3 m0 m1 m2 x) +
      C m2 * PowerSeries.mk (lowNode a1 a2 a3 m0 m1 m2 x) := by
  ext n
  simp [exactOutput2_eq_mix]

theorem mk_bandNode : PowerSeries.mk (bandNode a1 a2 a3 m0 m1 m2 x) =
    C a1 * PowerSeries.mk (integrator1 a1 a2 a3 m0 m1 m2 x) +
      C a2 * (PowerSeries.mk x - PowerSeries.mk (integrator2 a1 a2 a3 m0 m1 m2 x)) := by
  ext n
  simp [bandNode]

theorem mk_lowNode : PowerSeries.mk (lowNode a1 a2 a3 m0 m1 m2 x) =
    PowerSeries.mk (integrator2 a1 a2 a3 m0 m1 m2 x) + C a2 * PowerSeries.mk (integrator1 a1 a2 a3 m0 m1 m2 x) +
      C a3 * (PowerSeries.mk x - PowerSeries.mk (integrator2 a1 a2 a3 m0 m1 m2 x)) := by
  ext n
  simp [lowNode]

/-- The denominator of `H` for a second-order record, at `z⁻¹` = `X` (45_response_sampler.md R232). -/
noncomputable def denominator2 (g k : K) : PowerSeries K :=
  C (g * g + g * k + 1) + C (2 * (g * g - 1)) * X + C (g * g - g * k + 1) * X ^ 2

variable {a1 a2 a3} {g k : K}

/-- The constant term of the denominator is `1 + g * (g + k)`. -/
theorem denominator2_mul_inv (hg : 1 + g * (g + k) ≠ 0) : denominator2 g k * (denominator2 g k)⁻¹ = 1 := by
  have hterm : g * g + g * k + 1 = 1 + g * (g + k) := by ring
  exact PowerSeries.mul_inv_cancel _ (by simpa [denominator2, hterm] using hg)

/-- Each node of the repeated ticks, times the denominator of `H`. -/
theorem denominator2_mul_nodes (hg : 1 + g * (g + k) ≠ 0) (h1 : a1 = 1 / (1 + g * (g + k))) (h2 : a2 = g * a1)
    (h3 : a3 = g * a2) :
    denominator2 g k * PowerSeries.mk (bandNode a1 a2 a3 m0 m1 m2 x) = C g * (1 - X ^ 2) * PowerSeries.mk x ∧
      denominator2 g k * PowerSeries.mk (lowNode a1 a2 a3 m0 m1 m2 x) =
        C g * C g * (1 + 2 * X + X ^ 2) * PowerSeries.mk x := by
  have hone : a1 * (1 + g * (g + k)) = 1 := by rw [h1, one_div_mul_cancel hg]
  have hden : denominator2 g k = C g * C g + C g * C k + 1 + 2 * (C g * C g - 1) * X +
      (C g * C g - C g * C k + 1) * X ^ 2 := by
    simp only [denominator2, map_add, map_sub, map_mul, map_one, map_ofNat]
  rw [hden]
  exact tick2_nodes one_sub_X_ne_zero (by simpa using congrArg C hone) (by rw [h2, map_mul]) (by rw [h3, map_mul])
    (mk_eq_of_trapezoidal rfl (integrator1_succ a1 a2 a3 m0 m1 m2 x))
    (mk_eq_of_trapezoidal rfl (integrator2_succ a1 a2 a3 m0 m1 m2 x))
    (mk_bandNode a1 a2 a3 m0 m1 m2 x) (mk_lowNode a1 a2 a3 m0 m1 m2 x)

/-- R109 for the second-order tick. -/
theorem mk_exactOutput2_eq_mul_exactH2 (hg : 1 + g * (g + k) ≠ 0) (h1 : a1 = 1 / (1 + g * (g + k)))
    (h2 : a2 = g * a1) (h3 : a3 = g * a2) : PowerSeries.mk (exactOutput2 a1 a2 a3 m0 m1 m2 x) =
      PowerSeries.mk x * exactH2 C (fun u => u⁻¹) g k m0 m1 m2 (g * g) X (X ^ 2) := by
  obtain ⟨hband, hlow⟩ := denominator2_mul_nodes m0 m1 m2 x hg h1 h2 h3
  rw [mk_exactOutput2, exactH2_eq, ← denominator2]
  simp only [map_mul, map_one, map_ofNat]
  linear_combination (-(C m1 * PowerSeries.mk (bandNode a1 a2 a3 m0 m1 m2 x)) -
    C m2 * PowerSeries.mk (lowNode a1 a2 a3 m0 m1 m2 x)) * denominator2_mul_inv hg +
      (denominator2 g k)⁻¹ * (C m1 * hband + C m2 * hlow)

end SecondOrder

/-! ## Repeated first-order ticks -/

section FirstOrder

open PowerSeries (C X)

variable {K : Type} [Field K] (a m0 m1 : K) (x : Nat → K)

/-- `lp` of R104 at each sample. -/
def lowNode1 (n : Nat) : K := a * (x n - exactState1 a m0 m1 x n) + exactState1 a m0 m1 x n

theorem exactState1_succ (n : Nat) :
    exactState1 a m0 m1 x (n + 1) = 2 * lowNode1 a m0 m1 x n - exactState1 a m0 m1 x n := by
  rw [exactState1, exactTick1_eq, lowNode1]
  ring

theorem exactOutput1_eq_mix (n : Nat) : exactOutput1 a m0 m1 x n = m0 * x n + m1 * lowNode1 a m0 m1 x n := rfl

/-- The mix of R104 as power series. -/
theorem mk_exactOutput1 : PowerSeries.mk (exactOutput1 a m0 m1 x) =
    C m0 * PowerSeries.mk x + C m1 * PowerSeries.mk (lowNode1 a m0 m1 x) := by
  ext n
  simp [exactOutput1_eq_mix]

theorem mk_lowNode1 : PowerSeries.mk (lowNode1 a m0 m1 x) =
    C a * (PowerSeries.mk x - PowerSeries.mk (exactState1 a m0 m1 x)) + PowerSeries.mk (exactState1 a m0 m1 x) := by
  ext n
  simp [lowNode1]

/-- Eliminating the state from the first-order tick's equations: the low-pass node `V` in terms of the input `U`, `X`
the delay. -/
theorem tick1_node {R : Type} [CommRing R] {X G A S U V : R} (ha : A * (1 + G) = G) (hs : S = X * (2 * V - S))
    (hv : V = A * (U - S) + S) : (G + 1 + (G - 1) * X) * V = G * (1 + X) * U := by
  have hscaled : (1 + G) * V = G * U + S := by linear_combination (1 + G) * hv + (U - S) * ha
  linear_combination (1 + X) * hscaled + hs

/-- The denominator of `H` for a first-order record, at `z⁻¹` = `X` (45_response_sampler.md R233). -/
noncomputable def denominator1 (g : K) : PowerSeries K := C (g + 1) + C (g - 1) * X

variable {a} {g : K}

/-- The constant term of the denominator is `1 + g`. -/
theorem denominator1_mul_inv (hg : 1 + g ≠ 0) : denominator1 g * (denominator1 g)⁻¹ = 1 :=
  PowerSeries.mul_inv_cancel _ (by simpa [denominator1, add_comm] using hg)

/-- The low-pass node of the repeated ticks, times the denominator of `H`. -/
theorem denominator1_mul_node (hg : 1 + g ≠ 0) (ha : a = g / (1 + g)) :
    denominator1 g * PowerSeries.mk (lowNode1 a m0 m1 x) = C g * (1 + X) * PowerSeries.mk x := by
  have hone : a * (1 + g) = g := by rw [ha, div_mul_cancel₀ g hg]
  have hden : denominator1 g = C g + 1 + (C g - 1) * X := by simp [denominator1]
  rw [hden]
  exact tick1_node (by simpa using congrArg C hone) (mk_eq_of_trapezoidal rfl (exactState1_succ a m0 m1 x))
    (mk_lowNode1 a m0 m1 x)

/-- R109 for the first-order tick. -/
theorem mk_exactOutput1_eq_mul_exactH1 (hg : 1 + g ≠ 0) (ha : a = g / (1 + g)) :
    PowerSeries.mk (exactOutput1 a m0 m1 x) = PowerSeries.mk x * exactH1 C (fun u => u⁻¹) g m0 m1 X := by
  rw [mk_exactOutput1, exactH1_eq, ← denominator1]
  simp only [map_mul, map_one]
  linear_combination -(C m1 * PowerSeries.mk (lowNode1 a m0 m1 x)) * denominator1_mul_inv hg +
    (denominator1 g)⁻¹ * C m1 * denominator1_mul_node m0 m1 x hg ha

end FirstOrder

/-- Settles O27: the two orders of the law, each by eliminating the tick's state. -/
theorem exactTransferFunction : Obligations.ExactTransferFunction := by
  unfold Obligations.ExactTransferFunction
  exact ⟨fun _ _ _ _ _ x hg => mk_exactOutput2_eq_mul_exactH2 _ _ _ x hg rfl rfl rfl,
    fun _ _ _ x hg => mk_exactOutput1_eq_mul_exactH1 _ _ x hg rfl⟩

end Sys2Proof.Machine
end

section
/-! The second-order coefficient factory: what `COEF` answers when its checks pass (41_coefficient_factory.md R121 to
R131), and the analog prototypes of the shapes in exact arithmetic (R135). -/

namespace Sys2Proof.Machine

/-! ## The COEF operations of the second-order shapes -/

theorem checkShape2_of_legal {f0 fs q : F} (hc : CornerLegal f0 fs) (hq : F.lt F.zero q = true) :
    checkShape2 f0 fs q = none := by
  simp [checkShape2, (checkFrequency_none_iff f0 fs).2 hc, hq]

theorem gives_coef2 {f0 fs q : F} (hc : CornerLegal f0 fs) (hq : F.lt F.zero q = true) (shape : Shape2) (gainDb : F) :
    Gives (coef2 shape f0 fs q gainDb) fun r => ∃ c, IsRecord2 shape f0 fs q gainDb c ∧ r = .ok c := by
  rw [coef2, checkShape2_of_legal hc hq]
  exact gives_bind (gives_record2 shape f0 fs q gainDb) fun c hrec => gives_pure ⟨c, hrec, rfl⟩

theorem answerCoef2_responds {f0 fs q : F} (hc : CornerLegal f0 fs) (hq : F.lt F.zero q = true) (shape : Shape2)
    (gainDb : F) (s : State) : ∃ c d, IsRecord2 shape f0 fs q gainDb c ∧
      answerCoef2 shape f0 fs q gainDb s = State.respond { s with draws := d } .coef 0 (fsWords c.toList) := by
  unfold answerCoef2
  obtain ⟨_, d, ⟨c, hrec, rfl⟩, hs⟩ := compute_eq (gives_coef2 hc hq shape gainDb) s _
  exact ⟨c, d, hrec, hs⟩

/-- The `COEF` operation of a shape (41_coefficient_factory.md R120); only the three shapes with a gain carry it. -/
def coefInstr (f0 fs q gainDb : F) : Shape2 → Instr
  | .bell => .coefBell f0 fs q gainDb
  | .lowPass => .coefLp f0 fs q
  | .highPass => .coefHp f0 fs q
  | .lowShelf => .coefLs f0 fs q gainDb
  | .highShelf => .coefHs f0 fs q gainDb
  | .notch => .coefNotch f0 fs q
  | .bandPass => .coefBp f0 fs q
  | .allPass => .coefAp f0 fs q

/-- The five shapes without a gain answer the same whatever gain the factory is given. -/
theorem exec_coefInstr (f0 fs q gainDb : F) (shape : Shape2) (s : State) :
    exec (coefInstr f0 fs q gainDb shape) s = .next (answerCoef2 shape f0 fs q gainDb s) := by
  cases shape <;> rfl

/-- Settles O29: the eight operations are those of the eight shapes, and a factory call whose checks pass gives the
shape's record. -/
theorem secondOrderCoefficients : Obligations.SecondOrderCoefficients := by
  unfold Obligations.SecondOrderCoefficients
  intro s f0 fs q gainDb hf0 hfs hq i hi
  have hmem : i ∈ [Shape2.bell, .lowPass, .highPass, .lowShelf, .highShelf, .notch, .bandPass, .allPass].map
      fun shape => (coefInstr f0 fs q gainDb shape, shape) := hi
  obtain ⟨shape, -, rfl⟩ := List.mem_map.1 hmem
  obtain ⟨c, d, hrec, hs⟩ := answerCoef2_responds ⟨hf0, hfs⟩ hq shape gainDb s
  exact ⟨c, d, hrec, (exec_coefInstr f0 fs q gainDb shape s).trans (congrArg Host.Outcome.next hs)⟩

/-! ## The evaluator under the bilinear map -/

section Bilinear

variable {K : Type} [Field K] {g w s : K}

/-- `H` of a second-order record at `z⁻¹` = `w`, in the analog variable `s` = `(1/g)*(1 - w)/(1 + w)`: numerator and
denominator of 45_response_sampler.md R232 both hold the factor `(g*(1 + w))^2`. -/
theorem exactH2_eq_analog (k m0 m1 m2 : K) (hg : g ≠ 0) (hw : 1 + w ≠ 0) (hs : g * (1 + w) * s = 1 - w) :
    exactH2 (fun r => r) (fun u => u⁻¹) g k m0 m1 m2 (g * g) w (w * w) =
      m0 + (m1 * s + m2) / (s ^ 2 + k * s + 1) := by
  have hfactor : (g * (1 + w)) ^ 2 ≠ 0 := pow_ne_zero 2 (mul_ne_zero hg hw)
  have hnum : m1 * g * (1 - w * w) + m2 * (g * g) * (1 + 2 * w + w * w) = (g * (1 + w)) ^ 2 * (m1 * s + m2) := by
    linear_combination -(m1 * g * (1 + w)) * hs
  have hden : g * g + g * k + 1 + 2 * (g * g - 1) * w + (g * g - g * k + 1) * (w * w) =
      (g * (1 + w)) ^ 2 * (s ^ 2 + k * s + 1) := by
    linear_combination -(g * (1 + w) * s + (1 - w) + k * g * (1 + w)) * hs
  rw [exactH2_eq, hnum, hden, ← div_eq_mul_inv, mul_div_mul_left _ _ hfactor]

/-- `H` of a first-order record in the analog variable, as `exactH2_eq_analog` (45_response_sampler.md R233). -/
theorem exactH1_eq_analog (m0 m1 : K) (hg : g ≠ 0) (hw : 1 + w ≠ 0) (hs : g * (1 + w) * s = 1 - w) :
    exactH1 (fun r => r) (fun u => u⁻¹) g m0 m1 w = m0 + m1 / (s + 1) := by
  have hnum : m1 * g * (1 + w) = g * (1 + w) * m1 := by ring
  have hden : g + 1 + (g - 1) * w = g * (1 + w) * (s + 1) := by linear_combination -hs
  rw [exactH1_eq, hnum, hden, ← div_eq_mul_inv, mul_div_mul_left _ _ (mul_ne_zero hg hw)]

/-- R135's table from the mix vectors of R124 to R131. -/
theorem prototype_eq_mix (shape : Shape2) (k amp : K) (hden : s ^ 2 + k * s + 1 ≠ 0) :
    prototype shape k amp s = (exactMix shape k amp).1 +
      ((exactMix shape k amp).2.1 * s + (exactMix shape k amp).2.2) / (s ^ 2 + k * s + 1) := by
  cases shape <;> rw [prototype, exactMix, add_div' _ _ _ hden] <;> ring

theorem exactH2_eq_prototype (shape : Shape2) (k amp : K) (hg : g ≠ 0) (hw : 1 + w ≠ 0)
    (hs : g * (1 + w) * s = 1 - w) (hden : s ^ 2 + k * s + 1 ≠ 0) :
    exactH2 (fun r => r) (fun u => u⁻¹) g k (exactMix shape k amp).1 (exactMix shape k amp).2.1
      (exactMix shape k amp).2.2 (g * g) w (w * w) = prototype shape k amp s := by
  rw [exactH2_eq_analog _ _ _ _ hg hw hs, prototype_eq_mix shape k amp hden]

end Bilinear

/-! ## The ends of the band -/

/-- At `z⁻¹` = 1, where `s` = 0. -/
theorem exactH2_at_one {g : ℂ} (k m0 m1 m2 : ℂ) (hg : g ≠ 0) :
    exactH2 (fun r => r) (fun u => u⁻¹) g k m0 m1 m2 (g * g) 1 1 = m0 + m2 := by
  simpa using exactH2_eq_analog (w := 1) (s := 0) k m0 m1 m2 hg (by norm_num) (by ring)

/-- At `z⁻¹` = -1, where both numerators vanish. -/
theorem exactH2_at_neg_one (g k m0 m1 m2 : ℂ) :
    exactH2 (fun r => r) (fun u => u⁻¹) g k m0 m1 m2 (g * g) (-1) 1 = m0 := by
  rw [exactH2_eq]
  ring

theorem exactH1_at_one {g : ℂ} (m0 m1 : ℂ) (hg : g ≠ 0) :
    exactH1 (fun r => r) (fun u => u⁻¹) g m0 m1 1 = m0 + m1 := by
  simpa using exactH1_eq_analog (w := 1) (s := 0) m0 m1 hg (by norm_num) (by ring)

/-! ## The prototypes at `s` = `j` -/

/-- At `s` = `j` the denominator of every prototype is `k*j`. -/
theorem prototype_denominator_I (k : ℂ) : Complex.I ^ 2 + k * Complex.I + 1 = k * Complex.I := by
  rw [Complex.I_sq]
  ring

/-- LowPass, BandPass and HighPass: a numerator of magnitude 1 over `j/Q`. -/
theorem norm_div_denominator_I {q : ℝ} (hq : 0 < q) {n : ℂ} (hn : ‖n‖ = 1) :
    ‖n / (Complex.I ^ 2 + ((1 / q : ℝ) : ℂ) * Complex.I + 1)‖ = q := by
  rw [prototype_denominator_I, norm_div, norm_mul, Complex.norm_I, Complex.norm_real,
    Real.norm_of_nonneg (by positivity), hn, mul_one, one_div_one_div]

theorem norm_prototype_I_eq_q {q : ℝ} (hq : 0 < q) (amp : ℂ) :
    ∀ shape ∈ [Shape2.lowPass, .bandPass, .highPass], ‖prototype shape ((1 / q : ℝ) : ℂ) amp Complex.I‖ = q := by
  simp only [List.forall_mem_cons]
  exact ⟨norm_div_denominator_I hq norm_one, norm_div_denominator_I hq Complex.norm_I,
    norm_div_denominator_I hq (by simp), nofun⟩

theorem prototype_notch_I (k amp : ℂ) : prototype .notch k amp Complex.I = 0 := by
  simp [prototype]

theorem prototype_allPass_I {k : ℂ} (hk : k ≠ 0) (amp : ℂ) : prototype .allPass k amp Complex.I = -1 := by
  have hnum : Complex.I ^ 2 - k * Complex.I + 1 = -(k * Complex.I) := by
    rw [Complex.I_sq]
    ring
  rw [prototype, hnum, prototype_denominator_I, neg_div, div_self (mul_ne_zero hk Complex.I_ne_zero)]

theorem prototype_bell_I {k : ℂ} (hk : k ≠ 0) (amp : ℂ) : prototype .bell k amp Complex.I = amp ^ 2 := by
  rw [prototype, prototype_denominator_I, prototype_denominator_I, mul_right_comm,
    mul_div_cancel_left₀ _ (mul_ne_zero hk Complex.I_ne_zero)]

/-- Settles O41: the bilinear map carries the evaluator's `H` to the prototype, whose denominator at `s` = `j` is `k*j`. -/
theorem analogPrototypes : Obligations.AnalogPrototypes := by
  unfold Obligations.AnalogPrototypes
  refine ⟨fun shape g k amp w hg hw hden => ?_, fun q amp hq hamp => ?_, fun g k m0 m1 m2 hg => ?_⟩
  · have hs : g * (1 + w) * (1 / g * ((1 - w) / (1 + w))) = 1 - w := by field_simp
    exact exactH2_eq_prototype shape k amp hg hw hs hden
  · have hk {x : ℝ} (hx : 0 < x) : ((1 / x : ℝ) : ℂ) ≠ 0 := Complex.ofReal_ne_zero.2 (one_div_ne_zero hx.ne')
    refine ⟨norm_prototype_I_eq_q hq amp, prototype_notch_I _ _, ?_, prototype_bell_I (hk (mul_pos hq hamp)) amp⟩
    rw [prototype_allPass_I (hk hq), norm_neg, norm_one]
  · exact ⟨exactH2_at_one k m0 m1 m2 hg, exactH2_at_neg_one g k m0 m1 m2, exactH1_at_one m0 m1 hg⟩

end Sys2Proof.Machine
end

section
/-! The band: the effective order (43_band.md R174), what a commit leaves in every register (R186, R187), and a frame
through the enabled bands (R195). -/

namespace Sys2Proof.Machine

/-! ## The effective order -/

theorem evenOrder_toNat {n : Nat} (heven : n % 2 = 0) (h2 : 2 ≤ n) (h8 : n ≤ 8) : (evenOrder n).toNat = n := by
  obtain rfl | rfl | rfl | rfl : n = 2 ∨ n = 4 ∨ n = 6 ∨ n = 8 := by omega
  all_goals rfl

/-- Settles O44: a legal order rounded up is 2, 4, 6 or 8, and order 1 is each kind's own case. -/
theorem effectiveOrder : Obligations.EffectiveOrder := by
  unfold Obligations.EffectiveOrder
  intro kind ord h1 h8
  have hround : (evenOrder (ord.toNat + ord.toNat % 2)).toNat = ord.toNat + ord.toNat % 2 :=
    evenOrder_toNat (by omega) (by omega) (by omega)
  cases kind with
  | bell | notch | allPass => rfl
  | lowPass | highPass | bandPass | lowShelf | highShelf | tilt | mesa =>
    by_cases hord : ord.toNat = 1
    · simp [effOrder, hord, EffOrder.toNat]
    · simp [effOrder, hord, hround]

/-! ## The records of a band -/

/-- The slot a built record goes to. -/
def BuiltStage.slot : BuiltStage → Slot
  | .first sub _ => .first sub
  | .second sub i _ => .second sub i

theorem BuiltStage.slot_eq_first {y : BuiltStage} {sub : SubCascade} :
    y.slot = .first sub ↔ ∃ c, y = .first sub c := by
  cases y <;> simp [slot]

theorem BuiltStage.slot_eq_second {y : BuiltStage} {sub : SubCascade} {i : Fin 4} :
    y.slot = .second sub i ↔ ∃ c, y = .second sub i c := by
  cases y <;> simp [slot]

/-- The record a slot holds, with its slot: the two widths as one type, so that what a write does is one statement. -/
def Band.record (b : Band) : Slot → BuiltStage
  | .first sub => .first sub (b.coef sub).first
  | .second sub i => .second sub i (b.coef sub).second[i]

@[simp] theorem Band.record_slot (b : Band) (slot : Slot) : (b.record slot).slot = slot := by
  cases slot <;> rfl

theorem Band.coef_setFirst (b : Band) (sub sub' : SubCascade) (c : OnePoleCoefficients) :
    (b.setFirst sub c).coef sub' = if sub = sub' then { b.coef sub with first := c } else b.coef sub' := by
  cases sub <;> cases sub' <;> rfl

theorem Band.coef_setSecond (b : Band) (sub sub' : SubCascade) (i : Fin 4) (c : SVFCoefficients) :
    (b.setSecond sub i c).coef sub' =
      if sub = sub' then { b.coef sub with second := (b.coef sub).second.set i c } else b.coef sub' := by
  cases sub <;> cases sub' <;> rfl

/-- A write reaches its own slot and no other. -/
theorem Band.record_writeBuilt (b : Band) (y : BuiltStage) (slot : Slot) :
    (b.writeBuilt y).record slot = if y.slot = slot then y else b.record slot := by
  cases y with
  | first sub c =>
    rw [Band.writeBuilt]
    cases slot with
    | first sub' => by_cases h : sub = sub' <;> simp [Band.record, BuiltStage.slot, Band.coef_setFirst, h]
    | second sub' j => by_cases h : sub = sub' <;> simp [Band.record, BuiltStage.slot, Band.coef_setFirst, h]
  | second sub i c =>
    rw [Band.writeBuilt]
    cases slot with
    | first sub' => by_cases h : sub = sub' <;> simp [Band.record, BuiltStage.slot, Band.coef_setSecond, h]
    | second sub' j =>
      by_cases h : sub = sub'
      · subst h
        by_cases hi : i = j
        · simp [Band.record, BuiltStage.slot, Band.coef_setSecond, hi]
        · have hij : (i : Nat) ≠ j := fun e => hi (Fin.ext e)
          simp [Band.record, BuiltStage.slot, Band.coef_setSecond, hi, Vector.getElem_set_ne _ _ hij]
      · simp [Band.record, BuiltStage.slot, Band.coef_setSecond, h]

/-- A slot every write to which is `x` holds `x` afterwards, if there is such a write or it held `x` before. -/
theorem Band.record_foldl_writeBuilt {x : BuiltStage} {l : List BuiltStage} {b : Band}
    (hl : ∀ y ∈ l, y.slot = x.slot → y = x) (hx : x ∈ l ∨ b.record x.slot = x) :
    (l.foldl Band.writeBuilt b).record x.slot = x := by
  induction l generalizing b with
  | nil => exact hx.resolve_left List.not_mem_nil
  | cons y rest ih =>
    refine ih (fun z hz => hl z (List.mem_cons_of_mem y hz)) ?_
    rw [Band.record_writeBuilt]
    by_cases hy : y.slot = x.slot
    · exact .inr ((if_pos hy).trans (hl y List.mem_cons_self hy))
    · rw [if_neg hy]
      have hne : x ≠ y := fun h => hy (h ▸ rfl)
      exact hx.imp_left fun h => (List.mem_cons.1 h).resolve_left hne

/-! ## The commit -/

section Commit

variable {band : Band} {key : Prev} {eo : EffOrder} {built : List BuiltStage} {gpost : F}

theorem Band.record_commit (slot : Slot) :
    (band.commit key eo built gpost).record slot = (built.foldl Band.writeBuilt band).record slot := by
  unfold Band.commit
  dsimp only
  split <;> rfl

theorem Band.record_commit_of_unwritten {slot : Slot} (h : ∀ y ∈ built, y.slot ≠ slot) :
    (band.commit key eo built gpost).record slot = band.record slot := by
  have hkept := Band.record_foldl_writeBuilt (x := band.record slot) (l := built) (b := band)
    (fun y hy hs => absurd (hs.trans (band.record_slot slot)) (h y hy)) (.inr (by rw [Band.record_slot]))
  rwa [Band.record_slot, ← Band.record_commit] at hkept

theorem Band.record_commit_of_written {x : BuiltStage} (hx : x ∈ built) (hl : ∀ y ∈ built, y.slot = x.slot → y = x) :
    (band.commit key eo built gpost).record x.slot = x :=
  (Band.record_commit _).trans (Band.record_foldl_writeBuilt hl (.inl hx))

theorem Band.commit_first_of_unwritten {sub : SubCascade} (h : ∀ c, .first sub c ∉ built) :
    ((band.commit key eo built gpost).coef sub).first = (band.coef sub).first := by
  have hr := Band.record_commit_of_unwritten (band := band) (key := key) (eo := eo) (gpost := gpost)
    (slot := .first sub) fun y hy hs => by
      obtain ⟨c, rfl⟩ := BuiltStage.slot_eq_first.1 hs
      exact h c hy
  exact (BuiltStage.first.inj hr).2

theorem Band.commit_second_of_unwritten {sub : SubCascade} {i : Fin 4} (h : ∀ c, .second sub i c ∉ built) :
    ((band.commit key eo built gpost).coef sub).second[i] = (band.coef sub).second[i] := by
  have hr := Band.record_commit_of_unwritten (band := band) (key := key) (eo := eo) (gpost := gpost)
    (slot := .second sub i) fun y hy hs => by
      obtain ⟨c, rfl⟩ := BuiltStage.slot_eq_second.1 hs
      exact h c hy
  exact (BuiltStage.second.inj hr).2.2

theorem Band.commit_first_of_written {sub : SubCascade} {c : OnePoleCoefficients} (hc : .first sub c ∈ built)
    (hl : ∀ c', .first sub c' ∈ built → c' = c) : ((band.commit key eo built gpost).coef sub).first = c := by
  have hr := Band.record_commit_of_written (band := band) (key := key) (eo := eo) (gpost := gpost) hc
    fun y hy hs => by
      obtain ⟨c', rfl⟩ := BuiltStage.slot_eq_first.1 hs
      rw [hl c' hy]
  exact (BuiltStage.first.inj hr).2

theorem Band.commit_second_of_written {sub : SubCascade} {i : Fin 4} {c : SVFCoefficients}
    (hc : .second sub i c ∈ built) (hl : ∀ c', .second sub i c' ∈ built → c' = c) :
    ((band.commit key eo built gpost).coef sub).second[i] = c := by
  have hr := Band.record_commit_of_written (band := band) (key := key) (eo := eo) (gpost := gpost) hc
    fun y hy hs => by
      obtain ⟨c', rfl⟩ := BuiltStage.slot_eq_second.1 hs
      rw [hl c' hy]
  exact (BuiltStage.second.inj hr).2.2

theorem Band.commit_state_of_same (hk : key.kind = band.kind) (he : eo = band.eo) :
    (band.commit key eo built gpost).left = band.left ∧ (band.commit key eo built gpost).right = band.right := by
  simp [Band.commit, hk, he]

theorem Band.commit_chan_of_changed (h : (key.kind, eo) ≠ (band.kind, band.eo)) (ch : Channel) :
    (band.commit key eo built gpost).chan ch = ChannelState.zero := by
  have hne : ¬(key.kind = band.kind ∧ eo = band.eo) := fun ⟨hk, he⟩ => h (Prod.ext hk he)
  rw [Band.commit, if_neg hne]
  cases ch <;> rfl

end Commit

/-- Every state register of a channel at rest is `+0.0` (40_stage_datapath.md R106). -/
theorem ChannelState.zero_sub (sub : SubCascade) :
    (ChannelState.zero.sub sub).first = 0 ∧ ∀ i : Fin 4, (ChannelState.zero.sub sub).second[i] = ⟨0, 0⟩ := by
  have hsub : ChannelState.zero.sub sub = SubState.zero := by cases sub <;> rfl
  rw [hsub]
  exact ⟨rfl, fun i => Vector.getElem_replicate i.isLt⟩

/-- Settles O47: the records by slot, whatever the order of the writes, and the state by the pair `(kind, eo)`. -/
theorem commitEffect : Obligations.CommitEffect := by
  unfold Obligations.CommitEffect
  intro band key eo built gpost
  refine ⟨rfl, rfl, rfl, rfl, rfl, Band.commit_en .., Band.commit_state_of_same, fun hchanged ch sub => ?_, fun sub =>
    ⟨Band.commit_first_of_unwritten, fun _ => Band.commit_second_of_unwritten, fun _ => Band.commit_first_of_written,
      fun _ _ => Band.commit_second_of_written⟩⟩
  rw [Band.commit_chan_of_changed hchanged]
  exact ChannelState.zero_sub sub

/-! ## A frame through the bank -/

/-- With every band disabled a frame passes unchanged and no band moves. -/
theorem isFrame_of_disabled {bands bands' : List Band} {x y : F × F} (hoff : ∀ b ∈ bands, b.en = false)
    (h : IsFrame bands x bands' y) : bands' = bands ∧ y = x := by
  induction bands generalizing x bands' with
  | nil => exact h
  | cons b rest ih =>
    obtain ⟨b', rest', m, rfl, hrest, hb⟩ := h
    rw [if_neg (by simp [hoff b List.mem_cons_self])] at hb
    obtain ⟨rfl, rfl⟩ := hb
    obtain ⟨rfl, rfl⟩ := ih (fun c hc => hoff c (List.mem_cons_of_mem _ hc)) hrest
    exact ⟨rfl, rfl⟩

theorem exec_proc (xL xR : F) (s : State) : exec (.proc xL xR) s = execProc xL xR s := rfl

/-- Settles O57: the machine's frame is one of the relation `IsFrame`, and that passes a frame no band is enabled for. -/
theorem procResult : Obligations.ProcResult := by
  unfold Obligations.ProcResult
  intro s xL xR hp
  obtain ⟨r, d, hframe, hs⟩ := compute_eq (gives_frameThrough s.bands (xL, xR)) s
    fun r s' => State.respond { s' with bands := r.1 } .proc 0 (framesWords [r.2])
  refine ⟨r.1, r.2, d, hframe, ?_, fun hoff => isFrame_of_disabled hoff hframe⟩
  rw [exec_proc, execProc, State.rtOnly_rt hp, hs]
  rfl

end Sys2Proof.Machine
end

section
/-! Faults: what `raise` leaves (60_exceptions.md R262), and the port, the band and the order, which every operation that
has them checks before anything else (30_encoding.md R84). -/

namespace Sys2Proof

/-- The operations whose `BAND` field names a band (30_encoding.md R74). -/
def Opc.namesBand : Opc → Bool
  | .update | .breset | .enable | .disable | .bode | .rdcoef | .rdstate | .rdband => true
  | .tick2 | .tick1 | .coef | .poleq | .qdist | .bw2q | .srate | .proc | .procb | .hstage2 | .hstage1 | .rdcsr => false

end Sys2Proof

namespace Sys2Proof.Machine

/-! ## The fault registers and the response -/

theorem faultNumber_lt (k : FaultCode) : faultNumber k < 32 := by cases k <;> decide

theorem faultStatus_toNat (k : FaultCode) : (faultStatus k).toNat = faultNumber k :=
  Nat.mod_eq_of_lt ((faultNumber_lt k).trans (by decide))

theorem setFaultBit_getLsbD (fault : Word) (k : FaultCode) (n : Nat) :
    (setFaultBit fault k).getLsbD n = (fault.getLsbD n || decide (n = faultNumber k)) := by
  have hbit : decide (n < 32 ∧ faultNumber k = n) = decide (n = faultNumber k) :=
    decide_eq_decide.2 ⟨fun h => h.2.symm, fun h => ⟨h ▸ faultNumber_lt k, h.symm⟩⟩
  rw [setFaultBit, BitVec.getLsbD_or, BitVec.getLsbD_ofNat, Nat.testBit_two_pow, ← Bool.decide_and, hbit]

theorem portBit_toNat_mul (p : Port) : (portBit p).toNat * 2 ^ 24 = if p = .q then 2 ^ 24 else 0 := by
  cases p <;> rfl

theorem responseHeader_toNat (opc status : BitVec 8) (info : BitVec 16) :
    (responseHeader opc status info).toNat = opc.toNat * 2 ^ 24 + status.toNat * 2 ^ 16 + info.toNat := by
  rw [responseHeader, BitVec.toNat_append, BitVec.toNat_append, ← Nat.shiftLeft_add_eq_or_of_lt info.isLt,
    ← Nat.shiftLeft_add_eq_or_of_lt status.isLt, Nat.shiftLeft_eq, Nat.shiftLeft_eq]
  ring

/-- Settles O7: the bit set in `FAULT`, the two words as numbers, and the fields `raise` leaves alone. -/
theorem faultEffect : Obligations.FaultEffect := by
  unfold Obligations.FaultEffect
  intro s h k info
  have hbits (n : Nat) : (s.raise h k info).fault.getLsbD n = (s.fault.getLsbD n || decide (n = faultNumber k)) := by
    rw [State.raise_fault, setFaultBit_getLsbD]
  have hlast : (s.raise h k info).lastFault.toNat = faultNumber k + h.opc.toNat * 2 ^ 8 + h.band.toNat * 2 ^ 16 +
      h.kind.toNat * 2 ^ 20 + (if s.port = .q then 2 ^ 24 else 0) := by
    rw [State.raise_lastFault, lastFaultWord_toNat, portBit_toNat_mul]
  have hheader := responseHeader_toNat h.opc (faultStatus k) info
  rw [faultStatus_toNat] at hheader
  exact ⟨hbits, hlast, ⟨_, hheader, s.raise_out_port h k info⟩, s.raise_out_other h k info, s.raise_bands h k info,
    s.raise_recomp h k info, s.raise_fs h k info, s.raise_cfg h k info, s.raise_inbox h k info, s.raise_port h k info,
    s.raise_draws h k info⟩

/-! ## The checks before any effect -/

/-- An RT-only operation begins with the check of the port. -/
theorem exec_rtOnly {i : Instr} (hi : i.opc.rtOnly = true) (s : State) :
    ∃ k, exec i s = .next (s.rtOnly i.header k) := by
  cases i with
  | updateBell | updateLp | updateHp | updateLs | updateHs | updateNotch | updateBp | updateTilt | updateMesa | updateAp
  | breset | enable | disable | srate | proc | procb | rdstate => exact ⟨_, rfl⟩
  | _ => cases hi

/-- A band operation begins with the check of the port, if it has one, and then looks up its band. -/
theorem exec_onBand {i : Instr} (hi : i.opc.namesBand = true) {s : State} (hp : i.opc.allowedOn s.port = true) :
    ∃ k, exec i s = .next (s.onBand i.header i.header.band k) := by
  cases i with
  | updateBell | updateLp | updateHp | updateLs | updateHs | updateNotch | updateBp | updateTilt | updateMesa | updateAp
  | breset | enable | disable | rdstate =>
    have hrt : s.port = .rt := by
      cases hport : s.port with
      | rt => rfl
      | q => rw [hport] at hp; cases hp
    exact ⟨_, congrArg Host.Outcome.next (State.rtOnly_rt hrt _ _)⟩
  | bode | rdcoef | rdband => exact ⟨_, rfl⟩
  | _ => cases hi

/-- An `UPDATE` checks the order once it has its band. -/
theorem exec_update {i : Instr} (hi : i.opc = .update) (s : State) :
    ∃ k : Band → State, exec i s = .next (s.rtOnly i.header (s.onBand i.header i.header.band fun band =>
      if !orderLegal i.header.ord then s.raise i.header .unsupportedOrder 0 else k band)) := by
  cases i with
  | updateBell | updateLp | updateHp | updateLs | updateHs | updateNotch | updateBp | updateTilt | updateMesa
  | updateAp => exact ⟨_, rfl⟩
  | _ => cases hi

/-- 60_exceptions.md R272. -/
theorem exec_portViolation {i : Instr} {s : State} (hp : s.port = .q) (hi : i.opc.rtOnly = true) :
    exec i s = .next (s.raise i.header .portViolation 0) := by
  obtain ⟨k, hk⟩ := exec_rtOnly hi s
  rw [hk, State.rtOnly_q hp]

/-- 60_exceptions.md R268. -/
theorem exec_badBand {i : Instr} {s : State} (hb : s.bands[i.header.band.toNat]? = none)
    (hi : i.opc.namesBand = true) (hp : i.opc.allowedOn s.port = true) :
    exec i s = .next (s.raise i.header .badBand 0) := by
  obtain ⟨k, hk⟩ := exec_onBand hi hp
  rw [hk, State.onBand_none hb]

/-- 60_exceptions.md R270. -/
theorem exec_unsupportedOrder {i : Instr} {s : State} {band : Band} (hp : s.port = .rt)
    (hb : s.bands[i.header.band.toNat]? = some band) (ho : orderLegal i.header.ord = false) (hi : i.opc = .update) :
    exec i s = .next (s.raise i.header .unsupportedOrder 0) := by
  obtain ⟨k, hk⟩ := exec_update hi s
  rw [hk, State.rtOnly_rt hp, State.onBand_some hb, ho]
  rfl

theorem orderLegal_eq_false {ord : BitVec 8} (h : ord.toNat = 0 ∨ 8 < ord.toNat) : orderLegal ord = false := by
  rw [orderLegal, Bool.and_eq_false_iff, decide_eq_false_iff_not, decide_eq_false_iff_not]
  omega

/-- Settles O43: each list holds operations of one class that name the band and the order given, so the three checks
apply to all of its members alike. -/
theorem portBandOrderChecks : Obligations.PortBandOrderChecks := by
  unfold Obligations.PortBandOrderChecks
  intro s b ord bwf freq gain bw fs f xL xR frames slot ch updates rtBand
  have hupdates : ∀ i ∈ updates, i.opc = .update ∧ i.header.band = b ∧ i.header.ord = ord := by
    simp [updates, Instr.opc, Instr.header, updateHeader]
  have hrtBand : ∀ i ∈ rtBand, i.opc.rtOnly = true ∧ i.opc.namesBand = true ∧ i.header.band = b := by
    simp [rtBand, updates, Instr.opc, Instr.header, updateHeader, Opc.onBand, Opc.rtOnly, Opc.namesBand]
  have hbank : ∀ i ∈ [Instr.srate f, .proc xL xR, .procb frames], i.opc.rtOnly = true := by
    simp [Instr.opc, Opc.rtOnly]
  have hread : ∀ i ∈ [Instr.bode b f, .rdcoef b slot, .rdband b],
      i.opc.rtOnly = false ∧ i.opc.namesBand = true ∧ i.header.band = b := by
    simp [Instr.opc, Instr.header, Opc.onBand, Opc.rtOnly, Opc.namesBand]
  refine ⟨fun hq i hi => ?_, fun hnone => ⟨fun hrt i hi => ?_, fun i hi => ?_⟩, fun hrt ⟨band, hband⟩ hord i hi => ?_⟩
  · exact exec_portViolation hq ((List.mem_append.1 hi).elim (fun hi => (hrtBand i hi).1) (hbank i))
  · obtain ⟨-, hnames, rfl⟩ := hrtBand i hi
    exact exec_badBand hnone hnames (by rw [hrt]; rfl)
  · obtain ⟨hany, hnames, rfl⟩ := hread i hi
    exact exec_badBand hnone hnames (by cases s.port <;> simp [Opc.allowedOn, hany])
  · obtain ⟨hupdate, rfl, rfl⟩ := hupdates i hi
    exact exec_unsupportedOrder hrt hband (orderLegal_eq_false hord) hupdate

end Sys2Proof.Machine
end

section
/-! The slots of a band in use: one width a band, and how many of each (43_band.md R196, 60_exceptions.md R285). -/

namespace Sys2Proof.Machine

theorem isFirstOrder_of_mem_activeIn {sub : SubCascade} {eo : EffOrder} {slot : Slot} (h : slot ∈ activeIn sub eo) :
    isFirstOrder slot = (eo == .o1) := by
  cases eo with
  | o1 => rw [List.mem_singleton.1 h]; rfl
  | o2 | o4 | o6 | o8 =>
    obtain ⟨i, -, rfl⟩ := List.mem_map.1 h
    rfl

theorem length_activeIn (sub : SubCascade) (eo : EffOrder) :
    (activeIn sub eo).length = if eo = .o1 then 1 else eo.stages := by
  cases eo <;> rfl

theorem mem_activeSlots {kind : FilterKind} {eo : EffOrder} {slot : Slot} (h : slot ∈ activeSlots kind eo) :
    ∃ sub, slot ∈ activeIn sub eo := by
  cases kind with
  | bell | lowPass | highPass | lowShelf | highShelf | notch | tilt | allPass => exact ⟨.A, h⟩
  | bandPass | mesa => exact (List.mem_append.1 h).elim (⟨.A, ·⟩) (⟨.B, ·⟩)

/-- 43_band.md R196: all active slots of a band have the width its effective order says. -/
theorem isFirstOrder_of_mem_activeSlots {kind : FilterKind} {eo : EffOrder} {slot : Slot}
    (h : slot ∈ activeSlots kind eo) : isFirstOrder slot = (eo == .o1) := by
  obtain ⟨sub, hsub⟩ := mem_activeSlots h
  exact isFirstOrder_of_mem_activeIn hsub

/-- Two sub-cascades at most. -/
theorem length_activeSlots_le (kind : FilterKind) (eo : EffOrder) :
    (activeSlots kind eo).length ≤ 2 * if eo = .o1 then 1 else eo.stages := by
  cases kind with
  | bell | lowPass | highPass | lowShelf | highShelf | notch | tilt | allPass =>
    rw [activeSlots, length_activeIn]; omega
  | bandPass | mesa => rw [activeSlots, List.length_append, length_activeIn, length_activeIn]; omega

theorem stages_le_four (eo : EffOrder) : eo.stages ≤ 4 := by cases eo <;> decide

theorem length_firstOrder_le (kind : FilterKind) (eo : EffOrder) :
    ((activeSlots kind eo).filter isFirstOrder).length ≤ 2 := by
  by_cases heo : eo = .o1
  · have hlen := length_activeSlots_le kind eo
    rw [if_pos heo] at hlen
    exact (List.length_filter_le _ _).trans hlen
  · have hnone : (activeSlots kind eo).filter isFirstOrder = [] :=
      List.filter_eq_nil_iff.2 fun slot hslot => by simp [isFirstOrder_of_mem_activeSlots hslot, heo]
    simp [hnone]

theorem length_secondOrder_le (kind : FilterKind) (eo : EffOrder) :
    ((activeSlots kind eo).filter fun slot => !isFirstOrder slot).length ≤ 8 := by
  have hlen := length_activeSlots_le kind eo
  have hstages := stages_le_four eo
  exact (List.length_filter_le _ _).trans (by split at hlen <;> omega)

/-- A count that every band holds to `n` is at most `n` times the number of bands. -/
theorem State.sum_map_bands_le {s : State} {f : Band → Nat} {n : Nat} (h : ∀ b, f b ≤ n) :
    (s.bands.map f).sum ≤ n * s.nbands := by
  have hsum := List.sum_le_card_nsmul (s.bands.map f) n (by simpa using fun b _ => h b)
  rwa [List.length_map, smul_eq_mul, Nat.mul_comm] at hsum

/-- Settles O60: a bound for each band, summed over the bands; the widths by the band's effective order. -/
theorem capacityNeverExceeded : Obligations.CapacityNeverExceeded := by
  unfold Obligations.CapacityNeverExceeded
  intro s _
  refine ⟨State.sum_map_bands_le fun b => length_firstOrder_le b.kind b.eo,
    State.sum_map_bands_le fun b => length_secondOrder_le b.kind b.eo, fun b _ => ?_⟩
  by_cases heo : b.eo = .o1
  · exact .inl (List.all_eq_true.2 fun slot hslot => by simp [isFirstOrder_of_mem_activeSlots hslot, heo])
  · exact .inr (List.all_eq_true.2 fun slot hslot => by simp [isFirstOrder_of_mem_activeSlots hslot, heo])

end Sys2Proof.Machine
end

section
/-! The decoder against the encoder: what `decode` answers where each check of 30_encoding.md R84 fails, what a packet
that passes all of them is, and the two directions of the round trip. -/

namespace Sys2Proof

/-! ## The checks of the decoder -/

/-- A packet of opcode `o` passes steps 2 to 5 of R84, all but its length. -/
structure PacketAccepted (maxBlock : Nat) (p : Port) (o : Opc) (h : Header) (ws : List Word) : Prop where
  allowed : o.allowedOn p = true
  kind : o.kindLegal h.kind = true
  block : blockTooLong maxBlock o ws = false
  fields : o.fieldsLegal h = true

section Checks

variable {maxBlock : Nat} {p : Port} {header : Word} {ws : List Word} {o : Opc}

theorem decode_unknown (ho : Opc.ofByte (Header.ofWord header).opc = none) :
    decode maxBlock p header ws = .error .illegalOpcode := by
  simp only [decode, ho]

theorem decode_notAllowed (ho : Opc.ofByte (Header.ofWord header).opc = some o) (hp : o.allowedOn p = false) :
    decode maxBlock p header ws = .error .portViolation := by
  simp [decode, ho, hp]

theorem decode_badKind (ho : Opc.ofByte (Header.ofWord header).opc = some o) (hp : o.allowedOn p = true)
    (hk : o.kindLegal (Header.ofWord header).kind = false) : decode maxBlock p header ws = .error .badKind := by
  simp [decode, ho, hp, hk]

theorem decode_blockTooLong (ho : Opc.ofByte (Header.ofWord header).opc = some o) (hp : o.allowedOn p = true)
    (hk : o.kindLegal (Header.ofWord header).kind = true) (hb : blockTooLong maxBlock o ws = true) :
    decode maxBlock p header ws = .error .blockTooLong := by
  simp [decode, ho, hp, hk, hb]

theorem decode_badFields (ho : Opc.ofByte (Header.ofWord header).opc = some o) (hp : o.allowedOn p = true)
    (hk : o.kindLegal (Header.ofWord header).kind = true) (hb : blockTooLong maxBlock o ws = false)
    (hf : o.fieldsLegal (Header.ofWord header) = false) : decode maxBlock p header ws = .error .illegalEncoding := by
  simp [decode, ho, hp, hk, hb, hf]

theorem decode_noOperands (ho : Opc.ofByte (Header.ofWord header).opc = some o)
    (ha : PacketAccepted maxBlock p o (Header.ofWord header) ws)
    (hd : decodeOperands o (Header.ofWord header) ws = none) :
    decode maxBlock p header ws = .error .illegalEncoding := by
  simp [decode, ho, ha.allowed, ha.kind, ha.block, ha.fields, hd]

theorem decode_accepted {i : Instr} (ho : Opc.ofByte (Header.ofWord header).opc = some o)
    (ha : PacketAccepted maxBlock p o (Header.ofWord header) ws)
    (hd : decodeOperands o (Header.ofWord header) ws = some i) : decode maxBlock p header ws = .ok i := by
  simp [decode, ho, ha.allowed, ha.kind, ha.block, ha.fields, hd]

/-- Only a packet that passes every check decodes. -/
theorem accepted_of_decode {i : Instr} (h : decode maxBlock p header ws = .ok i) :
    ∃ o, Opc.ofByte (Header.ofWord header).opc = some o ∧ PacketAccepted maxBlock p o (Header.ofWord header) ws ∧
      decodeOperands o (Header.ofWord header) ws = some i := by
  cases ho : Opc.ofByte (Header.ofWord header).opc with
  | none => rw [decode_unknown ho] at h; cases h
  | some o =>
    cases hp : o.allowedOn p with
    | false => rw [decode_notAllowed ho hp] at h; cases h
    | true =>
      cases hk : o.kindLegal (Header.ofWord header).kind with
      | false => rw [decode_badKind ho hp hk] at h; cases h
      | true =>
        cases hb : blockTooLong maxBlock o ws with
        | true => rw [decode_blockTooLong ho hp hk hb] at h; cases h
        | false =>
          cases hf : o.fieldsLegal (Header.ofWord header) with
          | false => rw [decode_badFields ho hp hk hb hf] at h; cases h
          | true =>
            have ha : PacketAccepted maxBlock p o (Header.ofWord header) ws := ⟨hp, hk, hb, hf⟩
            cases hd : decodeOperands o (Header.ofWord header) ws with
            | none => rw [decode_noOperands ho ha hd] at h; cases h
            | some j =>
              rw [decode_accepted ho ha hd] at h
              exact ⟨o, rfl, ha, hd.trans (congrArg some (Except.ok.inj h))⟩

end Checks

/-! ## The packet of an instruction decodes -/

theorem Instr.header_opc (i : Instr) : i.header.opc = i.opc.byte := by cases i <;> rfl

/-- The packet of every well-formed instruction is a legal one, constructor by constructor. -/
theorem packet_legal (i : Instr) : Laws.Packet.Statement i := by
  cases i with
  | tick2 => apply Laws.Packet.tick2
  | tick1 => apply Laws.Packet.tick1
  | coefLp => apply Laws.Packet.coefLp
  | coefHp => apply Laws.Packet.coefHp
  | coefBp => apply Laws.Packet.coefBp
  | coefNotch => apply Laws.Packet.coefNotch
  | coefAp => apply Laws.Packet.coefAp
  | coefBell => apply Laws.Packet.coefBell
  | coefLs => apply Laws.Packet.coefLs
  | coefHs => apply Laws.Packet.coefHs
  | coefLp1 => apply Laws.Packet.coefLp1
  | coefHp1 => apply Laws.Packet.coefHp1
  | poleq => apply Laws.Packet.poleq
  | qdist => apply Laws.Packet.qdist
  | bw2q => apply Laws.Packet.bw2q
  | updateBell => apply Laws.Packet.updateBell
  | updateLp => apply Laws.Packet.updateLp
  | updateHp => apply Laws.Packet.updateHp
  | updateLs => apply Laws.Packet.updateLs
  | updateHs => apply Laws.Packet.updateHs
  | updateNotch => apply Laws.Packet.updateNotch
  | updateBp => apply Laws.Packet.updateBp
  | updateTilt => apply Laws.Packet.updateTilt
  | updateMesa => apply Laws.Packet.updateMesa
  | updateAp => apply Laws.Packet.updateAp
  | breset => apply Laws.Packet.breset
  | enable => apply Laws.Packet.enable
  | disable => apply Laws.Packet.disable
  | srate => apply Laws.Packet.srate
  | proc => apply Laws.Packet.proc
  | procb => apply Laws.Packet.procb
  | hstage2 => apply Laws.Packet.hstage2
  | hstage1 => apply Laws.Packet.hstage1
  | bode => apply Laws.Packet.bode
  | rdcoef => apply Laws.Packet.rdcoef
  | rdstate => apply Laws.Packet.rdstate
  | rdcsr => apply Laws.Packet.rdcsr
  | rdband => apply Laws.Packet.rdband

/-- Settles O2: the packet's header word gives back the header's fields, and a legal packet decodes to its
instruction. -/
theorem decodeOfEncode : Obligations.DecodeOfEncode := by
  unfold Obligations.DecodeOfEncode
  intro maxBlock p i hwf hallowed
  obtain ⟨hopc, hkind, hfields, hblock, hops⟩ := packet_legal i maxBlock hwf
  have hword : Header.ofWord (encode i).1 = i.header := Header.ofWord_toWord i.header
  refine decode_accepted (o := i.opc) ?_ ?_ ?_ <;> rw [hword]
  · rw [hopc, Opc.ofByte_byte]
  · exact ⟨hallowed, hkind, hblock, hfields⟩
  · exact hops

/-! ## A packet that decodes is its instruction's -/

/-- `AUX` of an `UPDATE` is its bit `BWF` (43_band.md R171). -/
theorem bwfAux_getLsbD {aux : BitVec 8} (h : aux.extractLsb' 1 7 = 0#7) : bwfAux (aux.getLsbD 0) = aux := by
  revert aux; decide

/-- `AUX` of an `RDCOEF` is its slot number. -/
theorem append_slotBits {aux : BitVec 8} (h : aux ≤ 9#8) : 0#4 ++ aux.extractLsb' 0 4 = aux := by
  revert aux; decide

/-- `AUX` of an `RDSTATE` is its channel and its slot number. -/
theorem append_channel_slotBits {aux : BitVec 8} (h : aux.extractLsb' 5 3 = 0#3) :
    0#3 ++ (Channel.ofBit (aux.getLsbD 4)).number ++ aux.extractLsb' 0 4 = aux := by
  revert aux; decide

theorem decodeCoef_inv {kind : BitVec 4} {xs : List F} {i : Instr} (h : decodeCoef kind xs = some i) :
    i.header = coefHeader kind ∧ i.operandWords = fsWords xs ∧ i.opc = .coef := by
  unfold decodeCoef at h
  split at h
  case h_11 => cases h
  all_goals
    rename_i hk
    obtain rfl := Option.some.inj h
    exact ⟨congrArg coefHeader (Eq.symm (BitVec.eq_of_toNat_eq hk)), rfl, rfl⟩

theorem decodeUpdate_inv {h : Header} {freq gain bw fs : F} {i : Instr} (hop : h.opc = Opc.update.byte)
    (ha : h.aux.extractLsb' 1 7 = 0#7) (hd : decodeUpdate h freq gain bw fs = some i) :
    i.header = h ∧ i.operandWords = fsWords [freq, gain, bw, fs] ∧ i.opc = .update := by
  obtain ⟨opc, band, kind, ord, aux⟩ := h
  obtain rfl : opc = Opc.update.byte := hop
  have haux : bwfAux (aux.getLsbD 0) = aux := bwfAux_getLsbD ha
  have hheader (k : FilterKind) (hk : kind.toNat = k.code.toNat) :
      updateHeader k band ord (aux.getLsbD 0) = ⟨Opc.update.byte, band, kind, ord, aux⟩ := by
    rw [updateHeader, haux, BitVec.eq_of_toNat_eq hk]
  unfold decodeUpdate at hd
  dsimp only at hd
  split at hd
  case h_11 => cases hd
  all_goals
    rename_i hk
    obtain rfl := Option.some.inj hd
    exact ⟨hheader _ hk, rfl, rfl⟩

theorem decodeProcb_inv {ws : List Word} {i : Instr} (h : decodeProcb ws = some i) :
    ∃ frames, i = .procb frames ∧ i.operandWords = ws ∧ frames.length < 2 ^ 32 := by
  unfold decodeProcb at h
  split at h
  · cases h
  · rename_i n rest
    split at h
    · cases h
    · rename_i xs hxs
      split at h
      · cases h
      · rename_i frames hframes
        split at h
        · rename_i hlen
          obtain rfl := Option.some.inj h
          refine ⟨frames, rfl, ?_, hlen ▸ n.isLt⟩
          rw [Instr.operandWords, framesFlat_of_framesOf hframes, fsWords_of_fsOfWords hxs, hlen, BitVec.ofNat_toNat,
            BitVec.setWidth_eq]
        · cases h

/-- The operand words and the header fields of a legal packet are its instruction's. -/
theorem decodeOperands_inv {o : Opc} {h : Header} {ws : List Word} {i : Instr} (hop : h.opc = o.byte)
    (hf : o.fieldsLegal h = true) (hd : decodeOperands o h ws = some i) :
    i.header = h ∧ i.operandWords = ws ∧ i.opc = o := by
  obtain ⟨opc, band, kind, ord, aux⟩ := h
  obtain rfl : opc = o.byte := hop
  cases o with
  | tick2 | tick1 | bw2q | srate | proc | hstage2 | hstage1 =>
    simp only [Opc.fieldsLegal, Bool.and_eq_true, beq_iff_eq] at hf
    obtain ⟨⟨⟨rfl, rfl⟩, rfl⟩, rfl⟩ := hf
    delta decodeOperands at hd
    dsimp only at hd
    split at hd
    · rename_i hxs
      obtain rfl := Option.some.inj hd
      exact ⟨rfl, fsWords_of_fsOfWords hxs, rfl⟩
    · cases hd
  | qdist | bode =>
    simp only [Opc.fieldsLegal, Bool.and_eq_true, beq_iff_eq] at hf
    obtain ⟨⟨rfl, rfl⟩, rfl⟩ := hf
    delta decodeOperands at hd
    dsimp only at hd
    split at hd
    · rename_i hxs
      obtain rfl := Option.some.inj hd
      exact ⟨rfl, fsWords_of_fsOfWords hxs, rfl⟩
    · cases hd
  | poleq =>
    simp only [Opc.fieldsLegal, Bool.and_eq_true, beq_iff_eq] at hf
    obtain ⟨rfl, rfl⟩ := hf
    cases ws with
    | nil => obtain rfl := Option.some.inj hd; exact ⟨rfl, rfl, rfl⟩
    | cons => cases hd
  | breset | enable | disable | rdband =>
    simp only [Opc.fieldsLegal, Bool.and_eq_true, beq_iff_eq] at hf
    obtain ⟨⟨rfl, rfl⟩, rfl⟩ := hf
    cases ws with
    | nil => obtain rfl := Option.some.inj hd; exact ⟨rfl, rfl, rfl⟩
    | cons => cases hd
  | rdcoef =>
    simp only [Opc.fieldsLegal, Bool.and_eq_true, beq_iff_eq, decide_eq_true_eq] at hf
    obtain ⟨⟨rfl, rfl⟩, haux⟩ := hf
    cases ws with
    | nil =>
      obtain ⟨slot, hslot, rfl⟩ := Option.map_eq_some_iff.1 hd
      refine ⟨?_, rfl, rfl⟩
      rw [Instr.header, Slot.number_of_ofNumber hslot, append_slotBits haux]
      rfl
    | cons => cases hd
  | rdstate =>
    simp only [Opc.fieldsLegal, Bool.and_eq_true, beq_iff_eq, decide_eq_true_eq] at hf
    obtain ⟨⟨⟨rfl, rfl⟩, haux⟩, -⟩ := hf
    cases ws with
    | nil =>
      obtain ⟨slot, hslot, rfl⟩ := Option.map_eq_some_iff.1 hd
      refine ⟨?_, rfl, rfl⟩
      rw [Instr.header, Slot.number_of_ofNumber hslot, append_channel_slotBits haux]
      rfl
    | cons => cases hd
  | rdcsr =>
    simp only [Opc.fieldsLegal, Bool.and_eq_true, beq_iff_eq, decide_eq_true_eq] at hf
    obtain ⟨⟨⟨rfl, rfl⟩, rfl⟩, -⟩ := hf
    cases ws with
    | nil =>
      obtain ⟨n, hn, rfl⟩ := Option.map_eq_some_iff.1 hd
      refine ⟨?_, rfl, rfl⟩
      rw [Instr.header, Csr.number_of_ofNumber hn]
      rfl
    | cons => cases hd
  | coef =>
    simp only [Opc.fieldsLegal, Bool.and_eq_true, beq_iff_eq] at hf
    obtain ⟨⟨rfl, rfl⟩, rfl⟩ := hf
    obtain ⟨xs, hxs, hcoef⟩ := Option.bind_eq_some_iff.1 hd
    obtain ⟨hh, hw, ho⟩ := decodeCoef_inv hcoef
    exact ⟨hh, hw.trans (fsWords_of_fsOfWords hxs), ho⟩
  | update =>
    delta decodeOperands at hd
    dsimp only at hd
    split at hd
    · rename_i hxs
      obtain ⟨hh, hw, ho⟩ := decodeUpdate_inv rfl (beq_iff_eq.1 hf) hd
      exact ⟨hh, hw.trans (fsWords_of_fsOfWords hxs), ho⟩
    · cases hd
  | procb =>
    simp only [Opc.fieldsLegal, Bool.and_eq_true, beq_iff_eq] at hf
    obtain ⟨⟨⟨rfl, rfl⟩, rfl⟩, rfl⟩ := hf
    obtain ⟨frames, rfl, hws, -⟩ := decodeProcb_inv hd
    exact ⟨rfl, hws, rfl⟩

theorem Instr.wf_of_opc_ne {i : Instr} (h : i.opc ≠ .procb) (maxBlock : Nat) : i.wf maxBlock = true := by
  cases i with
  | procb => exact absurd rfl h
  | _ => rfl

/-- The count word of a `PROCB` holds its frame count, which the check of step 4 bounds. -/
theorem Instr.wf_of_decodeOperands {maxBlock : Nat} {o : Opc} {h : Header} {ws : List Word} {i : Instr}
    (hb : blockTooLong maxBlock o ws = false) (hd : decodeOperands o h ws = some i) (ho : i.opc = o) :
    i.wf maxBlock = true := by
  by_cases hprocb : o = .procb
  · subst hprocb
    obtain ⟨frames, rfl, rfl, hlt⟩ := decodeProcb_inv hd
    have hcount : (BitVec.ofNat 32 frames.length).toNat = frames.length := Nat.mod_eq_of_lt hlt
    have hle : ¬maxBlock < (BitVec.ofNat 32 frames.length).toNat := of_decide_eq_false hb
    simp only [Instr.wf, Bool.and_eq_true, decide_eq_true_eq]
    omega
  · exact Instr.wf_of_opc_ne (ho ▸ hprocb) maxBlock

/-- Settles O3: a packet that passes the checks holds no bit its instruction's packet does not, opcode by opcode. -/
theorem encodeOfDecode : Obligations.EncodeOfDecode := by
  unfold Obligations.EncodeOfDecode
  intro maxBlock p header ws i h
  obtain ⟨o, ho, hacc, hd⟩ := accepted_of_decode h
  obtain ⟨hh, hw, hopc⟩ := decodeOperands_inv (Opc.byte_of_ofByte ho).symm hacc.fields hd
  refine ⟨Prod.ext ?_ hw, Instr.wf_of_decodeOperands hacc.block hd hopc⟩
  change i.header.toWord = header
  rw [hh, Header.toWord_ofWord]

end Sys2Proof
end

section
/-! The step of the machine on a command, its two outcomes said once, and what they leave of every register: the
statements about all packets on either port. -/

namespace Sys2Proof.Machine

/-! ## One step -/

section Step

variable {s t : State} {p : Port} {header : Word} {ws : List Word} {rest : List Input}

theorem step_idle (h : s.inbox = []) : step s = .next s := by simp [step, h]

theorem step_reset (h : s.inbox = .reset :: rest) : step s = .next (s.hardwareReset rest) := by simp [step, h]

theorem step_decoded {i : Instr} (h : s.inbox = .command p header ws :: rest)
    (hd : decode s.cfg.maxBlock p header ws = .ok i) : step s = exec i (s.accept p rest) := by
  simp [step, h, hd]

theorem step_undecoded {k : FaultCode} (h : s.inbox = .command p header ws :: rest)
    (hd : decode s.cfg.maxBlock p header ws = .error k) :
    step s = .next ((s.accept p rest).raise (Header.ofWord header) k 0) := by
  simp [step, h, hd]

/-- Settles O5: the branches of `step`, each its own lemma. -/
theorem stepRunsDecoded : Obligations.StepRunsDecoded := by
  unfold Obligations.StepRunsDecoded
  exact ⟨fun _ _ _ _ _ _ h hd => step_decoded h hd, fun _ _ _ _ _ _ h hd => step_undecoded h hd,
    fun _ h => step_idle h⟩

/-- What a command leaves: the answer to a packet that does not decode, or an outcome of the instruction whose packet it
is. -/
inductive CommandEffect (s : State) (header : Word) (ws : List Word) : State → Prop
  | undecoded (k : FaultCode) : CommandEffect s header ws (s.raise (Header.ofWord header) k 0)
  | decoded (i : Instr) (t : State) (hheader : i.header = Header.ofWord header) (hws : i.operandWords = ws)
    (he : Effect s i t) : CommandEffect s header ws t

/-- A command is always answered with a next state, and that is one of its outcomes. -/
theorem step_command (h : s.inbox = .command p header ws :: rest) :
    ∃ t, step s = .next t ∧ CommandEffect (s.accept p rest) header ws t := by
  cases hd : decode s.cfg.maxBlock p header ws with
  | error k => exact ⟨_, step_undecoded h hd, .undecoded k⟩
  | ok i =>
    obtain ⟨t, hexec, he⟩ := exec_effect i (s.accept p rest)
    obtain ⟨o, ho, hacc, hops⟩ := accepted_of_decode hd
    obtain ⟨hheader, hws, -⟩ := decodeOperands_inv (Opc.byte_of_ofByte ho).symm hacc.fields hops
    exact ⟨t, (step_decoded h hd).trans hexec, .decoded i t hheader hws he⟩

theorem commandEffect_of_step (h : s.inbox = .command p header ws :: rest) (hs : step s = .next t) :
    CommandEffect (s.accept p rest) header ws t := by
  obtain ⟨t', ht', he⟩ := step_command h
  cases ht'.symm.trans hs
  exact he

end Step

/-! ## The invariant -/

theorem CommandEffect.inv {s t : State} {header : Word} {ws : List Word} (h : CommandEffect s header ws t)
    (hI : s.Inv) : t.Inv := by
  cases h with
  | undecoded k => exact inv_raise hI _ k 0
  | decoded i t _ _ he => exact inv_effect hI he

/-- The fault registers at reset. -/
theorem faultsLegal_zero : faultsLegal 0 0 = true := by decide

theorem inv_hardwareReset {s : State} (hI : s.Inv) (rest : List Input) : (s.hardwareReset rest).Inv := by
  obtain ⟨hbands, hcfg, -, -⟩ := hI
  refine ⟨?_, hcfg, legal_resetFrom s.nbands s.cfg s.draws, faultsLegal_zero⟩
  simpa [State.nbands] using hbands

/-- Settles O15: the reset leaves legal registers, and every outcome of a command keeps them legal. -/
theorem invariantKept : Obligations.InvariantKept := by
  unfold Obligations.InvariantKept
  intro s t hI hs
  cases hin : s.inbox with
  | nil => rw [step_idle hin] at hs; cases hs; exact hI
  | cons input rest =>
    cases input with
    | reset => rw [step_reset hin] at hs; cases hs; exact inv_hardwareReset hI rest
    | command p header ws => exact (commandEffect_of_step hin hs).inv hI

theorem constrained_ok {ok : F → Bool} {fallback : F} (h : ok fallback = true) (choice : F) :
    ok (constrained ok choice fallback) = true := by
  unfold constrained
  split
  · assumption
  · exact h

theorem chosenConfig_legal : configLegal chosenConfig = true := by
  have hfinite : F.isFinite F.zero = true := by decide
  have hfs : F.lt F.twoThousand F.fortyEightThousand = true := by decide +kernel
  have hq : F.lt F.zero F.butterworthQ = true := by decide +kernel
  have hblock : 1 ≤ chosenConfig.maxBlock := by decide
  simp only [configLegal, Bool.and_eq_true, decide_eq_true_eq]
  exact ⟨⟨⟨⟨hblock, constrained_ok hfinite _⟩, constrained_ok hfinite _⟩, constrained_ok hfs _⟩, constrained_ok hq _⟩

theorem inv_resetFrom {n : Nat} {c : Config} (h1 : 1 ≤ n) (h16 : n ≤ 16) (hc : configLegal c = true) (d : Nat) :
    (State.resetFrom n c d).Inv := by
  refine ⟨?_, hc, legal_resetFrom n c d, faultsLegal_zero⟩
  have hlen : (State.resetFrom n c d).nbands = n := List.length_replicate
  rw [hlen]
  exact ⟨h1, h16⟩

/-- Settles O16: the fallback of every OPEN parameter meets the parameter's constraint. -/
theorem invariantAtReset : Obligations.InvariantAtReset := by
  unfold Obligations.InvariantAtReset
  exact ⟨fun _ _ d h1 h16 hc => inv_resetFrom h1 h16 hc d, inv_resetFrom (by decide) (by decide) chosenConfig_legal 0⟩

/-! ## The fields of a response header -/

theorem responseHeader_fields (opc status : BitVec 8) (info : BitVec 16) :
    (responseHeader opc status info).extractLsb' 24 8 = opc ∧
      (responseHeader opc status info).extractLsb' 16 8 = status ∧
      (responseHeader opc status info).extractLsb' 0 16 = info := by
  have := opc.isLt
  have := status.isLt
  have := info.isLt
  refine ⟨?_, ?_, ?_⟩ <;>
  · apply BitVec.eq_of_toNat_eq
    rw [BitVec.extractLsb'_toNat, responseHeader_toNat, Nat.shiftRight_eq_div_pow]
    omega

/-- Settles O6: the response is sent on the operation's port under `responseHeader`. -/
theorem responseFormat : Obligations.ResponseFormat := by
  unfold Obligations.ResponseFormat
  intro s o info values
  obtain ⟨hopc, hstatus, hinfo⟩ := responseHeader_fields o.byte 0 info
  exact ⟨responseHeader o.byte 0 info, hopc, hstatus, hinfo, rfl⟩

/-! ## Every command is answered once -/

/-- An outcome is a fault that changes the fault registers only, or a success that leaves them alone; either way one
response ends it, with the command's opcode. -/
inductive Answer (s : State) (opc : BitVec 8) : State → Prop
  | fault (h : Header) (k : FaultCode) (info : BitVec 16) (d : Nat) (hopc : h.opc = opc) :
    Answer s opc (State.raise { s with draws := d } h k info)
  | success (s' : State) (o : Opc) (info : BitVec 16) (values : List Word) (hopc : o.byte = opc)
    (hport : s'.port = s.port) (hout : ∀ p, s'.out p = s.out p) (hinbox : s'.inbox = s.inbox)
    (hfault : s'.fault = s.fault) (hlast : s'.lastFault = s.lastFault) : Answer s opc (s'.respond o info values)

theorem Effect.answer_of {s t : State} {i : Instr} (h : Effect s i t) : Answer s i.header.opc t := by
  have hout (s' : State) (hrt : s'.rtOut = s.rtOut) (hq : s'.qOut = s.qOut) (p : Port) : s'.out p = s.out p := by
    cases p with
    | rt => exact hrt
    | q => exact hq
  have hopc := i.header_opc
  cases h with
  | fault k info d => exact .fault _ k info d rfl
  | answer info values d => exact .success _ _ info values hopc.symm rfl (hout _ rfl rfl) rfl rfl rfl
  | commit b band kind ord bwf freq gain bw fs built gpost d hp hi =>
    exact .success _ _ 0 [] (by rw [hi]; rfl) rfl (hout _ rfl rfl) rfl rfl rfl
  | breset b band hp hi =>
    exact .success _ _ 0 [] (by rw [hi]; rfl) rfl (hout _ rfl rfl) rfl rfl rfl
  | enable => exact .success _ _ 0 [] hopc.symm rfl (hout _ rfl rfl) rfl rfl rfl
  | srate f hp hi => exact .success _ _ 0 [] (by rw [hi]; rfl) rfl (hout _ rfl rfl) rfl rfl rfl
  | proc => exact .success _ _ 0 _ hopc.symm rfl (hout _ rfl rfl) rfl rfl rfl

theorem CommandEffect.answer_of {s t : State} {header : Word} {ws : List Word} (h : CommandEffect s header ws t) :
    Answer s (header.extractLsb' 24 8) t := by
  cases h with
  | undecoded k => exact .fault (Header.ofWord header) k 0 s.draws rfl
  | decoded i t hh _ he =>
    have hopc : i.header.opc = header.extractLsb' 24 8 := congrArg Header.opc hh
    exact hopc ▸ he.answer_of

theorem Answer.sent {s t : State} {opc : BitVec 8} (h : Answer s opc t) : t.inbox = s.inbox ∧
    (∃ r more, t.out s.port = s.out s.port ++ [r :: more] ∧ r.extractLsb' 24 8 = opc) ∧
    t.out (otherPort s.port) = s.out (otherPort s.port) := by
  cases h with
  | fault h k info d hopc =>
    refine ⟨State.raise_inbox _ _ _ _, ⟨_, _, State.raise_out_port _ _ _ _, ?_⟩, State.raise_out_other _ _ _ _⟩
    rw [(responseHeader_fields _ _ _).1, hopc]
  | success s' o info values hopc hport hout hinbox hfault hlast =>
    refine ⟨(State.respond_inbox _ _ _ _).trans hinbox, ⟨responseHeader o.byte 0 info, values, ?_, ?_⟩, ?_⟩
    · rw [← hport, State.respond_out_port, hout]
    · rw [(responseHeader_fields _ _ _).1, hopc]
    · rw [← hport, State.respond_out_other, hout]

/-- Settles O8: a command has an outcome, and every outcome ends in one response on the command's port. -/
theorem everyCommandAnswered : Obligations.EveryCommandAnswered := by
  unfold Obligations.EveryCommandAnswered
  intro s p header ws rest hin
  obtain ⟨t, hs, he⟩ := step_command hin
  obtain ⟨hinbox, ⟨r, more, hout, hopc⟩, hother⟩ := he.answer_of.sent
  exact ⟨t, r, more, hs, hinbox, by simpa using hout, by simpa using hother, hopc⟩

/-! ## Faults -/

/-- The response appended last tells whether its command faulted. -/
theorem Answer.status {s t : State} {opc : BitVec 8} {r : Word} {more : List Word} (h : Answer s opc t)
    (hout : t.out s.port = s.out s.port ++ [r :: more]) :
    (∃ k h info d, t = State.raise { s with draws := d } h k info ∧ r.extractLsb' 16 8 = faultStatus k ∧ more = []) ∨
      (r.extractLsb' 16 8 = 0 ∧ t.fault = s.fault ∧ t.lastFault = s.lastFault) := by
  cases h with
  | fault h k info d hopc =>
    have hsent := (State.raise_out_port { s with draws := d } h k info).symm.trans hout
    obtain ⟨hr, hmore⟩ := List.cons.inj (List.cons.inj (List.append_cancel_left hsent)).1
    exact .inl ⟨k, h, info, d, rfl, hr ▸ (responseHeader_fields _ _ _).2.1, hmore.symm⟩
  | success s' o info values hopc hport hout' hinbox hfault hlast =>
    have hsent := (State.respond_out_port s' o info values).symm.trans (hport.symm ▸ hout)
    rw [hout', hport] at hsent
    obtain ⟨hr, -⟩ := List.cons.inj (List.cons.inj (List.append_cancel_left hsent)).1
    exact .inr ⟨hr ▸ (responseHeader_fields _ _ _).2.1, (State.respond_fault _ _ _ _).trans hfault,
      (State.respond_lastFault _ _ _ _).trans hlast⟩

theorem faultNumber_range (k : FaultCode) : 1 ≤ faultNumber k ∧ faultNumber k ≤ 10 := by cases k <;> decide

theorem faultStatus_ne_zero (k : FaultCode) : faultStatus k ≠ 0#8 := by cases k <;> decide

theorem sameButFaults_raise (s : State) (h : Header) (k : FaultCode) (info : BitVec 16) (d : Nat) :
    s.sameButFaults (State.raise { s with draws := d } h k info) :=
  ⟨State.raise_bands _ _ _ _, State.raise_recomp _ _ _ _, State.raise_fs _ _ _ _, State.raise_cfg _ _ _ _⟩

/-- Settles O9: the status of the one response tells the two kinds of outcome apart. -/
theorem faultingOperationChangesNothingElse : Obligations.FaultingOperationChangesNothingElse := by
  unfold Obligations.FaultingOperationChangesNothingElse
  intro s t p header r ws more rest hin hs hout
  rcases (commandEffect_of_step hin hs).answer_of.status (by simpa using hout) with
    ⟨k, h, info, d, rfl, hstatus, hmore⟩ | ⟨hstatus, hfault, hlast⟩
  · exact ⟨fun _ => ⟨sameButFaults_raise (s.accept p rest) h k info d, hmore⟩,
      fun h0 => absurd (hstatus.symm.trans h0) (faultStatus_ne_zero k)⟩
  · exact ⟨fun h0 => absurd hstatus h0, fun _ => ⟨hfault, hlast⟩⟩

/-- Settles O11: a fault's status is its code's number, the bit it sets. -/
theorem faultBitsSticky : Obligations.FaultBitsSticky := by
  unfold Obligations.FaultBitsSticky
  intro s t p header r ws more rest hin hs hout
  rcases (commandEffect_of_step hin hs).answer_of.status (by simpa using hout) with
    ⟨k, h, info, d, rfl, hstatus, -⟩ | ⟨hstatus, hfault, -⟩
  · have hnumber : (r.extractLsb' 16 8).toNat = faultNumber k := by rw [hstatus, faultStatus_toNat]
    obtain ⟨hpos, hle⟩ := faultNumber_range k
    rw [hnumber]
    refine ⟨fun h0 => by omega, fun _ => ⟨hle, fun n => ?_⟩⟩
    rw [State.raise_fault, setFaultBit_getLsbD]
    rfl
  · rw [hstatus]
    exact ⟨fun _ => hfault, fun h0 => absurd rfl h0⟩

end Sys2Proof.Machine
end

section
/-! What a command leaves of each band, said once, and the writers of every part of a band. -/

namespace Sys2Proof.Machine

/-! ## What an operation can do to one band -/

/-- The outcomes of an operation for band `n`, which held `b`. -/
inductive BandEffect (s t : State) (i : Instr) (n : Nat) (b : Band) : Band → Prop
  | kept : BandEffect s t i n b b
  /-- An `UPDATE` of this band that commits. -/
  | committed (key : Prev) (b₀ : BitVec 4) (built : List BuiltStage) (gpost : F) (hp : s.port = .rt)
    (hi : i.header = updateHeader key.kind b₀ key.ord key.bwf) (hn : n = b₀.toNat)
    (hw : i.operandWords = fsWords [key.freq, key.gain, key.bw, key.fs]) (hv : key.valid = true)
    (hr : t.recomp = s.recomp + 1) :
    BandEffect s t i n b (b.commit key (effOrder key.kind key.ord) built gpost)
  /-- `BRESET` of this band. -/
  | zeroed (b₀ : BitVec 4) (hp : s.port = .rt) (hi : i = .breset b₀) (hn : n = b₀.toNat) :
    BandEffect s t i n b b.stageReset
  /-- `ENABLE` or `DISABLE` of this band. -/
  | enabled (b₀ : BitVec 4) (on : Bool) (hp : s.port = .rt) (hi : i = if on then .enable b₀ else .disable b₀)
    (hn : n = b₀.toNat) : BandEffect s t i n b { b with en := on }
  /-- `SRATE`. -/
  | invalidated (f : F) (hp : s.port = .rt) (hi : i = .srate f) : BandEffect s t i n b b.invalidate
  /-- `PROC` or `PROCB`. -/
  | moved (b' : Band) (hp : s.port = .rt) (hi : i.opc = .proc ∨ i.opc = .procb) (hm : OnlyStateMoved b b') :
    BandEffect s t i n b b'

/-- Lists related element by element, at one index. -/
theorem forall₂_getElem? {α β : Type} {R : α → β → Prop} {l : List α} {l' : List β} (h : List.Forall₂ R l l') {n : Nat}
    {a : α} {b : β} (ha : l[n]? = some a) (hb : l'[n]? = some b) : R a b := by
  obtain ⟨hn, rfl⟩ := List.getElem?_eq_some_iff.1 ha
  obtain ⟨hn', rfl⟩ := List.getElem?_eq_some_iff.1 hb
  exact h.get hn hn'

theorem forall₂_of_getElem? {α β : Type} {R : α → β → Prop} {l : List α} {l' : List β} (hlen : l.length = l'.length)
    (h : ∀ (n : Nat) (a : α) (b : β), l[n]? = some a → l'[n]? = some b → R a b) : List.Forall₂ R l l' :=
  List.forall₂_iff_get.2 ⟨hlen, fun n hn hn' => h n _ _ (List.getElem?_eq_getElem hn) (List.getElem?_eq_getElem hn')⟩

/-- After one band of a list is written, an element is the written one at its index or the one before. -/
theorem getElem?_set_cases {l : List Band} {m n : Nat} {x y b b' : Band} (hm : l[m]? = some x) (hb : l[n]? = some b)
    (hb' : (l.set m y)[n]? = some b') : (n = m ∧ b = x ∧ b' = y) ∨ b' = b := by
  by_cases h : m = n
  · subst h
    have hlt : m < l.length := (List.getElem?_eq_some_iff.1 hm).1
    rw [List.getElem?_set_self hlt] at hb'
    exact .inl ⟨rfl, Option.some.inj (hb.symm.trans hm), (Option.some.inj hb').symm⟩
  · rw [List.getElem?_set_ne h] at hb'
    exact .inr (Option.some.inj (hb'.symm.trans hb))

theorem Effect.band_of {s t : State} {i : Instr} {n : Nat} {b b' : Band} (h : Effect s i t)
    (hb : s.bands[n]? = some b) (hb' : t.bands[n]? = some b') : BandEffect s t i n b b' := by
  have kept (heq : b' = b) : BandEffect s t i n b b' := heq ▸ .kept
  cases h with
  | fault k info d =>
    rw [State.raise_bands] at hb'
    exact kept (Option.some.inj (hb'.symm.trans hb))
  | answer info values d =>
    rw [State.respond_bands] at hb'
    exact kept (Option.some.inj (hb'.symm.trans hb))
  | commit b₀ band kind ord bwf freq gain bw fs built gpost d hp hi hw hband =>
    rw [State.respond_bands] at hb'
    rcases getElem?_set_cases hband hb hb' with ⟨hn, rfl, rfl⟩ | heq
    · exact .committed (updateKey kind ord bwf freq gain bw fs) b₀ built gpost hp hi hn hw rfl
        (State.respond_recomp _ _ _ _)
    · exact kept heq
  | breset b₀ band hp hi hband =>
    rw [State.respond_bands] at hb'
    rcases getElem?_set_cases hband hb hb' with ⟨hn, rfl, rfl⟩ | heq
    · exact .zeroed b₀ hp hi hn
    · exact kept heq
  | enable b₀ band on hp hi hband =>
    rw [State.respond_bands] at hb'
    rcases getElem?_set_cases hband hb hb' with ⟨hn, rfl, rfl⟩ | heq
    · exact .enabled b₀ on hp hi hn
    · exact kept heq
  | srate f hp hi =>
    rw [State.respond_bands, List.getElem?_map, hb] at hb'
    obtain rfl := Option.some.inj hb'
    exact .invalidated f hp hi
  | proc bands' values d hp hi hm =>
    rw [State.respond_bands] at hb'
    exact .moved b' hp hi (forall₂_getElem? hm hb hb')

theorem Effect.bands_length {s t : State} {i : Instr} (h : Effect s i t) : t.bands.length = s.bands.length := by
  cases h with
  | proc bands' values d hp hi hm => exact (congrArg List.length (State.respond_bands _ _ _ _)).trans hm.length_eq.symm
  | _ => simp

theorem Effect.cfg_eq {s t : State} {i : Instr} (h : Effect s i t) : t.cfg = s.cfg := by
  cases h with
  | fault => exact State.raise_cfg _ _ _ _
  | _ => exact State.respond_cfg _ _ _ _

theorem recomp_succ_ne (x : Word) : x + 1 ≠ x := fun h => absurd (add_eq_left.1 h) (by decide)

/-- `RECOMP` counts the commits, which are the only writers of a band's published registers. -/
theorem Effect.recomp_cases {s t : State} {i : Instr} (h : Effect s i t) : t.recomp = s.recomp ∨
    (t.recomp = s.recomp + 1 ∧ s.port = .rt ∧ i.header.opc = Opc.update.byte ∧
      ∀ n, n ≠ i.header.band.toNat → t.bands[n]? = s.bands[n]?) := by
  cases h with
  | commit b band kind ord bwf freq gain bw fs built gpost d hp hi =>
    refine .inr ⟨State.respond_recomp _ _ _ _, hp, congrArg Header.opc hi, fun n hn => ?_⟩
    rw [hi] at hn
    rw [State.respond_bands]
    exact List.getElem?_set_ne hn.symm
  | fault => exact .inl (State.raise_recomp _ _ _ _)
  | _ => exact .inl (State.respond_recomp _ _ _ _)

/-! ## The parts of a band -/

theorem Band.samePublished.refl (b : Band) : b.samePublished b := ⟨rfl, rfl, rfl, rfl, rfl, rfl⟩

/-- Without a commit the published registers stay. -/
theorem BandEffect.samePublished {s t : State} {i : Instr} {n : Nat} {b b' : Band} (h : BandEffect s t i n b b')
    (hr : t.recomp = s.recomp) : b.samePublished b' := by
  cases h with
  | committed key b₀ built gpost hp hi hn hw hv hr' => exact absurd (hr'.symm.trans hr) (recomp_succ_ne _)
  | moved _ hp hi hm => rw [hm.1]; exact .refl b
  | _ => exact .refl b

/-- Without a commit the published registers stay. -/
theorem Effect.published {s t : State} {i : Instr} (h : Effect s i t) (hr : t.recomp = s.recomp) :
    List.Forall₂ Band.samePublished s.bands t.bands :=
  forall₂_of_getElem? h.bands_length.symm fun _ _ _ hb hb' => (h.band_of hb hb').samePublished hr

/-- Settles O12: `RECOMP` stands still without a commit, and a commit writes the one band it names. -/
theorem recompCountsCoefficientWrites : Obligations.RecompCountsCoefficientWrites := by
  unfold Obligations.RecompCountsCoefficientWrites
  intro s t p header ws rest hin hs
  cases commandEffect_of_step hin hs with
  | undecoded k =>
    simp only [State.raise_bands, State.raise_recomp]
    exact ⟨rfl, .inl ⟨rfl, forall₂_refl .refl _⟩⟩
  | decoded i _ hheader _ he =>
    refine ⟨he.bands_length, he.recomp_cases.imp (fun hr => ⟨hr, he.published hr⟩) ?_⟩
    rw [hheader]
    exact id

/-- Settles O17: a command writes bands and no band is added, and the reset builds as many as there were. -/
theorem configurationFixed : Obligations.ConfigurationFixed := by
  unfold Obligations.ConfigurationFixed
  intro s t hs
  cases hin : s.inbox with
  | nil => rw [step_idle hin] at hs; cases hs; exact ⟨rfl, rfl⟩
  | cons input rest =>
    cases input with
    | reset => rw [step_reset hin] at hs; cases hs; exact ⟨rfl, List.length_replicate⟩
    | command p header ws =>
      cases commandEffect_of_step hin hs with
      | undecoded k => exact ⟨State.raise_cfg _ _ _ _, congrArg List.length (State.raise_bands _ _ _ _)⟩
      | decoded i _ _ _ he => exact ⟨he.cfg_eq, he.bands_length⟩

/-- On the Q port an operation is answered or faults. -/
theorem Effect.sameButFaults_of_q {s t : State} {i : Instr} (h : Effect s i t) (hq : s.port = .q) :
    s.sameButFaults t := by
  have hrt (hp : s.port = .rt) : False := nomatch hq.symm.trans hp
  cases h with
  | fault k info d => exact sameButFaults_raise s i.header k info d
  | answer info values d =>
    exact ⟨State.respond_bands _ _ _ _, State.respond_recomp _ _ _ _, State.respond_fs _ _ _ _,
      State.respond_cfg _ _ _ _⟩
  | commit _ _ _ _ _ _ _ _ _ _ _ _ hp => exact (hrt hp).elim
  | breset _ _ hp => exact (hrt hp).elim
  | enable _ _ _ hp => exact (hrt hp).elim
  | srate _ hp => exact (hrt hp).elim
  | proc _ _ _ hp => exact (hrt hp).elim

/-- Settles O10: every outcome that writes a register is on the RT port, and nothing is sent on the other port. -/
theorem qPortChangesOnlyFaults : Obligations.QPortChangesOnlyFaults := by
  unfold Obligations.QPortChangesOnlyFaults
  intro s t header ws rest hin hs
  have he := commandEffect_of_step hin hs
  obtain ⟨-, -, hother⟩ := he.answer_of.sent
  refine ⟨?_, hother⟩
  cases he with
  | undecoded k => exact sameButFaults_raise (s.accept .q rest) (Header.ofWord header) k 0 s.draws
  | decoded i _ _ _ he => exact he.sameButFaults_of_q rfl

theorem Band.commit_sameStageState {b : Band} {key : Prev} {eo : EffOrder} {built : List BuiltStage} {gpost : F}
    (h : (key.kind, eo) = (b.kind, b.eo)) : b.sameStageState (b.commit key eo built gpost) := by
  obtain ⟨hk, he⟩ := Prod.ext_iff.1 h
  obtain ⟨hleft, hright⟩ := Band.commit_state_of_same (built := built) (gpost := gpost) hk he
  exact ⟨hleft.symm, hright.symm⟩

/-- Settles O13: the outcomes of one band, by the state registers each leaves. -/
theorem stageStateWriters : Obligations.StageStateWriters := by
  unfold Obligations.StageStateWriters
  intro s t p header ws rest n b b' hin hs hb hb'
  cases commandEffect_of_step hin hs with
  | undecoded k =>
    rw [State.raise_bands] at hb'
    obtain rfl := Option.some.inj (hb'.symm.trans hb)
    exact .inl ⟨rfl, rfl⟩
  | decoded i _ hheader _ he =>
    have hopc : header.extractLsb' 24 8 = i.opc.byte := by rw [← i.header_opc, hheader]; rfl
    have hband : header.extractLsb' 20 4 = i.header.band := by rw [hheader]; rfl
    rw [hopc, hband]
    cases he.band_of hb hb' with
    | kept => exact .inl ⟨rfl, rfl⟩
    | enabled => exact .inl ⟨rfl, rfl⟩
    | invalidated => exact .inl ⟨rfl, rfl⟩
    | committed key b₀ built gpost hp hi hn =>
      by_cases hsame : (key.kind, effOrder key.kind key.ord) = (b.kind, b.eo)
      · exact .inl (Band.commit_sameStageState hsame)
      · have hupdate : i.opc.byte = 0x20#8 := i.header_opc.symm.trans (congrArg Header.opc hi)
        refine .inr (.inr ⟨hp, by simp [hupdate], by rw [hi]; exact hn, Band.commit_chan_of_changed hsame .left,
          Band.commit_chan_of_changed hsame .right, fun _ => hsame⟩)
    | zeroed b₀ hp hi hn =>
      subst hi
      have hbreset : (Instr.breset b₀).opc.byte = 0x21#8 := rfl
      exact .inr (.inr ⟨hp, by simp [hbreset], hn, rfl, rfl, fun h => absurd (hbreset.symm.trans h) (by decide)⟩)
    | moved _ hp hi hm =>
      cases hen : b.en with
      | false => exact .inl (hm.2 hen ▸ ⟨rfl, rfl⟩)
      | true => exact .inr (.inl ⟨hp, rfl, by rcases hi with hi | hi <;> rw [hi] <;> decide⟩)

/-- Settles O14: the outcomes of one band, by its enable bit and its dirty-check key. -/
theorem enableAndPrevWriters : Obligations.EnableAndPrevWriters := by
  unfold Obligations.EnableAndPrevWriters
  intro s t p header ws rest n b b' hin hs hb hb'
  have unchanged (hen : b'.en = b.en) (hprev : b'.prev = b.prev) {P Q : Prop} :
      (b'.en ≠ b.en → P) ∧ (b'.prev ≠ b.prev → Q) := ⟨fun h => absurd hen h, fun h => absurd hprev h⟩
  cases commandEffect_of_step hin hs with
  | undecoded k =>
    rw [State.raise_bands] at hb'
    obtain rfl := Option.some.inj (hb'.symm.trans hb)
    exact unchanged rfl rfl
  | decoded i _ hheader hws he =>
    have hopc : header.extractLsb' 24 8 = i.opc.byte := by rw [← i.header_opc, hheader]; rfl
    have hband : header.extractLsb' 20 4 = i.header.band := by rw [hheader]; rfl
    rw [hopc, hband]
    cases he.band_of hb hb' with
    | kept => exact unchanged rfl rfl
    | zeroed => exact unchanged rfl rfl
    | moved _ hp hi hm => exact unchanged (by rw [hm.1]) (by rw [hm.1])
    | enabled b₀ on hp hi hn =>
      subst hi
      refine ⟨fun _ => ⟨hp, ?_, ?_⟩, fun h => absurd rfl h⟩ <;> cases on <;> first | rfl | exact hn
    | invalidated f hp hi =>
      subst hi
      exact ⟨fun h => absurd rfl h, fun _ => .inl ⟨hp, rfl, rfl⟩⟩
    | committed key b₀ built gpost hp hi hn hw hv hr =>
      have hupdate : i.opc.byte = 0x20#8 := i.header_opc.symm.trans (congrArg Header.opc hi)
      have hfields : Header.ofWord header = updateHeader key.kind b₀ key.ord key.bwf := hheader.symm.trans hi
      have hbwf : header.getLsbD 0 = key.bwf := by
        have haux : header.extractLsb' 0 8 = bwfAux key.bwf := congrArg Header.aux hfields
        rw [← (Laws.bwf_of_aux key.bwf).1, ← haux]
        simp
      exact ⟨fun h => absurd (Band.commit_en ..) h, fun _ => .inr ⟨hp, hupdate, by rw [hi]; exact hn, hr, hv,
        (congrArg Header.kind hfields).symm, (congrArg Header.ord hfields).symm, hbwf.symm, hws.symm.trans hw⟩⟩

end Sys2Proof.Machine
end

section
/-! The ten `UPDATE`s as one operation with a kind (43_band.md R171), the dirty check (R172), and an `UPDATE` that is
sent twice. -/

namespace Sys2Proof

/-! ## The packet determines its instruction -/

theorem Opc.byte_injective {o o' : Opc} (h : o.byte = o'.byte) : o = o' := by
  have hsome := Opc.ofByte_byte o
  rw [h, Opc.ofByte_byte] at hsome
  exact (Option.some.inj hsome).symm

/-- Two instructions with one packet are one instruction. -/
theorem instr_eq_of_packet_eq {maxBlock : Nat} {i j : Instr} (hi : i.wf maxBlock = true) (hj : j.wf maxBlock = true)
    (hheader : i.header = j.header) (hws : i.operandWords = j.operandWords) : i = j := by
  obtain ⟨hiopc, -, -, -, hi⟩ := packet_legal i maxBlock hi
  obtain ⟨hjopc, -, -, -, hj⟩ := packet_legal j maxBlock hj
  have hopc : i.opc = j.opc := Opc.byte_injective (by rw [← hiopc, ← hjopc, hheader])
  rw [hheader, hws, hopc, hj] at hi
  exact (Option.some.inj hi).symm

/-- The instruction whose packet this is decodes from it. -/
theorem decode_of_packet {maxBlock : Nat} {p : Port} {header : Word} {ws : List Word} {i : Instr}
    (hwf : i.wf maxBlock = true) (hp : i.opc.allowedOn p = true) (hheader : i.header = Header.ofWord header)
    (hws : i.operandWords = ws) : decode maxBlock p header ws = .ok i := by
  have h := decodeOfEncode maxBlock p i hwf hp
  have hword : (encode i).1 = header := (congrArg Header.toWord hheader).trans (Header.toWord_ofWord header)
  rw [hword] at h
  exact hws ▸ h

/-- The `UPDATE` of a kind. -/
def updateInstr (kind : FilterKind) (b : BitVec 4) (ord : BitVec 8) (bwf : Bool) (freq gain bw fs : F) : Instr :=
  match kind with
  | .bell => .updateBell b ord bwf freq gain bw fs
  | .lowPass => .updateLp b ord bwf freq gain bw fs
  | .highPass => .updateHp b ord bwf freq gain bw fs
  | .lowShelf => .updateLs b ord bwf freq gain bw fs
  | .highShelf => .updateHs b ord bwf freq gain bw fs
  | .notch => .updateNotch b ord bwf freq gain bw fs
  | .bandPass => .updateBp b ord bwf freq gain bw fs
  | .tilt => .updateTilt b ord bwf freq gain bw fs
  | .mesa => .updateMesa b ord bwf freq gain bw fs
  | .allPass => .updateAp b ord bwf freq gain bw fs

section UpdateInstr

variable {kind : FilterKind} {b : BitVec 4} {ord : BitVec 8} {bwf : Bool} {freq gain bw fs : F}

@[simp] theorem updateInstr_header :
    (updateInstr kind b ord bwf freq gain bw fs).header = updateHeader kind b ord bwf := by cases kind <;> rfl

@[simp] theorem updateInstr_operandWords :
    (updateInstr kind b ord bwf freq gain bw fs).operandWords = fsWords [freq, gain, bw, fs] := by cases kind <;> rfl

@[simp] theorem updateInstr_opc : (updateInstr kind b ord bwf freq gain bw fs).opc = .update := by cases kind <;> rfl

@[simp] theorem updateInstr_wf (maxBlock : Nat) : (updateInstr kind b ord bwf freq gain bw fs).wf maxBlock = true :=
  Instr.wf_of_opc_ne (by simp) maxBlock

/-- An instruction with the packet of an `UPDATE` is that `UPDATE`. -/
theorem eq_updateInstr {i : Instr} (hheader : i.header = updateHeader kind b ord bwf)
    (hws : i.operandWords = fsWords [freq, gain, bw, fs]) : i = updateInstr kind b ord bwf freq gain bw fs := by
  have hopc : i.opc ≠ .procb := fun h => by
    have hbyte := i.header_opc
    rw [hheader, h] at hbyte
    exact absurd hbyte (by simp [updateHeader, Opc.byte])
  exact instr_eq_of_packet_eq (maxBlock := 0) (Instr.wf_of_opc_ne hopc 0) (updateInstr_wf 0)
    (hheader.trans updateInstr_header.symm) (hws.trans updateInstr_operandWords.symm)

end UpdateInstr

namespace Machine

/-- What `build_<kind>` is to build, given the clamped frequency, the Q and the effective order (43_band.md R176 to
R185). -/
def updatePlan (cfg : Config) (gain bw : F) : FilterKind → F → F → EffOrder → FM Plan
  | .bell, f, q, _ => planBell f gain q
  | .lowPass, f, q, eo => planLowPass f q eo
  | .highPass, f, q, eo => planHighPass f q eo
  | .lowShelf, f, q, eo => planLowShelf f gain q eo
  | .highShelf, f, q, eo => planHighShelf f gain q eo
  | .notch, f, q, _ => planNotch f q
  | .bandPass, f, q, eo => planBandPass f q eo
  | .tilt, f, q, eo => planTilt f gain q eo
  | .mesa, f, q, eo => planMesa cfg f gain bw q eo
  | .allPass, f, q, _ => planAllPass f q

theorem exec_updateInstr (kind : FilterKind) (b : BitVec 4) (ord : BitVec 8) (bwf : Bool) (freq gain bw fs : F)
    (s : State) : exec (updateInstr kind b ord bwf freq gain bw fs) s =
      .next (updateBand kind (updatePlan s.cfg gain bw kind) b ord bwf freq gain bw fs s) := by
  cases kind <;> rfl

/-! ## The dirty check -/

theorem dirtyCheckHit_iff (p : Prev) (kind : FilterKind) (ord : BitVec 8) (bwf : Bool) (freq gain bw fs : F) :
    dirtyCheckHit p kind ord bwf freq gain bw fs = true ↔
      p.valid = true ∧ p.kind = kind ∧ p.ord = ord ∧ p.bwf = bwf ∧ p.freq = freq ∧ p.gain = gain ∧ p.bw = bw ∧
        p.fs = fs := by
  simp only [dirtyCheckHit, Bool.and_eq_true, beq_iff_eq, and_assoc]

theorem dirtyCheckHit_self (kind : FilterKind) (ord : BitVec 8) (bwf : Bool) (freq gain bw fs : F) :
    dirtyCheckHit (updateKey kind ord bwf freq gain bw fs) kind ord bwf freq gain bw fs = true :=
  (dirtyCheckHit_iff ..).2 ⟨rfl, rfl, rfl, rfl, rfl, rfl, rfl, rfl⟩

/-- 43_band.md R172: a hit ends the operation. -/
theorem exec_updateInstr_hit {kind : FilterKind} {b : BitVec 4} {ord : BitVec 8} {bwf : Bool} {freq gain bw fs : F}
    {s : State} {band : Band} (hp : s.port = .rt) (hb : s.bands[b.toNat]? = some band) (ho : orderLegal ord = true)
    (hprev : band.prev = updateKey kind ord bwf freq gain bw fs) :
    exec (updateInstr kind b ord bwf freq gain bw fs) s = .next (s.respond .update 1 []) := by
  have hhit := dirtyCheckHit_self kind ord bwf freq gain bw fs
  rw [exec_updateInstr, updateBand]
  dsimp only
  rw [State.rtOnly_rt hp, State.onBand_some hb, hprev, ho, hhit]
  rfl

/-- Settles O45: the check compares field by field, and a hit of any kind ends the one operation they all are. -/
theorem dirtyCheck : Obligations.DirtyCheck := by
  unfold Obligations.DirtyCheck
  refine ⟨dirtyCheckHit_iff, fun s b band ord bwf freq gain bw fs hp hb h1 h8 i hi hprev => ?_⟩
  have hmem : i ∈ [FilterKind.bell, .lowPass, .highPass, .lowShelf, .highShelf, .notch, .bandPass, .tilt, .mesa,
      .allPass].map fun kind => (updateInstr kind b ord bwf freq gain bw fs, kind) := hi
  obtain ⟨kind, -, rfl⟩ := List.mem_map.1 hmem
  exact exec_updateInstr_hit hp hb (by simp [orderLegal, h1, h8]) hprev

/-! ## An `UPDATE` sent twice -/

/-- Only an `UPDATE` that commits moves `RECOMP`, and it leaves its own key. -/
theorem Effect.update_of_recomp_ne {s t : State} {i : Instr} (h : Effect s i t) (hr : t.recomp ≠ s.recomp) :
    ∃ kind b ord bwf freq gain bw fs band, i = updateInstr kind b ord bwf freq gain bw fs ∧ orderLegal ord = true ∧
      t.port = .rt ∧ t.bands[b.toNat]? = some band ∧ band.prev = updateKey kind ord bwf freq gain bw fs := by
  cases h with
  | commit b band kind ord bwf freq gain bw fs built gpost d hp hi hw hb ho hd =>
    refine ⟨kind, b, ord, bwf, freq, gain, bw, fs,
      band.commit (updateKey kind ord bwf freq gain bw fs) (effOrder kind ord) built gpost, eq_updateInstr hi hw, ho,
      (State.respond_port _ _ _ _).trans hp, ?_, rfl⟩
    rw [State.respond_bands]
    exact getElem?_set_band hb
  | fault => exact absurd (State.raise_recomp _ _ _ _) hr
  | _ => exact absurd (State.respond_recomp _ _ _ _) hr

/-- The response `RT` gets for a dirty-check hit. -/
theorem respond_update_hit {s : State} (hp : s.port = .rt) (rest : List Input) :
    (s.accept .rt rest).respond .update 1 [] = { s with inbox := rest, rtOut := s.rtOut ++ [[0x20000001#32]] } := by
  have hheader : responseHeader Opc.update.byte 0 1 = 0x20000001#32 := by decide
  rw [State.respond, State.send_rt rfl, hheader, State.accept, ← hp]

/-- Settles O46: the first step leaves the packet's own key in the band, so that the second hits the dirty check. -/
theorem updateTwiceSkips : Obligations.UpdateTwiceSkips := by
  unfold Obligations.UpdateTwiceSkips
  intro s t u header ws rest hin _ hs hr hu
  have he := commandEffect_of_step hin hs
  have hinbox : t.inbox = .command .rt header ws :: rest := he.answer_of.sent.1
  cases he with
  | undecoded k => exact absurd (State.raise_recomp _ _ _ _) hr
  | decoded i _ hheader hws he =>
    obtain ⟨kind, b, ord, bwf, freq, gain, bw, fs, band, rfl, ho, hport, hb, hprev⟩ := he.update_of_recomp_ne hr
    have hdec := decode_of_packet (updateInstr_wf t.cfg.maxBlock) (p := .rt) rfl hheader hws
    rw [step_decoded hinbox hdec, exec_updateInstr_hit (s := t.accept .rt rest) rfl hb ho hprev, respond_update_hit hport] at hu
    exact (Host.Outcome.next.inj hu).symm

end Machine

end Sys2Proof
end

section
/-! The operations of the bank and the read-back of a band on an existing band (44_filterbank.md, 46_readback.md), the
band reset (43_band.md R190), and the independence of the two channels (R197). -/

namespace Sys2Proof.Machine

/-! ## Writing a band -/

section WriteBand

variable {s : State} {b : BitVec 4} {band : Band}

theorem exec_breset_rt (hp : s.port = .rt) (hb : s.bands[b.toNat]? = some band) :
    exec (.breset b) s = .next ((s.setBand b band.stageReset).respond .breset 0 []) :=
  congrArg Host.Outcome.next ((State.rtOnly_rt hp _ _).trans (State.onBand_some hb _ _))

theorem exec_enable_rt (hp : s.port = .rt) (hb : s.bands[b.toNat]? = some band) :
    exec (.enable b) s = .next ((s.setBand b { band with en := true }).respond .enable 0 []) :=
  congrArg Host.Outcome.next ((State.rtOnly_rt hp _ _).trans (State.onBand_some hb _ _))

theorem exec_disable_rt (hp : s.port = .rt) (hb : s.bands[b.toNat]? = some band) :
    exec (.disable b) s = .next ((s.setBand b { band with en := false }).respond .disable 0 []) :=
  congrArg Host.Outcome.next ((State.rtOnly_rt hp _ _).trans (State.onBand_some hb _ _))

theorem exec_srate_rt (hp : s.port = .rt) (newFs : F) : exec (.srate newFs) s =
    .next (State.respond { s with fs := newFs, bands := s.bands.map Band.invalidate } .srate 0 []) :=
  congrArg Host.Outcome.next (State.rtOnly_rt hp _ _)

end WriteBand

/-- Settles O55: `BRESET` writes a channel state at rest to both channels. -/
theorem bresetEffect : Obligations.BresetEffect := by
  unfold Obligations.BresetEffect
  intro s b band hp hb
  have hzero : ∀ c ∈ [ChannelState.zero, ChannelState.zero], ∀ sub : SubCascade,
      (c.sub sub).first = 0 ∧ ∀ i : Fin 4, (c.sub sub).second[i] = ⟨0, 0⟩ := by
    simpa using ChannelState.zero_sub
  exact ⟨ChannelState.zero, ChannelState.zero, hzero, exec_breset_rt hp hb⟩

/-- Settles O56: each of the three is one write of the bank. -/
theorem enableDisableSrateEffect : Obligations.EnableDisableSrateEffect := by
  unfold Obligations.EnableDisableSrateEffect
  exact fun s hp => ⟨fun b band hb => ⟨exec_enable_rt hp hb, exec_disable_rt hp hb⟩, exec_srate_rt hp⟩

/-! ## Reading a band -/

section ReadBand

variable {s : State} {b : BitVec 4} {band : Band}

theorem exec_rdcoef_first (hb : s.bands[b.toNat]? = some band) (sub : SubCascade) :
    exec (.rdcoef b (.first sub)) s = .next (s.respond .rdcoef 1 (fsWords (band.coef sub).first.toList)) :=
  congrArg Host.Outcome.next (State.onBand_some hb _ _)

theorem exec_rdcoef_second (hb : s.bands[b.toNat]? = some band) (sub : SubCascade) (i : Fin 4) :
    exec (.rdcoef b (.second sub i)) s = .next (s.respond .rdcoef 0 (fsWords (band.coef sub).second[i].toList)) :=
  congrArg Host.Outcome.next (State.onBand_some hb _ _)

theorem exec_rdstate_first (hp : s.port = .rt) (hb : s.bands[b.toNat]? = some band) (sub : SubCascade) (ch : Channel) :
    exec (.rdstate b (.first sub) ch) s =
      .next (s.respond .rdstate 1 (fWords ((band.chan ch).sub sub).first)) :=
  congrArg Host.Outcome.next ((State.rtOnly_rt hp _ _).trans (State.onBand_some hb _ _))

theorem exec_rdstate_second (hp : s.port = .rt) (hb : s.bands[b.toNat]? = some band) (sub : SubCascade) (i : Fin 4)
    (ch : Channel) : exec (.rdstate b (.second sub i) ch) s = .next (s.respond .rdstate 0
      (fsWords [((band.chan ch).sub sub).second[i].ic1eq, ((band.chan ch).sub sub).second[i].ic2eq])) :=
  congrArg Host.Outcome.next ((State.rtOnly_rt hp _ _).trans (State.onBand_some hb _ _))

theorem exec_rdband (hb : s.bands[b.toNat]? = some band) : exec (.rdband b) s =
    .next (s.respond .rdband 0 (descriptorWord band :: fsWords [band.gpost, band.fsUsed])) :=
  congrArg Host.Outcome.next (State.onBand_some hb _ _)

end ReadBand

/-- Words laid side by side, as numbers. -/
theorem toNat_append_eq {n m : Nat} (x : BitVec n) (y : BitVec m) : (x ++ y).toNat = x.toNat * 2 ^ m + y.toNat := by
  rw [BitVec.toNat_append, ← Nat.shiftLeft_add_eq_or_of_lt y.isLt, Nat.shiftLeft_eq]

/-- The fields of the descriptor word (46_readback.md R252). -/
theorem descriptorWord_toNat (b : Band) : (descriptorWord b).toNat =
    b.kind.code.toNat + b.eo.toNat * 2 ^ 4 + b.eo.stages * 2 ^ 8 + (if b.eo = .o1 then 2 ^ 11 else 0) +
      (if b.prev.valid then 2 ^ 12 else 0) + (if b.en then 2 ^ 13 else 0) := by
  have hbit (c : Bool) (k : Nat) : (if c then 2 ^ k else 0) = c.toNat * 2 ^ k := by cases c <;> simp
  have hfirst : (if b.eo = .o1 then 2 ^ 11 else 0) = (b.eo == .o1).toNat * 2 ^ 11 := by
    rw [← hbit]; simp
  have heo : b.eo.toNat % 2 ^ 4 = b.eo.toNat := by cases b.eo <;> rfl
  have hstages : b.eo.stages % 2 ^ 3 = b.eo.stages := by cases b.eo <;> rfl
  rw [hfirst, hbit, hbit, descriptorWord]
  simp only [toNat_append_eq, BitVec.toNat_ofBool, BitVec.toNat_ofNat, heo, hstages]
  ring

/-- Settles O39: what each read-back answers of an existing band, and the descriptor word as a number. -/
theorem readBackOfBand : Obligations.ReadBackOfBand := by
  unfold Obligations.ReadBackOfBand
  intro s b band hb
  exact ⟨fun sub => ⟨exec_rdcoef_first hb sub, fun i => ⟨_, rfl, exec_rdcoef_second hb sub i⟩⟩,
    fun hp sub ch => ⟨exec_rdstate_first hp hb sub ch, fun i => ⟨_, rfl, exec_rdstate_second hp hb sub i ch⟩⟩,
    descriptorWord band, descriptorWord_toNat band, exec_rdband hb⟩

/-! ## Frames and blocks -/

theorem exec_proc_rt {s : State} (hp : s.port = .rt) (xL xR : F) : exec (.proc xL xR) s =
    .next (s.compute (frameThrough s.bands (xL, xR)) fun r s' =>
      State.respond { s' with bands := r.1 } .proc 0 (fsWords [r.2.1, r.2.2])) :=
  congrArg Host.Outcome.next (State.rtOnly_rt hp _ _)

theorem exec_procb_rt {s : State} (hp : s.port = .rt) {frames : List (F × F)} (hlen : frames.length ≤ s.cfg.maxBlock) :
    exec (.procb frames) s = .next (s.compute (blockThrough s.bands frames) fun r s' =>
      State.respond { s' with bands := r.1 } .procb 0 (BitVec.ofNat 32 frames.length :: fsWords (framesFlat r.2))) :=
  congrArg Host.Outcome.next ((State.rtOnly_rt hp _ _).trans (if_neg (Nat.not_lt.2 hlen)))

/-- 60_exceptions.md R271. -/
theorem exec_procb_tooLong {s : State} (hp : s.port = .rt) {frames : List (F × F)}
    (hlen : s.cfg.maxBlock < frames.length) :
    exec (.procb frames) s = .next (s.raise Opc.procb.plain .blockTooLong 0) :=
  congrArg Host.Outcome.next ((State.rtOnly_rt hp _ _).trans (if_pos hlen))

/-- Settles O58: a block within the bound is one of the relation `IsBlock`, and the block of no frames draws nothing. -/
theorem procbResult : Obligations.ProcbResult := by
  unfold Obligations.ProcbResult
  intro s frames hp
  refine ⟨fun hlen => ?_, exec_procb_tooLong hp, ?_⟩
  · obtain ⟨r, d, hblock, hs⟩ := compute_eq (gives_blockThrough s.bands frames) s fun r s' =>
      State.respond { s' with bands := r.1 } .procb 0 (BitVec.ofNat 32 frames.length :: fsWords (framesFlat r.2))
    exact ⟨r.1, r.2, d, hblock, isBlock_length hblock, (exec_procb_rt hp hlen).trans (congrArg Host.Outcome.next hs)⟩
  · rintro rfl
    exact exec_procb_rt hp (Nat.zero_le _)

/-- What a response on the RT port adds. -/
theorem State.respond_rtOut {s : State} (hp : s.port = .rt) (o : Opc) (info : BitVec 16) (values : List Word) :
    (s.respond o info values).rtOut = s.rtOut ++ [responseHeader o.byte 0 info :: values] := by
  rw [State.respond, State.send_rt hp]

/-- A frame's response and the bank it leaves, by the run of the frame. -/
theorem exec_proc_leaves {s : State} (hp : s.port = .rt) (x : F × F) {r : List Band × (F × F)}
    (hr : (frameThrough s.bands x s.draws).1 = r) : ∃ t, exec (.proc x.1 x.2) s = .next t ∧
      t.rtOut = s.rtOut ++ [0x28000000#32 :: fsWords [r.2.1, r.2.2]] ∧ t.bands = r.1 := by
  subst hr
  refine ⟨_, exec_proc_rt hp x.1 x.2, ?_, State.respond_bands _ _ _ _⟩
  rw [State.compute, State.respond_rtOut (by exact hp)]
  rfl

/-- A block's response and the bank it leaves, by the run of the block. -/
theorem exec_procb_leaves {s : State} (hp : s.port = .rt) {xs : List (F × F)} (hlen : xs.length ≤ s.cfg.maxBlock)
    {r : List Band × List (F × F)} (hr : (blockThrough s.bands xs s.draws).1 = r) :
    ∃ t, exec (.procb xs) s = .next t ∧
      t.rtOut = s.rtOut ++ [0x29000000#32 :: BitVec.ofNat 32 xs.length :: fsWords (framesFlat r.2)] ∧
      t.bands = r.1 := by
  subst hr
  refine ⟨_, exec_procb_rt hp hlen, ?_, State.respond_bands _ _ _ _⟩
  rw [State.compute, State.respond_rtOut (by exact hp)]
  rfl

/-- Settles O59: the two runs of a frame, and of a block, give related banks and related samples. -/
theorem channelsAreIndependent : Obligations.ChannelsAreIndependent := by
  unfold Obligations.ChannelsAreIndependent
  intro s₁ s₂ ch hp₁ hp₂ hbands
  refine ⟨fun x₁ x₂ hx => ?_, fun xs₁ xs₂ hxs hlen₁ hlen₂ => ?_⟩
  · obtain ⟨hb, hy⟩ := same_frameThrough ch hbands hx s₁.draws s₂.draws
    obtain ⟨t₁, he₁, hout₁, hb₁⟩ := exec_proc_leaves hp₁ x₁ rfl
    obtain ⟨t₂, he₂, hout₂, hb₂⟩ := exec_proc_leaves hp₂ x₂ rfl
    exact ⟨t₁, t₂, _, _, he₁, he₂, hout₁, hout₂, hy, by rw [hb₁, hb₂]; exact hb⟩
  · obtain ⟨hb, hy⟩ := same_blockThrough ch hxs hbands s₁.draws s₂.draws
    have hlen : xs₂.length = xs₁.length := hxs.length_eq.symm
    obtain ⟨t₁, he₁, hout₁, hb₁⟩ := exec_procb_leaves hp₁ hlen₁ rfl
    obtain ⟨t₂, he₂, hout₂, hb₂⟩ := exec_procb_leaves hp₂ (hlen ▸ hlen₂) rfl
    exact ⟨t₁, t₂, _, _, he₁, he₂, hout₁, hlen ▸ hout₂, hy, by rw [hb₁, hb₂]; exact hb⟩

end Sys2Proof.Machine
end

section
/-! IEEE arithmetic: a NaN operand, the operations on each class of operands (00_scope.md R7), comparisons and whole
numbers. -/

namespace Sys2Proof.Machine

/-! ## A NaN operand -/

section NaN

variable {x y r : F}

theorem add_of_isNaN (h : F.isNaN x = true ∨ F.isNaN y = true) : F.add x y = none := by
  rcases h with h | h <;> simp [F.add, h]

theorem mul_of_isNaN (h : F.isNaN x = true ∨ F.isNaN y = true) : F.mul x y = none := by
  rcases h with h | h <;> simp [F.mul, h]

theorem div_of_isNaN (h : F.isNaN x = true ∨ F.isNaN y = true) : F.div x y = none := by
  rcases h with h | h <;> simp [F.div, h]

/-- A result where the operation gives no value is a NaN. -/
theorem isNaN_of_isResult_none {o : Option F} (ho : o = none) (h : IsResult o r) : F.isNaN r = true := by
  subst ho
  exact isNaN_of_isQuietNaN h

theorem isNaN_of_isSum (h : IsSum x y r) (hn : F.isNaN x = true ∨ F.isNaN y = true) : F.isNaN r = true :=
  isNaN_of_isResult_none (add_of_isNaN hn) h

theorem isNaN_of_isDiff (h : IsDiff x y r) (hn : F.isNaN x = true ∨ F.isNaN y = true) : F.isNaN r = true :=
  isNaN_of_isResult_none (add_of_isNaN (hn.imp_right (isNaN_neg y).trans)) h

theorem isNaN_of_isProd (h : IsProd x y r) (hn : F.isNaN x = true ∨ F.isNaN y = true) : F.isNaN r = true :=
  isNaN_of_isResult_none (mul_of_isNaN hn) h

theorem isNaN_of_isQuot (h : IsQuot x y r) (hn : F.isNaN x = true ∨ F.isNaN y = true) : F.isNaN r = true :=
  isNaN_of_isResult_none (div_of_isNaN hn) h

theorem isNaN_of_isSumOfProds {z w : F} (h : IsSumOfProds x y z w r)
    (hn : (F.isNaN x = true ∨ F.isNaN y = true) ∨ F.isNaN z = true ∨ F.isNaN w = true) : F.isNaN r = true := by
  obtain ⟨p, q, hp, hq, hr⟩ := h
  exact isNaN_of_isSum hr (hn.imp (isNaN_of_isProd hp) (isNaN_of_isProd hq))

end NaN

/-! ## A NaN through the ticks -/

theorem isTick2_isNaN {a1 a2 a3 m0 m1 m2 i1 i2 x y i1' i2' : F} (h : IsTick2 a1 a2 a3 m0 m1 m2 i1 i2 x y i1' i2')
    (hn : F.isNaN x = true ∨ F.isNaN i1 = true ∨ F.isNaN i2 = true) :
    F.isNaN y = true ∧ F.isNaN i1' = true ∧ F.isNaN i2' = true := by
  obtain ⟨v3, v1, v2, hv3, hv1, ⟨p, t, q, hp, ht, hq, hv2⟩, ⟨t1, ht1, hi1⟩, ⟨t2, ht2, hi2⟩, u, w, hu, hw, hy⟩ := h
  have key : F.isNaN v1 = true ∧ F.isNaN v2 = true := by
    rcases hn with hx | hx | hx
    · have h3 := isNaN_of_isDiff hv3 (.inl hx)
      exact ⟨isNaN_of_isSumOfProds hv1 (.inr (.inr h3)), isNaN_of_isSum hv2 (.inr (isNaN_of_isProd hq (.inr h3)))⟩
    · exact ⟨isNaN_of_isSumOfProds hv1 (.inl (.inr hx)),
        isNaN_of_isSum hv2 (.inl (isNaN_of_isSum ht (.inr (isNaN_of_isProd hp (.inr hx)))))⟩
    · have h3 := isNaN_of_isDiff hv3 (.inr hx)
      exact ⟨isNaN_of_isSumOfProds hv1 (.inr (.inr h3)), isNaN_of_isSum hv2 (.inr (isNaN_of_isProd hq (.inr h3)))⟩
  exact ⟨isNaN_of_isSum hy (.inl (isNaN_of_isSumOfProds hu (.inr (.inr key.1)))),
    isNaN_of_isDiff hi1 (.inl (isNaN_of_isProd ht1 (.inr key.1))),
    isNaN_of_isDiff hi2 (.inl (isNaN_of_isProd ht2 (.inr key.2)))⟩

theorem isTick1_isNaN {a m0 m1 s x y s' : F} (h : IsTick1 a m0 m1 s x y s') (hn : F.isNaN x = true ∨ F.isNaN s = true) :
    F.isNaN y = true ∧ F.isNaN s' = true := by
  obtain ⟨e, v, lp, he, hv, hlp, hs', hy⟩ := h
  have hnode := isNaN_of_isSum hlp (.inl (isNaN_of_isProd hv (.inr (isNaN_of_isDiff he hn))))
  exact ⟨isNaN_of_isSumOfProds hy (.inr (.inr hnode)), isNaN_of_isSum hs' (.inl hnode)⟩

/-- Settles O24: the NaN reaches both nodes of the second-order tick, and the low-pass node of the first-order tick. -/
theorem nanIsSticky : Obligations.NaNIsSticky := by
  unfold Obligations.NaNIsSticky
  exact ⟨fun _ _ _ _ _ _ _ _ _ _ _ _ => isTick2_isNaN, fun _ _ _ _ _ _ _ => isTick1_isNaN⟩

/-! ## Classes of operands -/

section Classes

variable {x y : F}

theorem isNaN_of_isInf (h : F.isInf x = true) : F.isNaN x = false := by
  simp only [F.isInf, Bool.and_eq_true, beq_iff_eq] at h
  simp [F.isNaN, h.2]

theorem isZero_of_isInf (h : F.isInf x = true) : F.isZero x = false := by
  simp only [F.isInf, Bool.and_eq_true, beq_iff_eq] at h
  simp [F.isZero, h.1]

theorem isFinite_of_not {x : F} (hn : F.isNaN x = false) (hi : F.isInf x = false) : F.isFinite x = true := by
  by_contra hf
  simp only [F.isFinite, bne_iff_ne, ne_eq, not_not] at hf
  simp only [F.isNaN, F.isInf, hf, beq_self_eq_true, Bool.true_and, bne_eq_false_iff_eq, beq_eq_false_iff_ne] at hn hi
  exact hi hn

theorem val_of_sign (x : F) : (F.val x : ℚ) = if F.sign x then -(F.mag x : ℚ) else F.mag x := by
  unfold F.val
  split <;> push_cast <;> rfl

theorem mag_pos (hx : F.isZero x = false) : 0 < F.mag x := by
  simp only [F.isZero, Bool.and_eq_false_iff, beq_eq_false_iff_ne] at hx
  refine Nat.mul_pos ?_ (by positivity)
  unfold F.mant
  split <;> omega

theorem mant_lt (x : F) : F.mant x < 2 ^ 53 := by
  have hf : F.frac x < 2 ^ 52 := Nat.mod_lt _ (by positivity)
  unfold F.mant
  split <;> omega

/-- A finite magnitude is below that of an infinity. -/
theorem mag_lt_of_isFinite (hx : F.isFinite x = true) : F.mag x < 2 ^ 2098 := by
  have hexpo : F.expo x < 2048 := Nat.mod_lt _ (by positivity)
  have hscale : F.scale x ≤ 2045 := by
    simp only [F.isFinite, bne_iff_ne] at hx
    unfold F.scale
    omega
  calc F.mag x < 2 ^ 53 * 2 ^ F.scale x := Nat.mul_lt_mul_of_pos_right (mant_lt x) (by positivity)
    _ = 2 ^ (53 + F.scale x) := (pow_add 2 53 _).symm
    _ ≤ 2 ^ 2098 := Nat.pow_le_pow_right (by norm_num) (by omega)

theorem mag_of_isInf (hx : F.isInf x = true) : F.mag x = 2 ^ 2098 := by
  simp only [F.isInf, Bool.and_eq_true, beq_iff_eq] at hx
  have hscale : F.scale x = 2046 := by rw [F.scale, hx.1]
  have hmant : F.mant x = 2 ^ 52 := by rw [F.mant, hx.1, hx.2]; rfl
  rw [F.mag, hmant, hscale, ← pow_add]

end Classes

/-! ## Rounding of a signed value -/

theorem roundBits_zero {den : Nat} : F.roundBits 0 den = 0 := by
  unfold F.roundBits F.nearestEven
  simp

theorem isNearest_zero (s : Bool) : IsNearest 0 (F.pack s 0) := by
  have h := roundBits_isNearest s 0 one_pos
  rw [roundBits_zero] at h
  simpa using h

/-- An integer rounded by its sign and its magnitude. -/
theorem isNearest_int (v : Int) : IsNearest v (F.pack (decide (v < 0)) (F.roundBits v.natAbs 1)) := by
  have hv : (if decide (v < 0) then -((v.natAbs : ℚ) / (1 : Nat)) else (v.natAbs : ℚ) / (1 : Nat)) = v := by
    rw [← Int.cast_natCast, Int.natCast_natAbs]
    by_cases h : v < 0
    · simp [h, abs_of_neg h]
    · simp [h, abs_of_nonneg (not_lt.1 h)]
  exact hv ▸ roundBits_isNearest (decide (v < 0)) v.natAbs one_pos

theorem sign_round (s : Bool) (num den : Nat) : F.sign (F.pack s (F.roundBits num den)) = s :=
  sign_pack s (lt_of_le_of_lt (roundBits_le num den) infBits_lt)

/-! ## The four operations -/

section Operations

variable {x y : F}

theorem add_of_isInf_left (hx : F.isInf x = true) (hy : F.isNaN y = false) :
    F.add x y = if F.isInf y = true ∧ F.sign y ≠ F.sign x then none else some x := by
  simp [F.add, isNaN_of_isInf hx, hx, hy, ne_comm]

theorem add_of_isInf_right (hx : F.isFinite x = true) (hy : F.isInf y = true) : F.add x y = some y := by
  obtain ⟨hnan, hinf⟩ := not_nan_inf_of_finite hx
  simp [F.add, hnan, hinf, isNaN_of_isInf hy, hy]

theorem add_of_isFinite (hx : F.isFinite x = true) (hy : F.isFinite y = true) :
    ∃ r, F.add x y = some r ∧ IsNearest ((F.val x : ℚ) + F.val y) r ∧
      (F.val x + F.val y = 0 → (F.sign r = true ↔ F.sign x = true ∧ F.sign y = true)) := by
  obtain ⟨hnx, hix⟩ := not_nan_inf_of_finite hx
  obtain ⟨hny, hiy⟩ := not_nan_inf_of_finite hy
  have hcast : (F.val x : ℚ) + F.val y = ((F.val x + F.val y : Int) : ℚ) := by push_cast; rfl
  rw [hcast]
  by_cases hv : F.val x + F.val y = 0
  · refine ⟨F.pack (F.sign x && F.sign y) 0, by simp [F.add, hnx, hny, hix, hiy, hv], ?_, fun _ => ?_⟩
    · rw [hv]
      exact_mod_cast isNearest_zero _
    · rw [sign_pack _ (by norm_num), Bool.and_eq_true]
  · exact ⟨_, by simp [F.add, hnx, hny, hix, hiy, hv], isNearest_int _, fun h => absurd h hv⟩

theorem mul_of_isInf (hnx : F.isNaN x = false) (hny : F.isNaN y = false) (hzx : F.isZero x = false)
    (hzy : F.isZero y = false) (h : F.isInf x = true ∨ F.isInf y = true) :
    F.mul x y = some (F.pack (F.sign x != F.sign y) F.infBits) := by
  simp [F.mul, hnx, hny, hzx, hzy, h]

theorem mul_of_isFinite (hx : F.isFinite x = true) (hy : F.isFinite y = true) :
    F.mul x y = some (F.pack (F.sign x != F.sign y) (F.roundBits (F.mag x * F.mag y) (2 ^ 1074))) := by
  obtain ⟨hnx, hix⟩ := not_nan_inf_of_finite hx
  obtain ⟨hny, hiy⟩ := not_nan_inf_of_finite hy
  simp only [F.mul, hnx, hny, hix, hiy, Bool.or_false, Bool.false_eq_true, if_false]

theorem mul_zero_inf (h : F.isInf x = true ∧ F.isZero y = true ∨ F.isZero x = true ∧ F.isInf y = true) :
    F.mul x y = none := by
  rcases h with ⟨h1, h2⟩ | ⟨h1, h2⟩ <;> simp [F.mul, h1, h2]

/-- The exact product, by the signs and the magnitudes. -/
theorem val_mul_eq (x y : F) : (F.val x : ℚ) * F.val y / 2 ^ 1074 =
    if (F.sign x != F.sign y) then -(((F.mag x * F.mag y : Nat) : ℚ) / ((2 ^ 1074 : Nat) : ℚ))
      else ((F.mag x * F.mag y : Nat) : ℚ) / ((2 ^ 1074 : Nat) : ℚ) := by
  rw [val_of_sign, val_of_sign]
  generalize 1074 = k
  cases F.sign x <;> cases F.sign y <;> simp <;> ring

/-- The exact quotient, by the signs and the magnitudes. -/
theorem val_div_eq (x y : F) : (F.val x : ℚ) * 2 ^ 1074 / F.val y =
    if (F.sign x != F.sign y) then -(((F.mag x * 2 ^ 1074 : Nat) : ℚ) / F.mag y)
      else ((F.mag x * 2 ^ 1074 : Nat) : ℚ) / F.mag y := by
  rw [val_of_sign, val_of_sign]
  generalize 1074 = k
  cases F.sign x <;> cases F.sign y <;> simp <;> ring

theorem div_of_isInf_or_zero
    (h : F.isInf x = true ∧ F.isFinite y = true ∨ F.isFinite x = true ∧ F.isZero x = false ∧ F.isZero y = true) :
    F.div x y = some (F.pack (F.sign x != F.sign y) F.infBits) := by
  rcases h with ⟨hx, hy⟩ | ⟨hx, hzx, hzy⟩
  · obtain ⟨hny, hiy⟩ := not_nan_inf_of_finite hy
    simp [F.div, isNaN_of_isInf hx, hx, hny, hiy]
  · obtain ⟨hnx, hix⟩ := not_nan_inf_of_finite hx
    obtain ⟨hny, hiy⟩ := not_nan_inf_of_finite (finite_of_isZero hzy)
    simp [F.div, hnx, hix, hny, hiy, hzx, hzy]

theorem div_of_isInf_right (hx : F.isFinite x = true) (hy : F.isInf y = true) :
    F.div x y = some (F.pack (F.sign x != F.sign y) 0) := by
  obtain ⟨hnx, hix⟩ := not_nan_inf_of_finite hx
  simp [F.div, hnx, hix, isNaN_of_isInf hy, hy]

theorem div_of_isFinite (hx : F.isFinite x = true) (hy : F.isFinite y = true) (hzy : F.isZero y = false) :
    F.div x y = some (F.pack (F.sign x != F.sign y) (F.roundBits (F.mag x * 2 ^ 1074) (F.mag y))) := by
  obtain ⟨hnx, hix⟩ := not_nan_inf_of_finite hx
  obtain ⟨hny, hiy⟩ := not_nan_inf_of_finite hy
  simp only [F.div, hnx, hny, hix, hiy, hzy, Bool.or_false, Bool.false_eq_true, if_false]

theorem div_none (h : F.isInf x = true ∧ F.isInf y = true ∨ F.isZero x = true ∧ F.isZero y = true) :
    F.div x y = none := by
  rcases h with ⟨hx, hy⟩ | ⟨hx, hy⟩
  · simp [F.div, hx, hy]
  · obtain ⟨-, hix⟩ := not_nan_inf_of_finite (finite_of_isZero hx)
    obtain ⟨-, hiy⟩ := not_nan_inf_of_finite (finite_of_isZero hy)
    simp [F.div, hix, hiy, hx, hy]

end Operations

/-- Settles O20: the sum by the class of each operand. -/
theorem sumCorrectlyRounded : Obligations.SumCorrectlyRounded := by
  unfold Obligations.SumCorrectlyRounded
  exact fun _ _ => ⟨add_of_isNaN, add_of_isInf_left, add_of_isInf_right, add_of_isFinite, rfl⟩

/-- Settles O21: the product by the class of each operand. -/
theorem productCorrectlyRounded : Obligations.ProductCorrectlyRounded := by
  unfold Obligations.ProductCorrectlyRounded
  intro x y
  refine ⟨mul_of_isNaN, mul_zero_inf, fun hnx hny hzx hzy h => ?_, fun hx hy => ?_⟩
  · exact ⟨_, mul_of_isInf hnx hny hzx hzy h, isInf_pack _⟩
  · refine ⟨_, mul_of_isFinite hx hy, ?_, sign_round _ _ _⟩
    rw [val_mul_eq]
    exact roundBits_isNearest _ _ (by positivity)

/-- Settles O22: the quotient by the class of each operand. -/
theorem quotientCorrectlyRounded : Obligations.QuotientCorrectlyRounded := by
  unfold Obligations.QuotientCorrectlyRounded
  intro x y
  refine ⟨div_of_isNaN, div_none, fun h => ?_, fun hx hy => ?_, fun hx hy hzy => ?_⟩
  · exact ⟨_, div_of_isInf_or_zero h, isInf_pack _⟩
  · have hzero (s : Bool) : F.isZero (F.pack s 0) = true := by cases s <;> decide
    exact ⟨_, div_of_isInf_right hx hy, hzero _, sign_pack _ (by norm_num)⟩
  · refine ⟨_, div_of_isFinite hx hy hzy, ?_, sign_round _ _ _⟩
    rw [val_div_eq]
    exact roundBits_isNearest _ _ (mag_pos hzy)

/-! ## Comparisons and whole numbers -/

section Comparisons

variable {x y : F}

theorem lt_iff_val (hx : F.isNaN x = false) (hy : F.isNaN y = false) : F.lt x y = true ↔ F.val x < F.val y := by
  simp [F.lt, hx, hy]

theorem abs_val_lt (hx : F.isFinite x = true) : |F.val x| < 2 ^ 2098 := by
  rw [Int.abs_eq_natAbs, natAbs_val]
  exact_mod_cast mag_lt_of_isFinite hx

theorem val_of_isInf (hx : F.isInf x = true) : F.val x = if F.sign x then -(2 ^ 2098 : Int) else 2 ^ 2098 := by
  rw [F.val, mag_of_isInf hx]
  push_cast
  rfl

theorem lt_of_isInf_left (hx : F.isInf x = true) (hy : F.isNaN y = false) :
    F.lt x y = true ↔ F.sign x = true ∧ ¬(F.isInf y = true ∧ F.sign y = true) := by
  rw [lt_iff_val (isNaN_of_isInf hx) hy, val_of_isInf hx]
  have hbig : (0 : Int) < 2 ^ 2098 := by positivity
  generalize hc : (2 ^ 2098 : Int) = c at hbig
  cases hiy : F.isInf y with
  | true =>
    rw [val_of_isInf hiy, hc]
    cases F.sign x <;> cases F.sign y <;> simp <;> omega
  | false =>
    have hlt := abs_lt.1 (abs_val_lt (isFinite_of_not hy hiy))
    rw [hc] at hlt
    cases F.sign x <;> simp <;> omega

theorem lt_of_isInf_right (hx : F.isFinite x = true) (hy : F.isInf y = true) :
    F.lt x y = true ↔ F.sign y = false := by
  rw [lt_iff_val (not_nan_inf_of_finite hx).1 (isNaN_of_isInf hy), val_of_isInf hy]
  have hlt := abs_lt.1 (abs_val_lt hx)
  generalize (2 ^ 2098 : Int) = c at hlt
  cases F.sign y <;> simp <;> omega

end Comparisons

/-- A multiple of the denominator needs no rounding. -/
theorem nearestEven_mul {m den : Nat} (hd : 0 < den) : F.nearestEven (m * den) den = m := by
  simp [F.nearestEven, hd, Nat.mul_div_cancel _ hd]

/-- Whole numbers of up to 33 bits are exact. -/
theorem roundBits_whole {n : Nat} (hn : n ≤ 2 ^ 32) :
    F.isFinite (F.pack false (F.roundBits (n * 2 ^ 1074) 1)) = true ∧
      F.mag (F.pack false (F.roundBits (n * 2 ^ 1074) 1)) = n * 2 ^ 1074 := by
  obtain ⟨e, m, -, hm, hm53, hnorm, hlo, -, hr⟩ := roundBits_parts (n * 2 ^ 1074) one_pos
  have he : e ≤ 1054 := by
    by_contra hc
    have hbig : 2 ^ (52 + e) * 1 ≤ 2 ^ 32 * 2 ^ 1074 := (hlo (by omega)).trans (Nat.mul_le_mul_right _ hn)
    rw [mul_one, ← pow_add] at hbig
    have := (Nat.pow_le_pow_iff_right (by norm_num)).1 hbig
    omega
  have hsplit : n * 2 ^ 1074 = n * 2 ^ (1074 - e) * 2 ^ e := by
    rw [mul_assoc, ← pow_add, Nat.sub_add_cancel (by omega)]
  have hexact : m = n * 2 ^ (1074 - e) := by
    rw [hm, one_mul, hsplit, nearestEven_mul (by positivity)]
  have hfin : e * 2 ^ 52 + m < F.infBits := by unfold F.infBits; omega
  obtain ⟨hf, hmag, -⟩ := roundBits_finite false hm53 hnorm hfin
  rw [hr]
  exact ⟨hf, by rw [hmag, hsplit, ← hexact]⟩

theorem ofNat_exact {n : Nat} (hn : n ≤ 2 ^ 32) :
    F.isFinite (F.ofNat n) = true ∧ F.val (F.ofNat n) = (n : Int) * 2 ^ 1074 := by
  obtain ⟨hf, hmag⟩ := roundBits_whole hn
  refine ⟨hf, ?_⟩
  rw [F.val, F.ofNat, sign_round, hmag]
  push_cast
  rfl

/-- Settles O32: values compare by `F.val`, where an infinity lies beyond every finite one. -/
theorem comparisonsAndWholeNumbersExact : Obligations.ComparisonsAndWholeNumbersExact := by
  unfold Obligations.ComparisonsAndWholeNumbersExact
  refine ⟨fun x y => ⟨?_, fun hx hy => ?_, lt_of_isInf_left, lt_of_isInf_right⟩, fun n => ofNat_exact⟩
  · exact fun h => h.elim (F.lt_nan_left · y) (F.lt_nan_right · x)
  · exact lt_iff_val (not_nan_inf_of_finite hx).1 (not_nan_inf_of_finite hy).1

end Sys2Proof.Machine
end

section
/-! The square root is correctly rounded (00_scope.md R9). -/

namespace Sys2Proof.Machine

/-! ## Nearest to the root from nearest to the sticky value -/

/-- No midpoint of two values lies strictly inside a cell of width `t`, so what is nearest to one point of the cell is
nearest to every other. -/
theorem nearest_of_same_cell {t e s v z : ℝ} {r c : Int} (ht : 0 < t) (he : r * t < e ∧ e < (r + 1) * t)
    (hs : r * t < s ∧ s < (r + 1) * t) (hmid : v + z = 2 * (c * t)) (h : |v - e| ≤ |z - e|) : |v - s| ≤ |z - s| := by
  rw [← sq_le_sq] at h ⊢
  obtain ⟨he1, he2⟩ := he
  obtain ⟨hs1, hs2⟩ := hs
  rcases lt_or_ge r c with hc | hc
  · have hct : ((r : ℝ) + 1) * t ≤ c * t := mul_le_mul_of_nonneg_right (by exact_mod_cast hc) ht.le
    have hvz : v ≤ z := by
      by_contra hlt
      nlinarith [mul_pos (sub_pos.2 (not_le.1 hlt)) (show 0 < v + z - 2 * e by linarith)]
    nlinarith [mul_nonneg (sub_nonneg.2 hvz) (show 0 ≤ v + z - 2 * s by linarith)]
  · have hct : (c : ℝ) * t ≤ r * t := mul_le_mul_of_nonneg_right (by exact_mod_cast hc) ht.le
    have hvz : z ≤ v := by
      by_contra hlt
      nlinarith [mul_pos (sub_pos.2 (not_le.1 hlt)) (show 0 < 2 * e - (v + z) by linarith)]
    nlinarith [mul_nonneg (sub_nonneg.2 hvz) (show 0 ≤ 2 * s - (v + z) by linarith)]

/-- A value far below the root is no nearer to it than its rounding is. -/
theorem nearest_of_small {t r s v z : ℝ} (ht : 0 < t) (hr : 2 ^ 64 ≤ r) (hs : r * t ≤ s) (hv : 2 ^ 63 * t ≤ v)
    (hv' : v ≤ (1 + 1 / 2) * ((r + 1) * t)) (hz : z < 2 ^ 53 * t) : |v - s| ≤ |z - s| := by
  have hrt : 2 ^ 64 * t ≤ r * t := mul_le_mul_of_nonneg_right hr ht.le
  rw [abs_of_nonpos (show z - s ≤ 0 by linarith), abs_le]
  constructor <;> linarith

/-! ## The operands of the rounding -/

section Root

variable {x : F}

/-- The power of two left over when the significand has been shifted. -/
def rootShift (x : F) : Nat := (F.scale x + 1074 - F.sqrtShift x) / 2

/-- The shifted significand. -/
def rootArgument (x : F) : Nat := F.mant x * 2 ^ F.sqrtShift x

theorem mag_eq_rootArgument (x : F) : F.mag x * 2 ^ 1074 = rootArgument x * (2 ^ rootShift x) ^ 2 := by
  have hsum : F.scale x + 1074 = F.sqrtShift x + rootShift x * 2 := by
    unfold rootShift F.sqrtShift
    split <;> omega
  rw [F.mag, rootArgument, mul_assoc, mul_assoc, ← pow_mul, ← pow_add, ← pow_add, hsum]

theorem rootArgument_lt (x : F) : rootArgument x < 4 ^ 91 := by
  have hshift : F.sqrtShift x ≤ 129 := by unfold F.sqrtShift; split <;> omega
  calc rootArgument x < 2 ^ 53 * 2 ^ F.sqrtShift x := Nat.mul_lt_mul_of_pos_right (mant_lt x) (by positivity)
    _ ≤ 2 ^ 53 * 2 ^ 129 := Nat.mul_le_mul_left _ (Nat.pow_le_pow_right (by norm_num) hshift)
    _ = 4 ^ 91 := by norm_num

theorem rootArgument_ge (hx : F.isZero x = false) : 2 ^ 128 ≤ rootArgument x := by
  have hshift : 128 ≤ F.sqrtShift x := by unfold F.sqrtShift; split <;> omega
  have hmant : 1 ≤ F.mant x := Nat.pos_of_ne_zero fun h => absurd (mag_pos hx) (by rw [F.mag, h]; omega)
  calc 2 ^ 128 = 1 * 2 ^ 128 := (one_mul _).symm
    _ ≤ F.mant x * 2 ^ F.sqrtShift x := Nat.mul_le_mul hmant (Nat.pow_le_pow_right (by norm_num) hshift)

theorem rootShift_le (x : F) : rootShift x ≤ 1496 := by
  have hexpo : F.expo x < 2048 := Nat.mod_lt _ (by positivity)
  have hshift : 128 ≤ F.sqrtShift x := by unfold F.sqrtShift; split <;> omega
  unfold rootShift F.scale
  omega

/-- The whole-number root of the shifted significand has 65 to 91 bits. -/
theorem isqrt_bounds (hx : F.isZero x = false) :
    2 ^ 64 ≤ F.isqrt 92 (rootArgument x) ∧ F.isqrt 92 (rootArgument x) < 2 ^ 91 := by
  have hlt := rootArgument_lt x
  have hge := rootArgument_ge hx
  obtain ⟨h1, h2⟩ := isqrt_spec 92 (rootArgument x) (hlt.trans (by norm_num))
  generalize F.isqrt 92 (rootArgument x) = r at h1 h2
  constructor
  · by_contra hc
    have : (r + 1) * (r + 1) ≤ 2 ^ 64 * 2 ^ 64 := Nat.mul_le_mul (by omega) (by omega)
    omega
  · by_contra hc
    have : 2 ^ 91 * 2 ^ 91 ≤ r * r := Nat.mul_le_mul (by omega) (by omega)
    omega

/-- The real root lies in the cell of the whole-number root, and inside it when that is not exact. -/
theorem real_root_cell (hs : F.sign x = false) :
    let r := F.isqrt 92 (rootArgument x)
    let s := Real.sqrt ((F.val x : ℝ) * 2 ^ 1074)
    (r : ℝ) * 2 ^ rootShift x ≤ s ∧ s < (r + 1) * 2 ^ rootShift x ∧
      (r * r = rootArgument x → s = r * 2 ^ rootShift x) ∧ (r * r ≠ rootArgument x → (r : ℝ) * 2 ^ rootShift x < s) := by
  obtain ⟨h1, h2⟩ := isqrt_spec 92 (rootArgument x) ((rootArgument_lt x).trans (by norm_num))
  dsimp only
  generalize F.isqrt 92 (rootArgument x) = r at h1 h2
  have hval : (F.val x : ℝ) * 2 ^ 1074 = rootArgument x * ((2 : ℝ) ^ rootShift x) ^ 2 := by
    have hmag : (F.val x : ℝ) = (F.mag x : ℝ) := by simp [F.val, hs]
    rw [hmag]
    exact_mod_cast mag_eq_rootArgument x
  have ht : (0 : ℝ) < 2 ^ rootShift x := by positivity
  rw [hval, Real.sqrt_mul (by positivity), Real.sqrt_sq ht.le]
  have hr : (0 : ℝ) ≤ r := by positivity
  refine ⟨mul_le_mul_of_nonneg_right ?_ ht.le, mul_lt_mul_of_pos_right ?_ ht, fun h => ?_,
    fun h => mul_lt_mul_of_pos_right ?_ ht⟩
  · exact Real.le_sqrt_of_sq_le (by rw [sq]; exact_mod_cast h1)
  · exact (Real.sqrt_lt' (by positivity)).2 (by rw [sq]; exact_mod_cast h2)
  · rw [← h]
    push_cast
    rw [Real.sqrt_mul_self hr]
  · exact (Real.lt_sqrt hr).2 (by rw [sq]; exact_mod_cast lt_of_le_of_ne h1 h)

end Root

/-! ## The rounding of the sticky root -/

/-- A finite result is the nearest among the finite values. -/
theorem nearest_of_isFinite {e : ℚ} {v z : F} (h : IsNearest e v) (hv : F.isFinite v = true) (hz : F.isFinite z = true) :
    |(F.val v : ℝ) - e| ≤ |(F.val z : ℝ) - e| := by
  unfold IsNearest at h
  split at h
  · exact_mod_cast (h.2 z hz).1
  · exact absurd h.1 (by simp [(not_nan_inf_of_finite hv).2])

/-- Rounding half of `(2r + sticky)·2^k` with a root of 65 to 91 bits: a finite multiple of `2^(k+1)` near it. -/
theorem round_root {r st k : Nat} (hr : 2 ^ 64 ≤ r) (hr' : r < 2 ^ 91) (hst : st ≤ 1) (hk : k ≤ 1496) :
    let v := F.pack false (F.roundBits ((2 * r + st) * 2 ^ k) 2)
    F.isFinite v = true ∧ 2 ^ (k + 1) ∣ F.mag v ∧ 2 ^ 63 * 2 ^ k ≤ F.mag v ∧ 2 * F.mag v ≤ 3 * ((r + 1) * 2 ^ k) := by
  obtain ⟨e, m, -, hm, hm53, hnorm, hlo, hlt, hbits⟩ := roundBits_parts ((2 * r + st) * 2 ^ k) two_pos
  dsimp only
  have hge : k + 12 ≤ e := by
    have hnum : 2 ^ (65 + k) ≤ (2 * r + st) * 2 ^ k := by
      rw [pow_add]
      exact Nat.mul_le_mul_right _ (by omega)
    have hpow : 2 ^ (65 + k) < 2 ^ (54 + e) := hnum.trans_lt (by rw [show 54 + e = 53 + e + 1 by omega, pow_succ]; exact hlt)
    have := (Nat.pow_lt_pow_iff_right (by norm_num)).1 hpow
    omega
  have hle : e ≤ k + 39 := by
    have hnum : (2 * r + st) * 2 ^ k < 2 ^ (92 + k) := by
      rw [pow_add]
      exact Nat.mul_lt_mul_of_pos_right (by omega) (by positivity)
    have hpow : 2 ^ (53 + e) < 2 ^ (92 + k) := lt_of_le_of_lt (by rw [show 53 + e = 52 + e + 1 by omega, pow_succ]; exact hlo (by omega)) hnum
    have := (Nat.pow_lt_pow_iff_right (by norm_num)).1 hpow
    omega
  have hfin : e * 2 ^ 52 + m < F.infBits := by unfold F.infBits; omega
  obtain ⟨hf, hmag, -⟩ := roundBits_finite false hm53 hnorm hfin
  have hm52 : 2 ^ 52 ≤ m := hnorm.resolve_left (by omega)
  obtain ⟨hnear, -, -⟩ := nearestEven_spec ((2 * r + st) * 2 ^ k) (show 0 < 2 * 2 ^ e by positivity)
  rw [← hm] at hnear
  have hlow := hlo (by omega)
  rw [hbits, hmag]
  refine ⟨hf, Dvd.dvd.mul_left (pow_dvd_pow 2 (by omega)) _, ?_, ?_⟩
  · calc 2 ^ 63 * 2 ^ k = 2 ^ 52 * 2 ^ (k + 11) := by rw [pow_add]; ring
      _ ≤ m * 2 ^ e := Nat.mul_le_mul hm52 (Nat.pow_le_pow_right (by norm_num) (by omega))
  · rw [pow_add] at hlow
    have hst' : (2 * r + st) * 2 ^ k ≤ 2 * ((r + 1) * 2 ^ k) := by
      rw [← mul_assoc]
      exact Nat.mul_le_mul_right _ (by omega)
    have hshape : m * (2 * 2 ^ e) = 2 * (m * 2 ^ e) := by ring
    rw [hshape] at hnear
    generalize 2 ^ e = q at *
    generalize m * q = p at *
    generalize (r + 1) * 2 ^ k = u at *
    generalize (2 * r + st) * 2 ^ k = w at *
    omega

theorem sqrt_of_isFinite {x : F} (hf : F.isFinite x = true) (hz : F.isZero x = false) (hs : F.sign x = false) :
    F.sqrt x = some (F.pack false (F.roundBits ((2 * F.isqrt 92 (rootArgument x) +
      if F.isqrt 92 (rootArgument x) * F.isqrt 92 (rootArgument x) = rootArgument x then 0 else 1) *
        2 ^ rootShift x) 2)) := by
  obtain ⟨hnan, hinf⟩ := not_nan_inf_of_finite hf
  simp only [F.sqrt, hnan, hz, hs, hinf, Bool.false_eq_true, if_false]
  rfl

/-- The sticky value stands in the middle of the cell that holds the real root, so it is rounded as the root is. -/
theorem sqrt_nearest {x : F} (hf : F.isFinite x = true) (hz : F.isZero x = false) (hs : F.sign x = false) :
    ∃ v, F.sqrt x = some v ∧ F.isFinite v = true ∧ F.sign v = false ∧ ∀ z : F, F.isFinite z = true →
      |(F.val v : ℝ) - Real.sqrt ((F.val x : ℝ) * 2 ^ 1074)| ≤
        |(F.val z : ℝ) - Real.sqrt ((F.val x : ℝ) * 2 ^ 1074)| := by
  obtain ⟨hlo, hhi, hexact, hinside⟩ := real_root_cell hs
  obtain ⟨hr, hr'⟩ := isqrt_bounds hz
  have hk := rootShift_le x
  refine ⟨_, sqrt_of_isFinite hf hz hs, ?_⟩
  generalize Real.sqrt ((F.val x : ℝ) * 2 ^ 1074) = s at hlo hhi hexact hinside ⊢
  generalize F.isqrt 92 (rootArgument x) = r at *
  generalize rootShift x = k at *
  generalize hst : (if r * r = rootArgument x then 0 else 1) = st
  have hst1 : st ≤ 1 := by rw [← hst]; split <;> omega
  obtain ⟨hfin, hdvd, hge, hle⟩ := round_root hr hr' hst1 hk
  have hnear := roundBits_isNearest false ((2 * r + st) * 2 ^ k) two_pos
  have hsign := sign_round false ((2 * r + st) * 2 ^ k) 2
  generalize F.pack false (F.roundBits ((2 * r + st) * 2 ^ k) 2) = v at *
  refine ⟨hfin, hsign, fun z hz => ?_⟩
  have hv : (F.val v : ℝ) = F.mag v := by simp [F.val, hsign]
  have ht : (0 : ℝ) < 2 ^ k := by positivity
  have hmid : |(F.val v : ℝ) - (r + (st : ℝ) / 2) * 2 ^ k| ≤ |(F.val z : ℝ) - (r + (st : ℝ) / 2) * 2 ^ k| := by
    have hcast : ((((2 * r + st) * 2 ^ k : Nat) : ℚ) / (2 : Nat) : ℚ) = (r + (st : ℚ) / 2) * 2 ^ k := by
      push_cast
      ring
    simp only [Bool.false_eq_true, if_false, hcast] at hnear
    have h := nearest_of_isFinite hnear hfin hz
    push_cast at h
    exact h
  by_cases hsq : r * r = rootArgument x
  · rw [if_pos hsq] at hst
    rw [← hst] at hmid
    rw [hexact hsq]
    simpa using hmid
  · rw [if_neg hsq] at hst
    rw [← hst] at hmid
    rcases mag_multiple_or_small z (k + 1) with hmul | hsmall
    · have hdvd' : (2 ^ (k + 1) : Int) ∣ F.val v + F.val z := by
        refine dvd_add ?_ ?_
        · rw [← Int.natAbs_dvd_natAbs, natAbs_val]
          exact_mod_cast hdvd
        · rw [← Int.natAbs_dvd_natAbs, natAbs_val]
          exact_mod_cast hmul
      obtain ⟨c, hc⟩ := hdvd'
      have hcR : (F.val v : ℝ) + F.val z = 2 * (c * 2 ^ k) := by
        have : (F.val v : ℝ) + F.val z = 2 ^ (k + 1) * c := by exact_mod_cast hc
        rw [this, pow_succ]
        ring
      refine nearest_of_same_cell (r := r) (c := c) ht (e := (r + (1 : ℝ) / 2) * 2 ^ k) ⟨?_, ?_⟩ ⟨hinside hsq, hhi⟩ hcR ?_
      · push_cast
        nlinarith
      · push_cast
        nlinarith
      · simpa using hmid
    · refine nearest_of_small (r := r) ht (by exact_mod_cast hr) hlo ?_ ?_ ?_
      · rw [hv]
        exact_mod_cast hge
      · have : 2 * (F.mag v : ℝ) ≤ 3 * ((r + 1) * 2 ^ k) := by exact_mod_cast hle
        rw [hv]
        linarith
      · have hlt : |F.val z| < 2 ^ 53 * 2 ^ k := by
          rw [Int.abs_eq_natAbs, natAbs_val, ← pow_add, show 53 + k = 52 + (k + 1) by omega]
          exact_mod_cast hsmall
        exact_mod_cast (le_abs_self _).trans_lt hlt

/-- Settles O23: the whole-number root, made odd when it is not exact, rounds as the real root does. -/
theorem rootCorrectlyRounded : Obligations.RootCorrectlyRounded := by
  unfold Obligations.RootCorrectlyRounded
  intro x
  refine ⟨fun h => by simp [F.sqrt, h], fun h => ?_, fun hz hs => ?_, fun hi hs => ?_, sqrt_nearest⟩
  · simp [F.sqrt, h, (not_nan_inf_of_finite (finite_of_isZero h)).1]
  · simp [F.sqrt, hz, hs]
  · simp [F.sqrt, hi, hs, isNaN_of_isInf hi, isZero_of_isInf hi]

end Sys2Proof.Machine
end

section
/-! Reset (70_reset_and_hazards.md R290 to R292) and the transfer-function evaluator (45_response_sampler.md): NaN and
range through its lines, and the answers of `HSTAGE2`, `HSTAGE1` and `BODE`. -/

namespace Sys2Proof.Machine

/-! ## Complex values: NaN -/

section ComplexNaN

variable {k : F} {u v r : Complex64}

theorem IsCAdd.isNaN (h : IsCAdd u v r) (hn : IsComplexNaN u ∨ IsComplexNaN v) : IsComplexNaN r :=
  ⟨isNaN_of_isSum h.1 (hn.imp And.left And.left), isNaN_of_isSum h.2 (hn.imp And.right And.right)⟩

theorem IsCSub.isNaN (h : IsCSub u v r) (hn : IsComplexNaN u ∨ IsComplexNaN v) : IsComplexNaN r :=
  ⟨isNaN_of_isDiff h.1 (hn.imp And.left And.left), isNaN_of_isDiff h.2 (hn.imp And.right And.right)⟩

theorem IsCScale.isNaN (h : IsCScale k u r) (hn : IsComplexNaN u) : IsComplexNaN r :=
  ⟨isNaN_of_isProd h.1 (.inr hn.1), isNaN_of_isProd h.2 (.inr hn.2)⟩

theorem IsCDiv.isNaN (h : IsCDiv u v r) (hn : IsComplexNaN u) : IsComplexNaN r := by
  obtain ⟨den, nr, ni, -, ⟨p, q, hp, -, hnr⟩, ⟨p', q', hp', -, hni⟩, hre, him⟩ := h
  exact ⟨isNaN_of_isQuot hre (.inl (isNaN_of_isSum hnr (.inl (isNaN_of_isProd hp (.inl hn.1))))),
    isNaN_of_isQuot him (.inl (isNaN_of_isDiff hni (.inl (isNaN_of_isProd hp' (.inl hn.2)))))⟩

end ComplexNaN

theorem isZinv_of_isZero {f fs : F} {z1 z2 : Complex64} (h : IsZinv f fs z1 z2) (hfs : F.isZero fs = true) :
    IsComplexNaN z1 ∧ IsComplexNaN z2 := by
  obtain ⟨y1, y2, -, h⟩ := h
  rwa [if_pos hfs] at h

theorem isZinv_of_dc {f fs : F} {z1 z2 : Complex64} (h : IsZinv f fs z1 z2) (hf : F.isZero f = true)
    (hn : F.isNaN fs = false) (hfs : F.isZero fs = false) : ∃ y1 y2, z1 = complexOne y1 ∧ z2 = complexOne y2 := by
  obtain ⟨y1, y2, -, h⟩ := h
  rw [if_neg (by simp [hfs]), if_pos (by simp [hf, hn])] at h
  exact ⟨y1, y2, h⟩

theorem isZinv_of_lines {f fs : F} {z1 z2 : Complex64} (h : IsZinv f fs z1 z2) (hfs : F.isZero fs = false)
    (hf : F.isZero f = false ∨ F.isNaN fs = true) : IsZinvLines f fs z1 z2 := by
  obtain ⟨y1, y2, hy, h⟩ := h
  rw [if_neg (by simp [hfs]), if_neg (by rcases hf with hf | hf <;> simp [hf])] at h
  obtain ⟨rfl, rfl⟩ := h
  exact hy

theorem complexOne_parts (z : Complex64) : (complexOne z).re = F.one ∧ F.isZero (complexOne z).im = true := by
  refine ⟨rfl, ?_⟩
  by_cases h : F.isZero z.im = true
  · simp [complexOne, h]
  · simp only [complexOne, h, Bool.false_eq_true, if_false]
    decide

theorem isH2_isNaN {c : SVFCoefficients} {f fs : F} {h : Complex64} (hh : IsH2 c f fs h) (hfs : F.isZero fs = true) :
    IsComplexNaN h := by
  obtain ⟨z1, z2, den, nb, nl, hz, -, ⟨m, u, -, hu, hnb⟩, -, num, quot, hnum, hquot, hout⟩ := hh
  have hband := hnb.isNaN (hu.isNaN (.inr (isZinv_of_isZero hz hfs).2))
  exact hout.isNaN (.inr (hquot.isNaN (hnum.isNaN (.inl hband))))

theorem isH1_isNaN {c : OnePoleCoefficients} {f fs : F} {h : Complex64} (hh : IsH1 c f fs h)
    (hfs : F.isZero fs = true) : IsComplexNaN h := by
  obtain ⟨z1, z2, num, den, hz, ⟨m, u, -, hu, hnum⟩, -, quot, hquot, hout⟩ := hh
  have hlow := hnum.isNaN (hu.isNaN (.inr (isZinv_of_isZero hz hfs).1))
  exact hout.isNaN (.inr (hquot.isNaN hlow))

/-! ## The answers -/

theorem exec_hstage2 (c : SVFCoefficients) (f fs : F) (s : State) : exec (.hstage2 c f fs) s =
    .next (s.compute (h2 c f fs) fun h s' => s'.respond .hstage2 0 (complexWords h)) := rfl

theorem exec_hstage1 (c : OnePoleCoefficients) (f fs : F) (s : State) : exec (.hstage1 c f fs) s =
    .next (s.compute (h1 c f fs) fun h s' => s'.respond .hstage1 0 (complexWords h)) := rfl

theorem exec_bode {s : State} {b : BitVec 4} {band : Band} (hb : s.bands[b.toNat]? = some band) (f : F) :
    exec (.bode b f) s = .next (s.compute (bandResponse band f) fun h s' => s'.respond .bode 0 (complexWords h)) := by
  change Host.Outcome.next (s.onBand _ b _) = _
  rw [State.onBand_some hb]

/-- An operation that answers with a complex value a computation gives. -/
theorem compute_complex {m : FM Complex64} {P : Complex64 → Prop} (h : Gives m P) (s : State) (o : Opc) :
    ∃ z d, P z ∧ (s.compute m fun z s' => s'.respond o 0 (complexWords z)) =
      State.respond { s with draws := d } o 0 (fsWords [z.re, z.im]) :=
  compute_eq h s fun z s' => s'.respond o 0 (complexWords z)

/-- Settles O35. -/
theorem hstageResults : Obligations.HstageResults := by
  unfold Obligations.HstageResults
  refine ⟨fun s c f fs => ?_, fun s c f fs => ?_, fun f fs z1 z2 hf hn hfs hz => ?_, fun f fs hfs => ?_,
    fun f fs z1 z2 hfs hf hz => isZinv_of_lines hz hfs hf⟩
  · obtain ⟨h, d, hh, heq⟩ := compute_complex (gives_h2 c f fs) s .hstage2
    exact ⟨h, d, hh, by rw [exec_hstage2, heq]⟩
  · obtain ⟨h, d, hh, heq⟩ := compute_complex (gives_h1 c f fs) s .hstage1
    exact ⟨h, d, hh, by rw [exec_hstage1, heq]⟩
  · obtain ⟨y1, y2, rfl, rfl⟩ := isZinv_of_dc hz hf hn hfs
    obtain ⟨hre1, him1⟩ := complexOne_parts y1
    obtain ⟨hre2, him2⟩ := complexOne_parts y2
    exact ⟨hre1, him1, hre2, him2⟩
  · exact ⟨fun c h hh => isH2_isNaN hh hfs, fun c h hh => isH1_isNaN hh hfs⟩

/-- Settles O36. -/
theorem bodeResult : Obligations.BodeResult := by
  unfold Obligations.BodeResult
  intro s b band f hb
  obtain ⟨h, d, hh, heq⟩ := compute_complex (gives_bandResponse band f) s .bode
  exact ⟨h, d, hh, by rw [exec_bode hb, heq]⟩

/-! ## Reset -/

theorem gives_resetRecords (c : Config) : Gives (resetRecords c) fun r =>
    IsRecord2 .bell F.thousand c.resetFs c.resetQ F.zero r.1 ∧ IsRecord1 .lowPass1 F.thousand c.resetFs r.2 :=
  gives_bind (gives_record2 _ _ _ _ _) fun _ h2 => gives_bind (gives_record1 _ _ _) fun _ h1 => gives_pure ⟨h2, h1⟩

theorem SubState.zero_second (i : Fin 4) : SubState.zero.second[i] = ⟨0, 0⟩ := by
  simp [SubState.zero, SVFState.zero, F.zero]

theorem resetBand_chan_sub (cfg : Config) (c2 : SVFCoefficients) (c1 : OnePoleCoefficients) (c : Channel)
    (sub : SubCascade) : ((resetBand cfg c2 c1).chan c).sub sub = SubState.zero := by
  cases c <;> cases sub <;> rfl

theorem resetBand_coef (cfg : Config) (c2 : SVFCoefficients) (c1 : OnePoleCoefficients) (sub : SubCascade) :
    (resetBand cfg c2 c1).coef sub = ⟨c1, Vector.replicate 4 c2⟩ := by
  cases sub <;> rfl

/-- Settles O18. -/
theorem resetEventGivesResetValues : Obligations.ResetEventGivesResetValues := by
  unfold Obligations.ResetEventGivesResetValues
  intro s rest hin
  refine ⟨_, step_reset hin, rfl, rfl, rfl, rfl, rfl, rfl, rfl, by simp [State.nbands], rfl, fun b hb => ?_⟩
  obtain ⟨h2, h1⟩ := gives_resetRecords s.cfg s.draws
  rw [State.hardwareReset_bands] at hb
  rw [List.eq_of_mem_replicate hb]
  refine ⟨rfl, rfl, rfl, rfl, rfl, rfl, fun c sub => ?_, fun sub => ?_⟩
  · rw [resetBand_chan_sub]
    exact ⟨rfl, SubState.zero_second⟩
  · rw [resetBand_coef]
    dsimp only
    refine ⟨h1, fun i => ?_⟩
    have hi : (Vector.replicate 4 (resetRecords s.cfg s.draws).1.1)[i] = (resetRecords s.cfg s.draws).1.1 := by simp
    rw [hi]
    exact h2

/-! ## The reset Bell -/

/-- A finite value lies below the overflow bound. -/
theorem abs_val_lt_overflowBound {x : F} (hx : F.isFinite x = true) : |(F.val x : ℚ)| < overflowBound := by
  have hscale : F.scale x ≤ 2045 := by
    have hexpo : F.expo x < 2048 := Nat.mod_lt _ (by positivity)
    simp only [F.isFinite, bne_iff_ne] at hx
    unfold F.scale
    omega
  obtain ⟨t, ht⟩ : ∃ t : Nat, 2044 = t := ⟨_, rfl⟩
  have hmag : F.mag x ≤ (2 ^ 53 - 1) * (2 ^ t * 2) := by
    have hm := mant_lt x
    rw [← pow_succ]
    exact Nat.mul_le_mul (by omega) (Nat.pow_le_pow_right (by norm_num) (by omega))
  have habs : |(F.val x : ℚ)| = F.mag x := by
    rw [← natAbs_val x, ← Int.cast_abs, Int.abs_eq_natAbs]
    simp
  rw [habs, overflowBound, ht]
  calc (F.mag x : ℚ) ≤ (2 ^ 53 - 1) * (2 ^ t * 2) := by
        rw [show ((2 : ℚ) ^ 53 - 1) = ((2 ^ 53 - 1 : Nat) : ℚ) by norm_num]
        exact_mod_cast hmag
    _ < (2 ^ 54 - 1) * 2 ^ t := by
      have ht : (0 : ℚ) < 2 ^ t := by positivity
      nlinarith

/-- A finite value is the rounding of itself. -/
theorem val_eq_of_isNearest {x r : F} (hx : F.isFinite x = true) (h : IsNearest (F.val x) r) :
    F.isFinite r = true ∧ F.val r = F.val x := by
  rw [IsNearest, if_pos (abs_val_lt_overflowBound hx)] at h
  refine ⟨h.1, ?_⟩
  have hd := (h.2 x hx).1
  rw [sub_self, abs_zero, abs_nonpos_iff, sub_eq_zero] at hd
  exact_mod_cast hd

theorem one_facts : F.isFinite F.one = true ∧ F.sign F.one = false ∧ F.isZero F.one = false := by decide

theorem mag_one : F.mag F.one = 2 ^ 1074 := by decide +kernel

/-- A finite value times 1.0 is that value. -/
theorem mul_one_val {x : F} (hx : F.isFinite x = true) :
    ∃ r, F.mul x F.one = some r ∧ F.isFinite r = true ∧ F.sign r = F.sign x ∧ F.mag r = F.mag x := by
  obtain ⟨h1, hs1, -⟩ := one_facts
  have hnear := roundBits_isNearest (F.sign x != F.sign F.one) (F.mag x * F.mag F.one) (den := 2 ^ 1074) (by positivity)
  rw [← val_mul_eq, val_of_sign F.one, hs1, mag_one] at hnear
  have hexact : (F.val x : ℚ) * ((2 ^ 1074 : Nat) : ℚ) / 2 ^ 1074 = F.val x := by
    generalize 1074 = t
    push_cast
    field_simp
  simp only [Bool.false_eq_true, if_false, hexact] at hnear
  obtain ⟨hf, hv⟩ := val_eq_of_isNearest hx hnear
  refine ⟨_, mul_of_isFinite hx h1, ?_⟩
  rw [mag_one, hs1]
  refine ⟨hf, ?_, ?_⟩
  · rw [sign_round, Bool.bne_false]
  · rw [← natAbs_val, hv, natAbs_val]

/-- The inverse of a positive value of at least `2^-n`. -/
theorem inverse_within {x k : F} {n : Nat} (hs : F.sign x = false) (hn : F.isNaN x = false) (hn' : n ≤ 1023)
    (hm : 2 ^ (1074 - n) ≤ F.mag x) (hk : IsQuot F.one x k) : Within n k ∧ F.sign k = false := by
  obtain ⟨h1, hs1, -⟩ := one_facts
  unfold IsQuot at hk
  cases hi : F.isInf x with
  | true =>
    rw [div_of_isInf_right h1 hi, hs, hs1] at hk
    rw [show k = F.pack false 0 from hk]
    exact ⟨within_zero _ _, by decide⟩
  | false =>
    have hpos : 0 < F.mag x := lt_of_lt_of_le (by positivity) hm
    have hz : F.isZero x = false := by
      by_contra hc
      rw [mag_of_isZero (by simpa using hc)] at hpos
      omega
    rw [div_of_isFinite h1 (isFinite_of_not hn hi) hz, hs, hs1] at hk
    rw [show k = F.pack false _ from hk]
    refine ⟨within_round _ _ hpos ?_ hn', sign_round _ _ _⟩
    rw [mag_one]
    calc 2 ^ 1074 * 2 ^ 1074 = 2 ^ (1074 + n) * 2 ^ (1074 - n) := by
          rw [← pow_add, ← pow_add]
          congr 1
          omega
      _ ≤ 2 ^ (1074 + n) * F.mag x := Nat.mul_le_mul_left _ hm

/-- A nonnegative value times +0.0. -/
theorem mul_zero_of_nonneg {n : Nat} {k : F} (hk : Within n k) (hs : F.sign k = false) : F.mul k F.zero = some F.zero := by
  have hz : F.isFinite F.zero = true ∧ F.sign F.zero = false ∧ F.mag F.zero = 0 := by decide
  rw [mul_of_isFinite hk.1 hz.1, hs, hz.2.1, hz.2.2, Nat.mul_zero, roundBits_zero]
  rfl

/-- A Bell of gain `+0.0` has the amplitude 1.0, and so the mix (1, 0, 0). -/
theorem bell_flat {f0 fs q : F} {c : SVFCoefficients} {n : Nat} (hq : F.lt F.zero q = true) (hn : n ≤ 1023)
    (hm : 2 ^ (1074 - n) ≤ F.mag q) (h : IsRecord2 .bell f0 fs q F.zero c) :
    c.m0 = F.one ∧ c.m1 = F.zero ∧ c.m2 = F.zero ∧ Within n c.k ∧ IsProd c.g c.g c.g2 := by
  obtain ⟨g0, amp, aa, -, ⟨x, hx, hamp⟩, haa, ⟨_, _, _, -, -, -, -, -, -, hg2⟩, -, ⟨qa, hqa, hk⟩, hm0, ⟨t, ht, hm1⟩, hm2⟩ := h
  have hx0 : x = F.zero := by
    rw [IsQuot, show F.div F.zero F.forty = some F.zero by decide +kernel] at hx
    exact hx
  have hamp1 : amp = F.one := by rw [hamp, hx0]; rfl
  subst hamp1
  have haa1 : aa = F.one := by
    rw [IsProd, show F.mul F.one F.one = some F.one by decide +kernel] at haa
    exact haa
  have ht0 : t = F.zero := by
    rw [IsDiff, haa1, show F.sub F.one F.one = some F.zero by decide +kernel] at ht
    exact ht
  obtain ⟨hqn, hqs, hqz, -⟩ := pos_parts hq
  obtain ⟨h1, hs1, hz1⟩ := one_facts
  have hqa' : F.sign qa = false ∧ F.isNaN qa = false ∧ 2 ^ (1074 - n) ≤ F.mag qa := by
    unfold IsProd at hqa
    cases hi : F.isInf q with
    | true =>
      rw [mul_of_isInf hqn (not_nan_inf_of_finite h1).1 hqz hz1 (.inl hi), hqs, hs1] at hqa
      rw [show qa = F.pack false F.infBits from hqa]
      refine ⟨(isInf_pack false).2, isNaN_of_isInf (isInf_pack false).1, ?_⟩
      rw [mag_of_isInf (isInf_pack false).1]
      exact Nat.pow_le_pow_right (by norm_num) (by omega)
    | false =>
      obtain ⟨r, hr, hrf, hrs, hrm⟩ := mul_one_val (isFinite_of_not hqn hi)
      rw [hr] at hqa
      rw [show qa = r from hqa, hrs, hrm]
      exact ⟨hqs, (not_nan_inf_of_finite hrf).1, hm⟩
  obtain ⟨hkw, hks⟩ := inverse_within hqa'.1 hqa'.2.1 hn hqa'.2.2 hk
  refine ⟨hm0, ?_, hm2, hkw, hg2⟩
  rw [IsProd, ht0, mul_zero_of_nonneg hkw hks] at hm1
  exact hm1

/-- A positive value that is not below a bound has at least its magnitude. -/
theorem mag_le_of_not_lt {x bound : F} (hx : F.lt F.zero x = true) (hb : F.isNaN bound = false)
    (hs : F.sign bound = false) (h : F.lt x bound = false) : F.mag bound ≤ F.mag x := by
  obtain ⟨hn, hxs, -, -⟩ := pos_parts hx
  simp only [F.lt, hn, hb, Bool.not_false, Bool.true_and, decide_eq_false_iff_not, not_lt, F.val, hs, hxs,
    Bool.false_eq_true, if_false] at h
  exact_mod_cast h

theorem configLegal_reset {c : Config} (h : configLegal c = true) :
    F.lt F.twoThousand c.resetFs = true ∧ F.lt F.zero c.resetQ = true := by
  simp only [configLegal, Bool.and_eq_true] at h
  exact ⟨h.1.2, h.2⟩

/-- Settles O19. -/
theorem resetRecordsLegal : Obligations.ResetRecordsLegal := by
  unfold Obligations.ResetRecordsLegal
  intro c hc
  obtain ⟨hfs, hq⟩ := configLegal_reset hc
  refine ⟨⟨by decide +kernel, F.twoThousand, ?_, hfs⟩, hq, fun hlow d => ?_⟩
  · rw [IsProd, show F.mul F.two 0x408F400000000000#64 = some F.twoThousand by decide +kernel]
    rfl
  · have hm := mag_le_of_not_lt hq (by decide) (by decide) hlow
    rw [show F.mag 0x0010000000000000#64 = 2 ^ (1074 - 1022) by decide] at hm
    obtain ⟨hm0, hm1, hm2, -, -⟩ := bell_flat hq (by norm_num) hm (gives_resetRecords c d).1
    exact ⟨hm0, hm1, hm2⟩

end Sys2Proof.Machine
end

section
/-! `BODE` of a band no `UPDATE` has reached (45_response_sampler.md R238): the lines of `h2` for a flat record whose values
are in range. -/

namespace Sys2Proof.Machine

/-! ## Range through the relations -/

section Range

variable {a b m : Nat} {x y z w r : F}

theorem IsResult.eq_some {o : Option F} {v : F} (h : IsResult o r) (ho : o = some v) : r = v := by
  subst ho
  exact h

theorem IsSum.within (h : IsSum x y r) (hx : Within a x) (hy : Within b y)
    (hm : (a + 1 ≤ m ∧ b + 1 ≤ m) ∧ m ≤ 1023) : Within m r := by
  obtain ⟨v, hv, hw⟩ := add_within (hx.mono (le_max_left a b)) (hy.mono (le_max_right a b)) (by omega)
  rw [IsResult.eq_some h hv]
  exact hw.mono (by omega)

theorem IsDiff.within (h : IsDiff x y r) (hx : Within a x) (hy : Within b y)
    (hm : (a + 1 ≤ m ∧ b + 1 ≤ m) ∧ m ≤ 1023) : Within m r := IsSum.within h hx (neg_within hy) hm

theorem IsProd.within (h : IsProd x y r) (hx : Within a x) (hy : Within b y) (hm : a + b ≤ m ∧ m ≤ 1023) :
    Within m r := by
  obtain ⟨v, hv, hw⟩ := mul_within hx hy (by omega)
  rw [IsResult.eq_some h hv]
  exact hw.mono hm.1

theorem IsSum.isZero (h : IsSum x y r) (hx : F.isZero x = true) (hy : F.isZero y = true) : F.isZero r = true := by
  obtain ⟨v, hv, hz⟩ := zero_add_zero hx hy
  exact (IsResult.eq_some h hv) ▸ hz

theorem IsDiff.isZero (h : IsDiff x y r) (hx : F.isZero x = true) (hy : F.isZero y = true) : F.isZero r = true :=
  IsSum.isZero h hx ((isZero_neg y).trans hy)

theorem IsProd.isZero (h : IsProd x y r) (hx : F.isZero x = true) (hy : F.isFinite y = true) : F.isZero r = true := by
  obtain ⟨v, hv, hz⟩ := zero_mul_number hx hy
  exact (IsResult.eq_some h hv) ▸ hz

/-- A zero over a value that is not negative, no NaN and no zero is a zero. -/
theorem IsQuot.isZero (h : IsQuot x y r) (hx : F.isZero x = true) (hy : NonNeg y) (hz : F.isZero y = false) :
    F.isZero r = true := by
  have hzero (s : Bool) : F.isZero (F.pack s 0) = true := by cases s <;> decide
  have hxf := finite_of_isZero hx
  cases hi : F.isInf y with
  | true => exact (IsResult.eq_some h (div_of_isInf_right hxf hi)) ▸ hzero _
  | false =>
    have hdiv := div_of_isFinite hxf (isFinite_of_not hy.1 hi) hz
    rw [mag_of_isZero hx, Nat.zero_mul, roundBits_zero] at hdiv
    exact (IsResult.eq_some h hdiv) ▸ hzero _

/-- The square of a number is not negative. -/
theorem IsProd.square_nonNeg (h : IsProd x x r) (hx : F.isFinite x = true) : NonNeg r := by
  have hmul := mul_of_isFinite hx hx
  rw [bne_self_eq_false] at hmul
  exact (IsResult.eq_some h hmul) ▸ nonNeg_pack (roundBits_le _ _)

theorem val_nonneg (hx : NonNeg x) : 0 ≤ F.val x := by
  rw [F.val, hx.2]
  exact Int.natCast_nonneg _

/-- The sum of values that are not negative is not negative. -/
theorem IsSum.nonNeg (h : IsSum x y r) (hx : NonNeg x) (hy : NonNeg y) : NonNeg r := by
  cases hix : F.isInf x with
  | true =>
    have hadd := add_of_isInf_left hix hy.1
    rw [if_neg (by simp [hx.2, hy.2])] at hadd
    exact (IsResult.eq_some h hadd) ▸ hx
  | false =>
    have hxf := isFinite_of_not hx.1 hix
    cases hiy : F.isInf y with
    | true => exact (IsResult.eq_some h (add_of_isInf_right hxf hiy)) ▸ hy
    | false =>
      have h0 := val_nonneg hx
      have h1 := val_nonneg hy
      simp only [IsSum, F.add, hx.1, hx.2, hy.1, hix, hiy, Bool.or_false, Bool.false_and, Bool.false_eq_true,
        if_false] at h
      split at h
      · exact h ▸ nonNeg_pack (Nat.zero_le _)
      · rw [decide_eq_false (by omega)] at h
        exact h ▸ nonNeg_pack (roundBits_le _ _)

theorem IsSumOfProds.squares_nonNeg (h : IsSumOfProds x x y y r) (hx : F.isFinite x = true) (hy : F.isFinite y = true) :
    NonNeg r := by
  obtain ⟨p, q, hp, hq, hr⟩ := h
  exact hr.nonNeg (hp.square_nonNeg hx) (hq.square_nonNeg hy)

theorem IsSumOfProds.isZero (h : IsSumOfProds x y z w r) (hx : F.isZero x = true) (hy : F.isFinite y = true)
    (hz : F.isZero z = true) (hw : F.isFinite w = true) : F.isZero r = true := by
  obtain ⟨p, q, hp, hq, hr⟩ := h
  exact hr.isZero (hp.isZero hx hy) (hq.isZero hz hw)

theorem IsDiffOfProds.isZero (h : IsDiffOfProds x y z w r) (hx : F.isZero x = true) (hy : F.isFinite y = true)
    (hz : F.isZero z = true) (hw : F.isFinite w = true) : F.isZero r = true := by
  obtain ⟨p, q, hp, hq, hr⟩ := h
  exact hr.isZero (hp.isZero hx hy) (hq.isZero hz hw)

/-- The patterns of the two zeros. -/
theorem isZero_cases (h : F.isZero x = true) : x = F.zero ∨ x = F.neg F.zero := by
  simp only [F.isZero, F.expo, F.frac, Bool.and_eq_true, beq_iff_eq] at h
  have hlt := x.isLt
  have hcases : x.toNat = 0 ∨ x.toNat = 2 ^ 63 := by omega
  exact hcases.imp (fun h => BitVec.eq_of_toNat_eq h) fun h => BitVec.eq_of_toNat_eq h

/-- 1.0 and a zero. -/
theorem IsSum.one_zero (h : IsSum F.one x r) (hx : F.isZero x = true) : r = F.one := by
  have hadd : F.add F.one x = some F.one := by
    rcases isZero_cases hx with rfl | rfl
    · decide +kernel
    · decide +kernel
  rw [IsSum, hadd] at h
  exact h

/-- `+0.0` and a zero. -/
theorem IsSum.zero_zero (h : IsSum F.zero x r) (hx : F.isZero x = true) : r = F.zero := by
  have hadd : F.add F.zero x = some F.zero := by
    rcases isZero_cases hx with rfl | rfl
    · decide +kernel
    · decide +kernel
  rw [IsSum, hadd] at h
  exact h

end Range

/-! ## Range through the complex operations -/

section ComplexRange

/-- Both parts are within a power of two. -/
def CWithin (n : Nat) (z : Complex64) : Prop := Within n z.re ∧ Within n z.im

/-- Both parts are zeros. -/
def IsCZero (z : Complex64) : Prop := F.isZero z.re = true ∧ F.isZero z.im = true

variable {a b m : Nat} {k : F} {u v r : Complex64}

theorem IsCAdd.within (h : IsCAdd u v r) (hu : CWithin a u) (hv : CWithin b v)
    (hm : (a + 1 ≤ m ∧ b + 1 ≤ m) ∧ m ≤ 1023) : CWithin m r := ⟨h.1.within hu.1 hv.1 hm, h.2.within hu.2 hv.2 hm⟩

theorem IsCSub.within (h : IsCSub u v r) (hu : CWithin a u) (hv : CWithin b v)
    (hm : (a + 1 ≤ m ∧ b + 1 ≤ m) ∧ m ≤ 1023) : CWithin m r := ⟨h.1.within hu.1 hv.1 hm, h.2.within hu.2 hv.2 hm⟩

theorem IsCScale.within (h : IsCScale k u r) (hk : Within a k) (hu : CWithin b u) (hm : a + b ≤ m ∧ m ≤ 1023) :
    CWithin m r := ⟨h.1.within hk hu.1 hm, h.2.within hk hu.2 hm⟩

theorem IsCMul.within (h : IsCMul u v r) (hu : CWithin a u) (hv : CWithin b v) (hm : a + b + 1 ≤ m ∧ m ≤ 1023) :
    CWithin m r := by
  obtain ⟨⟨p, q, hp, hq, hre⟩, p', q', hp', hq', him⟩ := h
  have hab : a + b ≤ a + b ∧ a + b ≤ 1023 := by omega
  have hsum : (a + b + 1 ≤ m ∧ a + b + 1 ≤ m) ∧ m ≤ 1023 := by omega
  exact ⟨hre.within (hp.within hu.1 hv.1 hab) (hq.within hu.2 hv.2 hab) hsum,
    him.within (hp'.within hu.1 hv.2 hab) (hq'.within hu.2 hv.1 hab) hsum⟩

theorem IsCAdd.isZero (h : IsCAdd u v r) (hu : IsCZero u) (hv : IsCZero v) : IsCZero r :=
  ⟨h.1.isZero hu.1 hv.1, h.2.isZero hu.2 hv.2⟩

theorem IsCScale.isZero (h : IsCScale k u r) (hk : F.isZero k = true) (hu : CWithin a u) : IsCZero r :=
  ⟨h.1.isZero hk hu.1.1, h.2.isZero hk hu.2.1⟩

theorem creal_within {x : F} (h : Within a x) : CWithin a (creal x) :=
  ⟨h, within_of_isZero (show F.isZero F.zero = true by decide) a⟩

end ComplexRange

/-! ## The lines of `h2` for a flat record -/

theorem one_within (n : Nat) : Within n F.one :=
  ⟨one_facts.1, by rw [mag_one]; exact Nat.pow_le_pow_right (by norm_num) (by omega)⟩

theorem two_facts : F.isFinite F.two = true ∧ F.sign F.two = false ∧ F.mag F.two = 2 ^ (1074 + 1) := by decide +kernel

theorem two_within : Within 1 F.two := ⟨two_facts.1, two_facts.2.2.le⟩

/-- Where the parts of `z⁻¹` are at most 2.0, those of `z⁻²` are at most 8.0. -/
theorem isZinv_within {f fs : F} {z1 z2 : Complex64} (h : IsZinv f fs z1 z2) (h1 : CWithin 1 z1) : CWithin 3 z2 := by
  have hone (z : Complex64) : CWithin 3 (complexOne z) := by
    obtain ⟨hre, him⟩ := complexOne_parts z
    exact ⟨hre ▸ one_within 3, within_of_isZero him 3⟩
  cases hfs : F.isZero fs with
  | true =>
    have hnan := (isZinv_of_isZero h hfs).1.1
    rw [(not_nan_inf_of_finite h1.1.1).1] at hnan
    exact absurd hnan (by decide)
  | false =>
    by_cases hdc : F.isZero f = true ∧ F.isNaN fs = false
    · obtain ⟨y1, y2, -, rfl⟩ := isZinv_of_dc h hdc.1 hdc.2 hfs
      exact hone y2
    · have hor : F.isZero f = false ∨ F.isNaN fs = true := by
        rw [not_and_or] at hdc
        simpa using hdc
      obtain ⟨theta, -, -, hz2⟩ := isZinv_of_lines h hfs hor
      exact hz2.within h1 h1 (by decide)

/-- The denominator of a record in range. -/
theorem isDen2_within {c : SVFCoefficients} {z1 z2 den : Complex64} (h : IsDen2 c z1 z2 den) (hg : Within 64 c.g)
    (hk : Within 900 c.k) (hg2 : Within 128 c.g2) (h1 : CWithin 1 z1) (h2 : CWithin 3 z2) : CWithin 970 den := by
  obtain ⟨gk, d0, d1, d2, hgk, ⟨t0, ht0, hd0⟩, ⟨t1, ht1, hd1⟩, ⟨t2, ht2, hd2⟩, u, v, w, hu, hv, hw, hden⟩ := h
  have wgk : Within 964 gk := hgk.within hg hk (by decide)
  have wt0 : Within 965 t0 := ht0.within hg2 wgk (by decide)
  have wd0 : Within 966 d0 := hd0.within wt0 (one_within 0) (by decide)
  have wt1 : Within 129 t1 := ht1.within hg2 (one_within 0) (by decide)
  have wd1 : Within 130 d1 := hd1.within two_within wt1 (by decide)
  have wt2 : Within 965 t2 := ht2.within hg2 wgk (by decide)
  have wd2 : Within 966 d2 := hd2.within wt2 (one_within 0) (by decide)
  have wu : CWithin 131 u := hu.within wd1 h1 (by decide)
  have wv : CWithin 967 v := hv.within (creal_within wd0) wu (by decide)
  have ww : CWithin 969 w := hw.within wd2 h2 (by decide)
  exact hden.within wv ww (by decide)

/-- The numerators of a record with the mix (1, 0, 0) are zeros. -/
theorem flat_numerator {c : SVFCoefficients} {z1 z2 num : Complex64} {nb nl : Complex64} (hm1 : c.m1 = F.zero)
    (hm2 : c.m2 = F.zero) (hg : F.isFinite c.g = true) (hg2 : F.isFinite c.g2 = true) (h1 : CWithin 1 z1)
    (h2 : CWithin 3 z2) (hnb : ∃ m u, IsProd c.m1 c.g m ∧ IsCSub (creal F.one) z2 u ∧ IsCScale m u nb)
    (hnl : ∃ m u v w, IsProd c.m2 c.g2 m ∧ IsCScale F.two z1 u ∧ IsCAdd (creal F.one) u v ∧ IsCAdd v z2 w ∧
      IsCScale m w nl) (hnum : IsCAdd nb nl num) : IsCZero num := by
  obtain ⟨m, u, hm, hu, hb⟩ := hnb
  obtain ⟨m', u', v, w, hm', hu', hv, hw, hl⟩ := hnl
  rw [hm1] at hm
  rw [hm2] at hm'
  have wu : CWithin 4 u := hu.within (creal_within (one_within 0)) h2 (by decide)
  have wu' : CWithin 2 u' := hu'.within two_within h1 (by decide)
  have wv : CWithin 3 v := hv.within (creal_within (one_within 0)) wu' (by decide)
  have ww : CWithin 4 w := hw.within wv h2 (by decide)
  exact hnum.isZero (hb.isZero (hm.isZero (by decide) hg) wu) (hl.isZero (hm'.isZero (by decide) hg2) ww)

theorem within_of_atMost_two {x : F} (h : atMost F.two x = true) : Within 1 x :=
  within_of_atMost two_facts.1 two_facts.2.1 two_facts.2.2 (by norm_num) h

/-- Zeros divided by a denominator in range that, squared, is not zero. -/
theorem IsCDiv.isZero {num den quot : Complex64} (h : IsCDiv num den quot) :
    ∃ n, IsSumOfProds den.re den.re den.im den.im n ∧ ∀ a, IsCZero num → CWithin a den →
      F.isNaN n = false ∧ (F.isZero n = false → IsCZero quot) := by
  obtain ⟨n, nr, ni, hn, hnr, hni, hre, him⟩ := h
  refine ⟨n, hn, fun a hnum hden => ?_⟩
  have hpos := hn.squares_nonNeg hden.1.1 hden.2.1
  exact ⟨hpos.1, fun hz => ⟨hre.isZero (hnr.isZero hnum.1 hden.1.1 hnum.2 hden.2.1) hpos hz,
    him.isZero (hni.isZero hnum.2 hden.1.1 hnum.1 hden.2.1) hpos hz⟩⟩

/-- The converse of `within_of_atMost`. -/
theorem atMost_of_within {a : Nat} {x bound : F} (hb : F.isNaN bound = false) (hs : F.sign bound = false)
    (hm : F.mag bound = 2 ^ (1074 + a)) (h : Within a x) : atMost bound x = true := by
  have hle := h.2
  have habs := natAbs_val x
  have hn : F.isNaN (F.neg bound) = false := (isNaN_neg bound).trans hb
  have hv : F.val bound = (F.mag bound : Int) := by simp [F.val, hs]
  rw [← hm] at hle
  simp only [atMost, F.lt, (not_nan_inf_of_finite h.1).1, hb, hn, val_neg, hv, Bool.not_false, Bool.true_and,
    Bool.and_eq_true, Bool.not_eq_true', decide_eq_false_iff_not, not_lt]
  omega

/-- The value of a flat record at `f`, its powers of `z⁻¹` in range. -/
theorem isH2_flat {c : SVFCoefficients} {f fs : F} {h : Complex64} (hh : IsH2 c f fs h) (hc : IsFlatRecord c)
    (hg : Within 64 c.g) : ∃ z1 z2 den n, IsZinv f fs z1 z2 ∧ IsDen2 c z1 z2 den ∧
      IsSumOfProds den.re den.re den.im den.im n ∧ (CWithin 1 z1 →
        F.isNaN n = false ∧ (F.isZero n = false → h.re = F.one ∧ h.im = F.zero)) := by
  obtain ⟨hm0, hm1, hm2, hk, hg2⟩ := hc
  obtain ⟨z1, z2, den, nb, nl, hz, hden, hnb, hnl, num, quot, hnum, hquot, hout⟩ := hh
  obtain ⟨n, hn, hquotient⟩ := hquot.isZero
  refine ⟨z1, z2, den, n, hz, hden, hn, fun h1 => ?_⟩
  have hkw : Within 900 c.k := within_of_atMost (by decide) (by decide) (by decide +kernel) (by norm_num) hk
  have hg2w : Within 128 c.g2 := hg2.within hg hg (by decide)
  have h2 := isZinv_within hz h1
  have hzero := flat_numerator hm1 hm2 hg.1 hg2w.1 h1 h2 hnb hnl hnum
  obtain ⟨hnan, hq⟩ := hquotient _ hzero (isDen2_within hden hg hkw hg2w h1 h2)
  rw [hm0] at hout
  exact ⟨hnan, fun hn0 => ⟨hout.1.one_zero (hq hn0).1, hout.2.zero_zero (hq hn0).2⟩⟩

/-- Settles O37. -/
theorem resetBandResponse : Obligations.ResetBandResponse := by
  unfold Obligations.ResetBandResponse
  refine ⟨fun c d hc hlow => ?_, fun s b band f hb hkind heo hflat hg => ?_⟩
  · have hq := (configLegal_reset hc).2
    have hm := mag_le_of_not_lt hq (by decide) (by decide) hlow
    rw [show F.mag 0x07B0000000000000#64 = 2 ^ (1074 - 900) by decide +kernel] at hm
    obtain ⟨hbell, -⟩ := gives_resetRecords c d
    obtain ⟨hm0, hm1, hm2, hk, hg2⟩ := bell_flat hq (by norm_num) hm hbell
    exact ⟨hm0, hm1, hm2, atMost_of_within (by decide) (by decide) (by decide +kernel) hk, hg2⟩
  · obtain ⟨h, d, hh, heq⟩ := compute_complex (gives_bandResponse band f) s .bode
    simp only [IsBandResponse, IsSubResponse, hkind, heo] at hh
    have hgw : Within 64 band.coefA.second[0].g :=
      within_of_atMost (by decide) (by decide) (by decide +kernel) (by norm_num) hg
    obtain ⟨z1, z2, den, n, hz, hden, hn, hval⟩ := isH2_flat hh hflat hgw
    refine ⟨z1, z2, den, n, d, hz, hden, hn, fun hre him => ?_⟩
    obtain ⟨hnan, hout⟩ := hval ⟨within_of_atMost_two hre, within_of_atMost_two him⟩
    refine ⟨hnan, fun hn0 => ?_⟩
    rw [exec_bode hb, heq, (hout hn0).1, (hout hn0).2]
    rfl

end Sys2Proof.Machine
end

section
/-! The factory's faults and its first-order shapes (41_coefficient_factory.md R121, R132, R133), and the three
calculators of Q values (42_cascade_builder.md). -/

namespace Sys2Proof.Machine

/-! ## The factory's checks -/

theorem checkShape2_of_corner {f0 fs : F} {k : FaultCode} (h : CornerFault f0 fs k) (q : F) :
    checkShape2 f0 fs q = some k := by
  simp [checkShape2, (checkFrequency_some_iff f0 fs k).2 h]

theorem checkShape2_of_q {f0 fs q : F} (hc : CornerLegal f0 fs) (hq : F.lt F.zero q = false) :
    checkShape2 f0 fs q = some .nonPositiveQ := by
  simp [checkShape2, (checkFrequency_none_iff f0 fs).2 hc, hq]

theorem answerCoef2_faults {f0 fs q : F} {k : FaultCode} (h : checkShape2 f0 fs q = some k) (shape : Shape2)
    (gainDb : F) (s : State) : answerCoef2 shape f0 fs q gainDb s = s.raise (coefHeader shape.code) k 0 := by
  rw [answerCoef2, coef2, h]
  rfl

theorem answerCoef1_faults {f0 fs : F} {k : FaultCode} (h : CornerFault f0 fs k) (shape : Shape1) (s : State) :
    answerCoef1 shape f0 fs s = s.raise (coefHeader shape.code) k 0 := by
  rw [answerCoef1, coef1, (checkFrequency_some_iff f0 fs k).2 h]
  rfl

/-- The `COEF` operation of a first-order shape (41_coefficient_factory.md R120). -/
def coefInstr1 (f0 fs : F) : Shape1 → Instr
  | .lowPass1 => .coefLp1 f0 fs
  | .highPass1 => .coefHp1 f0 fs

theorem exec_coefInstr1 (f0 fs : F) (shape : Shape1) (s : State) :
    exec (coefInstr1 f0 fs shape) s = .next (answerCoef1 shape f0 fs s) := by
  cases shape <;> rfl

/-- A `COEF` of any shape with a bad corner. -/
theorem coef_cornerFaults {f0 fs q gainDb : F} {k : FaultCode} (h : CornerFault f0 fs k) (s : State) :
    ∀ i ∈ ([Shape2.bell, .lowPass, .highPass, .lowShelf, .highShelf, .notch, .bandPass, .allPass].map fun shape =>
        (coefInstr f0 fs q gainDb shape, shape.code)) ++
      [Shape1.lowPass1, .highPass1].map fun shape => (coefInstr1 f0 fs shape, shape.code),
      exec i.1 s = .next (s.raise (coefHeader i.2) k 0) := by
  intro i hi
  rcases List.mem_append.1 hi with hi | hi
  · obtain ⟨shape, -, rfl⟩ := List.mem_map.1 hi
    rw [exec_coefInstr, answerCoef2_faults (checkShape2_of_corner h q)]
  · obtain ⟨shape, -, rfl⟩ := List.mem_map.1 hi
    rw [exec_coefInstr1, answerCoef1_faults h]

/-- Settles O28: a corner that fails a check is a fault of every shape, a Q that is not positive one of the second-order
shapes. -/
theorem factoryChecksInOrder : Obligations.FactoryChecksInOrder := by
  unfold Obligations.FactoryChecksInOrder
  intro s f0 fs q gainDb
  refine ⟨fun hf0 => ?_, fun hf0 hny => ?_, fun hf0 hny hq i hi => ?_⟩
  · exact coef_cornerFaults (.inl ⟨hf0, rfl⟩) s
  · exact coef_cornerFaults (.inr ⟨hf0, hny, rfl⟩) s
  · have hmem : i ∈ [Shape2.bell, .lowPass, .highPass, .lowShelf, .highShelf, .notch, .bandPass, .allPass].map
        fun shape => (coefInstr f0 fs q gainDb shape, shape.code) := hi
    obtain ⟨shape, -, rfl⟩ := List.mem_map.1 hmem
    dsimp only
    rw [exec_coefInstr, answerCoef2_faults (checkShape2_of_q ⟨hf0, hny⟩ hq)]
    rfl

/-! ## The first-order shapes -/

theorem gives_coef1 {f0 fs : F} (hc : CornerLegal f0 fs) (shape : Shape1) :
    Gives (coef1 shape f0 fs) fun r => ∃ c, IsRecord1 shape f0 fs c ∧ r = .ok c := by
  rw [coef1, (checkFrequency_none_iff f0 fs).2 hc]
  exact gives_bind (gives_record1 shape f0 fs) fun c hrec => gives_pure ⟨c, hrec, rfl⟩

theorem answerCoef1_responds {f0 fs : F} (hc : CornerLegal f0 fs) (shape : Shape1) (s : State) :
    ∃ c d, IsRecord1 shape f0 fs c ∧
      answerCoef1 shape f0 fs s = State.respond { s with draws := d } .coef 0 (fsWords c.toList) := by
  unfold answerCoef1
  obtain ⟨_, d, ⟨c, hrec, rfl⟩, hs⟩ := compute_eq (gives_coef1 hc shape) s _
  exact ⟨c, d, hrec, hs⟩

/-- Settles O30. -/
theorem firstOrderCoefficients : Obligations.FirstOrderCoefficients := by
  unfold Obligations.FirstOrderCoefficients
  intro s f0 fs hf0 hfs i hi
  have hmem : i ∈ [Shape1.lowPass1, .highPass1].map fun shape => (coefInstr1 f0 fs shape, shape) := hi
  obtain ⟨shape, -, rfl⟩ := List.mem_map.1 hmem
  obtain ⟨c, d, hrec, hs⟩ := answerCoef1_responds ⟨hf0, hfs⟩ shape s
  exact ⟨c, d, hrec, (exec_coefInstr1 f0 fs shape s).trans (congrArg Host.Outcome.next hs)⟩

/-! ## POLEQ -/

theorem exec_poleq (ord pole : BitVec 8) (s : State) : exec (.poleq ord pole) s = execPoleq ord pole s := rfl

/-- What `poleq` gives of a pole that is no one-pole marker (42_cascade_builder.md R151). -/
def IsPoleQ (n pole : Nat) (r : Bool × F) : Prop :=
  ∃ inc angle c2, IsQuot F.pi (F.ofNat n) inc ∧
    (if n % 2 = 0 then ∃ a b, IsQuot inc F.two a ∧ IsProd (F.ofNat pole) inc b ∧ IsSum a b angle
    else IsProd inc (F.ofNat pole) angle) ∧
    IsProd F.two (fCos angle) c2 ∧ IsQuot F.one c2 r.2 ∧ r.1 = false

theorem gives_poleq {n pole : Nat} (h : n % 2 = 0 ∨ pole ≠ 0) : Gives (poleq n pole) (IsPoleQ n pole) := by
  refine gives_bind (gives_fdiv _ _) fun inc hinc => ?_
  by_cases heven : n % 2 = 0
  · rw [if_pos heven]
    exact gives_bind (gives_fdiv _ _) fun a ha => gives_bind (gives_fmul _ _) fun b hb =>
      gives_bind (gives_fadd _ _) fun angle hangle => gives_bind (gives_fmul _ _) fun c2 hc2 =>
        gives_bind (gives_fdiv _ _) fun q hq => gives_pure
          ⟨inc, angle, c2, hinc, by rw [if_pos heven]; exact ⟨a, b, ha, hb, hangle⟩, hc2, hq, rfl⟩
  · rw [if_neg heven, if_neg (h.resolve_left heven)]
    exact gives_bind (gives_fmul _ _) fun angle hangle => gives_bind (gives_fmul _ _) fun c2 hc2 =>
      gives_bind (gives_fdiv _ _) fun q hq => gives_pure
        ⟨inc, angle, c2, hinc, by rw [if_neg heven]; exact hangle, hc2, hq, rfl⟩

/-- `PI` over a whole number draws no NaN. -/
theorem fdiv_pi_ofNat {n : Nat} (h1 : 1 ≤ n) (h2 : n ≤ 2 ^ 32) : ∃ inc, fdiv F.pi (F.ofNat n) = pure inc := by
  obtain ⟨hf, hv⟩ := ofNat_exact h2
  have hz : F.isZero (F.ofNat n) = false := by
    by_contra hc
    have hmag := natAbs_val (F.ofNat n)
    rw [mag_of_isZero (by simpa using hc), hv, Int.natAbs_eq_zero] at hmag
    have : (0 : Int) < n * 2 ^ 1074 := by positivity
    omega
  exact ⟨_, by rw [fdiv, div_of_isFinite (by decide) hf hz]; rfl⟩

/-- The one-pole marker. -/
theorem poleq_marker {n : Nat} (h1 : 1 ≤ n) (h2 : n ≤ 2 ^ 32) (hodd : n % 2 = 1) : poleq n 0 = pure (true, F.zero) := by
  obtain ⟨inc, hinc⟩ := fdiv_pi_ofNat h1 h2
  rw [poleq, hinc, pure_bind, if_neg (by omega), if_pos rfl]

theorem poleInRange_iff (ord pole : BitVec 8) : poleInRange ord pole = true ↔
    if ord.toNat % 2 = 0 then pole.toNat ≤ ord.toNat / 2 - 1 else pole.toNat ≤ (ord.toNat - 1) / 2 := by
  unfold poleInRange
  split <;> simp

theorem orderLegal_iff (ord : BitVec 8) : orderLegal ord = true ↔ 1 ≤ ord.toNat ∧ ord.toNat ≤ 8 := by
  simp [orderLegal]

theorem execPoleq_legal {ord pole : BitVec 8} (h1 : orderLegal ord = true) (h2 : poleInRange ord pole = true)
    (s : State) : execPoleq ord pole s = .next (s.compute (poleq ord.toNat pole.toNat) fun r s' =>
      s'.respond .poleq (if r.1 then 1 else 0) (fWords r.2)) := by
  simp [execPoleq, h1, h2]

/-- Settles O31. -/
theorem poleqResult : Obligations.PoleqResult := by
  unfold Obligations.PoleqResult
  intro s ord pole
  dsimp only
  rw [← poleInRange_iff, exec_poleq]
  refine ⟨fun h => ?_, fun h1 h8 hr => ?_, fun h1 h8 hr hodd hp => ?_, fun h1 h8 hr hp => ?_⟩
  · rw [execPoleq, orderLegal_eq_false h]
    rfl
  · rw [execPoleq, (orderLegal_iff ord).2 ⟨h1, h8⟩, Bool.eq_false_iff.2 hr]
    rfl
  · rw [execPoleq_legal ((orderLegal_iff ord).2 ⟨h1, h8⟩) hr, hp]
    change Host.Outcome.next (s.compute (poleq ord.toNat 0) _) = _
    rw [poleq_marker h1 (by omega) hodd]
    rfl
  · have hpole : ord.toNat % 2 = 0 ∨ pole.toNat ≠ 0 :=
      hp.imp_right fun hne h0 => hne (BitVec.eq_of_toNat_eq h0)
    obtain ⟨r, d, ⟨inc, angle, c2, hinc, hangle, hc2, hq, hmark⟩, heq⟩ := compute_eq (gives_poleq hpole) s
      fun r s' => s'.respond .poleq (if r.1 then 1 else 0) (fWords r.2)
    refine ⟨inc, angle, c2, r.2, d, hinc, hangle, hc2, hq, ?_⟩
    rw [execPoleq_legal ((orderLegal_iff ord).2 ⟨h1, h8⟩) hr, heq, hmark]
    rfl

/-! ## QDIST -/

theorem exec_qdist_none {ord : BitVec 8} (h : qdistOrder ord = none) (q : F) (s : State) :
    exec (.qdist ord q) s = .next (s.raise ⟨Opc.qdist.byte, 0, 0, ord, 0⟩ .unsupportedOrder 0) := by
  change execQdist ord q s = _
  rw [execQdist, h]

theorem exec_qdist_some {ord : BitVec 8} {eo : EffOrder} (h : qdistOrder ord = some eo) (q : F) (s : State) :
    exec (.qdist ord q) s = .next (s.compute (qdist eo q) fun qs s' =>
      s'.respond .qdist (BitVec.ofNat 16 eo.stages) (fsWords qs)) := by
  change execQdist ord q s = _
  rw [execQdist, h]

theorem qdistOrder_eq_none {ord : BitVec 8} (h : ord ∉ [2#8, 4#8, 6#8, 8#8]) : qdistOrder ord = none := by
  simp only [List.mem_cons, List.not_mem_nil, or_false, not_or] at h
  obtain ⟨h2, h4, h6, h8⟩ := h
  unfold qdistOrder
  split
  · exact absurd (BitVec.eq_of_toNat_eq ‹_›) h2
  · exact absurd (BitVec.eq_of_toNat_eq ‹_›) h4
  · exact absurd (BitVec.eq_of_toNat_eq ‹_›) h6
  · exact absurd (BitVec.eq_of_toNat_eq ‹_›) h8
  · rfl

/-- A cascade of two or more stages has its row of the ratio table, scaled. -/
def hasRow : EffOrder → Bool
  | .o1 | .o2 => false
  | .o4 | .o6 | .o8 => true

theorem isQList_row {eo : EffOrder} {q : F} {qs : List F} (he : hasRow eo = true) (h : IsQList eo q qs) :
    ∃ sc, IsCompressed (comp eo) q sc ∧ List.Forall₂ (fun r x => IsProd r sc x) (qratio eo) qs := by
  cases eo with
  | o1 | o2 => cases he
  | o4 | o6 | o8 => exact h

theorem row_facts {eo : EffOrder} (he : hasRow eo = true) :
    qdistOrder (BitVec.ofNat 8 eo.toNat) = some eo ∧ (qratio eo).length = eo.stages ∧
      (BitVec.ofNat 8 eo.toNat).toNat / 2 = eo.stages := by
  cases eo with
  | o1 | o2 => cases he
  | o4 | o6 | o8 => exact ⟨rfl, rfl, rfl⟩

/-- Settles O33. -/
theorem qdistResult : Obligations.QdistResult := by
  unfold Obligations.QdistResult
  intro s q
  refine ⟨fun ord h => exec_qdist_none (qdistOrder_eq_none h) q s, rfl, fun p hp => ?_⟩
  have hmem : p ∈ [EffOrder.o4, .o6, .o8].map fun eo => (BitVec.ofNat 8 eo.toNat, comp eo, qratio eo) := hp
  obtain ⟨eo, heo, rfl⟩ := List.mem_map.1 hmem
  have hrow : hasRow eo = true := by revert heo; cases eo <;> decide
  obtain ⟨horder, hratio, hhalf⟩ := row_facts hrow
  obtain ⟨qs, d, hqs, heq⟩ := compute_eq (gives_qdist eo q) s fun qs s' =>
    s'.respond .qdist (BitVec.ofNat 16 eo.stages) (fsWords qs)
  obtain ⟨sc, ⟨qn, hqn, hsc⟩, hlist⟩ := isQList_row hrow hqs
  have hlen : qs.length = eo.stages := hlist.length_eq.symm.trans hratio
  refine ⟨qn, sc, qs, d, hqn, hsc, hlist, hlen.trans hhalf.symm, ?_⟩
  rw [exec_qdist_some horder, heq, hlen]

/-! ## BW2Q -/

theorem exec_bw2q (bw : F) (s : State) :
    exec (.bw2q bw) s = .next (s.compute (bw2q bw) fun q s' => s'.respond .bw2q 0 (fWords q)) := rfl

theorem isBw2qFormula_isNaN {bw r : F} (h : IsBw2qFormula bw r) (hn : F.isNaN bw = true) : F.isNaN r = true := by
  obtain ⟨x, d, hx, hd, hr⟩ := h
  exact isNaN_of_isQuot hr (.inr (isNaN_of_isProd hd (.inr (fSinh_isNaN (isNaN_of_isProd hx (.inr hn))))))

/-- A value below zero. -/
theorem neg_parts {v : F} (h : F.lt v F.zero = true) :
    F.isNaN v = false ∧ F.sign v = true ∧ F.lt F.zero v = false := by
  have h0 : F.val F.zero = 0 := by decide
  simp only [F.lt, h0, Bool.and_eq_true, Bool.not_eq_true', decide_eq_true_eq] at h
  obtain ⟨⟨hn, -⟩, hv⟩ := h
  refine ⟨hn, ?_, ?_⟩
  · by_contra hc
    rw [F.val, if_neg hc] at hv
    omega
  · rw [Bool.eq_false_iff, Ne, lt_zero_iff]
    omega

/-- A value with the sign set that is no NaN is below zero or `-0.0`. -/
theorem lt_zero_or_negZero {v : F} (hn : F.isNaN v = false) (hs : F.sign v = true) :
    F.lt v F.zero = true ∨ v = F.neg F.zero := by
  cases hz : F.isZero v with
  | true =>
    refine .inr ((isZero_cases hz).resolve_left ?_)
    rintro rfl
    exact absurd hs (by decide)
  | false =>
    refine .inl ((lt_iff_val hn (by decide)).2 ?_)
    have hpos := mag_pos hz
    rw [show F.val F.zero = 0 by decide, F.val, hs, if_pos rfl]
    omega

theorem eq_zero_of_isZero_pack {s : Bool} {p : Nat} (hp : p < 2 ^ 63) (h : F.isZero (F.pack s p) = true) : p = 0 := by
  rw [F.isZero, expo_pack s hp, frac_pack s hp, Bool.and_eq_true, beq_iff_eq, beq_iff_eq] at h
  omega

/-- Only an infinite divisor takes 1.0 to a zero. -/
theorem isInf_of_one_div_zero {d r : F} (h : IsQuot F.one d r) (hr : F.isZero r = true) : F.isInf d = true := by
  have hnan : F.isNaN r = false := (not_nan_inf_of_finite (finite_of_isZero hr)).1
  cases hd : F.isInf d with
  | true => rfl
  | false =>
    have hdn : F.isNaN d = false := by
      by_contra hc
      rw [isNaN_of_isQuot h (.inr (by simpa using hc))] at hnan
      cases hnan
    obtain ⟨h1, -, hz1⟩ := one_facts
    cases hzd : F.isZero d with
    | true =>
      rw [IsQuot, div_of_isInf_or_zero (.inr ⟨h1, hz1, hzd⟩)] at h
      rw [show r = F.pack _ F.infBits from h, isZero_of_isInf (isInf_pack _).1] at hr
      cases hr
    | false =>
      have hf := isFinite_of_not hdn hd
      rw [IsQuot, div_of_isFinite h1 hf hzd] at h
      have hpos : 1 ≤ F.roundBits (F.mag F.one * 2 ^ 1074) (F.mag d) := by
        have hbig : 2 ^ 2098 ≤ 2 ^ 1074 * 2 ^ 1074 := by
          rw [← pow_add]
          exact Nat.pow_le_pow_right (by norm_num) (by norm_num)
        have hlt := (mag_lt_of_isFinite hf).trans_le hbig
        rw [mag_one]
        refine roundBits_pos (mag_pos hzd) ?_
        generalize 2 ^ 1074 * 2 ^ 1074 = t at hlt
        omega
      rw [show r = F.pack _ _ from h] at hr
      have h0 := eq_zero_of_isZero_pack (lt_of_le_of_lt (roundBits_le _ _) infBits_lt) hr
      omega

theorem bw2qCorner_of_not_negative {bw : F} (hz : F.isZero bw = false) (h : F.isNaN bw = true ∨ F.sign bw = false)
    (r : F) : bw2qCorner bw r = r := by
  rcases h with h | h <;> simp [bw2qCorner, hz, h]

theorem bw2qCorner_of_negative {bw : F} (hn : F.isNaN bw = false) (hz : F.isZero bw = false)
    (hs : F.sign bw = true) (r : F) : bw2qCorner bw r =
      if F.sign r && !F.isNaN r then r
      else constrained (fun v => F.lt v F.zero) (Config.negativeQ bw) F.minusOne := by
  simp [bw2qCorner, hn, hz, hs]

/-- The Q of a negative bandwidth (60_exceptions.md R264): the formula's own where that is no NaN and has the sign set, else
a free value below zero. -/
theorem isBw2q_of_negative {bw q : F} (hn : F.isNaN bw = false) (hz : F.isZero bw = false) (hs : F.sign bw = true)
    (h : IsBw2q bw q) :
    F.isNaN q = false ∧ F.sign q = true ∧ F.lt F.zero q = false ∧
      (F.lt q F.zero = true ∨ q = F.neg F.zero ∧
        ∃ x d, IsProd 0x3FD62E42FEFA39EF#64 bw x ∧ IsProd F.two (fSinh x) d ∧ F.isInf d = true) ∧
      (IsBw2qFormula bw q ∨ ∃ r, IsBw2qFormula bw r ∧ (F.isNaN r = true ∨ F.sign r = false)) := by
  obtain ⟨r, hr, rfl⟩ := h
  rw [bw2qCorner_of_negative hn hz hs]
  by_cases hown : (F.sign r && !F.isNaN r) = true
  · rw [if_pos hown]
    simp only [Bool.and_eq_true, Bool.not_eq_true'] at hown
    obtain ⟨hrs, hrn⟩ := hown
    rcases lt_zero_or_negZero hrn hrs with hlt | hzero
    · exact ⟨hrn, hrs, (neg_parts hlt).2.2, .inl hlt, .inl hr⟩
    · refine ⟨hrn, hrs, by rw [hzero]; decide, .inr ⟨hzero, ?_⟩, .inl hr⟩
      obtain ⟨x, d, hx, hd, hq⟩ := hr
      exact ⟨x, d, hx, hd, isInf_of_one_div_zero hq (by rw [hzero]; decide)⟩
  · rw [if_neg hown]
    have hlt : F.lt (constrained (fun v => F.lt v F.zero) (Config.negativeQ bw) F.minusOne) F.zero = true :=
      constrained_ok (ok := fun v => F.lt v F.zero) (by decide +kernel) _
    obtain ⟨hcn, hcs, hcp⟩ := neg_parts hlt
    refine ⟨hcn, hcs, hcp, .inl hlt, .inr ⟨r, hr, ?_⟩⟩
    rw [Bool.and_eq_true, Bool.not_eq_true', not_and_or] at hown
    simpa [or_comm] using hown

/-- Settles O34: the corner cases by the class of the bandwidth. -/
theorem bw2qResult : Obligations.Bw2qResult := by
  unfold Obligations.Bw2qResult
  refine ⟨fun s bw => ?_, fun bw q hq => ⟨?_, ?_, fun hn => ?_, fun hz hs => ?_, fun hn hz hs => ?_⟩⟩
  · obtain ⟨q, d, hq, heq⟩ := compute_eq (gives_bw2q bw) s fun q s' => s'.respond .bw2q 0 (fWords q)
    exact ⟨q, d, hq, by rw [exec_bw2q, heq]⟩
  · rintro rfl
    obtain ⟨r, -, rfl⟩ := hq
    rfl
  · rintro rfl
    obtain ⟨r, -, rfl⟩ := hq
    rfl
  · obtain ⟨r, hr, rfl⟩ := hq
    rw [bw2qCorner_of_not_negative (isZero_of_isNaN hn) (.inl hn)]
    exact isBw2qFormula_isNaN hr hn
  · obtain ⟨r, hr, rfl⟩ := hq
    rwa [bw2qCorner_of_not_negative hz (.inr hs)]
  · exact isBw2q_of_negative hn hz hs hq

end Sys2Proof.Machine
end

section
/-! The plan of each kind of `UPDATE` (43_band.md R176 to R185), and that an update whose stages build, commits. -/

namespace Sys2Proof.Machine

/-! ## Effective orders -/

theorem evenOrder_ne_o1 (n : Nat) : evenOrder n ≠ .o1 := by
  unfold evenOrder
  split <;> decide

/-- The kinds with a one-pole form (43_band.md R174). -/
def hasOnePole : FilterKind → Bool
  | .lowPass | .highPass | .bandPass => true
  | .bell | .lowShelf | .highShelf | .notch | .tilt | .mesa | .allPass => false

theorem effOrder_eq_o1_iff {kind : FilterKind} (h : hasOnePole kind = true) (ord : BitVec 8) :
    effOrder kind ord = .o1 ↔ ord = 1 := by
  have hord : ord.toNat = 1 ↔ ord = 1 := ⟨fun h => BitVec.eq_of_toNat_eq h, fun h => by rw [h]; rfl⟩
  have heff : effOrder kind ord = if ord.toNat = 1 then .o1 else evenOrder (ord.toNat + ord.toNat % 2) := by
    cases kind with
    | lowPass | highPass | bandPass => rfl
    | bell | lowShelf | highShelf | notch | tilt | mesa | allPass => cases h
  rw [heff, ← hord]
  split
  · exact iff_of_true rfl ‹_›
  · exact iff_of_false (evenOrder_ne_o1 _) ‹_›

theorem effOrder_ne_o1 {kind : FilterKind} (h : hasOnePole kind = false) (ord : BitVec 8) : effOrder kind ord ≠ .o1 := by
  cases kind with
  | bell | notch | allPass => exact nofun
  | lowShelf | highShelf | tilt | mesa =>
    unfold effOrder
    dsimp only
    split
    · exact nofun
    · exact evenOrder_ne_o1 _
  | lowPass | highPass | bandPass => cases h

/-! ## The plans -/

/-- `build_LP` and `build_HP` (43_band.md R177, R178): one first-order stage at effective order 1, else a cascade. -/
def passPlan (shape1 : Shape1) (shape2 : Shape2) (f q : F) (eo : EffOrder) : FM Plan :=
  if eo = .o1 then pure ⟨[.first .A shape1 f], F.one⟩
  else do
    let qs ← qdist eo q
    pure ⟨cascadeStages .A shape2 f F.zero qs, F.one⟩

theorem planLowPass_eq (f q : F) (eo : EffOrder) : planLowPass f q eo = passPlan .lowPass1 .lowPass f q eo := by
  cases eo <;> rfl

theorem planHighPass_eq (f q : F) (eo : EffOrder) : planHighPass f q eo = passPlan .highPass1 .highPass f q eo := by
  cases eo <;> rfl

theorem gives_passPlan (shape1 : Shape1) (shape2 : Shape2) (f q : F) (eo : EffOrder) :
    Gives (passPlan shape1 shape2 f q eo) fun p =>
      if eo = .o1 then p = ⟨[.first .A shape1 f], F.one⟩
      else ∃ qs, IsQList eo q qs ∧ p = ⟨cascadeStages .A shape2 f F.zero qs, F.one⟩ := by
  unfold passPlan
  by_cases heo : eo = .o1
  · simp only [heo, if_true]
    exact gives_pure rfl
  · simp only [heo, if_false]
    exact gives_bind (gives_qdist eo q) fun qs hqs => gives_pure ⟨qs, hqs, rfl⟩

/-- `build_LS` and `build_HS` (43_band.md R179, R180). -/
def shelfPlan (shape : Shape2) (f gain q : F) (eo : EffOrder) : FM Plan := do
  let qs ← qdist eo q
  let pg ← fdiv gain (F.ofNat eo.stages)
  pure ⟨cascadeStages .A shape f pg qs, F.one⟩

theorem gives_shelfPlan (shape : Shape2) (f gain q : F) (eo : EffOrder) :
    Gives (shelfPlan shape f gain q eo) fun p => ∃ qs pg, IsQList eo q qs ∧ IsQuot gain (F.ofNat eo.stages) pg ∧
      p = ⟨cascadeStages .A shape f pg qs, F.one⟩ :=
  gives_bind (gives_qdist eo q) fun qs hqs => gives_bind (gives_fdiv _ _) fun pg hpg => gives_pure ⟨qs, pg, hqs, hpg, rfl⟩

theorem gives_planBandPass (f q : F) (eo : EffOrder) : Gives (planBandPass f q eo) fun p =>
    if eo = .o1 then p = ⟨[.first .A .highPass1 f, .first .B .lowPass1 f], F.one⟩
    else ∃ qs, IsQList eo q qs ∧
      p = ⟨cascadeStages .A .highPass f F.zero qs ++ cascadeStages .B .lowPass f F.zero qs, F.one⟩ := by
  cases eo with
  | o1 => exact gives_pure rfl
  | o2 | o4 | o6 | o8 => exact gives_bind (gives_qdist _ q) fun qs hqs => gives_pure ⟨qs, hqs, rfl⟩

/-- `build_TILT` (43_band.md R183). -/
theorem gives_planTilt (f gain q : F) (eo : EffOrder) : Gives (planTilt f gain q eo) fun p =>
    ∃ tg pg hg e qs, IsProd F.two gain tg ∧ IsQuot tg (F.ofNat eo.stages) pg ∧ IsQList eo q qs ∧ IsProd F.half tg hg ∧
      IsQuot (F.neg hg) F.twenty e ∧ p = ⟨cascadeStages .A .highShelf f pg qs, fPow10 e⟩ :=
  gives_bind (gives_qdist eo q) fun qs hqs => gives_bind (gives_fmul _ _) fun tg htg =>
    gives_bind (gives_fdiv _ _) fun pg hpg => gives_bind (gives_fmul _ _) fun hg hhg =>
      gives_bind (gives_fdiv _ _) fun e he => gives_pure ⟨tg, pg, hg, e, qs, htg, hpg, hqs, hhg, he, rfl⟩

/-- `build_MESA` (43_band.md R184). -/
theorem gives_planMesa (cfg : Config) (f gain bw q : F) (eo : EffOrder) : Gives (planMesa cfg f gain bw q eo) fun p =>
    ∃ fa fb ga gb e qs, IsMesaCorners f bw fa fb ∧ IsQList eo q qs ∧ IsQuot cfg.mesaGainADb (F.ofNat eo.stages) ga ∧
      IsQuot cfg.mesaGainBDb (F.ofNat eo.stages) gb ∧ IsQuot gain F.twenty e ∧
      p = ⟨cascadeStages .A (shelfShape cfg.mesaShapeA) fa ga qs ++ cascadeStages .B (shelfShape cfg.mesaShapeB) fb gb qs,
        fPow10 e⟩ :=
  gives_bind (gives_fadd _ _) fun w hw => gives_bind (gives_fdiv _ _) fun fa hfa => gives_bind (gives_fmul _ _) fun fb hfb =>
    gives_bind (gives_qdist eo q) fun qs hqs => gives_bind (gives_fdiv _ _) fun ga hga =>
      gives_bind (gives_fdiv _ _) fun gb hgb => gives_bind (gives_fdiv _ _) fun e he =>
        gives_pure ⟨_, _, ga, gb, e, qs, ⟨w, hw, ⟨fa, hfa, rfl⟩, fb, hfb, rfl⟩, hqs, hga, hgb, he, rfl⟩

theorem isShelf_shelfShape (sh : Shelf) : IsShelf sh (shelfShape sh) := by cases sh <;> exact rfl

/-! ## Commits -/

/-- Stages that build: what they give, and the post gain, meet `good`. -/
def PlanBuilds (fs : F) (good : List BuiltStage → F → Prop) (p : Plan) : Prop :=
  Builds (buildStages fs p.stages) fun built => good built p.gpost

/-- An update of any kind whose plan builds, commits. -/
theorem commits_of_plan {s : State} {kind : FilterKind} {b : BitVec 4} {band : Band} {ord : BitVec 8} {bwf : Bool}
    {freq gain bw fs : F} {good : List BuiltStage → F → Prop}
    (hr : UpdateReaches s kind b band ord bwf freq gain bw fs)
    (hp : ∀ q, IsUpdateQ bwf bw q →
      Gives (updatePlan s.cfg gain bw kind (clampFreq freq) q (effOrder kind ord)) (PlanBuilds fs good)) :
    Commits s (updateInstr kind b ord bwf freq gain bw fs) kind b band ord bwf freq gain bw fs good :=
  commits_of_builds (exec_updateInstr ..) hr (gives_prepareUpdate hp fun _ _ _ h => h)

theorem builds_mono {m : FM (Except (FaultCode × Slot) (List BuiltStage))} {P Q : List BuiltStage → Prop}
    (h : Builds m P) (hpq : ∀ l, P l → Q l) : Builds m Q :=
  gives_mono h fun _ ⟨l, hl, hr⟩ => ⟨l, hpq l hl, hr⟩

/-- One first-order stage. -/
theorem builds_first {fs f0 : F} (hc : CornerLegal f0 fs) (sub : SubCascade) (shape : Shape1) :
    Builds (buildStages fs [.first sub shape f0]) fun l => ∃ c, IsRecord1 shape f0 fs c ∧ l = [.first sub c] := by
  refine builds_mono (builds_cons (P := fun x => ∃ c, IsRecord1 shape f0 fs c ∧ x = .first sub c)
    (gives_mono (gives_buildStage_first hc sub shape) fun r ⟨c, hrec, hr⟩ => ⟨_, ⟨c, hrec, rfl⟩, hr⟩) (builds_nil fs)) ?_
  rintro l ⟨_, _, ⟨c, hrec, rfl⟩, rfl, rfl⟩
  exact ⟨c, hrec, rfl⟩

/-- One second-order stage. -/
theorem builds_second {fs f0 q : F} (hc : CornerLegal f0 fs) (hq : F.lt F.zero q = true) (sub : SubCascade) (i : Fin 4)
    (shape : Shape2) (gainDb : F) : Builds (buildStages fs [.second sub i shape f0 q gainDb]) fun l =>
      ∃ c, IsRecord2 shape f0 fs q gainDb c ∧ l = [.second sub i c] := by
  refine builds_mono (builds_cons (P := fun x => ∃ c, IsRecord2 shape f0 fs q gainDb c ∧ x = .second sub i c)
    (gives_mono (gives_buildStage_second hc hq sub i shape gainDb) fun r ⟨c, hrec, hr⟩ => ⟨_, ⟨c, hrec, rfl⟩, hr⟩)
    (builds_nil fs)) ?_
  rintro l ⟨_, _, ⟨c, hrec, rfl⟩, rfl, rfl⟩
  exact ⟨c, hrec, rfl⟩

/-! ## The one-stage kinds -/

/-- The kinds of one second-order stage, with their shapes (43_band.md R176, R181, R185). -/
def oneStageShape : FilterKind → Option Shape2
  | .bell => some .bell
  | .notch => some .notch
  | .allPass => some .allPass
  | .lowPass | .highPass | .lowShelf | .highShelf | .bandPass | .tilt | .mesa => none

/-- The plan is one stage of the shape; a shape without a gain carries `+0.0` there. -/
theorem updatePlan_oneStage {kind : FilterKind} {shape : Shape2} (h : oneStageShape kind = some shape) (cfg : Config)
    (gain bw f q : F) (eo : EffOrder) : ∃ g, updatePlan cfg gain bw kind f q eo = pure ⟨[.second .A 0 shape f q g], F.one⟩ ∧
      ∀ f0 fs q c, IsRecord2 shape f0 fs q g c → IsRecord2 shape f0 fs q gain c := by
  cases kind with
  | bell => cases h; exact ⟨gain, rfl, fun _ _ _ _ h => h⟩
  | notch | allPass => cases h; exact ⟨F.zero, rfl, fun _ _ _ _ h => h⟩
  | lowPass | highPass | lowShelf | highShelf | bandPass | tilt | mesa => cases h

/-- Settles O48. -/
theorem updateOneStageKinds : Obligations.UpdateOneStageKinds := by
  unfold Obligations.UpdateOneStageKinds
  intro s b band ord bwf freq gain bw fs hc hq i hi hr
  have hmem : i ∈ [(FilterKind.bell, Shape2.bell), (.notch, .notch), (.allPass, .allPass)].map
      fun ks => (updateInstr ks.1 b ord bwf freq gain bw fs, ks.1, ks.2) := hi
  obtain ⟨⟨kind, shape⟩, hks, rfl⟩ := List.mem_map.1 hmem
  have hshape : oneStageShape kind = some shape := by
    revert hks
    simp only [List.mem_cons, List.not_mem_nil, or_false, Prod.mk.injEq]
    rintro (⟨rfl, rfl⟩ | ⟨rfl, rfl⟩ | ⟨rfl, rfl⟩) <;> rfl
  refine commits_of_plan hr fun q hiq => ?_
  obtain ⟨g, hplan, hgain⟩ := updatePlan_oneStage hshape s.cfg gain bw (clampFreq freq) q (effOrder kind ord)
  rw [hplan]
  refine gives_pure (builds_mono (builds_second hc (hq q hiq) .A 0 shape g) ?_)
  rintro l ⟨c, hrec, rfl⟩
  exact ⟨rfl, q, c, hiq, hgain _ _ _ _ hrec, rfl⟩

/-! ## LowPass and HighPass -/

theorem passPlan_builds {fs f q bw : F} {bwf : Bool} {eo : EffOrder} (hc : CornerLegal f fs) (hiq : IsUpdateQ bwf bw q)
    (hq : eo = .o1 ∨ F.lt F.zero q = true) (shape1 : Shape1) (shape2 : Shape2) :
    Gives (passPlan shape1 shape2 f q eo) (PlanBuilds fs fun built gpost => gpost = F.one ∧
      if eo = .o1 then ∃ c, IsRecord1 shape1 f fs c ∧ built = [.first .A c]
      else ∃ qs, IsUpdateQList eo bwf bw qs ∧ IsCascade .A shape2 f fs F.zero qs built) := by
  refine gives_mono (gives_passPlan shape1 shape2 f q eo) fun p hp => ?_
  by_cases heo : eo = .o1
  · simp only [heo, if_true] at hp ⊢
    subst hp
    exact builds_mono (builds_first hc .A shape1) fun l hl => ⟨rfl, hl⟩
  · simp only [heo, if_false] at hp ⊢
    obtain ⟨qs, hqs, rfl⟩ := hp
    exact builds_mono (builds_qcascade hc (hq.resolve_left heo) hqs .A shape2 F.zero) fun l hl =>
      ⟨rfl, qs, ⟨q, hiq, hqs⟩, hl⟩

/-- Settles O49. -/
theorem updateLowPassHighPass : Obligations.UpdateLowPassHighPass := by
  unfold Obligations.UpdateLowPassHighPass
  intro s b band ord bwf freq gain bw fs hc hq i hi hr
  have hmem : i ∈ [(FilterKind.lowPass, Shape1.lowPass1, Shape2.lowPass), (.highPass, .highPass1, .highPass)].map
      fun k => (updateInstr k.1 b ord bwf freq gain bw fs, k.1, k.2.1, k.2.2) := hi
  obtain ⟨⟨kind, shape1, shape2⟩, hk, rfl⟩ := List.mem_map.1 hmem
  have hkind : hasOnePole kind = true ∧
      ∀ f q eo, updatePlan s.cfg gain bw kind f q eo = passPlan shape1 shape2 f q eo := by
    revert hk
    simp only [List.mem_cons, List.not_mem_nil, or_false, Prod.mk.injEq]
    rintro (⟨rfl, rfl, rfl⟩ | ⟨rfl, rfl, rfl⟩)
    · exact ⟨rfl, planLowPass_eq⟩
    · exact ⟨rfl, planHighPass_eq⟩
  refine commits_of_plan hr fun q hiq => ?_
  rw [hkind.2]
  simp only [← effOrder_eq_o1_iff hkind.1] at hq ⊢
  exact passPlan_builds hc hiq (hq.imp_right fun h => h q hiq) shape1 shape2

/-! ## The shelves -/

/-- Settles O50. -/
theorem updateShelves : Obligations.UpdateShelves := by
  unfold Obligations.UpdateShelves
  intro s b band ord bwf freq gain bw fs hc hq i hi hr
  have hmem : i ∈ [(FilterKind.lowShelf, Shape2.lowShelf), (.highShelf, .highShelf)].map
      fun k => (updateInstr k.1 b ord bwf freq gain bw fs, k.1, k.2) := hi
  obtain ⟨⟨kind, shape⟩, hk, rfl⟩ := List.mem_map.1 hmem
  have hplan : ∀ f q eo, updatePlan s.cfg gain bw kind f q eo = shelfPlan shape f gain q eo := by
    revert hk
    simp only [List.mem_cons, List.not_mem_nil, or_false, Prod.mk.injEq]
    rintro (⟨rfl, rfl⟩ | ⟨rfl, rfl⟩) <;> exact fun _ _ _ => rfl
  refine commits_of_plan hr fun q hiq => ?_
  rw [hplan]
  refine gives_mono (gives_shelfPlan shape _ gain q _) ?_
  rintro p ⟨qs, pg, hqs, hpg, rfl⟩
  exact builds_mono (builds_qcascade hc (hq q hiq) hqs .A shape pg) fun l hl => ⟨rfl, qs, pg, ⟨q, hiq, hqs⟩, hpg, hl⟩

/-! ## BandPass -/

/-- Settles O51. -/
theorem updateBandPass : Obligations.UpdateBandPass := by
  unfold Obligations.UpdateBandPass
  intro s b band ord bwf freq gain bw fs hc hq hr
  refine commits_of_plan (kind := .bandPass) hr fun q hiq => ?_
  refine gives_mono (gives_planBandPass _ q _) fun p hp => ?_
  simp only [← effOrder_eq_o1_iff (kind := .bandPass) rfl] at hq ⊢
  by_cases heo : effOrder .bandPass ord = .o1
  · simp only [heo, if_true] at hp ⊢
    subst hp
    refine builds_mono (builds_append (builds_first hc .A .highPass1) (builds_first hc .B .lowPass1)) ?_
    rintro l ⟨_, _, ⟨ca, hca, rfl⟩, ⟨cb, hcb, rfl⟩, rfl⟩
    exact ⟨rfl, ca, cb, hca, hcb, rfl⟩
  · simp only [heo, if_false] at hp ⊢
    obtain ⟨qs, hqs, rfl⟩ := hp
    have hpos := hq.resolve_left heo q hiq
    refine builds_mono (builds_append (builds_qcascade hc hpos hqs .A .highPass F.zero)
      (builds_qcascade hc hpos hqs .B .lowPass F.zero)) ?_
    rintro l ⟨la, lb, ha, hb, rfl⟩
    exact ⟨rfl, qs, la, lb, ⟨q, hiq, hqs⟩, ha, hb, rfl⟩

/-! ## Tilt and Mesa -/

/-- Settles O52. -/
theorem updateTilt : Obligations.UpdateTilt := by
  unfold Obligations.UpdateTilt
  intro s b band ord bwf freq gain bw fs hc hq hr
  refine commits_of_plan (kind := .tilt) hr fun q hiq => gives_mono (gives_planTilt _ gain q _) ?_
  rintro p ⟨tg, pg, hg, e, qs, htg, hpg, hqs, hhg, he, rfl⟩
  exact builds_mono (builds_qcascade hc (hq q hiq) hqs .A .highShelf pg) fun l hl =>
    ⟨tg, pg, hg, e, qs, htg, hpg, ⟨q, hiq, hqs⟩, hl, hhg, he, rfl⟩

/-- Settles O53. -/
theorem updateMesa : Obligations.UpdateMesa := by
  unfold Obligations.UpdateMesa
  intro s b band ord bwf freq gain bw fs hc hq hr
  refine commits_of_plan (kind := .mesa) hr fun q hiq => gives_mono (gives_planMesa s.cfg _ gain bw q _) ?_
  rintro p ⟨fa, fb, ga, gb, e, qs, hcorners, hqs, hga, hgb, he, rfl⟩
  obtain ⟨hca, hcb⟩ := hc fa fb hcorners
  have hpos := hq q hiq
  refine builds_mono (builds_append (builds_qcascade hca hpos hqs .A (shelfShape s.cfg.mesaShapeA) ga)
    (builds_qcascade hcb hpos hqs .B (shelfShape s.cfg.mesaShapeB) gb)) ?_
  rintro l ⟨la, lb, ha, hb, rfl⟩
  exact ⟨fa, fb, ga, gb, e, qs, _, _, la, lb, hcorners, ⟨q, hiq, hqs⟩, isShelf_shelfShape _, isShelf_shelfShape _, hga, hgb,
    ha, hb, rfl, he, rfl⟩

end Sys2Proof.Machine
end

section
/-! Factory faults inside an `UPDATE` (43_band.md R188): the plan of a kind starts at one slot, whose stage fails the
factory's checks. -/

namespace Sys2Proof.Machine

/-! ## A Q that is not positive stays so on the per-stage list -/

section NotPositive

variable {x y r : F}

theorem not_pos_iff (x : F) : F.lt F.zero x = false ↔ F.isNaN x = true ∨ F.isZero x = true ∨ F.sign x = true := by
  constructor
  · intro h
    by_contra hc
    simp only [not_or, Bool.not_eq_true] at hc
    obtain ⟨hn, hz, hs⟩ := hc
    rw [Bool.eq_false_iff] at h
    refine h ((lt_zero_iff x).2 ⟨hn, ?_⟩)
    have hpos := mag_pos hz
    rw [F.val, hs, if_neg (by decide)]
    omega
  · rw [Bool.eq_false_iff]
    rintro h hpos
    obtain ⟨hn, hs, hz, -⟩ := pos_parts hpos
    simp [hn, hs, hz] at h

theorem not_pos_of_sign {p : Nat} (hp : p < 2 ^ 63) : F.lt F.zero (F.pack true p) = false :=
  (not_pos_iff _).2 (.inr (.inr (sign_pack true hp)))

theorem not_pos_of_isZero (h : F.isZero x = true) : F.lt F.zero x = false := (not_pos_iff x).2 (.inr (.inl h))

theorem not_pos_of_isNaN (h : F.isNaN x = true) : F.lt F.zero x = false := (not_pos_iff x).2 (.inl h)

theorem isZero_pack_zero (s : Bool) : F.isZero (F.pack s 0) = true := by cases s <;> decide

/-- A finite positive value times one that is not positive is not positive. -/
theorem IsProd.not_pos (h : IsProd x y r) (hx : F.lt F.zero x = true) (hf : F.isInf x = false)
    (hy : F.lt F.zero y = false) : F.lt F.zero r = false := by
  obtain ⟨hxn, hxs, hxz, -⟩ := pos_parts hx
  have hxf := isFinite_of_not hxn hf
  cases hyn : F.isNaN y with
  | true => exact not_pos_of_isNaN (isNaN_of_isProd h (.inr hyn))
  | false =>
    cases hyz : F.isZero y with
    | true =>
      have hmul := mul_of_isFinite hxf (finite_of_isZero hyz)
      rw [mag_of_isZero hyz, Nat.mul_zero, roundBits_zero] at hmul
      exact IsResult.eq_some h hmul ▸ not_pos_of_isZero (isZero_pack_zero _)
    | false =>
      have hys : F.sign y = true := by simpa [hyn, hyz] using (not_pos_iff y).1 hy
      cases hyi : F.isInf y with
      | true =>
        have hmul := mul_of_isInf hxn hyn hxz hyz (.inr hyi)
        rw [hxs, hys] at hmul
        exact IsResult.eq_some h hmul ▸ not_pos_of_sign infBits_lt
      | false =>
        have hmul := mul_of_isFinite hxf (isFinite_of_not hyn hyi)
        rw [hxs, hys] at hmul
        exact IsResult.eq_some h hmul ▸ not_pos_of_sign (lt_of_le_of_lt (roundBits_le _ _) infBits_lt)

/-- A value that is not positive over a finite positive one is not positive. -/
theorem IsQuot.not_pos (h : IsQuot x y r) (hy : F.lt F.zero y = true) (hf : F.isInf y = false)
    (hx : F.lt F.zero x = false) : F.lt F.zero r = false := by
  obtain ⟨hyn, hys, hyz, -⟩ := pos_parts hy
  have hyf := isFinite_of_not hyn hf
  cases hxn : F.isNaN x with
  | true => exact not_pos_of_isNaN (isNaN_of_isQuot h (.inl hxn))
  | false =>
    cases hxz : F.isZero x with
    | true => exact not_pos_of_isZero (h.isZero hxz ⟨hyn, hys⟩ hyz)
    | false =>
      have hxs : F.sign x = true := by simpa [hxn, hxz] using (not_pos_iff x).1 hx
      cases hxi : F.isInf x with
      | true =>
        have hdiv := div_of_isInf_or_zero (.inl ⟨hxi, hyf⟩)
        rw [hxs, hys] at hdiv
        exact IsResult.eq_some h hdiv ▸ not_pos_of_sign infBits_lt
      | false =>
        have hdiv := div_of_isFinite (isFinite_of_not hxn hxi) hyf hyz
        rw [hxs, hys] at hdiv
        exact IsResult.eq_some h hdiv ▸ not_pos_of_sign (lt_of_le_of_lt (roundBits_le _ _) infBits_lt)

/-- A value that is not positive is not above 1.0. -/
theorem not_one_lt_of_not_pos (h : F.lt F.zero x = false) : F.lt F.one x = false := by
  rw [Bool.eq_false_iff] at h ⊢
  intro hone
  have hv : (0 : Int) < F.val F.one := by decide +kernel
  simp only [F.lt, Bool.and_eq_true, Bool.not_eq_true', decide_eq_true_eq] at hone
  exact h ((lt_zero_iff x).2 ⟨hone.1.2, hv.trans hone.2⟩)

end NotPositive

/-- The compressed Q of a Q that is not positive is the normalised Q, which is not positive either. -/
theorem isCompressed_not_pos {factor q qs : F} (hq : F.lt F.zero q = false) (h : IsCompressed factor q qs) :
    F.lt F.zero qs = false := by
  obtain ⟨qn, hqn, h⟩ := h
  have hn : F.lt F.zero qn = false := IsQuot.not_pos (y := F.butterworthQ) hqn (by decide +kernel) (by decide) hq
  rw [not_one_lt_of_not_pos hn, if_neg (by decide)] at h
  rwa [h]

/-- The first of a scaled row of ratios. -/
theorem scaled_first {eo : EffOrder} {q r : F} {l qs : List F} (hl : qratio eo = r :: l)
    (h : ∃ sc, IsCompressed (comp eo) q sc ∧ List.Forall₂ (fun r x => IsProd r sc x) (qratio eo) qs) :
    ∃ q' rest, qs = q' :: rest ∧ (F.lt F.zero q = false → F.lt F.zero q' = false) := by
  obtain ⟨sc, hsc, hlist⟩ := h
  obtain ⟨hfin, hpos, -⟩ := qratio_big eo r (by rw [hl]; exact List.mem_cons_self)
  rw [hl] at hlist
  cases hlist with
  | cons hfirst _ => exact ⟨_, _, rfl, fun hq => hfirst.not_pos hpos hfin (isCompressed_not_pos hq hsc)⟩

/-- The list has a first stage Q, which is not positive if the Q is not. -/
theorem isQList_first {eo : EffOrder} {q : F} {qs : List F} (heo : eo ≠ .o1) (h : IsQList eo q qs) :
    ∃ q' rest, qs = q' :: rest ∧ (F.lt F.zero q = false → F.lt F.zero q' = false) := by
  cases eo with
  | o1 => exact absurd rfl heo
  | o2 => exact ⟨q, [], h, id⟩
  | o4 => exact scaled_first (eo := .o4) rfl (isQList_row rfl h)
  | o6 => exact scaled_first (eo := .o6) rfl (isQList_row rfl h)
  | o8 => exact scaled_first (eo := .o8) rfl (isQList_row rfl h)

/-! ## The first stage of a plan -/

/-- The stages of a plan start at slot 0 at effective order 1, at slot 1 else, with the corner `f` and a Q that is not
positive if `q` is not. -/
def StartsAt (f q : F) (eo : EffOrder) (p : Plan) : Prop :=
  ∃ st rest, p.stages = st :: rest ∧
    if eo = .o1 then ∃ shape, st = .first .A shape f
    else ∃ shape q' g, st = .second .A 0 shape f q' g ∧ (F.lt F.zero q = false → F.lt F.zero q' = false)

/-- Stages that begin with a cascade in sub-cascade A. -/
theorem startsAt_cascade {f q g gpost : F} {eo : EffOrder} {qs : List F} (heo : eo ≠ .o1) (hqs : IsQList eo q qs)
    (shape : Shape2) (more : List PlannedStage) :
    StartsAt f q eo ⟨cascadeStages .A shape f g qs ++ more, gpost⟩ := by
  obtain ⟨q', rest, rfl, hq'⟩ := isQList_first heo hqs
  exact ⟨_, _, rfl, by rw [if_neg heo]; exact ⟨shape, q', g, rfl, hq'⟩⟩

theorem startsAt_cascade_only {f q g gpost : F} {eo : EffOrder} {qs : List F} (heo : eo ≠ .o1) (hqs : IsQList eo q qs)
    (shape : Shape2) : StartsAt f q eo ⟨cascadeStages .A shape f g qs, gpost⟩ := by
  have h := startsAt_cascade (g := g) (gpost := gpost) (f := f) heo hqs shape []
  rwa [List.append_nil] at h

theorem startsAt_first (f q : F) {eo : EffOrder} (heo : eo = .o1) (shape : Shape1) (more : List PlannedStage) (g : F) :
    StartsAt f q eo ⟨.first .A shape f :: more, g⟩ := ⟨_, _, rfl, by rw [if_pos heo]; exact ⟨shape, rfl⟩⟩

theorem passPlan_startsAt (shape1 : Shape1) (shape2 : Shape2) (f q : F) (eo : EffOrder) :
    Gives (passPlan shape1 shape2 f q eo) (StartsAt f q eo) := by
  refine gives_mono (gives_passPlan shape1 shape2 f q eo) fun p hp => ?_
  split at hp
  · exact hp ▸ startsAt_first f q ‹_› shape1 [] _
  · obtain ⟨qs, hqs, rfl⟩ := hp
    exact startsAt_cascade_only ‹_› hqs shape2

theorem shelfPlan_startsAt (shape : Shape2) (f gain q : F) {eo : EffOrder} (heo : eo ≠ .o1) :
    Gives (shelfPlan shape f gain q eo) (StartsAt f q eo) := by
  refine gives_mono (gives_shelfPlan shape f gain q eo) ?_
  rintro p ⟨qs, pg, hqs, -, rfl⟩
  exact startsAt_cascade_only heo hqs shape

/-- The plan of every kind but Mesa starts at the clamped corner. -/
theorem updatePlan_startsAt {kind : FilterKind} (hk : kind ≠ .mesa) (cfg : Config) (gain bw f q : F) (ord : BitVec 8) :
    Gives (updatePlan cfg gain bw kind f q (effOrder kind ord)) (StartsAt f q (effOrder kind ord)) := by
  cases kind with
  | mesa => exact absurd rfl hk
  | bell | notch | allPass =>
    exact gives_pure ⟨_, _, rfl, by rw [if_neg (effOrder_ne_o1 rfl ord)]; exact ⟨_, q, _, rfl, id⟩⟩
  | lowPass =>
    change Gives (planLowPass f q _) _
    rw [planLowPass_eq]
    exact passPlan_startsAt _ _ f q _
  | highPass =>
    change Gives (planHighPass f q _) _
    rw [planHighPass_eq]
    exact passPlan_startsAt _ _ f q _
  | lowShelf => exact shelfPlan_startsAt .lowShelf f gain q (effOrder_ne_o1 rfl ord)
  | highShelf => exact shelfPlan_startsAt .highShelf f gain q (effOrder_ne_o1 rfl ord)
  | bandPass =>
    refine gives_mono (gives_planBandPass f q _) fun p hp => ?_
    split at hp
    · exact hp ▸ startsAt_first f q ‹_› .highPass1 _ _
    · obtain ⟨qs, hqs, rfl⟩ := hp
      exact startsAt_cascade ‹_› hqs .highPass _
  | tilt =>
    refine gives_mono (gives_planTilt f gain q _) ?_
    rintro p ⟨tg, pg, hg, e, qs, -, -, hqs, -, -, rfl⟩
    exact startsAt_cascade_only (effOrder_ne_o1 rfl ord) hqs .highShelf

/-! ## Faults -/

/-- A plan whose build ends in a fault at a slot. -/
def PlanFaults (fs : F) (k : FaultCode) (slot : Slot) (p : Plan) : Prop :=
  Gives (buildStages fs p.stages) fun r => r = .error (k, slot)

/-- An update of any kind whose plan faults answers the fault with the slot's number. -/
theorem faults_of_plan {s : State} {kind : FilterKind} {b : BitVec 4} {band : Band} {ord : BitVec 8} {bwf : Bool}
    {freq gain bw fs : F} {k : FaultCode} {slot : Slot} (hr : UpdateReaches s kind b band ord bwf freq gain bw fs)
    (hp : ∀ q, IsUpdateQ bwf bw q →
      Gives (updatePlan s.cfg gain bw kind (clampFreq freq) q (effOrder kind ord)) (PlanFaults fs k slot)) :
    ∃ d, exec (updateInstr kind b ord bwf freq gain bw fs) s =
      .next (State.raise { s with draws := d } (updateInstr kind b ord bwf freq gain bw fs).header k
        (slot.number.setWidth 16)) := by
  refine faults_of_builds (exec_updateInstr ..) updateInstr_header hr ?_
  refine gives_bind (gives_updateQ bwf bw) fun q hq => gives_bind (hp q hq) fun p hpl => ?_
  exact gives_bind hpl fun r hr => by rw [hr]; exact gives_pure rfl

/-- A list of stages whose first faults. -/
theorem buildStages_fault {fs : F} {st : PlannedStage} {k : FaultCode} (h : buildStage fs st = pure (.error k))
    (rest : List PlannedStage) : Gives (buildStages fs (st :: rest)) fun r => r = .error (k, st.slot) := by
  rw [buildStages_cons, h]
  exact gives_pure rfl

theorem StartsAt.corner_faults {f q fs : F} {eo : EffOrder} {p : Plan} {k : FaultCode} (h : StartsAt f q eo p)
    (hk : CornerFault f fs k) : PlanFaults fs k (if eo = .o1 then .first .A else .second .A 0) p := by
  obtain ⟨hfirst, hsecond⟩ := buildStage_cornerFault hk
  obtain ⟨st, rest, hstages, hst⟩ := h
  rw [PlanFaults, hstages]
  split at hst
  · rw [if_pos ‹_›]
    obtain ⟨shape, rfl⟩ := hst
    exact buildStages_fault (hfirst _ _) rest
  · rw [if_neg ‹_›]
    obtain ⟨shape, q', g, rfl, -⟩ := hst
    exact buildStages_fault (hsecond _ _ _ _ _) rest

theorem StartsAt.q_faults {f q fs : F} {eo : EffOrder} {p : Plan} (h : StartsAt f q eo p) (heo : eo ≠ .o1)
    (hc : CornerLegal f fs) (hq : F.lt F.zero q = false) : PlanFaults fs .nonPositiveQ (.second .A 0) p := by
  obtain ⟨st, rest, hstages, hst⟩ := h
  rw [if_neg heo] at hst
  obtain ⟨shape, q', g, rfl, hq'⟩ := hst
  rw [PlanFaults, hstages]
  exact buildStages_fault (buildStage_qFault hc (hq' hq) _ _ _ _) rest

/-- A list that builds, then a stage that faults. -/
theorem buildStages_append_fault {fs : F} {l₁ l₂ : List PlannedStage} {P : List BuiltStage → Prop} {k : FaultCode}
    {slot : Slot} (h₁ : Builds (buildStages fs l₁) P) (h₂ : Gives (buildStages fs l₂) fun r => r = .error (k, slot)) :
    Gives (buildStages fs (l₁ ++ l₂)) fun r => r = .error (k, slot) := by
  rw [buildStages_append]
  refine gives_bind h₁ fun r ⟨a, _, hr⟩ => ?_
  rw [hr]
  exact gives_bind h₂ fun r hr => by rw [hr]; exact gives_pure rfl

/-- The plan of a Mesa: it starts at the lower corner, and where that builds the upper corner comes at slot 6. -/
theorem planMesa_faults {cfg : Config} {f gain bw q fs : F} {eo : EffOrder} (heo : eo ≠ .o1) :
    (∀ k, (∀ fa fb, IsMesaCorners f bw fa fb → CornerFault fa fs k) →
      Gives (planMesa cfg f gain bw q eo) (PlanFaults fs k (.second .A 0))) ∧
    ((∀ fa fb, IsMesaCorners f bw fa fb → CornerLegal fa fs) → F.lt F.zero q = false →
      Gives (planMesa cfg f gain bw q eo) (PlanFaults fs .nonPositiveQ (.second .A 0))) ∧
    ∀ k, (∀ fa fb, IsMesaCorners f bw fa fb → CornerLegal fa fs ∧ CornerFault fb fs k) → F.lt F.zero q = true →
      Gives (planMesa cfg f gain bw q eo) (PlanFaults fs k (.second .B 0)) := by
  have hplan := gives_planMesa cfg f gain bw q eo
  have hstart (fa fb ga gb e : F) (qs : List F) (hqs : IsQList eo q qs) : StartsAt fa q eo
      ⟨cascadeStages .A (shelfShape cfg.mesaShapeA) fa ga qs ++ cascadeStages .B (shelfShape cfg.mesaShapeB) fb gb qs,
        fPow10 e⟩ := startsAt_cascade heo hqs _ _
  refine ⟨fun k hk => gives_mono hplan ?_, fun hc hq => gives_mono hplan ?_, fun k hk hq => gives_mono hplan ?_⟩
  · rintro p ⟨fa, fb, ga, gb, e, qs, hcorners, hqs, -, -, -, rfl⟩
    have h := (hstart fa fb ga gb e qs hqs).corner_faults (hk fa fb hcorners)
    rwa [if_neg heo] at h
  · rintro p ⟨fa, fb, ga, gb, e, qs, hcorners, hqs, -, -, -, rfl⟩
    exact (hstart fa fb ga gb e qs hqs).q_faults heo (hc fa fb hcorners) hq
  · rintro p ⟨fa, fb, ga, gb, e, qs, hcorners, hqs, -, -, -, rfl⟩
    obtain ⟨hca, hfb⟩ := hk fa fb hcorners
    refine buildStages_append_fault (builds_qcascade hca hq hqs .A (shelfShape cfg.mesaShapeA) ga) ?_
    obtain ⟨q', rest, rfl, -⟩ := isQList_first heo hqs
    exact buildStages_fault ((buildStage_cornerFault hfb).2 _ _ _ _ _) _

/-- Settles O54: a fault at the slot where the plan starts, or where Mesa's second cascade does. -/
theorem updateFactoryFaults : Obligations.UpdateFactoryFaults := by
  unfold Obligations.UpdateFactoryFaults
  intro s b band ord bwf freq gain bw fs
  refine ⟨fun i hi hr => ?_, fun hr => ⟨fun k hk => ?_, fun hc hq => ?_, fun k hk hq => ?_⟩⟩
  · have hmem : i ∈ [FilterKind.bell, .lowPass, .highPass, .lowShelf, .highShelf, .notch, .bandPass, .tilt,
        .allPass].map fun kind => (updateInstr kind b ord bwf freq gain bw fs, kind) := hi
    obtain ⟨kind, hkind, rfl⟩ := List.mem_map.1 hmem
    have hne : kind ≠ .mesa := by
      rintro rfl
      exact absurd hkind (by decide)
    have hstart := fun q => updatePlan_startsAt hne s.cfg gain bw (clampFreq freq) q ord
    refine ⟨fun k hk => ?_, fun hc hq heo => ?_⟩
    · obtain ⟨d, hd⟩ := faults_of_plan hr fun q _ => gives_mono (hstart q) fun p hp => hp.corner_faults hk
      refine ⟨d, hd.trans ?_⟩
      dsimp only
      split <;> rfl
    · exact faults_of_plan (slot := .second .A 0) hr fun q hiq =>
        gives_mono (hstart q) fun p hp => hp.q_faults heo hc (hq q hiq)
  · exact faults_of_plan (kind := .mesa) (slot := .second .A 0) hr fun q _ =>
      (planMesa_faults (effOrder_ne_o1 rfl ord)).1 k hk
  · exact faults_of_plan (kind := .mesa) (slot := .second .A 0) hr fun q hiq =>
      (planMesa_faults (effOrder_ne_o1 rfl ord)).2.1 hc (hq q hiq)
  · exact faults_of_plan (kind := .mesa) (slot := .second .B 0) hr fun q hiq =>
      (planMesa_faults (effOrder_ne_o1 rfl ord)).2.2 k hk (hq q hiq)

end Sys2Proof.Machine
end

section
/-! The query side learns nothing of the stage state (20_memory.md R61): two machines that agree on what is published, and
one operation of the Q port on both. -/

namespace Sys2Proof.Machine

/-- What of a band the Q port can see (20_memory.md R61). -/
def Band.SeenAlike (a b : Band) : Prop := a.samePublished b ∧ a.prev.valid = b.prev.valid ∧ a.en = b.en

/-- Two machines that execute an operation of the Q port, and agree on everything but stage state, `prev`'s keys, the
responses sent and the draws. -/
structure SeenAlike (s₁ s₂ : State) : Prop where
  port₁ : s₁.port = .q
  port₂ : s₂.port = .q
  bands : List.Forall₂ Band.SeenAlike s₁.bands s₂.bands
  fault : s₁.fault = s₂.fault
  lastFault : s₁.lastFault = s₂.lastFault
  recomp : s₁.recomp = s₂.recomp
  fs : s₁.fs = s₂.fs
  cfg : s₁.cfg = s₂.cfg

/-- Each machine has sent one response on the Q port, the two alike, and the fault registers agree. -/
def AnswersAlike (s₁ s₂ t₁ t₂ : State) : Prop :=
  (∃ r₁ r₂, t₁.qOut = s₁.qOut ++ [r₁] ∧ t₂.qOut = s₂.qOut ++ [r₂] ∧ SameAnswer r₁ r₂) ∧ t₁.fault = t₂.fault ∧
    t₁.lastFault = t₂.lastFault

theorem State.respond_qOut {s : State} (hp : s.port = .q) (o : Opc) (n : BitVec 16) (v : List Word) :
    (s.respond o n v).qOut = s.qOut ++ [responseHeader o.byte 0 n :: v] := by
  have h := s.respond_out_port o n v
  rwa [hp] at h

theorem State.raise_qOut {s : State} (hp : s.port = .q) (h : Header) (k : FaultCode) (n : BitVec 16) :
    (s.raise h k n).qOut = s.qOut ++ [[responseHeader h.opc (faultStatus k) n]] := by
  have ho := s.raise_out_port h k n
  rwa [hp] at ho

section Answers

variable {s₁ s₂ : State}

theorem SeenAlike.draws (h : SeenAlike s₁ s₂) (d₁ d₂ : Nat) :
    SeenAlike { s₁ with draws := d₁ } { s₂ with draws := d₂ } :=
  ⟨h.port₁, h.port₂, h.bands, h.fault, h.lastFault, h.recomp, h.fs, h.cfg⟩

theorem SeenAlike.raise (h : SeenAlike s₁ s₂) (hd : Header) (k : FaultCode) (n : BitVec 16) :
    AnswersAlike s₁ s₂ (s₁.raise hd k n) (s₂.raise hd k n) := by
  refine ⟨⟨_, _, State.raise_qOut h.port₁ hd k n, State.raise_qOut h.port₂ hd k n, .refl _⟩, ?_, ?_⟩
  · rw [State.raise_fault, State.raise_fault, h.fault]
  · rw [State.raise_lastFault, State.raise_lastFault, h.port₁, h.port₂]

/-- One answer from both. -/
theorem SeenAlike.respond (h : SeenAlike s₁ s₂) (o : Opc) (n : BitVec 16) {v₁ v₂ : List Word} (hv : v₁ = v₂) :
    AnswersAlike s₁ s₂ (s₁.respond o n v₁) (s₂.respond o n v₂) := by
  subst hv
  refine ⟨⟨_, _, State.respond_qOut h.port₁ o n v₁, State.respond_qOut h.port₂ o n v₁, .refl _⟩, ?_, ?_⟩
  · rw [State.respond_fault, State.respond_fault, h.fault]
  · rw [State.respond_lastFault, State.respond_lastFault, h.lastFault]

/-- Answers whose values agree up to a NaN's bits. -/
theorem SeenAlike.respond_values (h : SeenAlike s₁ s₂) (o : Opc) (n : BitVec 16) {xs ys : List F}
    (hxy : List.Forall₂ SameF xs ys) :
    AnswersAlike s₁ s₂ (s₁.respond o n (fsWords xs)) (s₂.respond o n (fsWords ys)) := by
  refine ⟨⟨_, _, State.respond_qOut h.port₁ o n _, State.respond_qOut h.port₂ o n _, .inr ⟨_, xs, ys, rfl, rfl, hxy⟩⟩, ?_, ?_⟩
  · rw [State.respond_fault, State.respond_fault, h.fault]
  · rw [State.respond_lastFault, State.respond_lastFault, h.lastFault]

/-- A computation run by both, with results that are related. -/
theorem SeenAlike.compute (h : SeenAlike s₁ s₂) {α : Type} {R : α → α → Prop} {m₁ m₂ : FM α} (hm : Same R m₁ m₂)
    {k : α → State → State}
    (hk : ∀ a b (u₁ u₂ : State), R a b → SeenAlike u₁ u₂ → AnswersAlike u₁ u₂ (k a u₁) (k b u₂)) :
    AnswersAlike s₁ s₂ (s₁.compute m₁ k) (s₂.compute m₂ k) :=
  hk _ _ { s₁ with draws := (m₁ s₁.draws).2 } { s₂ with draws := (m₂ s₂.draws).2 } (hm _ _) (h.draws _ _)

/-- A computation run by both, whose values are answered. -/
theorem SeenAlike.compute_values (h : SeenAlike s₁ s₂) {α : Type} {m₁ m₂ : FM α} {values : α → List F}
    (hm : Same (fun a b => List.Forall₂ SameF (values a) (values b)) m₁ m₂) (o : Opc) (n : BitVec 16) :
    AnswersAlike s₁ s₂ (s₁.compute m₁ fun a s' => s'.respond o n (fsWords (values a)))
      (s₂.compute m₂ fun a s' => s'.respond o n (fsWords (values a))) :=
  h.compute hm fun _ _ _ _ hab hu => hu.respond_values o n hab

/-- A band that one machine has, the other has too. -/
theorem SeenAlike.onBand (h : SeenAlike s₁ s₂) (hd : Header) (b : BitVec 4) {k₁ k₂ : Band → State}
    (hk : ∀ a a', Band.SeenAlike a a' → AnswersAlike s₁ s₂ (k₁ a) (k₂ a')) :
    AnswersAlike s₁ s₂ (s₁.onBand hd b k₁) (s₂.onBand hd b k₂) := by
  have hlen := h.bands.length_eq
  cases h₁ : s₁.bands[b.toNat]? with
  | none =>
    have h₂ : s₂.bands[b.toNat]? = none := by
      rw [List.getElem?_eq_none_iff] at h₁ ⊢
      omega
    rw [State.onBand_none h₁, State.onBand_none h₂]
    exact h.raise hd .badBand 0
  | some a =>
    cases h₂ : s₂.bands[b.toNat]? with
    | none =>
      have hlt := (List.getElem?_eq_some_iff.1 h₁).1
      rw [List.getElem?_eq_none_iff] at h₂
      omega
    | some a' =>
      rw [State.onBand_some h₁, State.onBand_some h₂]
      exact hk a a' (forall₂_getElem? h.bands h₁ h₂)

end Answers

/-! ## What the read-back sees -/

theorem Band.SeenAlike.coef {a b : Band} (h : a.SeenAlike b) (sub : SubCascade) : a.coef sub = b.coef sub := by
  obtain ⟨⟨hA, hB, -⟩, -⟩ := h
  cases sub
  · exact hA
  · exact hB

theorem Band.SeenAlike.descriptor {a b : Band} (h : a.SeenAlike b) :
    descriptorWord a = descriptorWord b ∧ a.gpost = b.gpost ∧ a.fsUsed = b.fsUsed := by
  obtain ⟨⟨-, -, hkind, heo, hg, hf⟩, hvalid, hen⟩ := h
  exact ⟨by rw [descriptorWord, descriptorWord, hkind, heo, hvalid, hen], hg, hf⟩

theorem enableNumber_alike {l₁ l₂ : List Band} (h : List.Forall₂ Band.SeenAlike l₁ l₂) :
    enableNumber l₁ = enableNumber l₂ := by
  induction h with
  | nil => rfl
  | cons hab _ ih =>
    obtain ⟨-, -, hen⟩ := hab
    rw [enableNumber, enableNumber, hen, ih]

theorem SeenAlike.csrValue {s₁ s₂ : State} (h : SeenAlike s₁ s₂) (n : Csr) : csrValue s₁ n = csrValue s₂ n := by
  have hlen : s₁.nbands = s₂.nbands := h.bands.length_eq
  cases n with
  | id => rfl
  | config => rw [Machine.csrValue, Machine.csrValue, hlen]
  | enable => rw [Machine.csrValue, Machine.csrValue, enableView, enableView, enableNumber_alike h.bands]
  | fault => rw [Machine.csrValue, Machine.csrValue, h.fault]
  | lastFault => rw [Machine.csrValue, Machine.csrValue, h.lastFault]
  | recomp => rw [Machine.csrValue, Machine.csrValue, h.recomp]
  | fs => exact h.fs

/-! ## The operations of the Q port -/

section Operations

variable {s₁ s₂ : State}

theorem answerCoef2_legal {f0 fs q : F} (h : checkShape2 f0 fs q = none) (shape : Shape2) (gainDb : F) (s : State) :
    answerCoef2 shape f0 fs q gainDb s = s.compute (record2 shape f0 fs q gainDb) fun c s' =>
      s'.respond .coef 0 (fsWords c.toList) := by
  rw [answerCoef2, coef2, h]
  rfl

theorem answerCoef1_legal {f0 fs : F} (h : checkFrequency f0 fs = none) (shape : Shape1) (s : State) :
    answerCoef1 shape f0 fs s = s.compute (record1 shape f0 fs) fun c s' =>
      s'.respond .coef 0 (fsWords c.toList) := by
  rw [answerCoef1, coef1, h]
  rfl

theorem SeenAlike.coef2 (h : SeenAlike s₁ s₂) (shape : Shape2) (f0 fs q gainDb : F) :
    AnswersAlike s₁ s₂ (answerCoef2 shape f0 fs q gainDb s₁) (answerCoef2 shape f0 fs q gainDb s₂) := by
  cases hc : checkShape2 f0 fs q with
  | some k =>
    rw [answerCoef2_faults hc, answerCoef2_faults hc]
    exact h.raise _ k 0
  | none =>
    rw [answerCoef2_legal hc, answerCoef2_legal hc]
    exact h.compute_values (same_record2 shape f0 fs q gainDb) .coef 0

theorem SeenAlike.coef1 (h : SeenAlike s₁ s₂) (shape : Shape1) (f0 fs : F) :
    AnswersAlike s₁ s₂ (answerCoef1 shape f0 fs s₁) (answerCoef1 shape f0 fs s₂) := by
  cases hc : checkFrequency f0 fs with
  | some k =>
    have hk := (checkFrequency_some_iff f0 fs k).1 hc
    rw [answerCoef1_faults hk, answerCoef1_faults hk]
    exact h.raise _ k 0
  | none =>
    rw [answerCoef1_legal hc, answerCoef1_legal hc]
    exact h.compute_values (same_record1 shape f0 fs) .coef 0

/-- The same complex value, answered by both. -/
theorem SeenAlike.compute_complex (h : SeenAlike s₁ s₂) {m₁ m₂ : FM Complex64} (hm : Same SameC m₁ m₂) (o : Opc) :
    AnswersAlike s₁ s₂ (s₁.compute m₁ fun z s' => s'.respond o 0 (complexWords z))
      (s₂.compute m₂ fun z s' => s'.respond o 0 (complexWords z)) :=
  h.compute_values (values := fun z : Complex64 => [z.re, z.im])
    (fun d₁ d₂ => .cons (hm d₁ d₂).1 (.cons (hm d₁ d₂).2 .nil)) o 0

/-- The two machines answer a `POLEQ` alike: its checks look at the operands only. -/
theorem SeenAlike.poleq (h : SeenAlike s₁ s₂) (ord pole : BitVec 8) : ∃ t₁ t₂, execPoleq ord pole s₁ = .next t₁ ∧
    execPoleq ord pole s₂ = .next t₂ ∧ AnswersAlike s₁ s₂ t₁ t₂ := by
  refine ⟨_, _, rfl, rfl, ?_⟩
  split
  · exact h.raise _ _ _
  · split
    · exact h.raise _ _ _
    · refine h.compute (same_poleq ord.toNat pole.toNat) fun a b u₁ u₂ hab hu => ?_
      rw [hab.1]
      exact hu.respond_values .poleq _ (.cons hab.2 .nil)

/-- The two machines answer a `QDIST` alike. -/
theorem SeenAlike.qdist (h : SeenAlike s₁ s₂) (ord : BitVec 8) (q : F) : ∃ t₁ t₂, exec (.qdist ord q) s₁ = .next t₁ ∧
    exec (.qdist ord q) s₂ = .next t₂ ∧ AnswersAlike s₁ s₂ t₁ t₂ := by
  cases ho : qdistOrder ord with
  | none => exact ⟨_, _, exec_qdist_none ho q s₁, exec_qdist_none ho q s₂, h.raise _ _ _⟩
  | some eo =>
    exact ⟨_, _, exec_qdist_some ho q s₁, exec_qdist_some ho q s₂, h.compute_values (same_qdist eo q) .qdist _⟩

/-- Every operation, on the Q port, is answered alike. -/
theorem SeenAlike.exec (h : SeenAlike s₁ s₂) (i : Instr) :
    ∃ t₁ t₂, exec i s₁ = .next t₁ ∧ exec i s₂ = .next t₂ ∧ AnswersAlike s₁ s₂ t₁ t₂ := by
  by_cases hrt : i.opc.rtOnly = true
  · exact ⟨_, _, exec_portViolation h.port₁ hrt, exec_portViolation h.port₂ hrt, h.raise _ _ _⟩
  · cases i with
    | tick2 a1 a2 a3 m0 m1 m2 ic1eq ic2eq x =>
      refine ⟨_, _, rfl, rfl, h.compute_values (values := fun r : F × SVFState => [r.1, r.2.ic1eq, r.2.ic2eq]) ?_ .tick2 0⟩
      intro d₁ d₂
      obtain ⟨hy, h1, h2⟩ := same_tick2 ⟨F.zero, F.zero, a1, a2, a3, m0, m1, m2, F.zero⟩ (.refl ⟨ic1eq, ic2eq⟩) (.refl x) d₁ d₂
      exact .cons hy (.cons h1 (.cons h2 .nil))
    | tick1 a m0 m1 s0 x =>
      refine ⟨_, _, rfl, rfl, h.compute_values (values := fun r : F × F => [r.1, r.2]) ?_ .tick1 0⟩
      intro d₁ d₂
      obtain ⟨hy, hs⟩ := same_tick1 ⟨F.zero, a, m0, m1⟩ (.refl s0) (.refl x) d₁ d₂
      exact .cons hy (.cons hs .nil)
    | coefLp | coefHp | coefBp | coefNotch | coefAp | coefBell | coefLs | coefHs => exact ⟨_, _, rfl, rfl, h.coef2 _ _ _ _ _⟩
    | coefLp1 | coefHp1 => exact ⟨_, _, rfl, rfl, h.coef1 _ _ _⟩
    | poleq ord pole => exact h.poleq ord pole
    | qdist ord q => exact h.qdist ord q
    | bw2q bw =>
      exact ⟨_, _, rfl, rfl, h.compute (same_bw2q bw) fun _ _ _ _ hab hu => hu.respond_values .bw2q 0 (.cons hab .nil)⟩
    | hstage2 c f fs => exact ⟨_, _, rfl, rfl, h.compute_complex (same_h2 c f fs) .hstage2⟩
    | hstage1 c f fs => exact ⟨_, _, rfl, rfl, h.compute_complex (same_h1 c f fs) .hstage1⟩
    | bode b f =>
      exact ⟨_, _, rfl, rfl, h.onBand _ b fun _ _ hab => h.compute_complex (same_bandResponse hab.1 f) .bode⟩
    | rdcoef b slot =>
      refine ⟨_, _, rfl, rfl, h.onBand _ b fun a a' hab => ?_⟩
      cases slot with
      | first sub => exact h.respond .rdcoef 1 (by rw [hab.coef sub])
      | second sub i => exact h.respond .rdcoef 0 (by rw [hab.coef sub])
    | rdcsr n => exact ⟨_, _, rfl, rfl, h.respond .rdcsr 0 (by rw [h.csrValue n])⟩
    | rdband b =>
      refine ⟨_, _, rfl, rfl, h.onBand _ b fun a a' hab => ?_⟩
      obtain ⟨hword, hg, hf⟩ := hab.descriptor
      exact h.respond .rdband 0 (by rw [hword, hg, hf])
    | _ => exact absurd rfl hrt

end Operations

theorem SeenAlike.of_published {s₁ s₂ : State} {rest₁ rest₂ : List Input}
    (hb : List.Forall₂ (fun a b => Band.samePublished a b ∧ a.prev.valid = b.prev.valid ∧ a.en = b.en) s₁.bands s₂.bands)
    (hf : s₁.fault = s₂.fault) (hl : s₁.lastFault = s₂.lastFault) (hr : s₁.recomp = s₂.recomp) (hfs : s₁.fs = s₂.fs)
    (hc : s₁.cfg = s₂.cfg) : SeenAlike (s₁.accept .q rest₁) (s₂.accept .q rest₂) :=
  ⟨rfl, rfl, hb, hf, hl, hr, hfs, hc⟩

/-- Settles O38: the packet decodes alike on both machines, and the operation, or the fault, answers alike. -/
theorem qPortSeesNoStageState : Obligations.QPortSeesNoStageState := by
  unfold Obligations.QPortSeesNoStageState
  intro s₁ s₂ t₁ t₂ header ws rest₁ rest₂ hin₁ hin₂ hb hf hl hr hfs hc hs₁ hs₂
  have h : SeenAlike (s₁.accept .q rest₁) (s₂.accept .q rest₂) := .of_published hb hf hl hr hfs hc
  cases hd : decode s₁.cfg.maxBlock .q header ws with
  | error k =>
    rw [step_undecoded hin₁ hd] at hs₁
    rw [step_undecoded hin₂ (hc ▸ hd)] at hs₂
    cases hs₁
    cases hs₂
    exact h.raise _ k 0
  | ok i =>
    obtain ⟨u₁, u₂, he₁, he₂, ha⟩ := h.exec i
    rw [step_decoded hin₁ hd, he₁] at hs₁
    rw [step_decoded hin₂ (hc ▸ hd), he₂] at hs₂
    cases hs₁
    cases hs₂
    exact ha

end Sys2Proof.Machine
end

section
/-! The decoder's checks against the numbers of the spec (30_encoding.md R77, R79, R84; 60_exceptions.md R278), and that
the length R74 gives an operation is the one its operands need. -/

namespace Sys2Proof

/-! ## The lists of numbers -/

theorem Opc.mem_known_iff (v : BitVec 8) : v ∈ Opc.all.map Opc.byte ↔ ∃ o, v = Opc.byte o := by
  rw [List.mem_map]
  exact ⟨fun ⟨o, _, h⟩ => ⟨o, h.symm⟩, fun ⟨o, h⟩ => ⟨o, by cases o <;> decide, h.symm⟩⟩

theorem Opc.ofByte_eq_none {v : BitVec 8} (h : v ∉ Opc.all.map Opc.byte) : Opc.ofByte v = none := by
  cases ho : Opc.ofByte v with
  | none => rfl
  | some o => exact absurd ((Opc.mem_known_iff v).2 ⟨o, (Opc.byte_of_ofByte ho).symm⟩) h

theorem Opc.rtOnly_iff (o : Opc) :
    o.byte ∈ [0x20#8, 0x21#8, 0x22#8, 0x23#8, 0x24#8, 0x28#8, 0x29#8, 0x39#8] ↔ o.rtOnly = true := by
  cases o <;> decide

theorem Opc.allowedOn_eq_false_iff (o : Opc) (p : Port) : o.allowedOn p = false ↔
    p = .q ∧ o.byte ∈ [0x20#8, 0x21#8, 0x22#8, 0x23#8, 0x24#8, 0x28#8, 0x29#8, 0x39#8] := by
  rw [Opc.rtOnly_iff]
  cases p <;> simp [Opc.allowedOn]

theorem Opc.kindLegal_eq_false_iff (o : Opc) (kind : BitVec 4) : o.kindLegal kind = false ↔
    (o.byte = 0x10#8 ∧ kind ∈ [7#4, 8#4, 12#4, 13#4, 14#4, 15#4]) ∨ (o.byte = 0x20#8 ∧ 10#4 ≤ kind) := by
  cases o <;> revert kind <;> decide

theorem blockTooLong_iff (maxBlock : Nat) (o : Opc) (ws : List Word) : blockTooLong maxBlock o ws = true ↔
    o.byte = 0x29#8 ∧ ∃ n rest, ws = n :: rest ∧ maxBlock < n.toNat := by
  by_cases ho : o = .procb
  · subst ho
    cases ws with
    | nil => simp [blockTooLong]
    | cons n rest => simp [blockTooLong, Opc.byte]
  · have hbyte : o.byte ≠ 0x29#8 := fun h => ho (Opc.byte_injective (o' := .procb) h)
    have hblock : blockTooLong maxBlock o ws = false := by
      unfold blockTooLong
      split
      · exact absurd rfl ho
      · rfl
    simp [hbyte, hblock]

/-- `AUX` of an `UPDATE` (R78). -/
theorem aux_bwf_iff (aux : BitVec 8) : aux.extractLsb' 1 7 ≠ 0#7 ↔ 1#8 < aux := by
  revert aux; decide +kernel

/-- `AUX` of an `RDSTATE` (R78). -/
theorem aux_slot_channel_iff (aux : BitVec 8) : ¬(aux.extractLsb' 5 3 = 0#3 ∧ aux.extractLsb' 0 4 ≤ 9#4) ↔
    31#8 < aux ∨ 9 < aux.toNat % 16 := by
  revert aux; decide +kernel

theorem Opc.fieldsLegal_eq_false_iff (o : Opc) (h : Header) : o.fieldsLegal h = false ↔
    (o.byte ∉ [0x20#8, 0x21#8, 0x22#8, 0x23#8, 0x32#8, 0x38#8, 0x39#8, 0x3B#8] ∧ h.band ≠ 0) ∨
      (o.byte ∉ [0x10#8, 0x20#8] ∧ h.kind ≠ 0) ∨ (o.byte ∉ [0x18#8, 0x19#8, 0x20#8] ∧ h.ord ≠ 0) ∨
      (o.byte ∉ [0x18#8, 0x20#8, 0x38#8, 0x39#8, 0x3A#8] ∧ h.aux ≠ 0) ∨
      (o.byte = 0x20#8 ∧ 1#8 < h.aux) ∨ (o.byte = 0x38#8 ∧ 9#8 < h.aux) ∨
      (o.byte = 0x39#8 ∧ (31#8 < h.aux ∨ 9 < h.aux.toNat % 16)) ∨ (o.byte = 0x3A#8 ∧ 6#8 < h.aux) := by
  rw [← aux_bwf_iff, ← aux_slot_channel_iff]
  cases o <;> simp [Opc.fieldsLegal, Opc.byte] <;> tauto

/-! ## The length of a packet -/

/-- The operand words of an instruction are as many as R74 gives its header. -/
theorem Instr.operandWords_length {i : Instr} {maxBlock : Nat} (hwf : i.wf maxBlock = true) :
    i.operandWords.length = operandCount i.header (i.operandWords.headD 0) := by
  cases i with
  | procb frames =>
    simp only [Instr.wf, Bool.and_eq_true, decide_eq_true_eq] at hwf
    have hcount : (BitVec.ofNat 32 frames.length).toNat = frames.length := Nat.mod_eq_of_lt (by omega)
    change (fsWords (framesFlat frames)).length + 1 = 1 + 4 * (BitVec.ofNat 32 frames.length).toNat
    rw [hcount, fsWords_length, framesFlat_length]
    omega
  | _ => rfl

theorem exists_fsOfWords {ws : List Word} {n : Nat} (h : ws.length = 2 * n) :
    ∃ xs, fsOfWords ws = some xs ∧ xs.length = n := by
  have hsome : (fsOfWords ws).isSome = true := by
    rw [fsOfWords_isSome, decide_eq_true_eq]
    omega
  obtain ⟨xs, hxs⟩ := Option.isSome_iff_exists.1 hsome
  refine ⟨xs, hxs, ?_⟩
  have hlen := congrArg List.length (fsWords_of_fsOfWords hxs)
  rw [fsWords_length] at hlen
  omega

theorem exists_framesOf {xs : List F} {n : Nat} (h : xs.length = 2 * n) :
    ∃ frames, framesOf xs = some frames ∧ frames.length = n := by
  have hsome : (framesOf xs).isSome = true := by
    rw [framesOf_isSome, decide_eq_true_eq]
    omega
  obtain ⟨frames, hframes⟩ := Option.isSome_iff_exists.1 hsome
  refine ⟨frames, hframes, ?_⟩
  have hlen := congrArg List.length (framesFlat_of_framesOf hframes)
  rw [framesFlat_length] at hlen
  omega

theorem decodeProcb_of_length {n : Word} {rest : List Word} (h : rest.length = 4 * n.toNat) :
    ∃ i, decodeProcb (n :: rest) = some i := by
  obtain ⟨xs, hxs, hlen⟩ := exists_fsOfWords (ws := rest) (n := 2 * n.toNat) (by omega)
  obtain ⟨frames, hframes, hcount⟩ := exists_framesOf (n := n.toNat) hlen
  exact ⟨.procb frames, by simp [decodeProcb, hxs, hframes, hcount]⟩

/-- The legal `KIND`s of `COEF`, by how many operands they have. -/
theorem coefKind_cases {kind : BitVec 4} (hk : Opc.coef.kindLegal kind = true) :
    (kind.toNat = 0 ∨ kind.toNat = 3 ∨ kind.toNat = 4) ∨ (kind.toNat = 10 ∨ kind.toNat = 11) ∨
      kind.toNat = 1 ∨ kind.toNat = 2 ∨ kind.toNat = 5 ∨ kind.toNat = 6 ∨ kind.toNat = 9 := by
  revert kind; decide

/-- A `COEF` with as many operand words as R74 gives its `KIND`. -/
theorem decodeCoef_of_length {kind : BitVec 4} {ws : List Word} (hk : Opc.coef.kindLegal kind = true)
    (hl : ws.length = match kind.toNat with
      | 0 | 3 | 4 => 8
      | 10 | 11 => 4
      | _ => 6) : ∃ i, (fsOfWords ws).bind (decodeCoef kind) = some i := by
  unfold decodeCoef
  rcases coefKind_cases hk with h | h | h
  · have hl' : ws.length = 2 * 4 := by rcases h with h | h | h <;> rwa [h] at hl
    obtain ⟨xs, hxs, hlen⟩ := exists_fsOfWords hl'
    obtain ⟨_, _, _, _, rfl⟩ := List.length_eq_four.1 hlen
    rw [hxs]
    rcases h with h | h | h <;> exact ⟨_, by rw [h]; rfl⟩
  · have hl' : ws.length = 2 * 2 := by rcases h with h | h <;> rwa [h] at hl
    obtain ⟨xs, hxs, hlen⟩ := exists_fsOfWords hl'
    obtain ⟨_, _, rfl⟩ := List.length_eq_two.1 hlen
    rw [hxs]
    rcases h with h | h <;> exact ⟨_, by rw [h]; rfl⟩
  · have hl' : ws.length = 2 * 3 := by rcases h with h | h | h | h | h <;> rwa [h] at hl
    obtain ⟨xs, hxs, hlen⟩ := exists_fsOfWords hl'
    obtain ⟨_, _, _, rfl⟩ := List.length_eq_three.1 hlen
    rw [hxs]
    rcases h with h | h | h | h | h <;> exact ⟨_, by rw [h]; rfl⟩

theorem decodeUpdate_of_kind {h : Header} (hk : Opc.update.kindLegal h.kind = true) (freq gain bw fs : F) :
    ∃ i, decodeUpdate h freq gain bw fs = some i := by
  have hlt : h.kind.toNat < 10 := by simpa [Opc.kindLegal, BitVec.lt_def] using hk
  unfold decodeUpdate
  dsimp only
  generalize h.kind.toNat = n at hlt
  interval_cases n <;> exact ⟨_, rfl⟩

theorem slot_of_aux_le {aux : BitVec 8} (h : aux ≤ 9#8) : ∃ slot, Slot.ofNumber (aux.extractLsb' 0 4) = some slot := by
  rw [← Option.isSome_iff_exists]
  revert aux; decide +kernel

theorem slot_of_number_le {n : BitVec 4} (h : n ≤ 9#4) : ∃ slot, Slot.ofNumber n = some slot := by
  rw [← Option.isSome_iff_exists]
  revert n; decide

theorem csr_of_number_le {n : BitVec 8} (h : n ≤ 6#8) : ∃ c, Csr.ofNumber n = some c := by
  rw [← Option.isSome_iff_exists]
  revert n; decide +kernel

/-- A packet with legal fields and the length R74 gives it holds an instruction. -/
theorem decodeOperands_of_length {o : Opc} {h : Header} {ws : List Word} (ho : Opc.ofByte h.opc = some o)
    (hk : o.kindLegal h.kind = true) (hf : o.fieldsLegal h = true) (hl : ws.length = operandCount h (ws.headD 0)) :
    ∃ i, decodeOperands o h ws = some i := by
  rw [operandCount, ho] at hl
  cases o with
  | poleq | breset | enable | disable | rdband =>
    obtain rfl := List.length_eq_zero_iff.1 hl
    exact ⟨_, rfl⟩
  | rdcoef =>
    obtain rfl := List.length_eq_zero_iff.1 hl
    simp only [Opc.fieldsLegal, Bool.and_eq_true, decide_eq_true_eq] at hf
    obtain ⟨slot, hslot⟩ := slot_of_aux_le hf.2
    exact ⟨_, Option.map_eq_some_iff.2 ⟨slot, hslot, rfl⟩⟩
  | rdstate =>
    obtain rfl := List.length_eq_zero_iff.1 hl
    simp only [Opc.fieldsLegal, Bool.and_eq_true, decide_eq_true_eq] at hf
    obtain ⟨slot, hslot⟩ := slot_of_number_le hf.2
    exact ⟨_, Option.map_eq_some_iff.2 ⟨slot, hslot, rfl⟩⟩
  | rdcsr =>
    obtain rfl := List.length_eq_zero_iff.1 hl
    simp only [Opc.fieldsLegal, Bool.and_eq_true, decide_eq_true_eq] at hf
    obtain ⟨c, hc⟩ := csr_of_number_le hf.2
    exact ⟨_, Option.map_eq_some_iff.2 ⟨c, hc, rfl⟩⟩
  | procb =>
    cases ws with
    | nil => simp at hl
    | cons n rest => exact decodeProcb_of_length (by simp at hl; omega)
  | coef => exact decodeCoef_of_length hk hl
  | update =>
    obtain ⟨xs, hxs, hlen⟩ := exists_fsOfWords (n := 4) hl
    obtain ⟨freq, gain, bw, fs, rfl⟩ := List.length_eq_four.1 hlen
    obtain ⟨i, hi⟩ := decodeUpdate_of_kind hk freq gain bw fs
    exact ⟨i, by delta decodeOperands; dsimp only; rw [hxs]; exact hi⟩
  | qdist | bw2q | srate | bode =>
    obtain ⟨xs, hxs, hlen⟩ := exists_fsOfWords (n := 1) hl
    obtain ⟨_, rfl⟩ := List.length_eq_one_iff.1 hlen
    exact ⟨_, by delta decodeOperands; dsimp only; rw [hxs]⟩
  | proc =>
    obtain ⟨xs, hxs, hlen⟩ := exists_fsOfWords (n := 2) hl
    obtain ⟨_, _, rfl⟩ := List.length_eq_two.1 hlen
    exact ⟨_, by delta decodeOperands; dsimp only; rw [hxs]⟩
  | tick1 =>
    obtain ⟨xs, hxs, hlen⟩ := exists_fsOfWords (n := 5) hl
    match xs, hlen with
    | [_, _, _, _, _], _ => exact ⟨_, by delta decodeOperands; dsimp only; rw [hxs]⟩
  | hstage1 =>
    obtain ⟨xs, hxs, hlen⟩ := exists_fsOfWords (n := 6) hl
    match xs, hlen with
    | [_, _, _, _, _, _], _ => exact ⟨_, by delta decodeOperands; dsimp only; rw [hxs]⟩
  | tick2 =>
    obtain ⟨xs, hxs, hlen⟩ := exists_fsOfWords (n := 9) hl
    match xs, hlen with
    | [_, _, _, _, _, _, _, _, _], _ => exact ⟨_, by delta decodeOperands; dsimp only; rw [hxs]⟩
  | hstage2 =>
    obtain ⟨xs, hxs, hlen⟩ := exists_fsOfWords (n := 11) hl
    match xs, hlen with
    | [_, _, _, _, _, _, _, _, _, _, _], _ => exact ⟨_, by delta decodeOperands; dsimp only; rw [hxs]⟩

/-- A packet of the wrong length does not decode. -/
theorem decode_badLength {maxBlock : Nat} {p : Port} {header : Word} {ws : List Word}
    (hl : ws.length ≠ operandCount (Header.ofWord header) (ws.headD 0)) {i : Instr} :
    decode maxBlock p header ws ≠ .ok i := by
  intro h
  obtain ⟨o, ho, hacc, hd⟩ := accepted_of_decode h
  obtain ⟨hheader, hws, hopc⟩ := decodeOperands_inv (Opc.byte_of_ofByte ho).symm hacc.fields hd
  have hlen := Instr.operandWords_length (Instr.wf_of_decodeOperands hacc.block hd hopc)
  rw [hheader, hws] at hlen
  exact hl hlen

/-- An accepted packet of the wrong length holds no operands. -/
theorem decodeOperands_badLength {maxBlock : Nat} {p : Port} {o : Opc} {header : Word} {ws : List Word}
    (ho : Opc.ofByte (Header.ofWord header).opc = some o)
    (ha : PacketAccepted maxBlock p o (Header.ofWord header) ws)
    (hl : ws.length ≠ operandCount (Header.ofWord header) (ws.headD 0)) :
    decodeOperands o (Header.ofWord header) ws = none :=
  Option.eq_none_iff_forall_ne_some.2 fun _ hd => decode_badLength hl (decode_accepted ho ha hd)

/-- Settles O4: each check as the model makes it is the spec's list of numbers, and past them the length decides. -/
theorem decodeChecksInOrder : Obligations.DecodeChecksInOrder := by
  unfold Obligations.DecodeChecksInOrder
  intro maxBlock p header ws
  dsimp only
  refine ⟨fun h => decode_unknown (Opc.ofByte_eq_none h), ?_⟩
  by_cases hknown : (Header.ofWord header).opc ∈ Opc.all.map Opc.byte
  case neg =>
    exact ⟨(absurd · hknown), (absurd · hknown), (absurd · hknown), (absurd · hknown), (absurd · hknown)⟩
  case pos =>
    obtain ⟨o, hbyte⟩ := (Opc.mem_known_iff _).1 hknown
    have ho : Opc.ofByte (Header.ofWord header).opc = some o := by rw [hbyte, Opc.ofByte_byte]
    have hallowed := o.allowedOn_eq_false_iff p
    have hkind := o.kindLegal_eq_false_iff (Header.ofWord header).kind
    have hblock := blockTooLong_iff maxBlock o ws
    have hfields := o.fieldsLegal_eq_false_iff (Header.ofWord header)
    rw [← hbyte] at hallowed hkind hblock hfields
    have ok {b : Bool} {q : Prop} (h : b = false ↔ q) (hq : ¬q) : b = true := by
      rwa [← h, Bool.not_eq_false] at hq
    have short (h : ¬blockTooLong maxBlock o ws = true) : blockTooLong maxBlock o ws = false := by
      rwa [Bool.not_eq_true] at h
    refine ⟨fun _ hport => decode_notAllowed ho (hallowed.2 hport),
      fun _ hport hbad => decode_badKind ho (ok hallowed hport) (hkind.2 hbad),
      fun _ hport hbad hlong => decode_blockTooLong ho (ok hallowed hport) (ok hkind hbad) (hblock.2 hlong),
      fun _ hport hbad hlong hwrong => ?_, fun _ hport hbad hlong hlen hgood => ?_⟩
    · have hshort := short (mt hblock.1 hlong)
      cases hf : o.fieldsLegal (Header.ofWord header) with
      | false => exact decode_badFields ho (ok hallowed hport) (ok hkind hbad) hshort hf
      | true =>
        have hl := hwrong.resolve_right fun hbadFields => absurd (hfields.2 hbadFields) (by rw [hf]; decide)
        have ha : PacketAccepted maxBlock p o (Header.ofWord header) ws :=
          ⟨ok hallowed hport, ok hkind hbad, hshort, hf⟩
        exact decode_noOperands ho ha (decodeOperands_badLength ho ha hl)
    · have ha : PacketAccepted maxBlock p o (Header.ofWord header) ws :=
        ⟨ok hallowed hport, ok hkind hbad, short (mt hblock.1 hlong), ok hfields hgood⟩
      obtain ⟨i, hi⟩ := decodeOperands_of_length ho ha.kind ha.fields hlen
      exact ⟨i, decode_accepted ho ha hi⟩

/-- Settles O1: the decoder run on the eight packets. -/
theorem specPacketsDecode : Obligations.SpecPacketsDecode := by
  unfold Obligations.SpecPacketsDecode
  exact ⟨rfl, rfl, rfl, rfl, rfl, rfl, rfl, rfl⟩

end Sys2Proof
end

section
/-! The response laws in exact arithmetic (45_response_sampler.md R240). On the unit circle the bilinear map takes `z⁻¹` to
`s` = `-i*x` with `x` = `tan(π*f/fs)/g`, and the magnitude of a cascade is a function of `x` alone. -/

namespace Sys2Proof.Machine

open Filter Topology

/-! ## The evaluator on the unit circle -/

section UnitCircle

variable {g k x t : ℝ}

/-- The bilinear map on the unit circle, away from `z⁻¹` = -1. -/
theorem bilinear_unitCircle (hg : g ≠ 0) (hc : Real.cos t ≠ 0) (hx : x = Real.tan t / g) :
    (g : ℂ) * (1 + Complex.exp ((2 * t : ℝ) * Complex.I)) * (-(x * Complex.I)) =
      1 - Complex.exp ((2 * t : ℝ) * Complex.I) := by
  have hsin : g * Real.cos t * x = Real.sin t := by
    rw [hx, Real.tan_eq_sin_div_cos]
    field_simp
  rw [one_add_exp_two_mul, one_sub_exp_two_mul, ← hsin]
  push_cast
  ring

theorem one_add_exp_two_mul_ne_zero (hc : Real.cos t ≠ 0) : 1 + Complex.exp ((2 * t : ℝ) * Complex.I) ≠ 0 := by
  rw [one_add_exp_two_mul]
  exact mul_ne_zero (mul_ne_zero two_ne_zero (Complex.ofReal_ne_zero.2 hc)) (Complex.exp_ne_zero _)

theorem denominator_eq (k x : ℝ) : (-(x * Complex.I)) ^ 2 + k * (-(x * Complex.I)) + 1 =
    ((1 - x ^ 2 : ℝ) : ℂ) + ((-(k * x) : ℝ) : ℂ) * Complex.I := by
  push_cast
  linear_combination (x : ℂ) ^ 2 * Complex.I_sq

theorem norm_denominator (k x : ℝ) : ‖(-(x * Complex.I)) ^ 2 + k * (-(x * Complex.I)) + 1‖ =
    √((1 - x ^ 2) ^ 2 + (k * x) ^ 2) := by
  rw [denominator_eq, Complex.norm_add_mul_I, neg_sq]

/-- A damped stage has no pole on the imaginary axis. -/
theorem denominator_sq_pos (hk : 0 < k) (x : ℝ) : 0 < (1 - x ^ 2) ^ 2 + (k * x) ^ 2 := by
  rcases eq_or_ne x 0 with rfl | hx
  · norm_num
  · positivity

theorem denominator_ne_zero (hk : 0 < k) (x : ℝ) : (-(x * Complex.I)) ^ 2 + k * (-(x * Complex.I)) + 1 ≠ 0 := by
  rw [← norm_ne_zero_iff, norm_denominator]
  exact (Real.sqrt_pos.2 (denominator_sq_pos hk x)).ne'

theorem exactShape2_unitCircle (shape : Shape2) (amp : ℝ) (hg : g ≠ 0) (hk : 0 < k) (hc : Real.cos t ≠ 0)
    (hx : x = Real.tan t / g) :
    exactShape2 Complex.ofReal shape g k amp (Complex.exp ((2 * t : ℝ) * Complex.I)) =
      prototype shape (k : ℂ) amp (-(x * Complex.I)) := by
  rw [exactShape2_ofReal]
  exact exactH2_eq_prototype shape _ _ (Complex.ofReal_ne_zero.2 hg) (one_add_exp_two_mul_ne_zero hc)
    (bilinear_unitCircle hg hc hx) (denominator_ne_zero hk x)

theorem exactH1_unitCircle (m0 m1 : ℝ) (hg : g ≠ 0) (hc : Real.cos t ≠ 0) (hx : x = Real.tan t / g) :
    exactH1 Complex.ofReal (fun u => u⁻¹) g m0 m1 (Complex.exp ((2 * t : ℝ) * Complex.I)) =
      m0 + m1 / (-(x * Complex.I) + 1) := by
  rw [← exactH1_eq_analog (m0 : ℂ) m1 (Complex.ofReal_ne_zero.2 hg) (one_add_exp_two_mul_ne_zero hc)
    (bilinear_unitCircle hg hc hx)]
  simp [exactH1_eq]

theorem norm_one_sub_mul_I (x : ℝ) : ‖-(x * Complex.I) + 1‖ = √(1 + x ^ 2) := by
  have h : -(x * Complex.I) + 1 = ((1 : ℝ) : ℂ) + ((-x : ℝ) : ℂ) * Complex.I := by
    push_cast
    ring
  rw [h, Complex.norm_add_mul_I, one_pow, neg_sq]

theorem one_sub_mul_I_ne_zero (x : ℝ) : -(x * Complex.I) + 1 ≠ 0 := by
  rw [← norm_ne_zero_iff, norm_one_sub_mul_I]
  positivity

end UnitCircle

/-! ## The magnitude of a cascade -/

/-- The magnitude of a second-order LowPass stage at `s` = `-i*x`. -/
noncomputable def lowPassStage (k x : ℝ) : ℝ := 1 / √((1 - x ^ 2) ^ 2 + (k * x) ^ 2)

/-- The magnitude of a LowPass cascade at `s` = `-i*x`. -/
noncomputable def lowPassMag (eo : EffOrder) (qs : List ℝ) (x : ℝ) : ℝ :=
  if eo = .o1 then 1 / √(1 + x ^ 2) else (qs.map fun q => lowPassStage (1 / q) x).prod

theorem norm_prototype_lowPass (k x : ℝ) (amp : ℂ) :
    ‖prototype .lowPass (k : ℂ) amp (-(x * Complex.I))‖ = lowPassStage k x := by
  rw [prototype, norm_div, norm_one, norm_denominator, lowPassStage]

theorem norm_prototype_highPass (k x : ℝ) (amp : ℂ) :
    ‖prototype .highPass (k : ℂ) amp (-(x * Complex.I))‖ = |x| ^ 2 * lowPassStage k x := by
  rw [prototype, norm_div, norm_pow, norm_neg, norm_mul, Complex.norm_I, Complex.norm_real, Real.norm_eq_abs, mul_one,
    norm_denominator, lowPassStage, mul_one_div]

theorem prod_map_const_mul (c : ℝ) (f : ℝ → ℝ) (qs : List ℝ) :
    (qs.map fun q => c * f q).prod = c ^ qs.length * (qs.map f).prod := by
  rw [List.prod_map_mul, List.map_const', List.prod_replicate]

theorem EffOrder.two_mul_stages {eo : EffOrder} (h : eo ≠ .o1) : 2 * eo.stages = eo.toNat := by
  cases eo with
  | o1 => exact absurd rfl h
  | o2 | o4 | o6 | o8 => rfl

section Cascade

variable {g t x : ℝ} {eo : EffOrder} {qs : List ℝ}

/-- The magnitude of a cascade of one shape. -/
theorem norm_prod_exactShape2 {shape : Shape2} {f : ℝ → ℝ} (hq : ∀ q ∈ qs, 0 < q) (hg : g ≠ 0)
    (hc : Real.cos t ≠ 0) (hx : x = Real.tan t / g)
    (hf : ∀ k : ℝ, ‖prototype shape (k : ℂ) ((1 : ℝ) : ℂ) (-(x * Complex.I))‖ = f k) :
    ‖(qs.map fun q => exactShape2 Complex.ofReal shape g (1 / q) 1
      (Complex.exp ((2 * t : ℝ) * Complex.I))).prod‖ = (qs.map fun q => f (1 / q)).prod := by
  rw [List.norm_prod, List.map_map]
  congr 1
  refine List.map_congr_left fun q hqmem => ?_
  rw [Function.comp_apply, exactShape2_unitCircle shape 1 hg (one_div_pos.2 (hq q hqmem)) hc hx, hf]

theorem norm_exactLowPass (hq : ∀ q ∈ qs, 0 < q) (hg : g ≠ 0) (hc : Real.cos t ≠ 0) (hx : x = Real.tan t / g) :
    ‖exactLowPass Complex.ofReal g eo qs (Complex.exp ((2 * t : ℝ) * Complex.I))‖ = lowPassMag eo qs x := by
  unfold exactLowPass lowPassMag
  split
  · rw [exactH1_unitCircle 0 1 hg hc hx, Complex.ofReal_zero, zero_add, Complex.ofReal_one, norm_div, norm_one,
      norm_one_sub_mul_I]
  · exact norm_prod_exactShape2 hq hg hc hx fun k => norm_prototype_lowPass k x _

/-- HighPass is LowPass times `s^eo`. -/
theorem norm_exactHighPass (hl : qs.length = eo.stages) (hq : ∀ q ∈ qs, 0 < q) (hg : g ≠ 0) (hc : Real.cos t ≠ 0)
    (hx : x = Real.tan t / g) :
    ‖exactHighPass Complex.ofReal g eo qs (Complex.exp ((2 * t : ℝ) * Complex.I))‖ =
      |x| ^ eo.toNat * lowPassMag eo qs x := by
  unfold exactHighPass lowPassMag
  split
  next h =>
    have hvalue : ((1 : ℝ) : ℂ) + ((-1 : ℝ) : ℂ) / (-(x * Complex.I) + 1) =
        -(x * Complex.I) / (-(x * Complex.I) + 1) := by
      rw [add_div' _ _ _ (one_sub_mul_I_ne_zero x)]
      push_cast
      ring
    rw [exactH1_unitCircle 1 (-1) hg hc hx, hvalue, norm_div, norm_one_sub_mul_I, norm_neg, norm_mul, Complex.norm_I,
      Complex.norm_real, Real.norm_eq_abs, mul_one, h, EffOrder.toNat, pow_one, mul_one_div]
  next h =>
    rw [norm_prod_exactShape2 hq hg hc hx fun k => norm_prototype_highPass k x _,
      prod_map_const_mul (|x| ^ 2) fun q => lowPassStage (1 / q) x, ← pow_mul, hl, EffOrder.two_mul_stages h]

/-! ## The magnitude as a function of `x` -/

theorem lowPassStage_pos {k : ℝ} (hk : 0 < k) (x : ℝ) : 0 < lowPassStage k x :=
  one_div_pos.2 (Real.sqrt_pos.2 (denominator_sq_pos hk x))

theorem lowPassMag_pos (hq : ∀ q ∈ qs, 0 < q) (x : ℝ) : 0 < lowPassMag eo qs x := by
  unfold lowPassMag
  split
  · positivity
  · refine List.prod_pos fun y hy => ?_
    obtain ⟨q, hqmem, rfl⟩ := List.mem_map.1 hy
    exact lowPassStage_pos (one_div_pos.2 (hq q hqmem)) x

theorem continuous_lowPassStage {k : ℝ} (hk : 0 < k) : Continuous (lowPassStage k) := by
  unfold lowPassStage
  exact continuous_const.div (by fun_prop) fun x => (Real.sqrt_pos.2 (denominator_sq_pos hk x)).ne'

theorem continuous_lowPassMag (hq : ∀ q ∈ qs, 0 < q) : Continuous (lowPassMag eo qs) := by
  unfold lowPassMag
  split
  · exact continuous_const.div (by fun_prop) fun x => by positivity
  · exact continuous_list_prod qs fun q hqmem => continuous_lowPassStage (one_div_pos.2 (hq q hqmem))

/-- At DC a LowPass passes everything. -/
theorem lowPassMag_zero : lowPassMag eo qs 0 = 1 := by
  have hstage (k : ℝ) : lowPassStage k 0 = 1 := by simp [lowPassStage]
  unfold lowPassMag
  split
  · simp
  · simp [hstage]

/-- At the corner. -/
theorem lowPassMag_one (hq : ∀ q ∈ qs, 0 < q) : lowPassMag eo qs 1 = if eo = .o1 then 1 / √2 else qs.prod := by
  unfold lowPassMag
  split
  · norm_num
  · have hstage : ∀ q ∈ qs, lowPassStage (1 / q) 1 = id q := fun q hqmem => by
      have hk := one_div_pos.2 (hq q hqmem)
      simp [lowPassStage, Real.sqrt_sq (hq q hqmem).le]
    rw [List.map_congr_left hstage, List.map_id]

/-- Reflecting the frequency at the corner turns a LowPass stage into a HighPass stage. -/
theorem lowPassStage_inv (k : ℝ) (hx : 0 < x) : lowPassStage k x⁻¹ = x ^ 2 * lowPassStage k x := by
  have h : (1 - x⁻¹ ^ 2) ^ 2 + (k * x⁻¹) ^ 2 = ((1 - x ^ 2) ^ 2 + (k * x) ^ 2) / (x ^ 2) ^ 2 := by
    field_simp
    ring
  rw [lowPassStage, lowPassStage, h, Real.sqrt_div' _ (by positivity), Real.sqrt_sq (by positivity), one_div_div,
    mul_one_div]

theorem lowPassMag_inv (hl : qs.length = eo.stages) (hx : 0 < x) :
    lowPassMag eo qs x⁻¹ = x ^ eo.toNat * lowPassMag eo qs x := by
  unfold lowPassMag
  split
  next h =>
    have hsq : 1 + x⁻¹ ^ 2 = (1 + x ^ 2) / x ^ 2 := by
      field_simp
      ring
    rw [hsq, Real.sqrt_div' _ (by positivity), Real.sqrt_sq hx.le, one_div_div, h, EffOrder.toNat, pow_one, mul_one_div]
  next h =>
    simp only [lowPassStage_inv _ hx]
    rw [prod_map_const_mul (x ^ 2) fun q => lowPassStage (1 / q) x, ← pow_mul, hl, EffOrder.two_mul_stages h]

/-- Toward DC a LowPass no longer changes. -/
theorem tendsto_lowPassMag_div {α : Type} {l : Filter α} {u v : α → ℝ} {a b : ℝ} (hq : ∀ q ∈ qs, 0 < q)
    (hu : Tendsto u l (𝓝 a)) (hv : Tendsto v l (𝓝 b)) :
    Tendsto (fun i => lowPassMag eo qs (u i) / lowPassMag eo qs (v i)) l
      (𝓝 (lowPassMag eo qs a / lowPassMag eo qs b)) :=
  have hcont := continuous_lowPassMag (eo := eo) hq
  ((hcont.tendsto a).comp hu).div ((hcont.tendsto b).comp hv) (lowPassMag_pos hq b).ne'

/-- Far above its corner a LowPass falls by `2^eo` an octave: its reflection is constant near DC. -/
theorem tendsto_lowPassMag_octave (hl : qs.length = eo.stages) (hq : ∀ q ∈ qs, 0 < q) :
    Tendsto (fun x => lowPassMag eo qs x / lowPassMag eo qs (2 * x)) atTop (𝓝 (2 ^ eo.toNat)) := by
  have hdouble : Tendsto (fun x : ℝ => (2 * x)⁻¹) atTop (𝓝 0) :=
    tendsto_inv_atTop_zero.comp (tendsto_id.const_mul_atTop two_pos)
  have hlim := (tendsto_lowPassMag_div (eo := eo) hq tendsto_inv_atTop_zero hdouble).const_mul (2 ^ eo.toNat)
  rw [lowPassMag_zero, div_one, mul_one] at hlim
  refine hlim.congr' ?_
  filter_upwards [eventually_gt_atTop 0] with x hx
  have hpos := (lowPassMag_pos (eo := eo) hq (2 * x)).ne'
  rw [lowPassMag_inv hl hx, lowPassMag_inv hl (by positivity), mul_pow]
  field_simp

end Cascade

/-! ## The tangent near zero -/

theorem tendsto_tan_div : Tendsto (fun u => Real.tan u / u) (𝓝[≠] 0) (𝓝 1) := by
  have h := (Real.hasDerivAt_tan (x := 0) (by simp)).tendsto_slope
  simp only [Real.cos_zero, one_pow, div_one] at h
  refine h.congr fun u => ?_
  rw [slope_def_field, Real.tan_zero, sub_zero, sub_zero]

theorem tendsto_tan_mul_div {a b : ℝ} (ha : a ≠ 0) (hb : b ≠ 0) :
    Tendsto (fun u => Real.tan (a * u) / Real.tan (b * u)) (𝓝[≠] 0) (𝓝 (a / b)) := by
  have hscale {c : ℝ} (hc : c ≠ 0) : Tendsto (fun u => Real.tan (c * u) / (c * u)) (𝓝[≠] 0) (𝓝 1) := by
    refine tendsto_tan_div.comp (tendsto_nhdsWithin_iff.2 ⟨?_, ?_⟩)
    · exact ((continuous_const_mul c).tendsto' 0 0 (mul_zero c)).mono_left nhdsWithin_le_nhds
    · filter_upwards [self_mem_nhdsWithin] with u hu using mul_ne_zero hc hu
  have hlim := ((hscale ha).div (hscale hb) one_ne_zero).const_mul (a / b)
  rw [div_one, mul_one] at hlim
  refine hlim.congr' ?_
  filter_upwards [self_mem_nhdsWithin] with u hu
  have hu0 : u ≠ 0 := hu
  rw [Pi.div_apply]
  field_simp

/-- With the sample rate growing, the bilinear map keeps the ratio of two frequencies. -/
theorem tendsto_tan_div_tan_atTop {f f0 : ℝ} (hf : 0 < f) (hf0 : 0 < f0) :
    Tendsto (fun fs => Real.tan (Real.pi * f / fs) / Real.tan (Real.pi * f0 / fs)) atTop (𝓝 (f / f0)) := by
  have hpi := Real.pi_ne_zero
  have hlim := (tendsto_tan_mul_div (mul_ne_zero hpi hf.ne') (mul_ne_zero hpi hf0.ne')).comp
    (tendsto_inv_atTop_nhdsGT_zero.mono_right (nhdsWithin_mono 0 fun _ h => ne_of_gt h))
  rwa [mul_div_mul_left _ _ hpi] at hlim

/-! ## The laws -/

/-- `z⁻¹` at `f`, by the angle `π*f/fs` of the bilinear map. -/
theorem zinv_eq (f fs : ℝ) : Complex.exp ((2 * Real.pi * f / fs : ℝ) * Complex.I) =
    Complex.exp ((2 * (Real.pi * f / fs) : ℝ) * Complex.I) := by
  congr 3
  ring

/-- Below half the sample rate the angle is below a right angle. -/
theorem angle_mem {f fs : ℝ} (hf : 0 < f) (hfs : 2 * f < fs) :
    0 < Real.pi * f / fs ∧ Real.pi * f / fs < Real.pi / 2 := by
  have hpi := Real.pi_pos
  refine ⟨div_pos (mul_pos hpi hf) (by linarith), ?_⟩
  rw [div_lt_div_iff₀ (by linarith) two_pos]
  nlinarith

theorem cos_angle_ne_zero {f fs : ℝ} (hf : 0 < f) (hfs : 2 * f < fs) : Real.cos (Real.pi * f / fs) ≠ 0 := by
  obtain ⟨hpos, hlt⟩ := angle_mem hf hfs
  exact (Real.cos_pos_of_mem_Ioo ⟨by linarith, hlt⟩).ne'

theorem tan_angle_pos {f fs : ℝ} (hf : 0 < f) (hfs : 2 * f < fs) : 0 < Real.tan (Real.pi * f / fs) :=
  Real.tan_pos_of_pos_of_lt_pi_div_two (angle_mem hf hfs).1 (angle_mem hf hfs).2

section Laws

variable {f0 fs : ℝ} (hf0 : 0 < f0) (hfs : 2 * f0 < fs)
include hf0 hfs

/-- A record at its own frequency, where `s` = `-i`. -/
theorem exactShape2_at_corner (shape : Shape2) {k : ℝ} (amp : ℝ) (hk : 0 < k) :
    exactShape2 Complex.ofReal shape (Real.tan (Real.pi * f0 / fs)) k amp
      (Complex.exp ((2 * Real.pi * f0 / fs : ℝ) * Complex.I)) = prototype shape (k : ℂ) amp (-Complex.I) := by
  have hg := (tan_angle_pos hf0 hfs).ne'
  rw [zinv_eq, exactShape2_unitCircle (x := 1) shape amp hg hk (cos_angle_ne_zero hf0 hfs) (div_self hg).symm,
    Complex.ofReal_one, one_mul]

/-- R240 (a). -/
theorem norm_bell_at_corner {q gain amp : ℝ} (hq : 0 < q) (hamp : amp = 10 ^ (gain / 40)) :
    ‖exactShape2 Complex.ofReal .bell (Real.tan (Real.pi * f0 / fs)) (1 / (q * amp)) amp
      (Complex.exp ((2 * Real.pi * f0 / fs : ℝ) * Complex.I))‖ = 10 ^ (gain / 20) := by
  have hpos : 0 < amp := hamp ▸ Real.rpow_pos_of_pos (by norm_num) _
  have hk : 0 < 1 / (q * amp) := by positivity
  have hks : ((1 / (q * amp) : ℝ) : ℂ) * -Complex.I ≠ 0 :=
    mul_ne_zero (Complex.ofReal_ne_zero.2 hk.ne') (neg_ne_zero.2 Complex.I_ne_zero)
  have hvalue : prototype .bell ((1 / (q * amp) : ℝ) : ℂ) (amp : ℂ) (-Complex.I) = (amp : ℂ) ^ 2 := by
    rw [prototype, neg_sq, Complex.I_sq, mul_right_comm, neg_add_cancel_comm, neg_add_cancel_comm,
      mul_div_cancel_left₀ _ hks]
  rw [exactShape2_at_corner hf0 hfs .bell amp hk, hvalue, norm_pow, Complex.norm_real, Real.norm_of_nonneg hpos.le, hamp,
    ← Real.rpow_natCast, ← Real.rpow_mul (by norm_num)]
  congr 1
  push_cast
  ring

/-- R240 (b). -/
theorem notch_at_corner {q : ℝ} (hq : 0 < q) :
    exactShape2 Complex.ofReal .notch (Real.tan (Real.pi * f0 / fs)) (1 / q) 1
      (Complex.exp ((2 * Real.pi * f0 / fs : ℝ) * Complex.I)) = 0 := by
  rw [exactShape2_at_corner hf0 hfs .notch 1 (one_div_pos.2 hq)]
  simp [prototype]

/-- R240 (c): numerator and denominator are conjugates; at `z⁻¹` = -1 only `m0` is left. -/
theorem norm_allPass {q : ℝ} (f : ℝ) (hq : 0 < q) :
    ‖exactShape2 Complex.ofReal .allPass (Real.tan (Real.pi * f0 / fs)) (1 / q) 1
      (Complex.exp ((2 * Real.pi * f / fs : ℝ) * Complex.I))‖ = 1 := by
  have hg := (tan_angle_pos hf0 hfs).ne'
  have hk := one_div_pos.2 hq
  rw [zinv_eq]
  by_cases hc : Real.cos (Real.pi * f / fs) = 0
  · have hw : Complex.exp ((2 * (Real.pi * f / fs) : ℝ) * Complex.I) = -1 := by
      have h := one_add_exp_two_mul (Real.pi * f / fs)
      rw [hc, Complex.ofReal_zero, mul_zero, zero_mul] at h
      linear_combination h
    rw [hw, exactShape2_ofReal, exactShape2, neg_mul_neg, one_mul, exactH2_at_neg_one]
    exact norm_one
  · rw [exactShape2_unitCircle .allPass 1 hg hk hc rfl, prototype, norm_div]
    have hconj (x : ℝ) : (-(x * Complex.I)) ^ 2 - ((1 / q : ℝ) : ℂ) * (-(x * Complex.I)) + 1 =
        (-(((-x : ℝ) : ℂ) * Complex.I)) ^ 2 + ((1 / q : ℝ) : ℂ) * (-(((-x : ℝ) : ℂ) * Complex.I)) + 1 := by
      push_cast
      ring
    rw [hconj, norm_denominator, norm_denominator, neg_sq, mul_neg, neg_sq]
    exact div_self (Real.sqrt_pos.2 (denominator_sq_pos hk _)).ne'

/-- R240 (d), LowPass. -/
theorem norm_exactLowPass_at_corner (eo : EffOrder) {qs : List ℝ} (hq : ∀ q ∈ qs, 0 < q) :
    ‖exactLowPass Complex.ofReal (Real.tan (Real.pi * f0 / fs)) eo qs
      (Complex.exp ((2 * Real.pi * f0 / fs : ℝ) * Complex.I))‖ = if eo = .o1 then 1 / √2 else qs.prod := by
  have hg := (tan_angle_pos hf0 hfs).ne'
  rw [zinv_eq, norm_exactLowPass hq hg (cos_angle_ne_zero hf0 hfs) (div_self hg).symm, lowPassMag_one hq]

/-- R240 (d), HighPass. -/
theorem norm_exactHighPass_at_corner {eo : EffOrder} {qs : List ℝ} (hl : qs.length = eo.stages)
    (hq : ∀ q ∈ qs, 0 < q) :
    ‖exactHighPass Complex.ofReal (Real.tan (Real.pi * f0 / fs)) eo qs
      (Complex.exp ((2 * Real.pi * f0 / fs : ℝ) * Complex.I))‖ = if eo = .o1 then 1 / √2 else qs.prod := by
  have hg := (tan_angle_pos hf0 hfs).ne'
  rw [zinv_eq, norm_exactHighPass hl hq hg (cos_angle_ne_zero hf0 hfs) (div_self hg).symm, lowPassMag_one hq, abs_one,
    one_pow, one_mul]

/-- R240 (e), HighPass: toward DC the LowPass factor is constant and `s^eo` falls with the frequency. -/
theorem tendsto_exactHighPass_octave {eo : EffOrder} {qs : List ℝ} (hl : qs.length = eo.stages)
    (hq : ∀ q ∈ qs, 0 < q) :
    Tendsto (fun f => ‖exactHighPass Complex.ofReal (Real.tan (Real.pi * f0 / fs)) eo qs
        (Complex.exp ((2 * Real.pi * f / fs : ℝ) * Complex.I))‖ /
      ‖exactHighPass Complex.ofReal (Real.tan (Real.pi * f0 / fs)) eo qs
        (Complex.exp ((2 * Real.pi * (f / 2) / fs : ℝ) * Complex.I))‖) (𝓝[>] 0) (𝓝 (2 ^ eo.toNat)) := by
  have hgpos := tan_angle_pos hf0 hfs
  have hfspos : 0 < fs := by linarith
  set g := Real.tan (Real.pi * f0 / fs)
  have hratio : Tendsto (fun f => Real.tan (Real.pi * f / fs) / Real.tan (Real.pi * (f / 2) / fs)) (𝓝[>] 0) (𝓝 2) := by
    have hlim := (tendsto_tan_mul_div (a := Real.pi / fs) (b := Real.pi / (2 * fs)) (by positivity)
      (by positivity)).mono_left (nhdsWithin_mono 0 fun _ h => ne_of_gt h : 𝓝[>] (0 : ℝ) ≤ 𝓝[≠] 0)
    have htwo : Real.pi / fs / (Real.pi / (2 * fs)) = 2 := by field_simp
    rw [htwo] at hlim
    refine hlim.congr fun f => ?_
    congr 2 <;> ring
  have hzero {c : ℝ} : Tendsto (fun f => Real.tan (Real.pi * (f * c) / fs) / g) (𝓝[>] 0) (𝓝 0) := by
    have hcont : ContinuousAt (fun f => Real.tan (Real.pi * (f * c) / fs) / g) 0 :=
      ((Real.continuousAt_tan.2 (by simp)).comp (by fun_prop)).div_const g
    simpa using hcont.tendsto.mono_left nhdsWithin_le_nhds
  have hlim := (hratio.pow eo.toNat).mul
    (tendsto_lowPassMag_div (eo := eo) hq (hzero (c := 1)) (hzero (c := 1 / 2)))
  rw [lowPassMag_zero, div_one, mul_one] at hlim
  refine hlim.congr' ?_
  filter_upwards [Ioo_mem_nhdsGT (show (0 : ℝ) < fs / 2 by linarith)] with f ⟨hfpos, hflt⟩
  have ht := tan_angle_pos hfpos (show 2 * f < fs by linarith)
  have hthalf := tan_angle_pos (half_pos hfpos) (show 2 * (f / 2) < fs by linarith)
  rw [zinv_eq, zinv_eq, norm_exactHighPass hl hq hgpos.ne' (cos_angle_ne_zero hfpos (by linarith)) rfl,
    norm_exactHighPass hl hq hgpos.ne' (cos_angle_ne_zero (half_pos hfpos) (by linarith)) rfl,
    abs_of_pos (div_pos ht hgpos), abs_of_pos (div_pos hthalf hgpos), mul_one, mul_one_div, mul_div_mul_comm, ← div_pow,
    div_div_div_cancel_right₀ hgpos.ne']

end Laws

/-- R240 (e), LowPass: with the sample rate growing `x` tends to `f/f0`, and far above the corner an octave is `2^eo`. -/
theorem exactLowPass_octave {f0 ε : ℝ} {eo : EffOrder} {qs : List ℝ} (hf0 : 0 < f0) (hε : 0 < ε)
    (hl : qs.length = eo.stages) (hq : ∀ q ∈ qs, 0 < q) :
    ∀ᶠ f in atTop, ∀ᶠ fs in atTop,
      |‖exactLowPass Complex.ofReal (Real.tan (Real.pi * f0 / fs)) eo qs
          (Complex.exp ((2 * Real.pi * f / fs : ℝ) * Complex.I))‖ /
        ‖exactLowPass Complex.ofReal (Real.tan (Real.pi * f0 / fs)) eo qs
          (Complex.exp ((2 * Real.pi * (2 * f) / fs : ℝ) * Complex.I))‖ - 2 ^ eo.toNat| < ε := by
  have hnear := ((tendsto_lowPassMag_octave hl hq).comp (tendsto_id.atTop_div_const hf0)).eventually
    (Metric.ball_mem_nhds _ hε)
  filter_upwards [hnear, eventually_gt_atTop 0] with f hf hfpos
  have hlim := tendsto_lowPassMag_div (eo := eo) hq (tendsto_tan_div_tan_atTop hfpos hf0)
    (tendsto_tan_div_tan_atTop (mul_pos two_pos hfpos) hf0)
  rw [mul_div_assoc] at hlim
  filter_upwards [hlim.eventually (Metric.isOpen_ball.mem_nhds hf), eventually_gt_atTop (2 * f0),
    eventually_gt_atTop (2 * (2 * f))] with fs hclose hf0lt hflt
  have hg := (tan_angle_pos hf0 hf0lt).ne'
  rw [zinv_eq, zinv_eq, norm_exactLowPass hq hg (cos_angle_ne_zero hfpos (by linarith)) rfl,
    norm_exactLowPass hq hg (cos_angle_ne_zero (mul_pos two_pos hfpos) hflt) rfl]
  exact hclose

/-- Settles O42: the magnitudes are functions of `tan(π*f/fs)/g`, taken at 1, toward 0 and toward infinity. -/
theorem responseLaws : Obligations.ResponseLaws := by
  unfold Obligations.ResponseLaws
  refine ⟨fun f0 fs hf0 hfs => ⟨fun q gain hq amp hamp => norm_bell_at_corner hf0 hfs hq hamp,
    fun q hq => notch_at_corner hf0 hfs hq, fun q f hq => norm_allPass hf0 hfs f hq, fun eo qs hl hq =>
      ⟨norm_exactLowPass_at_corner hf0 hfs eo hq, norm_exactHighPass_at_corner hf0 hfs hl hq,
        tendsto_exactHighPass_octave hf0 hfs hl hq⟩⟩,
    fun f0 ε eo qs hf0 hε hl hq => exactLowPass_octave hf0 hε hl hq⟩

end Sys2Proof.Machine
end
